-- ==== Sys2Proof/Word.lean ====
section
/-!
DEFINITION. The word types of the block: bytes of the streams and FIFOs, 16-bit dimensions, 32-bit registers and
command words, 12-bit LZW codes (R9, R12, R13, R24).
-/

namespace Sys2Proof

/-- A byte of a stream or a FIFO; also a pixel index (R8: `PIXEL_BITS` is 8). -/
abbrev Byte := BitVec 8

/-- A 16-bit dimension or position (R8: `DIM_BITS` is 16). -/
abbrev Half := BitVec 16

/-- A 32-bit register or command word (R24, R84). -/
abbrev Word := BitVec 32

/-- An LZW code: an unsigned number below 4096 (R12). -/
abbrev Code := BitVec 12

/-- The free-code counter and the Clear, EOF and first free codes, 13 bits wide (R54, R56). -/
abbrev Counter := BitVec 13

/-- A bit accumulator: 19 bits hold every pending bit (R13, R55, R57, R114). Log entry 9. -/
abbrev Acc := BitVec 19

end Sys2Proof
end

