-- ==== Sys2Proof/Syntax.lean ====
section
/-!
DEFINITION. The instructions of the block: one constructor per row of the opcode map (R87), each with the operand
fields of its format (R85, R86).
-/

namespace Sys2Proof

/-- The commands of the block. Every other operand comes from the DIN FIFO, never from the word (R86). -/
inductive Instr where
  /-- `RESET SEL`, format S (R184): `sel` bit 0 selects the reader, bit 1 the writer. -/
  | reset (sel : BitVec 2)
  /-- `R_OPEN`, format N (R153). -/
  | rOpen
  /-- `R_NEXT`, format N (R156). -/
  | rNext
  /-- `R_EXT`, format N (R158). -/
  | rExt
  /-- `R_EXT_BLOCK`, format N (R159). -/
  | rExtBlock
  /-- `R_IMAGE`, format N (R161). -/
  | rImage
  /-- `R_PIXELS COUNT`, format C (R164). -/
  | rPixels (count : BitVec 24)
  /-- `W_OPEN V89A`, format V (R169): 0 names `GIF87a`, 1 names `GIF89a`. -/
  | wOpen (v89a : BitVec 1)
  /-- `W_EXT IMM8`, format B (R172): the function code. -/
  | wExt (imm8 : Byte)
  /-- `W_EXT_BLOCK IMM8`, format B (R173): the sub-block length. -/
  | wExtBlock (imm8 : Byte)
  /-- `W_EXT_END`, format N (R174). -/
  | wExtEnd
  /-- `W_IMAGE`, format N (R175). -/
  | wImage
  /-- `W_PIXELS COUNT`, format C (R179). -/
  | wPixels (count : BitVec 24)
  /-- `W_TRAILER`, format N (R181). -/
  | wTrailer
  deriving DecidableEq, Repr

end Sys2Proof
end

