-- ==== Sys2Proof/WellFormed.lean ====
section
/-!
DEFINITION. Which instructions have a legal encoding. The operand types leave one check: `RESET` with SEL = 0 is
illegal (R88, R89).
-/

namespace Sys2Proof

/-- The instruction has a legal command word. A `W_EXT_BLOCK` of length 0 has one: it is rejected when it runs
(R173), not by the decoder. -/
def Instr.wf : Instr → Bool
  | .reset sel => sel != 0#2
  | .rOpen => true
  | .rNext => true
  | .rExt => true
  | .rExtBlock => true
  | .rImage => true
  | .rPixels _ => true
  | .wOpen _ => true
  | .wExt _ => true
  | .wExtBlock _ => true
  | .wExtEnd => true
  | .wImage => true
  | .wPixels _ => true
  | .wTrailer => true

end Sys2Proof
end

