-- ==== Sys2Proof/Decode.lean ====
section
/-!
DEFINITION. Decoding a command word (R84 to R90), total on every 32-bit word and refusing an illegal one by name; then
the encoder, written from the same formats.
-/

namespace Sys2Proof

/-- Why a word is no legal command (R88, R89). Whatever the reason, the block answers IllegalCommand (R186). -/
inductive Illegal where
  /-- The opcode is not in the opcode map. -/
  | reservedOpcode
  /-- A must-be-zero bit of the format is 1. -/
  | mustBeZero
  /-- `RESET` that selects no channel. -/
  | selectsNothing
  deriving DecidableEq, Repr

/-- The decoder's answer. -/
inductive Decoded where
  /-- A legal command. -/
  | instr (i : Instr)
  /-- An illegal word, and why. -/
  | illegal (why : Illegal)
  deriving DecidableEq, Repr

/-- `OP`, bits [31:24] (R84). -/
def fieldOp (w : Word) : Nat := (w.extractLsb' 24 8).toNat

/-- `IMM8`, bits [7:0] (R86). -/
def fieldImm8 (w : Word) : Byte := w.extractLsb' 0 8

/-- `COUNT`, bits [23:0] (R86). -/
def fieldCount (w : Word) : BitVec 24 := w.extractLsb' 0 24

/-- `V89A`, bit 0 (R86). -/
def fieldV89a (w : Word) : BitVec 1 := w.extractLsb' 0 1

/-- `SEL`, bits [1:0] (R86). -/
def fieldSel (w : Word) : BitVec 2 := w.extractLsb' 0 2

/-- Format N: bits [23:0] must be zero (R85). -/
def formatN (w : Word) (i : Instr) : Decoded :=
  if w.extractLsb' 0 24 = 0#24 then .instr i else .illegal .mustBeZero

/-- Format B: bits [23:8] must be zero (R85). -/
def formatB (w : Word) (i : Byte → Instr) : Decoded :=
  if w.extractLsb' 8 16 = 0#16 then .instr (i (fieldImm8 w)) else .illegal .mustBeZero

/-- Format C: no must-be-zero bit (R85). -/
def formatC (w : Word) (i : BitVec 24 → Instr) : Decoded :=
  .instr (i (fieldCount w))

/-- Format V: bits [23:1] must be zero (R85). -/
def formatV (w : Word) (i : BitVec 1 → Instr) : Decoded :=
  if w.extractLsb' 1 23 = 0#23 then .instr (i (fieldV89a w)) else .illegal .mustBeZero

/-- Format S: bits [23:2] must be zero, and SEL must not be 0 (R85, R88). -/
def formatS (w : Word) (i : BitVec 2 → Instr) : Decoded :=
  if w.extractLsb' 2 22 = 0#22 then
    if fieldSel w = 0#2 then .illegal .selectsNothing else .instr (i (fieldSel w))
  else .illegal .mustBeZero

/-- `Decode(word)` (R88), by the opcode map of R87. -/
def decode (w : Word) : Decoded :=
  match fieldOp w with
  | 0x01 => formatS w .reset
  | 0x10 => formatN w .rOpen
  | 0x11 => formatN w .rNext
  | 0x12 => formatN w .rExt
  | 0x13 => formatN w .rExtBlock
  | 0x14 => formatN w .rImage
  | 0x15 => formatC w .rPixels
  | 0x20 => formatV w .wOpen
  | 0x21 => formatB w .wExt
  | 0x22 => formatB w .wExtBlock
  | 0x23 => formatN w .wExtEnd
  | 0x24 => formatN w .wImage
  | 0x25 => formatC w .wPixels
  | 0x26 => formatN w .wTrailer
  | _ => .illegal .reservedOpcode

/-- The opcode of each command (R87). -/
def opcode : Instr → Nat
  | .reset _ => 0x01
  | .rOpen => 0x10
  | .rNext => 0x11
  | .rExt => 0x12
  | .rExtBlock => 0x13
  | .rImage => 0x14
  | .rPixels _ => 0x15
  | .wOpen _ => 0x20
  | .wExt _ => 0x21
  | .wExtBlock _ => 0x22
  | .wExtEnd => 0x23
  | .wImage => 0x24
  | .wPixels _ => 0x25
  | .wTrailer => 0x26

/-- The operand field, bits [23:0], of each command (R85, R86). -/
def operand : Instr → Nat
  | .reset sel => sel.toNat
  | .rOpen => 0
  | .rNext => 0
  | .rExt => 0
  | .rExtBlock => 0
  | .rImage => 0
  | .rPixels count => count.toNat
  | .wOpen v89a => v89a.toNat
  | .wExt imm8 => imm8.toNat
  | .wExtBlock imm8 => imm8.toNat
  | .wExtEnd => 0
  | .wImage => 0
  | .wPixels count => count.toNat
  | .wTrailer => 0

/-- The command word `(OP << 24) | operand` (R109). -/
def encode (i : Instr) : Word :=
  BitVec.ofNat 32 (opcode i) <<< 24 ||| BitVec.ofNat 32 (operand i)

/-- The instruction read from a word numbered as the opcode table numbers it; a command is one 32-bit word (R90), so
there is nothing above `nbits` but zeros and no byte order to settle (R73). -/
def decodeTableWord (nbits w : Nat) : Option Instr :=
  match decode (BitVec.ofNat 32 (w % 2 ^ nbits)) with
  | .instr i => some i
  | .illegal _ => none

end Sys2Proof
end

