-- ==== Sys2Proof/Machine/State.lean ====
section
/-!
DEFINITION. The state of the block as plain data: STATUS, the two channels with their FIFOs and stream ports, and what
the host still has to do; the values after reset; the reasons a step can stop; the result of a command's body.
-/

namespace Sys2Proof.Machine

/-- The status codes (R191). Codes 10 to 15 are reserved and never written (U9). -/
inductive Status where
  | ok
  | notAGifFile
  | corruptData
  | unexpectedEndOfData
  | invalidSequence
  | outOfRange
  | ioError
  | outOfMemory
  | rasterOverflow
  | illegalCommand
  deriving DecidableEq, Repr

/-- R_STATE, the reader's position in the grammar (R31). -/
inductive RState where
  | idle
  | top
  | extCode
  | extData
  | imgDesc
  | pixels
  | done
  | failed
  deriving DecidableEq, Repr

/-- W_STATE, the writer's position in the grammar (R45). -/
inductive WState where
  | idle
  | top
  | extData
  | pixels
  | done
  | failed
  deriving DecidableEq, Repr

/-- R_REC_TYPE, the kind of the last top-level record introducer (R37). -/
inductive RecType where
  | none
  | extension
  | image
  | trailer
  deriving DecidableEq, Repr

/-- What the environment answers one `SrcByte()` (R66). `atEnd` is the answer End. `never` is the source that does not
answer, a hang (U5, R217). Log entries 1 and 3. -/
inductive SrcAnswer where
  | byte (b : Byte)
  | atEnd
  | error
  | never
  deriving DecidableEq, Repr

/-- What the environment answers one `SinkByte(b)` (R67). `never` is the sink that does not answer (U5, R217).
Log entries 2 and 3. -/
inductive SinkAnswer where
  | ok
  | error
  | never
  deriving DecidableEq, Repr

/-- One move of the host or of the platform around the block. Register offsets are within the block's 4 KiB window
(R65, R76). Log entries 5, 16 and 17. -/
inductive HostMove where
  /-- A 32-bit write of a register (R24, R74). -/
  | write (offset : BitVec 12) (value : Word)
  /-- A 32-bit read of a register (R24, R74). -/
  | read (offset : BitVec 12)
  /-- SIN is connected to a stream that will answer so (R209, U17). -/
  | connectSource (answers : List SrcAnswer)
  /-- SOUT is connected to a sink that has received nothing and will answer so (R209). -/
  | connectSink (answers : List SinkAnswer)
  /-- Power-on reset (R206, R207). -/
  | powerOn
  deriving DecidableEq, Repr

/-- A channel's row tracker (R59). -/
structure RowTracker where
  row : Half
  col : Half
  pass : BitVec 3
  w : Half
  h : Half
  il : BitVec 1
  deriving DecidableEq, Repr

/-- A dictionary entry of the decompressor: `D_prefix[c]` and `D_suffix[c]` (R56). -/
structure DEntry where
  pfx : Code
  sfx : Byte
  deriving DecidableEq, Repr

/-- A pair of the compressor's dictionary and the code assigned to it (R54). -/
structure CEntry where
  pfx : Code
  pixel : Byte
  code : Code
  deriving DecidableEq, Repr

/-- The reader channel: its registers (R31 to R44), decompressor (R56), unpacker (R57), row tracker (R59), the DOUT
FIFO (R69) and its side of SIN (R66). -/
structure Reader where
  state : RState
  err : Status
  version : BitVec 1
  scrW : Half
  scrH : Half
  scrPacked : Byte
  bg : Byte
  aspect : Byte
  recType : RecType
  extCode : Byte
  subLen : Byte
  imgLeft : Half
  imgTop : Half
  imgW : Half
  imgH : Half
  imgPacked : Byte
  codeSize : Byte
  pixRemain : Word
  rows : RowTracker
  /-- `D_b` -/
  dB : BitVec 4
  /-- `D_clear` -/
  dClear : Counter
  /-- `D_eof` -/
  dEof : Counter
  /-- `D_first` -/
  dFirst : Counter
  /-- `D_w`, which R_CODEWIDTH shows (R44) -/
  dW : BitVec 4
  /-- `D_free`, which R_FREE shows (R44) -/
  dFree : Counter
  /-- `D_prev`, `none` for NONE -/
  dPrev : Option Code
  /-- `D_prefix` and `D_suffix`: the entry of code `D_first + k` at place `k`; unassigned entries are not held
  (R56, D39, log entry 8) -/
  dDict : List DEntry
  /-- `D_pend` -/
  dPend : List Byte
  /-- `D_done` -/
  dDone : Bool
  /-- `U_acc` -/
  uAcc : Acc
  /-- `U_cnt` -/
  uCnt : Nat
  /-- `U_left` -/
  uLeft : Byte
  /-- `U_end` -/
  uEnd : Bool
  /-- the DOUT FIFO, oldest byte first -/
  dout : List Byte
  /-- the answers SIN will give, next first; after them the source has ended (log entry 1) -/
  sin : List SrcAnswer
  /-- how many bytes of SIN have been read (R218) -/
  sinRead : Nat
  deriving DecidableEq, Repr

/-- The writer channel: its registers (R45 to R53), compressor (R54), packer (R55), row tracker (R59), the DIN FIFO
(R68) and its side of SOUT (R67). -/
structure Writer where
  state : WState
  err : Status
  version : BitVec 1
  gctBpp : BitVec 4
  imgW : Half
  imgH : Half
  imgPacked : Byte
  /-- W_BPP, which is also `C_bpp` (R50, R54, log entry 14) -/
  bpp : BitVec 4
  codeSize : Byte
  pixRemain : Word
  rows : RowTracker
  /-- `C_b` -/
  cB : BitVec 4
  /-- `C_clear` -/
  cClear : Counter
  /-- `C_eof` -/
  cEof : Counter
  /-- `C_first` -/
  cFirst : Counter
  /-- `C_w`, which W_CODEWIDTH shows (R53) -/
  cW : BitVec 4
  /-- `C_free`, which W_FREE shows (R53) -/
  cFree : Counter
  /-- `C_prefix`, `none` for NONE -/
  cPrefix : Option Code
  /-- `C_dict`, newest pair first -/
  cDict : List CEntry
  /-- `P_acc` -/
  pAcc : Acc
  /-- `P_cnt` -/
  pCnt : Nat
  /-- `P_buf` up to `P_len`, which is its length and which W_PENDING shows (R53, R55, log entry 8) -/
  pBuf : List Byte
  /-- the DIN FIFO, oldest byte first -/
  din : List Byte
  /-- the answers SOUT will give, next first; after them the sink accepts (log entry 2) -/
  sinkAnswers : List SinkAnswer
  /-- the bytes the sink holds, in order -/
  sout : List Byte
  /-- how many bytes the sink has refused: which free value comes next (U3, log entry 4) -/
  draws : Nat
  deriving DecidableEq, Repr

/-- The whole block and what stands around it. -/
structure State where
  /-- STATUS.LAST (R26) -/
  last : Status
  /-- STATUS.BUSY (R26); 0 in every state a run reaches (R214, log entry 6) -/
  busy : Bool
  reader : Reader
  writer : Writer
  /-- the host's moves still to come, next first (log entry 5) -/
  host : List HostMove
  /-- what the last register read returned (log entry 7) -/
  readData : Word
  deriving DecidableEq, Repr

/-- Why the machine is stuck. -/
inductive Fault where
  /-- Raised by a `SrcByte` that the source never answers (U5, R217): the command never completes. Safe: the hardware
  hangs too. -/
  | sourceNeverAnswers
  /-- Raised by a `SinkByte` that the sink never answers (U5, R217). Safe: the hardware hangs too. -/
  | sinkNeverAnswers
  /-- Raised when the decoding loop of R_PIXELS or R_IMAGE would read codes for ever without reading a byte, which
  needs a code width of 0: no run reaches it. Safe: the machine stops. Log entry 12. -/
  | commandNeverCompletes
  /-- Raised when the string walk of R139 meets a code that was never assigned, which no run reaches. Safe: the machine
  stops. Log entry 12. -/
  | dictionaryEntryUnassigned
  deriving DecidableEq, Repr

/-- Why a step has no meaning. -/
inductive Refusal where
  /-- Raised by `exec` for an instruction that has no meaning yet. Safe. -/
  | notModelled (mnemonic : String)
  /-- Raised by a DIN write or a DOUT read while STATUS.BUSY = 1, a breach of a host duty for which the spec has no
  move (R213, U11); no run reaches it. Safe. Log entry 6. -/
  | fifoAccessWhileBusy
  deriving DecidableEq, Repr

/-- How the body of a command (or a part of it) ends, on the channel `σ`: with a value, at a `raise E` which keeps
every effect made before it (R193), or not at all. -/
inductive Body (σ α : Type) where
  | ok (a : α) (c : σ)
  | raise (e : Status) (c : σ)
  | stuck (f : Fault)
  deriving DecidableEq, Repr

/-- The row tracker after reset (R63). -/
def RowTracker.reset : RowTracker :=
  { row := 0, col := 0, pass := 0, w := 0, h := 0, il := 0 }

/-- The reader after power-on (R24, R63), with no stream supplied yet. -/
def Reader.reset : Reader :=
  { state := .idle, err := .ok, version := 0, scrW := 0, scrH := 0, scrPacked := 0, bg := 0, aspect := 0,
    recType := .none, extCode := 0, subLen := 0, imgLeft := 0, imgTop := 0, imgW := 0, imgH := 0, imgPacked := 0,
    codeSize := 0, pixRemain := 0, rows := RowTracker.reset,
    dB := 0, dClear := 0, dEof := 0, dFirst := 0, dW := 0, dFree := 0, dPrev := none, dDict := [], dPend := [],
    dDone := false, uAcc := 0, uCnt := 0, uLeft := 0, uEnd := false, dout := [], sin := [], sinRead := 0 }

/-- The writer after power-on (R24, R63), with a sink that has received nothing. -/
def Writer.reset : Writer :=
  { state := .idle, err := .ok, version := 0, gctBpp := 0, imgW := 0, imgH := 0, imgPacked := 0, bpp := 0,
    codeSize := 0, pixRemain := 0, rows := RowTracker.reset,
    cB := 0, cClear := 0, cEof := 0, cFirst := 0, cW := 0, cFree := 0, cPrefix := none, cDict := [],
    pAcc := 0, pCnt := 0, pBuf := [], din := [], sinkAnswers := [], sout := [], draws := 0 }

/-- The machine right after power-on reset (R63, R207, R210). -/
def State.reset : State :=
  { last := .ok, busy := false, reader := Reader.reset, writer := Writer.reset, host := [], readData := 0 }

end Sys2Proof.Machine
end

