-- ==== Sys2Proof/Machine/Operands.lean ====
section
/-!
DEFINITION. The operand forms: command operands as numbers (R86), the fields of descriptors that stand in DIN or in the
stream (R14, R93 to R98, R154), the length of a color table (R95) and the two signatures (R73, R92).
-/

namespace Sys2Proof.Machine

/-- `COUNT` as a number of pixels, zero-extended (R86). -/
def countOperand (count : BitVec 24) : Nat := count.toNat

/-- `IMM8` as a sub-block length, zero-extended (R86). -/
def lengthOperand (imm8 : Byte) : Nat := imm8.toNat

/-- `SEL[0]`: RESET selects the reader (R184). -/
def selectsReader (sel : BitVec 2) : Bool := sel.getLsbD 0

/-- `SEL[1]`: RESET selects the writer (R184). -/
def selectsWriter (sel : BitVec 2) : Bool := sel.getLsbD 1

/-- Byte `i` of a descriptor. Log entry 15. -/
def byteOf (d : List Byte) (i : Nat) : Byte := d.getD i 0

/-- `U16(lo, hi)` (R14, R154): the earlier byte is bits [7:0]. -/
def u16 (lo hi : Byte) : Half := BitVec.ofNat 16 (lo.toNat + 256 * hi.toNat)

/-- The u16 field of a descriptor whose low byte is byte `i` (R70). -/
def u16At (d : List Byte) (i : Nat) : Half := u16 (byteOf d i) (byteOf d (i + 1))

/-- Bit 7 of a packed byte: a color table follows (R94, R98). -/
def hasTable (packed : Byte) : Bool := packed.getLsbD 7

/-- Bits [2:0] of a packed byte: the size exponent e of the table (R94, R98). -/
def tableExp (packed : Byte) : Nat := (packed.extractLsb' 0 3).toNat

/-- The number of bytes of the table a packed byte announces: `3 * 2^(e+1)`, or none (R95, R170). -/
def tableBytes (packed : Byte) : Nat :=
  if hasTable packed then 3 * 2 ^ (tableExp packed + 1) else 0

/-- The bits per pixel of the table a packed byte announces, e + 1, or 0 for no table (R48, R95). -/
def tableBpp (packed : Byte) : BitVec 4 :=
  if hasTable packed then BitVec.ofNat 4 (tableExp packed + 1) else 0#4

/-- Bit 6 of an image descriptor's packed byte: interlace (R98). -/
def interlaceBit (packed : Byte) : BitVec 1 := packed.extractLsb' 6 1

/-- The packed byte the writer writes: the reserved bits 4 and 3 cleared (R176). -/
def clearReserved (packed : Byte) : Byte := packed &&& 0xE7#8

/-- The bytes of `GIF87a` (R73). -/
def signature87 : List Byte := [0x47, 0x49, 0x46, 0x38, 0x37, 0x61]

/-- The bytes of `GIF89a` (R73). -/
def signature89 : List Byte := [0x47, 0x49, 0x46, 0x38, 0x39, 0x61]

/-- The signature a version bit names (R169). -/
def signatureOf (v89a : BitVec 1) : List Byte := if v89a = 1#1 then signature89 else signature87

/-- The raster length W x H, which 32 bits hold (R13, R162, R177). -/
def rasterLength (w h : Half) : Word := BitVec.ofNat 32 (w.toNat * h.toNat)

end Sys2Proof.Machine
end

