-- ==== Sys2Proof/Config.lean ====
section
/-!
DEFINITION. What the spec leaves to the platform or leaves free, as constants without a body, and the parameters the
spec fixes (R8).
-/

namespace Sys2Proof.Config

/-- The platform's base address of the register window, an open parameter (R76, U14). DESIGN CHOICE: its width, 32 bits,
which the spec does not give. Log entry 11. -/
opaque blockBase : Word

/-- FREE VALUE (U3, R67): whether the byte of the n-th refused `SinkByte` reached the sink all the same. Nothing in
the model says what it is; a statement that holds, holds for every such function. Log entry 4. -/
opaque refusedByteLanded : Nat → Bool

/-- `MAX_CODE_WIDTH` (R8). -/
def maxCodeWidth : Nat := 12

/-- `DICT_CODES` (R8): codes 0 to 4095. -/
def dictCodes : Nat := 4096

/-- `SUBBLOCK_MAX` (R8): data bytes per sub-block. -/
def subBlockMax : Nat := 255

end Sys2Proof.Config
end

