-- ==== Sys2Proof/Machine/Ops.lean ====
section
/-!
DEFINITION. The operations every command is built from: the ports SIN, SOUT, DIN and DOUT (R66 to R69), the ends of a
command (rejection R192, failure R193, completion R188) and the common command frame of each channel (R185).
-/

namespace Sys2Proof.Machine

/-- Go on with the value and the channel a part of a body ended with; a `raise` or a hang ends the whole command
(R11). -/
def Body.bind {σ α β : Type} (x : Body σ α) (f : α → σ → Body σ β) : Body σ β :=
  match x with
  | .ok a c => f a c
  | .raise e c => .raise e c
  | .stuck r => .stuck r

/-! ### Ports -/

/-- `SrcByte()` (R66): a byte is consumed; End fails with UnexpectedEndOfData and Error with IoError. -/
def srcByte (r : Reader) : Body Reader Byte :=
  match r.sin with
  | [] => .raise .unexpectedEndOfData r
  | .byte b :: rest => .ok b { r with sin := rest, sinRead := r.sinRead + 1 }
  | .atEnd :: rest => .raise .unexpectedEndOfData { r with sin := rest }
  | .error :: rest => .raise .ioError { r with sin := rest }
  | .never :: _ => .stuck .sourceNeverAnswers

/-- `n` bytes of SIN, in stream order. -/
def srcBytes : Nat → Reader → Body Reader (List Byte)
  | 0, r => .ok [] r
  | n + 1, r => (srcByte r).bind fun b r => (srcBytes n r).bind fun bs r => .ok (b :: bs) r

/-- `DoutPush(b)` (R69). -/
def doutPush (b : Byte) (r : Reader) : Reader :=
  { r with dout := r.dout ++ [b] }

/-- `n` times `DoutPush(SrcByte())` (R155, R159). -/
def copyBytes : Nat → Reader → Body Reader Unit
  | 0, r => .ok () r
  | n + 1, r => (srcByte r).bind fun b r => copyBytes n (doutPush b r)

/-- `n` times `SrcByte()`, the bytes discarded (R120). -/
def skipBytes : Nat → Reader → Body Reader Unit
  | 0, r => .ok () r
  | n + 1, r => (srcByte r).bind fun _ r => skipBytes n r

/-- The byte reached the sink. -/
def sinkTake (b : Byte) (w : Writer) : Writer :=
  { w with sout := w.sout ++ [b] }

/-- The sink answered Error: IoError. Whether the byte reached it is a free value (R67, U3). Log entry 4. -/
def sinkRefuse (b : Byte) (w : Writer) : Writer :=
  { w with
    sout := if Config.refusedByteLanded w.draws then w.sout ++ [b] else w.sout
    draws := w.draws + 1 }

/-- `SinkByte(b)` (R67). -/
def sinkByte (b : Byte) (w : Writer) : Body Writer Unit :=
  match w.sinkAnswers with
  | [] => .ok () (sinkTake b w)
  | .ok :: rest => .ok () (sinkTake b { w with sinkAnswers := rest })
  | .error :: rest => .raise .ioError (sinkRefuse b { w with sinkAnswers := rest })
  | .never :: _ => .stuck .sinkNeverAnswers

/-- `SinkByte` of each byte, in order. -/
def sinkBytes : List Byte → Writer → Body Writer Unit
  | [], w => .ok () w
  | b :: bs, w => (sinkByte b w).bind fun _ w => sinkBytes bs w

/-- `DinAt(i)`: the i-th oldest byte of DIN, read without removal; the checks use it only where DIN holds it.
Log entry 15. -/
def dinAt (i : Nat) (w : Writer) : Byte :=
  w.din.getD i 0

/-- `n` times `DinPop()` (R68): the oldest `n` bytes leave DIN. The caller has read them with `dinTake`. -/
def dinDrop (n : Nat) (w : Writer) : Writer :=
  { w with din := w.din.drop n }

/-- The oldest `n` bytes of DIN, in the order `DinPop()` gives them. -/
def dinTake (n : Nat) (w : Writer) : List Byte :=
  w.din.take n

/-! ### The ends of a command -/

/-- `reject E` (R192): nothing changes but STATUS.LAST. -/
def rejectWith (e : Status) (s : State) : State :=
  { s with last := e }

/-- What a `raise E` records in the reader (R193). -/
def failReader (e : Status) (r : Reader) : Reader :=
  { r with err := e, state := .failed }

/-- What a `raise E` records in the writer (R193). -/
def failWriter (e : Status) (w : Writer) : Writer :=
  { w with err := e, state := .failed }

/-- The end of a reader command: Ok when the body completes, the failure of R193 when it raises. -/
def endReader (s : State) : Body Reader Unit → Host.Outcome State Fault Refusal
  | .ok _ r => .next { s with reader := r, last := .ok }
  | .raise e r => .next { s with reader := failReader e r, last := e }
  | .stuck f => .fault f

/-- The end of a writer command: Ok when the body completes, the failure of R193 when it raises. -/
def endWriter (s : State) : Body Writer Unit → Host.Outcome State Fault Refusal
  | .ok _ w => .next { s with writer := w, last := .ok }
  | .raise e w => .next { s with writer := failWriter e w, last := e }
  | .stuck f => .fault f

/-- The common frame (R185) of a reader command: the sticky failure code (R195), the `require` line (R194), the
command's `reject` lines as `check`, then its body. -/
def readerCommand (need : RState) (check : Reader → Option Status) (body : Reader → Body Reader Unit)
    (s : State) : Host.Outcome State Fault Refusal :=
  if s.reader.state = .failed then .next (rejectWith s.reader.err s)
  else if s.reader.state = need then
    match check s.reader with
    | some e => .next (rejectWith e s)
    | none => endReader s (body s.reader)
  else .next (rejectWith .invalidSequence s)

/-- The common frame (R185) of a writer command. -/
def writerCommand (need : WState) (check : Writer → Option Status) (body : Writer → Body Writer Unit)
    (s : State) : Host.Outcome State Fault Refusal :=
  if s.writer.state = .failed then .next (rejectWith s.writer.err s)
  else if s.writer.state = need then
    match check s.writer with
    | some e => .next (rejectWith e s)
    | none => endWriter s (body s.writer)
  else .next (rejectWith .invalidSequence s)

/-- A command without `reject` lines of its own. -/
def noCheck {σ : Type} (_ : σ) : Option Status := none

/-! ### Reset -/

/-- The reader half of RESET (R184): every register, the decompressor, the unpacker and the tracker to 0, DOUT empty.
SIN is the environment's and stays where it is. -/
def resetReader (r : Reader) : Reader :=
  { Reader.reset with sin := r.sin, sinRead := r.sinRead }

/-- The writer half of RESET (R184): every register, the compressor, the packer and the tracker to 0, DIN empty.
SOUT is the environment's: the bytes it has received and the answers it will give stay. -/
def resetWriter (w : Writer) : Writer :=
  { Writer.reset with sinkAnswers := w.sinkAnswers, sout := w.sout, draws := w.draws }

end Sys2Proof.Machine
end

