-- ==== Sys2Proof/Machine/Control.lean ====
section
/-!
DEFINITION. The control family (46_control.md): RESET, the block's only system command (R190), and power-on reset.
-/

namespace Sys2Proof.Machine

/-- Both channels to their reset state. -/
def resetBoth (s : State) : State :=
  { s with reader := resetReader s.reader, writer := resetWriter s.writer }

/-- `RESET SEL` (R184): legal in every state of both channels, never failing. SEL = 0 has no legal word (R89), so no
step runs it; here it is IllegalCommand as everywhere. Log entry 19. -/
def execReset (sel : BitVec 2) (s : State) : Host.Outcome State Fault Refusal :=
  if sel = 0#2 then .next (rejectWith .illegalCommand s)
  else .next { s with
    reader := if selectsReader sel then resetReader s.reader else s.reader
    writer := if selectsWriter sel then resetWriter s.writer else s.writer
    last := .ok }

/-- Power-on reset has the effect of `RESET 3`, with BUSY = 0 (R207). Log entry 17. -/
def powerOnReset (s : State) : State :=
  { resetBoth s with last := .ok, busy := false }

end Sys2Proof.Machine
end

