-- ==== Sys2Proof/Machine/BitBuffer.lean ====
section
/-!
DEFINITION. The Bit/Code Buffer (41_bitbuffer.md): the packer of the writer (R113 to R117), the unpacker of the reader
(R118 to R120), and the growth of the code width that both directions share (R129, R143).
-/

namespace Sys2Proof.Machine

/-- The growth test on a free-code counter: one bit more once the counter has reached 2^w, up to 12 bits (R129, R131,
R143; 90_conflicts.md C1). -/
def grownWidth (free : Counter) (w : BitVec 4) : BitVec 4 :=
  if 2 ^ w.toNat ≤ free.toNat ∧ w.toNat < Config.maxCodeWidth then w + 1#4 else w

/-! ### Packer -/

/-- Writes a sub-block: its length byte, then its data bytes (R100). -/
def sinkSubBlock (bytes : List Byte) (w : Writer) : Body Writer Unit :=
  (sinkByte (BitVec.ofNat 8 bytes.length) w).bind fun _ w => sinkBytes bytes w

/-- `PutByte(x)` (R115): a sub-block goes out as soon as it holds 255 bytes. -/
def putByte (x : Byte) (w : Writer) : Body Writer Unit :=
  let w := { w with pBuf := w.pBuf ++ [x] }
  if w.pBuf.length = Config.subBlockMax then
    (sinkSubBlock w.pBuf w).bind fun _ w => .ok () { w with pBuf := [] }
  else .ok () w

/-- The low byte of an accumulator. -/
def accByte (a : Acc) : Byte := a.setWidth 8

/-- The `while` loop of WriteCode (R113). The first number bounds its turns: each takes 8 bits of `P_cnt`. -/
def packBytes : Nat → Writer → Body Writer Unit
  | 0, w => .ok () w
  | n + 1, w =>
    if 8 ≤ w.pCnt then
      (putByte (accByte w.pAcc) w).bind fun _ w =>
        packBytes n { w with pAcc := w.pAcc >>> 8, pCnt := w.pCnt - 8 }
    else .ok () w

/-- `WriteCode(c, w)` (R113): the low `width` bits of `c` above the pending bits, then every full byte. -/
def writeCode (c width : Nat) (w : Writer) : Body Writer Unit :=
  let w := { w with
    pAcc := w.pAcc ||| (BitVec.ofNat 19 (c % 2 ^ width) <<< w.pCnt)
    pCnt := w.pCnt + width }
  packBytes w.pCnt w

/-- The pending bits of `Flush()`, padded with zeros to a byte (R116). -/
def flushBits (w : Writer) : Body Writer Unit :=
  if 0 < w.pCnt then
    (putByte (accByte w.pAcc) w).bind fun _ w => .ok () { w with pAcc := 0#19, pCnt := 0 }
  else .ok () w

/-- The pending sub-block of `Flush()`, where it is not empty (R116). -/
def flushSubBlock (w : Writer) : Body Writer Unit :=
  if 0 < w.pBuf.length then
    (sinkSubBlock w.pBuf w).bind fun _ w => .ok () { w with pBuf := [] }
  else .ok () w

/-- `Flush()` (R116): pad, partial sub-block, terminator. -/
def flushPacker (w : Writer) : Body Writer Unit :=
  (flushBits w).bind fun _ w => (flushSubBlock w).bind fun _ w => sinkByte 0x00#8 w

/-- Packer start (R117). -/
def startPacker (w : Writer) : Writer :=
  { w with pAcc := 0#19, pCnt := 0, pBuf := [] }

/-! ### Unpacker -/

/-- The next data byte of the image's sub-blocks, put above the bits `U_acc` holds (R118). -/
def loadDataByte (r : Reader) : Body Reader Unit :=
  (srcByte r).bind fun x r =>
    .ok () { r with
      uLeft := r.uLeft - 1#8
      uAcc := r.uAcc ||| (x.setWidth 19 <<< r.uCnt)
      uCnt := r.uCnt + 8 }

/-- One turn of the `while` loop of ReadCode (R118): the length byte of a new sub-block where the current one is
exhausted, then a data byte. -/
def loadBits (r : Reader) : Body Reader Unit :=
  if r.uLeft = 0#8 then
    if r.uEnd then .raise .unexpectedEndOfData r
    else (srcByte r).bind fun l r =>
      if l = 0#8 then .raise .unexpectedEndOfData { r with uEnd := true }
      else loadDataByte { r with uLeft := l }
  else loadDataByte r

/-- The `while` loop of ReadCode (R118). The first number bounds its turns: each adds 8 bits, so `width` of them are
enough for `width` bits. -/
def fillBits (width : Nat) : Nat → Reader → Body Reader Unit
  | 0, r => .ok () r
  | n + 1, r =>
    if r.uCnt < width then (loadBits r).bind fun _ r => fillBits width n r
    else .ok () r

/-- `ReadCode(w)` (R118): the low `width` bits of `U_acc` once it holds that many. -/
def readCode (width : Nat) (r : Reader) : Body Reader Nat :=
  (fillBits width width r).bind fun _ r =>
    .ok (r.uAcc.toNat % 2 ^ width) { r with uAcc := r.uAcc >>> width, uCnt := r.uCnt - width }

/-- Unpacker start (R119). -/
def startUnpacker (r : Reader) : Reader :=
  { r with uAcc := 0#19, uCnt := 0, uLeft := 0#8, uEnd := false }

/-- `SkipToTerminator()` (R120): the rest of the sub-block, then the terminator. -/
def skipToTerminator (r : Reader) : Body Reader Unit :=
  (skipBytes r.uLeft.toNat r).bind fun _ r =>
    (srcByte { r with uLeft := 0#8 }).bind fun l r =>
      if l ≠ 0#8 then .raise .unexpectedEndOfData r
      else .ok () { r with uEnd := true, uAcc := 0#19, uCnt := 0 }

end Sys2Proof.Machine
end

