-- ==== Sys2Proof/Machine/RowTracker.lean ====
section
/-!
DEFINITION. The row tracker of a channel (R59) and the interlace table it follows (R58). The tracker only reports;
neither channel reorders pixels (R166, R180).
-/

namespace Sys2Proof.Machine

/-- `OFFSET = [0, 4, 2, 1]` (R58); the table has no other pass (log entry 13). -/
def interlaceOffset : Nat → Nat
  | 0 => 0
  | 1 => 4
  | 2 => 2
  | 3 => 1
  | _ => 0

/-- `STRIDE = [8, 8, 4, 2]` (R58); the table has no other pass (log entry 13). -/
def interlaceStride : Nat → Nat
  | 0 => 8
  | 1 => 8
  | 2 => 4
  | 3 => 2
  | _ => 0

/-- The `while` loop of RowInit and RowAdvance (R59): from row `row` of pass `pass`, the first pass that has a row
below `h`, and that row; pass 4 and row `h` where none has. The first number bounds the turns of the loop: four passes
need at most four. -/
def settleRow (h : Nat) : Nat → Nat → Nat → Nat × Nat
  | 0, pass, row => (pass, if pass = 4 then h else row)
  | n + 1, pass, row =>
    if pass < 4 ∧ h ≤ row then
      settleRow h n (pass + 1) (if pass + 1 < 4 then interlaceOffset (pass + 1) else row)
    else (pass, if pass = 4 then h else row)

/-- `RowInit(W, H, IL)` (R59). -/
def rowInit (w h : Half) (il : BitVec 1) : RowTracker :=
  if il = 1#1 then
    let p := settleRow h.toNat 4 0 (interlaceOffset 0)
    { row := BitVec.ofNat 16 p.2, col := 0#16, pass := BitVec.ofNat 3 p.1, w := w, h := h, il := il }
  else if h = 0#16 then
    { row := h, col := 0#16, pass := 4#3, w := w, h := h, il := il }
  else
    { row := 0#16, col := 0#16, pass := 0#3, w := w, h := h, il := il }

/-- The step to the next row, taken when a row is complete (R59). -/
def nextRow (t : RowTracker) : RowTracker :=
  if t.il = 1#1 then
    let p := settleRow t.h.toNat 4 t.pass.toNat (t.row.toNat + interlaceStride t.pass.toNat)
    { t with row := BitVec.ofNat 16 p.2, pass := BitVec.ofNat 3 p.1 }
  else if t.row.toNat + 1 = t.h.toNat then
    { t with row := t.h, pass := 4#3 }
  else
    { t with row := BitVec.ofNat 16 (t.row.toNat + 1) }

/-- `RowAdvance()`, after each pixel (R59). -/
def rowAdvance (t : RowTracker) : RowTracker :=
  if t.col.toNat + 1 = t.w.toNat then nextRow { t with col := 0#16 }
  else { t with col := BitVec.ofNat 16 (t.col.toNat + 1) }

end Sys2Proof.Machine
end

