-- ==== Sys2Proof/Machine/Decompressor.lean ====
section
/-!
DEFINITION. The LZW decompressor of the reader channel (43_lzw_decompressor.md): codes to pixel strings, pixels to DOUT,
and the epilogue that ends an image.
-/

namespace Sys2Proof.Machine

/-- `ResetDecoder()` (R144): the entries become unreadable, so none is held; `D_pend` and `D_done` stay. -/
def resetDecoder (r : Reader) : Reader :=
  { r with dFree := r.dFirst, dW := r.dB + 1#4, dPrev := none, dDict := [] }

/-- `DecompressStart(b)` (R137). -/
def decompressStart (b : BitVec 4) (r : Reader) : Reader :=
  { resetDecoder { r with
      dB := b
      dClear := BitVec.ofNat 13 (2 ^ b.toNat)
      dEof := BitVec.ofNat 13 (2 ^ b.toNat + 1)
      dFirst := BitVec.ofNat 13 (2 ^ b.toNat + 2) } with
    dPend := [], dDone := false }

/-- The walk of `StringOf(c)` (R139) over the entries of codes from `first` on, `s` being the pixels found so far: the
root pixel and what follows it, or nothing where the walk meets a code that was never assigned. The first number bounds
its turns. Every prefix is a lower code (R138), so as many turns as there are entries are enough. -/
def walkString (first : Nat) (dict : List DEntry) : Nat → Nat → List Byte → Option (Byte × List Byte)
  | 0, c, s => if c < first then some (BitVec.ofNat 8 c, s) else none
  | n + 1, c, s =>
    if c < first then some (BitVec.ofNat 8 c, s)
    else match dict[c - first]? with
      | some e => walkString first dict n e.pfx.toNat (e.sfx :: s)
      | none => none

/-- `StringOf(c)` (R139), as its first pixel, always a root code, and the rest. -/
def stringOf (c : Nat) (r : Reader) : Option (Byte × List Byte) :=
  walkString r.dFirst.toNat r.dDict r.dDict.length c []

/-- `AddEntry(q, x)` (R141): nothing is inserted once the dictionary is full (R148). -/
def addEntry (q : Code) (x : Byte) (r : Reader) : Reader :=
  if r.dFree.toNat < Config.dictCodes then
    { r with dDict := r.dDict ++ [{ pfx := q, sfx := x }], dFree := r.dFree + 1#13 }
  else r

/-- The end of a code that outputs pixels (R140): the string is pending, the code is the previous one, and the width
grows where the counter asks for it (`GrowWidth()`, R143). -/
def acceptString (c : Nat) (s : List Byte) (r : Reader) : Reader :=
  { r with dPend := r.dPend ++ s, dPrev := some (BitVec.ofNat 12 c), dW := grownWidth r.dFree r.dW }

/-- What `DecodeStep()` does with the code it has read (R140, R142, R149). -/
def applyCode (c : Nat) (r : Reader) : Body Reader Unit :=
  if c = r.dClear.toNat then .ok () (resetDecoder r)
  else if c = r.dEof.toNat then .ok () { r with dDone := true }
  else match r.dPrev with
    | none =>
      if r.dClear.toNat ≤ c then .raise .corruptData r
      else .ok () (acceptString c [BitVec.ofNat 8 c] r)
    | some q =>
      if c < r.dClear.toNat ∨ (r.dFirst.toNat ≤ c ∧ c < r.dFree.toNat) then
        match stringOf c r with
        | some (x, s) => .ok () (acceptString c (x :: s) (addEntry q x r))
        | none => .stuck .dictionaryEntryUnassigned
      else if c = r.dFree.toNat ∧ r.dFree.toNat < Config.dictCodes then
        match stringOf q.toNat r with
        | some (x, s) => .ok () (acceptString c (x :: s ++ [x]) (addEntry q x r))
        | none => .stuck .dictionaryEntryUnassigned
      else .raise .corruptData r

/-- `DecodeStep()` (R140): one code of width `D_w`. -/
def decodeStep (r : Reader) : Body Reader Unit :=
  (readCode r.dW.toNat r).bind fun c r => applyCode c r

/-- How many turns the decoding loops may take: every code takes at least one bit, and there are no more bits than
those held and those still to come (log entry 12). -/
def decodeTurns (r : Reader) : Nat := r.uCnt + 8 * r.sin.length + 1

/-- The next pixel (R145, R146): codes are read until one is pending; after the EOF Code there is none. The first
number bounds the turns of the loop. -/
def nextPixel : Nat → Reader → Body Reader Byte
  | 0, _ => .stuck .commandNeverCompletes
  | n + 1, r =>
    match r.dPend with
    | x :: rest => .ok x { r with dPend := rest }
    | [] =>
      if r.dDone then .raise .unexpectedEndOfData r
      else (decodeStep r).bind fun _ r => nextPixel n r

/-- The loop of `Epilogue()` (R147): up to the EOF Code, where a pixel is one too many. The first number bounds its
turns. -/
def readToEof : Nat → Reader → Body Reader Unit
  | 0, _ => .stuck .commandNeverCompletes
  | n + 1, r =>
    if r.dPend ≠ [] then .raise .rasterOverflow r
    else if r.dDone then .ok () r
    else (decodeStep r).bind fun _ r => readToEof n r

/-- `Epilogue()` (R147). -/
def epilogue (r : Reader) : Body Reader Unit :=
  (readToEof (decodeTurns r) r).bind fun _ r => skipToTerminator r

/-- A pixel leaves for DOUT: the count and the row tracker follow (R145). -/
def pushPixel (x : Byte) (r : Reader) : Reader :=
  { doutPush x r with pixRemain := r.pixRemain - 1#32, rows := rowAdvance r.rows }

/-- One turn of `DeliverPixels` (R145). -/
def deliverPixel (r : Reader) : Body Reader Unit :=
  (nextPixel (decodeTurns r) r).bind fun x r =>
    let r := pushPixel x r
    if r.pixRemain = 0#32 then epilogue r else .ok () r

/-- `DeliverPixels(n)` (R145). -/
def deliverPixels : Nat → Reader → Body Reader Unit
  | 0, r => .ok () r
  | n + 1, r => (deliverPixel r).bind fun _ r => deliverPixels n r

end Sys2Proof.Machine
end

