-- ==== Sys2Proof/Machine/ReaderCommands.lean ====
section
/-!
DEFINITION. The reader family (44_stream_reader.md): one meaning per command, each a body inside the common frame.
-/

namespace Sys2Proof.Machine

/-- `CopyTable(e)` where the packed byte announces a table (R155). -/
def copyTable (packed : Byte) (r : Reader) : Body Reader Unit :=
  copyBytes (tableBytes packed) r

/-- The screen descriptor's registers (R93, R153). -/
def setScreen (d : List Byte) (r : Reader) : Reader :=
  { r with
    scrW := u16At d 0
    scrH := u16At d 2
    scrPacked := byteOf d 4
    bg := byteOf d 5
    aspect := byteOf d 6 }

/-- The body of R_OPEN after the signature (R153). -/
def rOpenScreen (r : Reader) : Body Reader Unit :=
  (srcBytes 7 r).bind fun d r =>
    (copyTable (byteOf d 4) (setScreen d r)).bind fun _ r =>
      .ok () { r with recType := .none, state := .top }

/-- The body of R_OPEN (R153): all six signature bytes are read before the check. -/
def rOpenBody (r : Reader) : Body Reader Unit :=
  (srcBytes 6 r).bind fun sig r =>
    if sig ≠ signature87 ∧ sig ≠ signature89 then .raise .notAGifFile r
    else rOpenScreen { r with version := if byteOf sig 4 = 0x39#8 then 1#1 else 0#1 }

/-- `R_OPEN` (R153). -/
def execROpen (s : State) : Host.Outcome State Fault Refusal :=
  readerCommand .idle noCheck rOpenBody s

/-- The body of R_NEXT (R156): one introducer (R102). -/
def rNextBody (r : Reader) : Body Reader Unit :=
  (srcByte r).bind fun x r =>
    if x = 0x21#8 then .ok () { r with recType := .extension, state := .extCode }
    else if x = 0x2C#8 then .ok () { r with recType := .image, state := .imgDesc }
    else if x = 0x3B#8 then .ok () { r with recType := .trailer, state := .done }
    else .raise .corruptData r

/-- `R_NEXT` (R156). -/
def execRNext (s : State) : Host.Outcome State Fault Refusal :=
  readerCommand .top noCheck rNextBody s

/-- The body of R_EXT (R158). -/
def rExtBody (r : Reader) : Body Reader Unit :=
  (srcByte r).bind fun x r => .ok () { r with extCode := x, state := .extData }

/-- `R_EXT` (R158). -/
def execRExt (s : State) : Host.Outcome State Fault Refusal :=
  readerCommand .extCode noCheck rExtBody s

/-- The body of R_EXT_BLOCK (R159). -/
def rExtBlockBody (r : Reader) : Body Reader Unit :=
  (srcByte r).bind fun l r =>
    if l = 0#8 then .ok () { r with subLen := l, state := .top }
    else copyBytes l.toNat { r with subLen := l }

/-- `R_EXT_BLOCK` (R159). -/
def execRExtBlock (s : State) : Host.Outcome State Fault Refusal :=
  readerCommand .extData noCheck rExtBlockBody s

/-- The image descriptor's registers (R97, R161). -/
def setDescriptor (d : List Byte) (r : Reader) : Reader :=
  { r with
    imgLeft := u16At d 0
    imgTop := u16At d 2
    imgW := u16At d 4
    imgH := u16At d 6
    imgPacked := byteOf d 8 }

/-- The part of `ImageDataStart()` after the code size check (R162). -/
def startImage (b : Byte) (r : Reader) : Reader :=
  { decompressStart (b.setWidth 4) (startUnpacker r) with
    pixRemain := rasterLength r.imgW r.imgH
    rows := rowInit r.imgW r.imgH (interlaceBit r.imgPacked) }

/-- `ImageDataStart()` (R162): the code size, the decompressor, and the whole image data where W x H = 0. -/
def imageDataStart (r : Reader) : Body Reader Unit :=
  (srcByte r).bind fun b r =>
    let r := { r with codeSize := b }
    if b.toNat < 2 ∨ 8 < b.toNat then .raise .corruptData r
    else
      let r := startImage b r
      if r.pixRemain = 0#32 then (epilogue r).bind fun _ r => .ok () { r with state := .top }
      else .ok () { r with state := .pixels }

/-- The body of R_IMAGE (R161). -/
def rImageBody (r : Reader) : Body Reader Unit :=
  (srcBytes 9 r).bind fun d r =>
    (copyTable (byteOf d 8) (setDescriptor d r)).bind fun _ r => imageDataStart r

/-- `R_IMAGE` (R161). -/
def execRImage (s : State) : Host.Outcome State Fault Refusal :=
  readerCommand .imgDesc noCheck rImageBody s

/-- The `reject` line of R_PIXELS (R164). -/
def rPixelsCheck (n : Nat) (r : Reader) : Option Status :=
  if r.pixRemain.toNat < n then some .invalidSequence else none

/-- The body of R_PIXELS (R164). -/
def rPixelsBody (n : Nat) (r : Reader) : Body Reader Unit :=
  if n = 0 then .ok () r
  else (deliverPixels n r).bind fun _ r =>
    if r.pixRemain = 0#32 then .ok () { r with state := .top } else .ok () r

/-- `R_PIXELS COUNT` (R164). -/
def execRPixels (count : BitVec 24) (s : State) : Host.Outcome State Fault Refusal :=
  readerCommand .pixels (rPixelsCheck (countOperand count)) (rPixelsBody (countOperand count)) s

end Sys2Proof.Machine
end

