-- ==== Sys2Proof/Machine/Compressor.lean ====
section
/-!
DEFINITION. The LZW compressor of the writer channel (42_lzw_compressor.md).
-/

namespace Sys2Proof.Machine

/-- A lookup in `C_dict` (R54, R125): the code of the pair, or absent. -/
def dictLookup (dict : List CEntry) (q : Code) (p : Byte) : Option Code :=
  (dict.find? fun e => e.pfx == q && e.pixel == p).map CEntry.code

/-- `ResetDict()` (R128); `C_prefix` stays. -/
def resetDict (w : Writer) : Writer :=
  { w with cDict := [], cFree := w.cFirst, cW := w.cB + 1#4 }

/-- The code size of a table depth: `max(bpp, 2)` (R126; 90_conflicts.md C2). -/
def codeSizeOf (bpp : BitVec 4) : BitVec 4 := if bpp.toNat < 2 then 2#4 else bpp

/-- The codes a code size fixes: `C_clear`, `C_eof`, `C_first` (R103, R126). -/
def setCodeSpace (w : Writer) : Writer :=
  { w with
    cClear := BitVec.ofNat 13 (2 ^ w.cB.toNat)
    cEof := BitVec.ofNat 13 (2 ^ w.cB.toNat + 1)
    cFirst := BitVec.ofNat 13 (2 ^ w.cB.toNat + 2) }

/-- `CompressStart(bpp)` (R126): the code size byte outside any sub-block, then the Clear Code into the packer. -/
def compressStart (bpp : BitVec 4) (w : Writer) : Body Writer Unit :=
  let w := { w with bpp := bpp, cB := codeSizeOf bpp }
  (sinkByte (w.cB.setWidth 8) w).bind fun _ w =>
    let w := { resetDict (startPacker (setCodeSpace w)) with cPrefix := none }
    writeCode w.cClear.toNat w.cW.toNat w

/-- `CheckExhausted()` (R130): at 4096 codes a Clear Code, then a fresh dictionary; `C_prefix` stays. -/
def checkExhausted (w : Writer) : Body Writer Unit :=
  if w.cFree.toNat = Config.dictCodes then
    (writeCode w.cClear.toNat w.cW.toNat w).bind fun _ w => .ok () (resetDict w)
  else .ok () w

/-- The insertion of `(q, p)` with the next free code (R129); the growth test comes before it. -/
def insertPair (q : Code) (p : Byte) (w : Writer) : Writer :=
  { w with
    cW := grownWidth w.cFree w.cW
    cDict := { pfx := q, pixel := p, code := w.cFree.setWidth 12 } :: w.cDict
    cFree := w.cFree + 1#13
    cPrefix := some (p.setWidth 12) }

/-- `EmitAndInsert(p)` with current prefix `q` (R129). -/
def emitAndInsert (q : Code) (p : Byte) (w : Writer) : Body Writer Unit :=
  (writeCode q.toNat w.cW.toNat w).bind fun _ w => checkExhausted (insertPair q p w)

/-- `CompressPixel(p)` (R127). -/
def compressPixel (p : Byte) (w : Writer) : Body Writer Unit :=
  match w.cPrefix with
  | none => .ok () { w with cPrefix := some (p.setWidth 12) }
  | some q =>
    match dictLookup w.cDict q p with
    | some c => .ok () { w with cPrefix := some c }
    | none => emitAndInsert q p w

/-- The last data code of CompressFinish, with the growth test that no insertion follows (R131). -/
def emitLast (w : Writer) : Body Writer Unit :=
  match w.cPrefix with
  | none => .ok () w
  | some q =>
    (writeCode q.toNat w.cW.toNat w).bind fun _ w => .ok () { w with cW := grownWidth w.cFree w.cW }

/-- `CompressFinish()` (R131): last data code, EOF Code, Flush. -/
def compressFinish (w : Writer) : Body Writer Unit :=
  (emitLast w).bind fun _ w =>
    (writeCode w.cEof.toNat w.cW.toNat w).bind fun _ w =>
      (flushPacker w).bind fun _ w => .ok () { w with cPrefix := none }

end Sys2Proof.Machine
end

