-- ==== Sys2Proof/Machine/WriterCommands.lean ====
section
/-!
DEFINITION. The writer family (45_stream_writer.md): one meaning per command, each with its checks and its body inside
the common frame.
-/

namespace Sys2Proof.Machine

/-- The DIN bytes W_OPEN takes: 7, and the table where the packed byte announces one (R169, R170). -/
def wOpenLength (w : Writer) : Nat := 7 + tableBytes (dinAt 4 w)

/-- The `reject` lines of W_OPEN (R169). -/
def wOpenCheck (w : Writer) : Option Status :=
  if w.din.length < 7 then some .invalidSequence
  else if w.din.length < wOpenLength w then some .invalidSequence
  else none

/-- The body of W_OPEN (R169): the bytes leave DIN at once; signature, descriptor and table go out unchanged. -/
def wOpenBody (v89a : BitVec 1) (w : Writer) : Body Writer Unit :=
  let d := dinTake (wOpenLength w) w
  (sinkBytes (signatureOf v89a) (dinDrop (wOpenLength w) w)).bind fun _ w =>
    (sinkBytes d w).bind fun _ w =>
      .ok () { w with version := v89a, gctBpp := tableBpp (byteOf d 4), state := .top }

/-- `W_OPEN V89A` (R169). -/
def execWOpen (v89a : BitVec 1) (s : State) : Host.Outcome State Fault Refusal :=
  writerCommand .idle wOpenCheck (wOpenBody v89a) s

/-- The body of W_EXT (R172). -/
def wExtBody (imm8 : Byte) (w : Writer) : Body Writer Unit :=
  (sinkByte 0x21#8 w).bind fun _ w =>
    (sinkByte imm8 w).bind fun _ w => .ok () { w with state := .extData }

/-- `W_EXT IMM8` (R172). -/
def execWExt (imm8 : Byte) (s : State) : Host.Outcome State Fault Refusal :=
  writerCommand .top noCheck (wExtBody imm8) s

/-- The `reject` lines of W_EXT_BLOCK (R173). -/
def wExtBlockCheck (n : Nat) (w : Writer) : Option Status :=
  if n = 0 then some .outOfRange
  else if w.din.length < n then some .invalidSequence
  else none

/-- The body of W_EXT_BLOCK (R173). -/
def wExtBlockBody (imm8 : Byte) (w : Writer) : Body Writer Unit :=
  let d := dinTake (lengthOperand imm8) w
  (sinkByte imm8 (dinDrop (lengthOperand imm8) w)).bind fun _ w => sinkBytes d w

/-- `W_EXT_BLOCK IMM8` (R173). -/
def execWExtBlock (imm8 : Byte) (s : State) : Host.Outcome State Fault Refusal :=
  writerCommand .extData (wExtBlockCheck (lengthOperand imm8)) (wExtBlockBody imm8) s

/-- The body of W_EXT_END (R174). -/
def wExtEndBody (w : Writer) : Body Writer Unit :=
  (sinkByte 0x00#8 w).bind fun _ w => .ok () { w with state := .top }

/-- `W_EXT_END` (R174). -/
def execWExtEnd (s : State) : Host.Outcome State Fault Refusal :=
  writerCommand .extData noCheck wExtEndBody s

/-- The DIN bytes W_IMAGE takes: 9, and the table where the packed byte announces one (R170, R175). -/
def wImageLength (w : Writer) : Nat := 9 + tableBytes (dinAt 8 w)

/-- The depth of the table that applies: local if present, else global (R175, R178). -/
def imageBpp (packed : Byte) (w : Writer) : BitVec 4 :=
  if hasTable packed then tableBpp packed else w.gctBpp

/-- The `reject` lines of W_IMAGE (R175). -/
def wImageCheck (w : Writer) : Option Status :=
  if w.din.length < 9 then some .invalidSequence
  else if w.din.length < wImageLength w then some .invalidSequence
  else if imageBpp (dinAt 8 w) w = 0#4 then some .corruptData
  else none

/-- `ImageStart()` (R177). -/
def imageStart (w : Writer) : Body Writer Unit :=
  (compressStart w.bpp w).bind fun _ w =>
    let w := { w with
      codeSize := w.cB.setWidth 8
      pixRemain := rasterLength w.imgW w.imgH
      rows := rowInit w.imgW w.imgH (interlaceBit w.imgPacked) }
    if w.pixRemain = 0#32 then (compressFinish w).bind fun _ w => .ok () { w with state := .top }
    else .ok () { w with state := .pixels }

/-- The image registers W_IMAGE writes before its first byte goes out (R175, R176). -/
def setImage (d : List Byte) (bpp : BitVec 4) (w : Writer) : Writer :=
  { w with
    imgW := u16At d 4
    imgH := u16At d 6
    imgPacked := clearReserved (byteOf d 8)
    bpp := bpp }

/-- The bytes of the descriptor and its table as written: the introducer, the position and size, the packed byte with
its reserved bits cleared, the table unchanged (R97, R175). -/
def imageBytes (d : List Byte) : List Byte :=
  0x2C#8 :: d.take 8 ++ [clearReserved (byteOf d 8)] ++ d.drop 9

/-- The body of W_IMAGE (R175). -/
def wImageBody (w : Writer) : Body Writer Unit :=
  let n := wImageLength w
  let d := dinTake n w
  let bpp := imageBpp (dinAt 8 w) w
  (sinkBytes (imageBytes d) (setImage d bpp (dinDrop n w))).bind fun _ w => imageStart w

/-- `W_IMAGE` (R175). -/
def execWImage (s : State) : Host.Outcome State Fault Refusal :=
  writerCommand .top wImageCheck wImageBody s

/-- A pixel the color table of the image cannot index (R179). -/
def pixelOutOfRange (w : Writer) (p : Byte) : Bool := decide (2 ^ w.bpp.toNat ≤ p.toNat)

/-- The `reject` lines of W_PIXELS, in the order of R179. -/
def wPixelsCheck (n : Nat) (w : Writer) : Option Status :=
  if w.pixRemain.toNat < n then some .invalidSequence
  else if w.din.length < n then some .invalidSequence
  else if (dinTake n w).any (pixelOutOfRange w) then some .outOfRange
  else none

/-- The loop of W_PIXELS over the oldest bytes of DIN, each popped, compressed and counted in its turn (R179). -/
def compressPixels : List Byte → Writer → Body Writer Unit
  | [], w => .ok () w
  | p :: ps, w =>
    (compressPixel p (dinDrop 1 w)).bind fun _ w =>
      compressPixels ps { w with pixRemain := w.pixRemain - 1#32, rows := rowAdvance w.rows }

/-- The body of W_PIXELS (R179). -/
def wPixelsBody (n : Nat) (w : Writer) : Body Writer Unit :=
  if n = 0 then .ok () w
  else (compressPixels (dinTake n w) w).bind fun _ w =>
    if w.pixRemain = 0#32 then (compressFinish w).bind fun _ w => .ok () { w with state := .top }
    else .ok () w

/-- `W_PIXELS COUNT` (R179). -/
def execWPixels (count : BitVec 24) (s : State) : Host.Outcome State Fault Refusal :=
  writerCommand .pixels (wPixelsCheck (countOperand count)) (wPixelsBody (countOperand count)) s

/-- The body of W_TRAILER (R181). -/
def wTrailerBody (w : Writer) : Body Writer Unit :=
  (sinkByte 0x3B#8 w).bind fun _ w => .ok () { w with state := .done }

/-- `W_TRAILER` (R181). -/
def execWTrailer (s : State) : Host.Outcome State Fault Refusal :=
  writerCommand .top noCheck wTrailerBody s

end Sys2Proof.Machine
end

