-- ==== Sys2Proof/Machine/Dispatch.lean ====
section
/-!
DEFINITION. Which meaning each command has: one arm per row of the opcode map (R87).
-/

namespace Sys2Proof.Machine

def exec (i : Instr) (s : State) : Host.Outcome State Fault Refusal :=
  match i with
  | .reset sel => Sys2Proof.Machine.execReset sel s
  | .rOpen => Sys2Proof.Machine.execROpen s
  | .rNext => Sys2Proof.Machine.execRNext s
  | .rExt => Sys2Proof.Machine.execRExt s
  | .rExtBlock => Sys2Proof.Machine.execRExtBlock s
  | .rImage => Sys2Proof.Machine.execRImage s
  | .rPixels count => Sys2Proof.Machine.execRPixels count s
  | .wOpen v89a => Sys2Proof.Machine.execWOpen v89a s
  | .wExt imm8 => Sys2Proof.Machine.execWExt imm8 s
  | .wExtBlock imm8 => Sys2Proof.Machine.execWExtBlock imm8 s
  | .wExtEnd => Sys2Proof.Machine.execWExtEnd s
  | .wImage => Sys2Proof.Machine.execWImage s
  | .wPixels count => Sys2Proof.Machine.execWPixels count s
  | .wTrailer => Sys2Proof.Machine.execWTrailer s

end Sys2Proof.Machine
end

