-- ==== Sys2Proof/Machine/Flags.lean ====
section
/-!
DEFINITION. The codes and flags a host reads: the status codes (R191), the state codes (R31, R45), the record kinds
(R37), STATUS with LAST and BUSY (R26) and DOUT with VALID (R28). The block has no other flags (R60).
-/

namespace Sys2Proof.Machine

/-- The number of a status code (R191). -/
def statusCode : Status → Nat
  | .ok => 0
  | .notAGifFile => 1
  | .corruptData => 2
  | .unexpectedEndOfData => 3
  | .invalidSequence => 4
  | .outOfRange => 5
  | .ioError => 6
  | .outOfMemory => 7
  | .rasterOverflow => 8
  | .illegalCommand => 9

/-- The value of R_STATE (R31). -/
def rstateCode : RState → Nat
  | .idle => 0
  | .top => 1
  | .extCode => 2
  | .extData => 3
  | .imgDesc => 4
  | .pixels => 5
  | .done => 6
  | .failed => 7

/-- The value of W_STATE (R45). -/
def wstateCode : WState → Nat
  | .idle => 0
  | .top => 1
  | .extData => 2
  | .pixels => 3
  | .done => 4
  | .failed => 5

/-- The value of R_REC_TYPE (R37). -/
def recTypeCode : RecType → Nat
  | .none => 0
  | .extension => 1
  | .image => 2
  | .trailer => 3

/-- STATUS as read: LAST[3:0] and BUSY[8], every other bit 0 (R26). -/
def statusWord (last : Status) (busy : Bool) : Word :=
  BitVec.ofNat 32 (statusCode last + if busy then 256 else 0)

/-- DOUT as read: DATA[7:0] and VALID[8] (R28); an empty FIFO reads 0. -/
def doutWord : List Byte → Word
  | [] => 0
  | b :: _ => BitVec.ofNat 32 (b.toNat + 256)

end Sys2Proof.Machine
end

