-- ==== Sys2Proof/Machine/Registers.lean ====
section
/-!
DEFINITION. The register map as a host reads it (R24 to R53): 32-bit values at byte offsets of the 4 KiB window.
-/

namespace Sys2Proof.Machine

/-- The offset a host access names, its bits [1:0] ignored (R74). Log entry 11. -/
def registerOffset (offset : BitVec 12) : Nat := 4 * (offset.toNat / 4)

/-- The bus address of an offset on a platform (R76, U14). DESIGN CHOICE: the spec gives no width for a bus address and no
rule for adding an offset to the base; here it is 32 bits and the addition wraps around. No operation uses it: every access
names its offset. Log entry 11. -/
def busAddress (offset : BitVec 12) : Word := Config.blockBase + offset.setWidth 32

/-- The reader channel's registers (0x100 to 0x158). -/
def readReaderRegister (r : Reader) : Nat → Word
  | 0x100 => BitVec.ofNat 32 (rstateCode r.state)
  | 0x104 => BitVec.ofNat 32 (statusCode r.err)
  | 0x108 => r.version.setWidth 32
  | 0x10C => r.scrW.setWidth 32
  | 0x110 => r.scrH.setWidth 32
  | 0x114 => r.scrPacked.setWidth 32
  | 0x118 => r.bg.setWidth 32
  | 0x11C => r.aspect.setWidth 32
  | 0x120 => BitVec.ofNat 32 (recTypeCode r.recType)
  | 0x124 => r.extCode.setWidth 32
  | 0x128 => r.subLen.setWidth 32
  | 0x12C => r.imgLeft.setWidth 32
  | 0x130 => r.imgTop.setWidth 32
  | 0x134 => r.imgW.setWidth 32
  | 0x138 => r.imgH.setWidth 32
  | 0x13C => r.imgPacked.setWidth 32
  | 0x140 => r.codeSize.setWidth 32
  | 0x144 => r.pixRemain
  | 0x148 => r.rows.row.setWidth 32
  | 0x14C => r.rows.col.setWidth 32
  | 0x150 => r.rows.pass.setWidth 32
  | 0x154 => r.dW.setWidth 32
  | 0x158 => r.dFree.setWidth 32
  | _ => 0

/-- The writer channel's registers (0x200 to 0x23C). -/
def readWriterRegister (w : Writer) : Nat → Word
  | 0x200 => BitVec.ofNat 32 (wstateCode w.state)
  | 0x204 => BitVec.ofNat 32 (statusCode w.err)
  | 0x208 => w.version.setWidth 32
  | 0x20C => w.gctBpp.setWidth 32
  | 0x210 => w.imgW.setWidth 32
  | 0x214 => w.imgH.setWidth 32
  | 0x218 => w.imgPacked.setWidth 32
  | 0x21C => w.bpp.setWidth 32
  | 0x220 => w.codeSize.setWidth 32
  | 0x224 => w.pixRemain
  | 0x228 => w.rows.row.setWidth 32
  | 0x22C => w.rows.col.setWidth 32
  | 0x230 => w.rows.pass.setWidth 32
  | 0x234 => w.cW.setWidth 32
  | 0x238 => w.cFree.setWidth 32
  | 0x23C => BitVec.ofNat 32 (w.pBuf.length % 256)
  | _ => 0

/-- The common registers (0x000 to 0x014). CMD and DIN are write-only and read 0 (R25, R27); the counts are 32-bit
values (R29, R30; log entry 10). -/
def readCommonRegister (s : State) : Nat → Word
  | 0x004 => statusWord s.last s.busy
  | 0x00C => doutWord s.reader.dout
  | 0x010 => BitVec.ofNat 32 s.writer.din.length
  | 0x014 => BitVec.ofNat 32 s.reader.dout.length
  | _ => 0

/-- The value a read of a register returns (R24); an unlisted offset reads 0 (R76). -/
def readRegister (offset : BitVec 12) (s : State) : Word :=
  let a := registerOffset offset
  if a < 0x100 then readCommonRegister s a
  else if a < 0x200 then readReaderRegister s.reader a
  else readWriterRegister s.writer a

end Sys2Proof.Machine
end

