-- ==== Sys2Proof/Machine/HostPort.lean ====
section
/-!
DEFINITION. What a host's access does to the block: a CMD write decodes and runs one command (R25, R88, R185), a DIN
write pushes a byte (R27), a DOUT read pops one (R28); every other write is ignored and every other read has no effect
(R75).
-/

namespace Sys2Proof.Machine

/-- The offset of CMD (R25). -/
def cmdOffset : BitVec 12 := 0x000

/-- The offset of DIN (R27). -/
def dinOffset : BitVec 12 := 0x008

/-- The offset of DOUT (R28). -/
def doutOffset : BitVec 12 := 0x00C

/-- `Execute(word)` (R185): decoding comes before any channel state; an illegal word is rejected with IllegalCommand
in every state (R186). -/
def issueWord (word : Word) (s : State) : Host.Outcome State Fault Refusal :=
  match decode word with
  | .instr i => exec i s
  | .illegal _ => .next (rejectWith .illegalCommand s)

/-- A write to CMD: ignored and lost while BUSY = 1 (R212). -/
def writeCmd (word : Word) (s : State) : Host.Outcome State Fault Refusal :=
  if s.busy then .next s else issueWord word s

/-- A write to DIN appends its low byte (R27); the spec has no move for it while BUSY = 1 (U11). -/
def writeDin (value : Word) (s : State) : Host.Outcome State Fault Refusal :=
  if s.busy then .refused .fifoAccessWhileBusy
  else .next { s with writer := { s.writer with din := s.writer.din ++ [value.setWidth 8] } }

/-- A read of DOUT removes its oldest byte, if there is one (R28); the spec has no move for it while BUSY = 1 (U11). -/
def readDout (s : State) : Host.Outcome State Fault Refusal :=
  if s.busy then .refused .fifoAccessWhileBusy
  else .next { s with
    readData := doutWord s.reader.dout
    reader := { s.reader with dout := s.reader.dout.drop 1 } }

/-- A 32-bit write of a register (R24, R75). -/
def writeRegister (offset : BitVec 12) (value : Word) (s : State) : Host.Outcome State Fault Refusal :=
  if registerOffset offset = registerOffset cmdOffset then writeCmd value s
  else if registerOffset offset = registerOffset dinOffset then writeDin value s
  else .next s

/-- A 32-bit read of a register (R24, R75). -/
def readAccess (offset : BitVec 12) (s : State) : Host.Outcome State Fault Refusal :=
  if registerOffset offset = registerOffset doutOffset then readDout s
  else .next { s with readData := readRegister offset s }

/-- SIN is connected to a new stream, of which nothing has been read (R209, R210). -/
def connectSource (answers : List SrcAnswer) (s : State) : State :=
  { s with reader := { s.reader with sin := answers, sinRead := 0 } }

/-- SOUT is connected to a new sink, which has received nothing (R209, R210). -/
def connectSink (answers : List SinkAnswer) (s : State) : State :=
  { s with writer := { s.writer with sinkAnswers := answers, sout := [] } }

/-- One move of the host or the platform. -/
def hostMove (m : HostMove) (s : State) : Host.Outcome State Fault Refusal :=
  match m with
  | .write offset value => writeRegister offset value s
  | .read offset => readAccess offset s
  | .connectSource answers => .next (connectSource answers s)
  | .connectSink answers => .next (connectSink answers s)
  | .powerOn => .next (powerOnReset s)

end Sys2Proof.Machine
end

