-- ==== Sys2Proof/Machine/Step.lean ====
section
/-!
DEFINITION. One step: the host's next move. The block fetches nothing (R22, R82); its next instruction is the word of
the host's next CMD write. Without a move it holds its state and does nothing (R205).
-/

namespace Sys2Proof.Machine

/-- One step of the machine. -/
def step (s : State) : Host.Outcome State Fault Refusal :=
  match s.host with
  | [] => .next s
  | m :: rest => hostMove m { s with host := rest }

/-- `s` with the host about to write the word `w` to CMD, and BUSY = 0 so that the write is accepted (R25, R212).
Log entry 5. -/
def State.withFetchWord (s : State) (nbits w : Nat) : State :=
  { s with host := .write cmdOffset (BitVec.ofNat 32 (w % 2 ^ nbits)) :: s.host, busy := false }

end Sys2Proof.Machine
end

