-- ==== Sys2Proof/Safety.lean ====
section
/-!
DEFINITION. The terms claims are stated in: which channel a command belongs to and in which state it is legal (R31, R45,
R87), which codes it can report (R197), the premise that every port answers (R217), and the invariant of the machine:
what holds in every state a run reaches.
-/

namespace Sys2Proof

/-- The commands of the reader channel (R87). -/
def Instr.isReader : Instr → Bool
  | .rOpen => true
  | .rNext => true
  | .rExt => true
  | .rExtBlock => true
  | .rImage => true
  | .rPixels _ => true
  | .reset _ => false
  | .wOpen _ => false
  | .wExt _ => false
  | .wExtBlock _ => false
  | .wExtEnd => false
  | .wImage => false
  | .wPixels _ => false
  | .wTrailer => false

/-- The commands of the writer channel (R87). -/
def Instr.isWriter : Instr → Bool
  | .wOpen _ => true
  | .wExt _ => true
  | .wExtBlock _ => true
  | .wExtEnd => true
  | .wImage => true
  | .wPixels _ => true
  | .wTrailer => true
  | .reset _ => false
  | .rOpen => false
  | .rNext => false
  | .rExt => false
  | .rExtBlock => false
  | .rImage => false
  | .rPixels _ => false

end Sys2Proof

namespace Sys2Proof.Machine

/-- The reader state each reader command is legal in (R31). -/
def readerNeeds : Instr → Option RState
  | .rOpen => some .idle
  | .rNext => some .top
  | .rExt => some .extCode
  | .rExtBlock => some .extData
  | .rImage => some .imgDesc
  | .rPixels _ => some .pixels
  | .reset _ => none
  | .wOpen _ => none
  | .wExt _ => none
  | .wExtBlock _ => none
  | .wExtEnd => none
  | .wImage => none
  | .wPixels _ => none
  | .wTrailer => none

/-- The writer state each writer command is legal in (R45). -/
def writerNeeds : Instr → Option WState
  | .wOpen _ => some .idle
  | .wExt _ => some .top
  | .wExtBlock _ => some .extData
  | .wExtEnd => some .extData
  | .wImage => some .top
  | .wPixels _ => some .pixels
  | .wTrailer => some .top
  | .reset _ => none
  | .rOpen => none
  | .rNext => none
  | .rExt => none
  | .rExtBlock => none
  | .rImage => none
  | .rPixels _ => none

/-- The rejections each command can report, the sticky code apart (R197). -/
def rejectionsOf : Instr → List Status
  | .reset _ => [.illegalCommand]
  | .rOpen => [.invalidSequence]
  | .rNext => [.invalidSequence]
  | .rExt => [.invalidSequence]
  | .rExtBlock => [.invalidSequence]
  | .rImage => [.invalidSequence]
  | .rPixels _ => [.invalidSequence]
  | .wOpen _ => [.invalidSequence]
  | .wExt _ => [.invalidSequence]
  | .wExtBlock _ => [.outOfRange, .invalidSequence]
  | .wExtEnd => [.invalidSequence]
  | .wImage => [.invalidSequence, .corruptData]
  | .wPixels _ => [.invalidSequence, .outOfRange]
  | .wTrailer => [.invalidSequence]

/-- The failures each command can report (R197). -/
def failuresOf : Instr → List Status
  | .reset _ => []
  | .rOpen => [.notAGifFile, .unexpectedEndOfData, .ioError]
  | .rNext => [.corruptData, .unexpectedEndOfData, .ioError]
  | .rExt => [.unexpectedEndOfData, .ioError]
  | .rExtBlock => [.unexpectedEndOfData, .ioError]
  | .rImage => [.corruptData, .unexpectedEndOfData, .rasterOverflow, .ioError]
  | .rPixels _ => [.corruptData, .unexpectedEndOfData, .rasterOverflow, .ioError]
  | .wOpen _ => [.ioError]
  | .wExt _ => [.ioError]
  | .wExtBlock _ => [.ioError]
  | .wExtEnd => [.ioError]
  | .wImage => [.ioError]
  | .wPixels _ => [.ioError]
  | .wTrailer => [.ioError]

/-- The environment answers every `SrcByte` (R217). -/
abbrev sourceAnswers (r : Reader) : Prop := SrcAnswer.never ∉ r.sin

/-- The environment answers every `SinkByte` (R217). -/
abbrev sinkAnswered (w : Writer) : Prop := SinkAnswer.never ∉ w.sinkAnswers

/-- The sink accepts every byte it will be offered. -/
abbrev sinkAccepts (w : Writer) : Prop := ∀ a ∈ w.sinkAnswers, a = SinkAnswer.ok

/-- The sink accepts the next `n` bytes it will be offered, whatever it answers later. -/
abbrev acceptsFirst (n : Nat) (w : Writer) : Prop := ∀ a ∈ w.sinkAnswers.take n, a = SinkAnswer.ok

/-! ### Row tracker -/

/-- How many rows of pass `pass` there are from `row` on, in an image of `h` rows. -/
def rowsFrom (pass row h : Nat) : Nat :=
  (h - row + (interlaceStride pass - 1)) / interlaceStride pass

/-- How many rows the passes after `pass` have. -/
def rowsAfter (h : Nat) : Nat → Nat
  | 0 => rowsFrom 1 4 h + rowsFrom 2 2 h + rowsFrom 3 1 h
  | 1 => rowsFrom 2 2 h + rowsFrom 3 1 h
  | 2 => rowsFrom 3 1 h
  | _ => 0

/-- How many rows are left, the current one among them. -/
def rowsLeft (t : RowTracker) : Nat :=
  if t.il = 1#1 then rowsFrom t.pass.toNat t.row.toNat t.h.toNat + rowsAfter t.h.toNat t.pass.toNat
  else t.h.toNat - t.row.toNat

/-- The tracker stands on a pixel of the raster: row, column and pass are those of a destination (R43, R52, R59). -/
abbrev trackerInside (t : RowTracker) : Prop :=
  t.row.toNat < t.h.toNat ∧ t.col.toNat < t.w.toNat ∧ t.pass.toNat < 4 ∧ (t.il ≠ 1#1 → t.pass = 0#3)

/-- `n` pixels of the raster are left, the one the tracker stands on among them. -/
abbrev trackerLeft (t : RowTracker) (n : Nat) : Prop := n + t.col.toNat = rowsLeft t * t.w.toNat

/-- The raster is complete (D42). -/
abbrev trackerDone (t : RowTracker) : Prop := t.row = t.h ∧ t.col = 0#16 ∧ t.pass = 4#3

/-! ### Reader -/

/-- `str(c)` is defined in the decompressor's dictionary (R138). -/
abbrev codeAssigned (r : Reader) (c : Nat) : Prop :=
  c < r.dClear.toNat ∨ (r.dFirst.toNat ≤ c ∧ c < r.dFree.toNat)

/-- The decompressor's code space is that of its code size (R103, R137). -/
abbrev decoderSpace (r : Reader) : Prop :=
  2 ≤ r.dB.toNat ∧ r.dB.toNat ≤ 8 ∧ r.dClear.toNat = 2 ^ r.dB.toNat ∧ r.dEof.toNat = 2 ^ r.dB.toNat + 1 ∧
  r.dFirst.toNat = 2 ^ r.dB.toNat + 2

/-- Every entry of the dictionary has a root code or a lower assigned code as its prefix and a root code as its suffix
(R138). -/
abbrev dictionaryOk (r : Reader) : Prop :=
  r.dFirst.toNat + r.dDict.length = r.dFree.toNat ∧ r.dFree.toNat ≤ 4096 ∧
  ∀ k, ∀ h : k < r.dDict.length,
    (r.dDict[k].pfx.toNat < r.dClear.toNat ∨
      (r.dFirst.toNat ≤ r.dDict[k].pfx.toNat ∧ r.dDict[k].pfx.toNat < r.dFirst.toNat + k)) ∧
    r.dDict[k].sfx.toNat < 2 ^ r.dB.toNat

/-- The code width is one the spec allows for the code size (R104), and the previous code has a string. -/
abbrev decoderWidth (r : Reader) : Prop :=
  r.dB.toNat + 1 ≤ r.dW.toNat ∧ r.dW.toNat ≤ 12 ∧ (∀ q, r.dPrev = some q → codeAssigned r q.toNat)

/-- The unpacker between two codes (R57). -/
abbrev unpackerOk (r : Reader) : Prop := r.uCnt ≤ 7 ∧ r.uAcc.toNat < 2 ^ r.uCnt

/-- Every pending pixel is a root code (R150). -/
abbrev pendingOk (r : Reader) : Prop := ∀ x ∈ r.dPend, x.toNat < 2 ^ r.dB.toNat

/-- The code width keeps pace with the free-code counter: one code more still fits it, or it is 12 bits (R143, R148); and
without a previous code the dictionary is empty (R144). -/
abbrev decoderPace (r : Reader) : Prop :=
  (r.dFree.toNat < 2 ^ r.dW.toNat ∨ r.dW.toNat = 12) ∧ (r.dPrev = none → r.dFree = r.dFirst)

/-- The decompressor and the unpacker while an image is being read (R56, R57). -/
abbrev DecoderOk (r : Reader) : Prop :=
  decoderSpace r ∧ dictionaryOk r ∧ decoderWidth r ∧ unpackerOk r ∧ pendingOk r ∧ decoderPace r

/-- What holds of the reader in every state a run reaches: R_ERR is 0 exactly outside R_FAILED (R32); in R_PIXELS there
are pixels to deliver (R31), the tracker stands on the next of them, and the decompressor is in order. -/
abbrev ReaderInv (r : Reader) : Prop :=
  (r.state = .failed ↔ r.err ≠ .ok) ∧
  (r.state = .pixels →
    r.pixRemain ≠ 0#32 ∧ trackerInside r.rows ∧ trackerLeft r.rows r.pixRemain.toNat ∧ DecoderOk r)

/-! ### Writer -/

/-- `str(c)` is defined in the compressor's dictionary (R125). -/
abbrev codeKnown (w : Writer) (c : Nat) : Prop :=
  c < w.cClear.toNat ∨ (w.cFirst.toNat ≤ c ∧ c < w.cFree.toNat)

/-- The compressor's code space is that of its code size (R103, R126). -/
abbrev encoderSpace (w : Writer) : Prop :=
  1 ≤ w.bpp.toNat ∧ w.bpp.toNat ≤ 8 ∧ w.cB.toNat = max w.bpp.toNat 2 ∧ w.cClear.toNat = 2 ^ w.cB.toNat ∧
  w.cEof.toNat = 2 ^ w.cB.toNat + 1 ∧ w.cFirst.toNat = 2 ^ w.cB.toNat + 2

/-- The compressor's counter and width, and the bound that makes every code fit its width (R54, R133). -/
abbrev encoderWidth (w : Writer) : Prop :=
  w.cFirst.toNat ≤ w.cFree.toNat ∧ w.cFree.toNat ≤ 4095 ∧ w.cB.toNat + 1 ≤ w.cW.toNat ∧ w.cW.toNat ≤ 12 ∧
  w.cFree.toNat ≤ 2 ^ w.cW.toNat

/-- `C_dict` is a map: no two entries have the same pair, and a newer entry (nearer the front) has a higher code, so no
two have the same code either (R54, R125). -/
abbrev pairsDistinct (w : Writer) : Prop :=
  w.cDict.Pairwise fun e f => ¬(e.pfx = f.pfx ∧ e.pixel = f.pixel) ∧ f.code.toNat < e.code.toNat

/-- Every pair has a known prefix, a pixel of the image and a dictionary code; there is one per assigned code
(R54, R125). -/
abbrev pairsOk (w : Writer) : Prop :=
  w.cFirst.toNat + w.cDict.length = w.cFree.toNat ∧
  (∀ e ∈ w.cDict, codeKnown w e.pfx.toNat ∧ e.pixel.toNat < 2 ^ w.bpp.toNat ∧
    w.cFirst.toNat ≤ e.code.toNat ∧ e.code.toNat < w.cFree.toNat) ∧
  (∀ q, w.cPrefix = some q → codeKnown w q.toNat) ∧ pairsDistinct w

/-- The compressor while an image is being written (R54). -/
abbrev EncoderOk (w : Writer) : Prop := encoderSpace w ∧ encoderWidth w ∧ pairsOk w

/-- The packer between two operations (R55, R114). -/
abbrev packerOk (w : Writer) : Prop :=
  w.pCnt ≤ 7 ∧ w.pAcc.toNat < 2 ^ w.pCnt ∧ w.pBuf.length ≤ 254

/-- The packer as Flush leaves it (R117). -/
abbrev packerEmpty (w : Writer) : Prop := w.pCnt = 0 ∧ w.pAcc = 0#19 ∧ w.pBuf = []

/-- What holds of the writer in every state a run reaches: W_ERR is 0 exactly outside W_FAILED (R46); the global depth
is at most 8 (R48); the reserved bits of W_IMG_PACKED are 0 (R49); in W_PIXELS there are pixels to come (R45), the
tracker stands on the next of them, compressor and packer are in order; outside an image the packer is empty (R117). -/
abbrev WriterInv (w : Writer) : Prop :=
  (w.state = .failed ↔ w.err ≠ .ok) ∧ w.gctBpp.toNat ≤ 8 ∧ w.imgPacked &&& 0x18#8 = 0#8 ∧
  (w.state = .pixels →
    w.pixRemain ≠ 0#32 ∧ trackerInside w.rows ∧ trackerLeft w.rows w.pixRemain.toNat ∧ EncoderOk w ∧ packerOk w) ∧
  (w.state ≠ .pixels → w.state ≠ .failed → packerEmpty w)

/-- What holds in every state a run reaches; BUSY is 0 there (R214). -/
abbrev Inv (s : State) : Prop := s.busy = false ∧ ReaderInv s.reader ∧ WriterInv s.writer

/-! ### Reference terms: what statements compare the machine with -/

/-- The register offsets of R24. -/
def listedOffsets : List Nat :=
  [0x000, 0x004, 0x008, 0x00C, 0x010, 0x014] ++ (List.range 23).map (fun k => 0x100 + 4 * k) ++
    (List.range 16).map (fun k => 0x200 + 4 * k)

/-- The state of R63: every register of R24 reads 0, both FIFOs are empty, and the internal state is the one listed. -/
def atReset (s : State) : Prop :=
  (∀ offset : BitVec 12, readRegister offset s = 0#32) ∧
  s.reader.state = .idle ∧ s.writer.state = .idle ∧ s.last = .ok ∧ s.busy = false ∧
  s.writer.din = [] ∧ s.reader.dout = [] ∧
  s.writer.pAcc = 0#19 ∧ s.writer.pCnt = 0 ∧ s.writer.pBuf = [] ∧ s.writer.cPrefix = none ∧ s.writer.cDict = [] ∧
  s.writer.cB = 0#4 ∧ s.writer.cW = 0#4 ∧ s.writer.cFree = 0#13 ∧ s.writer.bpp = 0#4 ∧ s.writer.cClear = 0#13 ∧
  s.writer.cEof = 0#13 ∧ s.writer.cFirst = 0#13 ∧
  s.reader.uAcc = 0#19 ∧ s.reader.uCnt = 0 ∧ s.reader.uLeft = 0#8 ∧ s.reader.uEnd = false ∧
  s.reader.dPrev = none ∧ s.reader.dPend = [] ∧ s.reader.dDone = false ∧ s.reader.dB = 0#4 ∧ s.reader.dW = 0#4 ∧
  s.reader.dFree = 0#13 ∧ s.reader.dClear = 0#13 ∧ s.reader.dEof = 0#13 ∧ s.reader.dFirst = 0#13 ∧
  s.reader.rows = { row := 0, col := 0, pass := 0, w := 0, h := 0, il := 0 } ∧
  s.writer.rows = { row := 0, col := 0, pass := 0, w := 0, h := 0, il := 0 }

/-- The must-be-zero bits of an opcode's format, as a mask, for the opcodes of R87; reserved opcodes have none (R85). -/
def mustBeZero : Nat → Option Word
  | 0x01 => some 0x00FFFFFC
  | 0x10 => some 0x00FFFFFF
  | 0x11 => some 0x00FFFFFF
  | 0x12 => some 0x00FFFFFF
  | 0x13 => some 0x00FFFFFF
  | 0x14 => some 0x00FFFFFF
  | 0x15 => some 0x00000000
  | 0x20 => some 0x00FFFFFE
  | 0x21 => some 0x00FFFF00
  | 0x22 => some 0x00FFFF00
  | 0x23 => some 0x00FFFFFF
  | 0x24 => some 0x00FFFFFF
  | 0x25 => some 0x00000000
  | 0x26 => some 0x00FFFFFF
  | _ => none

/-- A legal command word (R88, R89). -/
def legalWord (w : Word) : Bool :=
  match mustBeZero (w.toNat / 2 ^ 24) with
  | some mask => w &&& mask == 0#32 && !(w.toNat / 2 ^ 24 == 0x01 && w &&& 0x3#32 == 0#32)
  | none => false

/-- The bytes of the color table that a packed byte announces (R94, R95, R98). -/
def tableSize (packed : Byte) : Nat := if packed.getLsbD 7 then 3 * 2 ^ (packed.toNat % 8 + 1) else 0

/-- How a stream that has come to `tail` answers instead of a byte: the failure of R66, and what is left of it. -/
def streamEnd : List SrcAnswer → Option (Status × List SrcAnswer)
  | [] => some (.unexpectedEndOfData, [])
  | .atEnd :: rest => some (.unexpectedEndOfData, rest)
  | .error :: rest => some (.ioError, rest)
  | .byte _ :: _ => none
  | .never :: _ => none

/-- The rows of an image of `h` rows in the order its pixels come: for an interlaced image all rows of pass 0, then of
passes 1, 2 and 3 (R58, R166, R180). -/
def rasterRows (il : BitVec 1) (h : Nat) : List Nat :=
  if il = 1#1 then
    (List.range h).filter (fun r => r % 8 == 0) ++ (List.range h).filter (fun r => r % 8 == 4) ++
      (List.range h).filter (fun r => r % 4 == 2) ++ (List.range h).filter (fun r => r % 2 == 1)
  else List.range h

/-- The pass a row of an interlaced image belongs to (R58). -/
def passOfRow (r : Nat) : Nat :=
  if r % 8 = 0 then 0 else if r % 8 = 4 then 1 else if r % 4 = 2 then 2 else 3

/-- The tracker after `n` pixels. -/
def rowAdvances : Nat → RowTracker → RowTracker
  | 0, t => t
  | n + 1, t => rowAdvances n (rowAdvance t)

/-- The bit string of a code sequence: the bits of each code, least significant first (R71). -/
def bitString (codes : List (Nat × Nat)) : List Bool :=
  codes.flatMap fun p => (List.range p.2).map fun i => p.1.testBit i

/-- The data bytes of a bit string: bit position `8 j + i` is bit `i` of byte `j`, and the last byte is padded with
zeros (R71, R116). -/
def dataBytes (bits : List Bool) : List Byte :=
  (List.range ((bits.length + 7) / 8)).map fun j =>
    BitVec.ofNat 8 (((List.range 8).map fun i => (bits.getD (8 * j + i) false).toNat * 2 ^ i).sum)

/-- Data bytes in sub-blocks of 255 bytes, the last one shorter where it must be, and the terminator (R106, R124). -/
def framed (d : List Byte) : List Byte :=
  ((List.range ((d.length + 254) / 255)).flatMap fun k =>
    BitVec.ofNat 8 ((d.drop (255 * k)).take 255).length :: (d.drop (255 * k)).take 255) ++ [0x00#8]

/-- Data bytes as they stand in sub-blocks, each after its length byte (R100). -/
def inSubBlocks (blocks : List (List Byte)) : List Byte :=
  blocks.flatMap fun d => BitVec.ofNat 8 d.length :: d

/-- Data bytes as one number, the first byte lowest, so that bit position `8 j + i` of R71 is bit `8 j + i` of it. -/
def bytesNumber : List Byte → Nat
  | [] => 0
  | b :: d => b.toNat + 256 * bytesNumber d

/-- Code number `k` of data bytes that hold codes of one width (R71). -/
def codeAt (d : List Byte) (width k : Nat) : Nat := bytesNumber d / 2 ^ (k * width) % 2 ^ width

/-- WriteCode of each code with its width, in order (R113). -/
def writeCodes : List (Nat × Nat) → Writer → Body Writer Unit
  | [], w => .ok () w
  | p :: ps, w => (writeCode p.1 p.2 w).bind fun _ w => writeCodes ps w

/-- ReadCode of each width, in order (R118). -/
def readCodes : List Nat → Reader → Body Reader (List Nat)
  | [], r => .ok [] r
  | n :: ns, r => (readCode n r).bind fun c r => (readCodes ns r).bind fun cs r => .ok (c :: cs) r

/-- The number of bytes a number of bits fills. -/
def byteCount (bits : Nat) : Nat := (bits + 7) / 8

/-- The low `k` bytes of a number, lowest first. -/
def lowBytes (k v : Nat) : List Byte := (List.range k).map fun j => BitVec.ofNat 8 (v / 256 ^ j)

/-- The pixel string of a code (R138), first pixel first. -/
def pixelsOf (c : Nat) (r : Reader) : Option (List Byte) := (stringOf c r).map fun p => p.1 :: p.2

end Sys2Proof.Machine
end

