-- ==== Sys2Proof/Certificates/Slice0/Obligations.lean ====
section
/-!
DEFINITION. The statements about the block: encodings, the host's accesses, the common command frame, every command of
both channels, the bit buffer, the dictionaries, and the invariant of the whole machine.
-/

open Sys2Proof Sys2Proof.Machine

/-! ### Encoding -/

/-- Words written out from R84 to R87 and the examples of R109 decode to the command they stand for, and the illegal
words of vector V-K1 to none. -/
def Obligations.CommandWordsDecode : Prop :=
  decode 0x01000001#32 = .instr (.reset 1#2) ∧ decode 0x01000003#32 = .instr (.reset 3#2) ∧
  decode 0x10000000#32 = .instr .rOpen ∧ decode 0x13000000#32 = .instr .rExtBlock ∧
  decode 0x15FFFFFF#32 = .instr (.rPixels 0xFFFFFF#24) ∧ decode 0x20000001#32 = .instr (.wOpen 1#1) ∧
  decode 0x210000FE#32 = .instr (.wExt 0xFE#8) ∧ decode 0x22000000#32 = .instr (.wExtBlock 0x00#8) ∧
  decode 0x24000000#32 = .instr .wImage ∧ decode 0x25000010#32 = .instr (.wPixels 16#24) ∧
  decode 0x26000000#32 = .instr .wTrailer ∧
  decode 0x00000000#32 = .illegal .reservedOpcode ∧ decode 0x27000000#32 = .illegal .reservedOpcode ∧
  decode 0x11000001#32 = .illegal .mustBeZero ∧ decode 0x21000100#32 = .illegal .mustBeZero ∧
  decode 0x20000002#32 = .illegal .mustBeZero ∧ decode 0x01000004#32 = .illegal .mustBeZero ∧
  decode 0x01000000#32 = .illegal .selectsNothing

/-- Decoding the encoding of any well-formed command gives it back, whatever its operand. -/
def Obligations.DecodeOfEncode : Prop :=
  ∀ i : Instr, i.wf = true → decode (encode i) = .instr i

/-- A word that decodes to a command is that command's encoding, so no two words stand for one command. -/
def Obligations.EncodeOfDecode : Prop :=
  ∀ (w : Word) (i : Instr), decode w = .instr i → i.wf = true ∧ encode i = w

/-- R89: exactly the 242 opcodes outside the map, the words with a must-be-zero bit set and RESET with SEL = 0 are
illegal, and each of them is rejected with IllegalCommand. -/
def Obligations.IllegalWordsAreThese : Prop :=
  ((List.range 256).filter fun op => (mustBeZero op).isNone).length = 242 ∧
  (∀ w : Word, (∃ i, decode w = .instr i) ↔ legalWord w = true) ∧
  ∀ (w : Word) (s : State), legalWord w = false → issueWord w s = .next { s with last := .illegalCommand }

/-! ### The host's accesses -/

/-- When the word written to CMD decodes to a command and BUSY = 0, the step is that command's meaning, the host's move
being used up (R25, R185). -/
def Obligations.StepRunsDecodedCommand : Prop :=
  ∀ (s : State) (offset : BitVec 12) (w : Word) (rest : List HostMove) (i : Instr),
    s.host = .write offset w :: rest → offset.toNat < 4 → s.busy = false → decode w = .instr i →
    step s = exec i { s with host := rest }

/-- R186: an illegal word (a reserved opcode, a must-be-zero bit, RESET with SEL = 0) is rejected with IllegalCommand the
same way in every state of both channels; nothing else changes, R_ERR and W_ERR among it. -/
def Obligations.IllegalWordRejected : Prop :=
  ∀ (s : State) (w : Word) (rest : List HostMove),
    s.host = .write cmdOffset w :: rest → s.busy = false → legalWord w = false →
    step s = .next { s with host := rest, last := .illegalCommand }

/-- R27: a write to DIN appends bits [7:0] of the value to the tail of the FIFO, whatever bits [31:8] are; a read of DIN
returns 0. -/
def Obligations.DinWriteAppends : Prop :=
  (∀ (s : State) (high : BitVec 24) (b : Byte) (rest : List HostMove),
    s.host = .write 0x008#12 (high ++ b) :: rest → s.busy = false →
    step s = .next { s with host := rest, writer := { s.writer with din := s.writer.din ++ [b] } }) ∧
  ∀ (s : State) (rest : List HostMove), s.host = .read 0x008#12 :: rest →
    step s = .next { s with host := rest, readData := 0#32 }

/-- R28: a read of DOUT removes the oldest byte and returns it with VALID = 1; of an empty FIFO it returns 0 and changes
nothing. -/
def Obligations.DoutReadPops : Prop :=
  (∀ (s : State) (b : Byte) (more : List Byte) (rest : List HostMove),
    s.host = .read 0x00C#12 :: rest → s.busy = false → s.reader.dout = b :: more →
    step s = .next { s with
      host := rest, readData := 0x000001#24 ++ b, reader := { s.reader with dout := more } }) ∧
  ∀ (s : State) (rest : List HostMove), s.host = .read 0x00C#12 :: rest → s.busy = false → s.reader.dout = [] →
    step s = .next { s with host := rest, readData := 0#32 }

/-- R75, R212: a read of any register but DOUT only returns its value, a write to any register but CMD and DIN is
ignored, and a CMD write while BUSY = 1 is not executed, not queued and writes nothing, not even STATUS.LAST. -/
def Obligations.OtherAccessesHaveNoEffect : Prop :=
  (∀ (s : State) (offset : BitVec 12) (rest : List HostMove),
    s.host = .read offset :: rest → offset.toNat / 4 ≠ 0x00C / 4 →
    step s = .next { s with host := rest, readData := readRegister offset s }) ∧
  ∀ (s : State) (offset : BitVec 12) (value : Word) (rest : List HostMove),
    s.host = .write offset value :: rest → (offset.toNat / 4 ≠ 0 ∨ s.busy = true) → offset.toNat / 4 ≠ 0x008 / 4 →
    step s = .next { s with host := rest }

/-- The registers of R24 hold what R26 to R53 say, each zero-extended to 32 bits, with the numbers of R31, R37, R45 and
R191; a read ignores bits [1:0] of its offset (R74), and every offset outside the map reads 0 (R76). That a count of 2^32
bytes or more reads modulo 2^32 (0x010 and 0x014) is the model's choice: log entry 10. -/
def Obligations.RegisterMap : Prop :=
  ∀ s : State,
    readRegister 0x000 s = 0#32 ∧
    (∀ p ∈ [(Status.ok, 0x0#32), (.notAGifFile, 0x1#32), (.corruptData, 0x2#32), (.unexpectedEndOfData, 0x3#32),
        (.invalidSequence, 0x4#32), (.outOfRange, 0x5#32), (.ioError, 0x6#32), (.outOfMemory, 0x7#32),
        (.rasterOverflow, 0x8#32), (.illegalCommand, 0x9#32)],
      (s.last = p.1 → s.busy = false → readRegister 0x004 s = p.2) ∧
      (s.last = p.1 → s.busy = true → readRegister 0x004 s = 0x100#32 + p.2) ∧
      (s.reader.err = p.1 → readRegister 0x104 s = p.2) ∧
      (s.writer.err = p.1 → readRegister 0x204 s = p.2)) ∧
    readRegister 0x008 s = 0#32 ∧
    (s.reader.dout = [] → readRegister 0x00C s = 0#32) ∧
    (∀ (b : Byte) (more : List Byte), s.reader.dout = b :: more → readRegister 0x00C s = 0x000001#24 ++ b) ∧
    readRegister 0x010 s = BitVec.ofNat 32 s.writer.din.length ∧
    readRegister 0x014 s = BitVec.ofNat 32 s.reader.dout.length ∧
    (∀ p ∈ [(RState.idle, 0#32), (.top, 1#32), (.extCode, 2#32), (.extData, 3#32), (.imgDesc, 4#32), (.pixels, 5#32),
        (.done, 6#32), (.failed, 7#32)], s.reader.state = p.1 → readRegister 0x100 s = p.2) ∧
    readRegister 0x108 s = s.reader.version.setWidth 32 ∧
    readRegister 0x10C s = s.reader.scrW.setWidth 32 ∧
    readRegister 0x110 s = s.reader.scrH.setWidth 32 ∧
    readRegister 0x114 s = s.reader.scrPacked.setWidth 32 ∧
    readRegister 0x118 s = s.reader.bg.setWidth 32 ∧
    readRegister 0x11C s = s.reader.aspect.setWidth 32 ∧
    (∀ p ∈ [(RecType.none, 0#32), (.extension, 1#32), (.image, 2#32), (.trailer, 3#32)],
      s.reader.recType = p.1 → readRegister 0x120 s = p.2) ∧
    readRegister 0x124 s = s.reader.extCode.setWidth 32 ∧
    readRegister 0x128 s = s.reader.subLen.setWidth 32 ∧
    readRegister 0x12C s = s.reader.imgLeft.setWidth 32 ∧
    readRegister 0x130 s = s.reader.imgTop.setWidth 32 ∧
    readRegister 0x134 s = s.reader.imgW.setWidth 32 ∧
    readRegister 0x138 s = s.reader.imgH.setWidth 32 ∧
    readRegister 0x13C s = s.reader.imgPacked.setWidth 32 ∧
    readRegister 0x140 s = s.reader.codeSize.setWidth 32 ∧
    readRegister 0x144 s = s.reader.pixRemain ∧
    readRegister 0x148 s = s.reader.rows.row.setWidth 32 ∧
    readRegister 0x14C s = s.reader.rows.col.setWidth 32 ∧
    readRegister 0x150 s = s.reader.rows.pass.setWidth 32 ∧
    readRegister 0x154 s = s.reader.dW.setWidth 32 ∧
    readRegister 0x158 s = s.reader.dFree.setWidth 32 ∧
    (∀ p ∈ [(WState.idle, 0#32), (.top, 1#32), (.extData, 2#32), (.pixels, 3#32), (.done, 4#32), (.failed, 5#32)],
      s.writer.state = p.1 → readRegister 0x200 s = p.2) ∧
    readRegister 0x208 s = s.writer.version.setWidth 32 ∧
    readRegister 0x20C s = s.writer.gctBpp.setWidth 32 ∧
    readRegister 0x210 s = s.writer.imgW.setWidth 32 ∧
    readRegister 0x214 s = s.writer.imgH.setWidth 32 ∧
    readRegister 0x218 s = s.writer.imgPacked.setWidth 32 ∧
    readRegister 0x21C s = s.writer.bpp.setWidth 32 ∧
    readRegister 0x220 s = s.writer.codeSize.setWidth 32 ∧
    readRegister 0x224 s = s.writer.pixRemain ∧
    readRegister 0x228 s = s.writer.rows.row.setWidth 32 ∧
    readRegister 0x22C s = s.writer.rows.col.setWidth 32 ∧
    readRegister 0x230 s = s.writer.rows.pass.setWidth 32 ∧
    readRegister 0x234 s = s.writer.cW.setWidth 32 ∧
    readRegister 0x238 s = s.writer.cFree.setWidth 32 ∧
    (s.writer.pBuf.length ≤ 254 → readRegister 0x23C s = BitVec.ofNat 32 s.writer.pBuf.length) ∧
    (∀ a b : BitVec 12, a.toNat / 4 = b.toNat / 4 → readRegister a s = readRegister b s) ∧
    ∀ a : BitVec 12, 4 * (a.toNat / 4) ∉ listedOffsets → readRegister a s = 0#32

/-- R63: after power-on reset, and after RESET 3, every register of R24 reads 0, both FIFOs are empty and the internal
state is the one listed; RESET 1 and RESET 2 leave the other half alone. -/
def Obligations.ResetValues : Prop :=
  atReset State.reset ∧
  (∀ (s : State) (rest : List HostMove), s.host = .powerOn :: rest → ∃ t, step s = .next t ∧ atReset t) ∧
  (∀ s : State, s.busy = false → ∃ t, exec (.reset 3#2) s = .next t ∧ atReset t) ∧
  ∀ s : State,
    (∃ t, exec (.reset 1#2) s = .next t ∧ t.writer = s.writer ∧ (∀ t3, exec (.reset 3#2) s = .next t3 →
      t.reader = t3.reader)) ∧
    ∃ t, exec (.reset 2#2) s = .next t ∧ t.reader = s.reader ∧ (∀ t3, exec (.reset 3#2) s = .next t3 →
      t.writer = t3.writer)

/-! ### The common command frame -/

/-- R195: a command of a failed channel, RESET apart, is rejected with the channel's failure code and has no other
effect; a command of the other channel does the same whatever the failed channel holds. -/
def Obligations.FailedChannelRejects : Prop :=
  (∀ (i : Instr) (s : State), i.isReader = true → s.reader.state = .failed →
    exec i s = .next { s with last := s.reader.err }) ∧
  (∀ (i : Instr) (s : State), i.isWriter = true → s.writer.state = .failed →
    exec i s = .next { s with last := s.writer.err }) ∧
  (∀ (i : Instr) (s t : State) (r : Reader), i.isWriter = true → s.reader.state = .failed → exec i s = .next t →
    exec i { s with reader := r } = .next { t with reader := r }) ∧
  ∀ (i : Instr) (s t : State) (w : Writer), i.isReader = true → s.writer.state = .failed → exec i s = .next t →
    exec i { s with writer := w } = .next { t with writer := w }

/-- R194 case (a), R31, R45: a command that is not legal in its channel's state is rejected with InvalidSequence and
changes nothing else, R_DONE and W_DONE included; RESET is legal in every state. -/
def Obligations.OutOfSequenceRejects : Prop :=
  (∀ (i : Instr) (s : State) (need : RState), readerNeeds i = some need → s.reader.state ≠ .failed →
    s.reader.state ≠ need → exec i s = .next { s with last := .invalidSequence }) ∧
  (∀ (i : Instr) (s : State) (need : WState), writerNeeds i = some need → s.writer.state ≠ .failed →
    s.writer.state ≠ need → exec i s = .next { s with last := .invalidSequence }) ∧
  ∀ (sel : BitVec 2) (s : State), sel ≠ 0#2 → ∃ t, exec (.reset sel) s = .next t ∧ t.last = .ok

/-- R196: the checks a command makes of its own come in the order of its rule, each a rejection that changes only
STATUS.LAST: W_EXT_BLOCK its length, then DIN; W_IMAGE DIN for the descriptor, DIN for the table, then the color table;
W_PIXELS the count, DIN, then the pixels; R_PIXELS and W_OPEN theirs. -/
def Obligations.ChecksInOrder : Prop :=
  (∀ (s : State) (imm8 : Byte), s.writer.state = .extData →
    (imm8 = 0#8 → exec (.wExtBlock imm8) s = .next { s with last := .outOfRange }) ∧
    (imm8 ≠ 0#8 → s.writer.din.length < imm8.toNat →
      exec (.wExtBlock imm8) s = .next { s with last := .invalidSequence })) ∧
  (∀ s : State, s.writer.state = .top →
    (s.writer.din.length < 9 → exec .wImage s = .next { s with last := .invalidSequence }) ∧
    (9 ≤ s.writer.din.length → s.writer.din.length < 9 + tableSize (s.writer.din.getD 8 0#8) →
      exec .wImage s = .next { s with last := .invalidSequence }) ∧
    (9 + tableSize (s.writer.din.getD 8 0#8) ≤ s.writer.din.length → tableSize (s.writer.din.getD 8 0#8) = 0 →
      s.writer.gctBpp = 0#4 → exec .wImage s = .next { s with last := .corruptData })) ∧
  (∀ (s : State) (count : BitVec 24), s.writer.state = .pixels →
    (s.writer.pixRemain.toNat < count.toNat →
      exec (.wPixels count) s = .next { s with last := .invalidSequence }) ∧
    (count.toNat ≤ s.writer.pixRemain.toNat → s.writer.din.length < count.toNat →
      exec (.wPixels count) s = .next { s with last := .invalidSequence }) ∧
    (count.toNat ≤ s.writer.pixRemain.toNat → count.toNat ≤ s.writer.din.length →
      (∃ p ∈ s.writer.din.take count.toNat, 2 ^ s.writer.bpp.toNat ≤ p.toNat) →
      exec (.wPixels count) s = .next { s with last := .outOfRange })) ∧
  (∀ (s : State) (count : BitVec 24), s.reader.state = .pixels → s.reader.pixRemain.toNat < count.toNat →
    exec (.rPixels count) s = .next { s with last := .invalidSequence }) ∧
  ∀ (s : State) (v89a : BitVec 1), s.writer.state = .idle →
    (s.writer.din.length < 7 ∨ s.writer.din.length < 7 + tableSize (s.writer.din.getD 4 0#8)) →
    exec (.wOpen v89a) s = .next { s with last := .invalidSequence }

/-- R197: what each command can report. A command that answers ends with Ok, with a rejection of its row (or the sticky
code of its failed channel), or with a failure of its row that its channel records. RESET is rejected with SEL = 0 only:
its word is illegal (R89), and that exec of such a RESET gives the same rejection is the model's choice (log entry 19). -/
def Obligations.ReportableCodes : Prop :=
  (∀ (i : Instr) (s t : State), exec i s = .next t →
    t.last = .ok ∨
    (t = { s with last := t.last } ∧
      (t.last ∈ rejectionsOf i ∨
        (i.isReader = true ∧ s.reader.state = .failed ∧ t.last = s.reader.err) ∨
        (i.isWriter = true ∧ s.writer.state = .failed ∧ t.last = s.writer.err))) ∨
    (t.last ∈ failuresOf i ∧
      ((i.isReader = true ∧ t.reader.state = .failed ∧ t.reader.err = t.last) ∨
        (i.isWriter = true ∧ t.writer.state = .failed ∧ t.writer.err = t.last)))) ∧
  (∀ (s t : State) (sel : BitVec 2), exec (.reset sel) s = .next t →
    (sel = 0#2 ∧ t = { s with last := .illegalCommand }) ∨ (sel ≠ 0#2 ∧ t.last = .ok)) ∧
  ∀ (w : Word) (s : State), legalWord w = false → issueWord w s = .next { s with last := .illegalCommand }

/-- R192: a command word whose command does not end with Ok and does not fail its channel has changed nothing but
STATUS.LAST. -/
def Obligations.RejectionChangesOnlyLast : Prop :=
  ∀ (word : Word) (s t : State), issueWord word s = .next t → t.last ≠ .ok →
    (t.reader.state = .failed → s.reader.state = .failed) → (t.writer.state = .failed → s.writer.state = .failed) →
    t = { s with last := t.last }

/-- R193: a failure is recorded in STATUS.LAST and in its channel, which enters X_FAILED, and the channel stays so, with
its code, through every command but a RESET selecting it. Of the bytes moved this says only that a failing command takes
none back that stood there before it: SIN is only read on, DOUT only pushed to, DIN only popped, SOUT only appended to.
Which effects a failing command keeps, the statements about each command say. -/
def Obligations.FailureIsRecordedAndSticky : Prop :=
  (∀ (i : Instr) (s t : State), exec i s = .next t → s.reader.state ≠ .failed → t.reader.state = .failed →
    i.isReader = true ∧ t.reader.err = t.last ∧ t.last ∈ failuresOf i ∧ t.writer = s.writer ∧
    t.reader.sin <:+ s.reader.sin ∧ s.reader.dout <+: t.reader.dout) ∧
  (∀ (i : Instr) (s t : State), exec i s = .next t → s.writer.state ≠ .failed → t.writer.state = .failed →
    i.isWriter = true ∧ t.writer.err = t.last ∧ t.last ∈ failuresOf i ∧ t.reader = s.reader ∧
    t.writer.din <:+ s.writer.din ∧ s.writer.sout <+: t.writer.sout) ∧
  (∀ (i : Instr) (s t : State), exec i s = .next t → s.reader.state = .failed →
    (∀ sel, i = .reset sel → sel.getLsbD 0 = false) → t.reader = s.reader) ∧
  ∀ (i : Instr) (s t : State), exec i s = .next t → s.writer.state = .failed →
    (∀ sel, i = .reset sel → sel.getLsbD 1 = false) → t.writer = s.writer

/-- R187: a reader command's outcome depends on the reader alone and changes only the reader and STATUS.LAST; a writer
command's depends on the writer alone and changes only the writer and STATUS.LAST. -/
def Obligations.ChannelIsolation : Prop :=
  (∀ (i : Instr) (s t : State), i.isReader = true → exec i s = .next t →
    t = { s with reader := t.reader, last := t.last }) ∧
  (∀ (i : Instr) (s t : State), i.isWriter = true → exec i s = .next t →
    t = { s with writer := t.writer, last := t.last }) ∧
  (∀ (i : Instr) (s s' t : State), i.isReader = true → s'.reader = s.reader → exec i s = .next t →
    exec i s' = .next { s' with reader := t.reader, last := t.last }) ∧
  ∀ (i : Instr) (s s' t : State), i.isWriter = true → s'.writer = s.writer → exec i s = .next t →
    exec i s' = .next { s' with writer := t.writer, last := t.last }

/-- R66 to R69: no command takes back what a port has moved. SIN is only read on and SOUT only written on, RESET
touching neither; but for RESET, DOUT is only pushed to and DIN only popped from. -/
def Obligations.StreamsMoveForward : Prop :=
  ∀ (i : Instr) (s t : State), exec i s = .next t →
    t.reader.sin <:+ s.reader.sin ∧ s.reader.sinRead ≤ t.reader.sinRead ∧ s.writer.sout <+: t.writer.sout ∧
    t.writer.sinkAnswers <:+ s.writer.sinkAnswers ∧
    (∀ sel, i = .reset sel → t.reader.sin = s.reader.sin ∧ t.writer.sout = s.writer.sout) ∧
    ((∀ sel, i ≠ .reset sel) → s.reader.dout <+: t.reader.dout ∧ t.writer.din <:+ s.writer.din)

/-! ### RESET -/

/-- R184: `RESET SEL` answers Ok in every state of both channels and returns the selected ones to their reset state,
every register and every internal element to 0, NONE or empty; the other channel, SIN and SOUT stay. SEL = 0 is
illegal. -/
def Obligations.ResetCommand : Prop :=
  decode 0x01000001#32 = .instr (.reset 1#2) ∧ decode 0x01000002#32 = .instr (.reset 2#2) ∧
  decode 0x01000003#32 = .instr (.reset 3#2) ∧
  (∀ s : State, issueWord 0x01000000#32 s = .next { s with last := .illegalCommand }) ∧
  ∀ (sel : BitVec 2) (s : State), sel ≠ 0#2 →
    exec (.reset sel) s = .next { s with
      last := .ok
      reader := if sel.getLsbD 0 then
          { state := .idle, err := .ok, version := 0, scrW := 0, scrH := 0, scrPacked := 0, bg := 0, aspect := 0,
            recType := .none, extCode := 0, subLen := 0, imgLeft := 0, imgTop := 0, imgW := 0, imgH := 0,
            imgPacked := 0, codeSize := 0, pixRemain := 0,
            rows := { row := 0, col := 0, pass := 0, w := 0, h := 0, il := 0 },
            dB := 0, dClear := 0, dEof := 0, dFirst := 0, dW := 0, dFree := 0, dPrev := none, dDict := [],
            dPend := [], dDone := false, uAcc := 0, uCnt := 0, uLeft := 0, uEnd := false, dout := [],
            sin := s.reader.sin, sinRead := s.reader.sinRead }
        else s.reader
      writer := if sel.getLsbD 1 then
          { state := .idle, err := .ok, version := 0, gctBpp := 0, imgW := 0, imgH := 0, imgPacked := 0, bpp := 0,
            codeSize := 0, pixRemain := 0, rows := { row := 0, col := 0, pass := 0, w := 0, h := 0, il := 0 },
            cB := 0, cClear := 0, cEof := 0, cFirst := 0, cW := 0, cFree := 0, cPrefix := none, cDict := [],
            pAcc := 0, pCnt := 0, pBuf := [], din := [], sinkAnswers := s.writer.sinkAnswers, sout := s.writer.sout,
            draws := s.writer.draws }
        else s.writer }

/-! ### The reader's commands -/

/-- R153: `R_OPEN`. On a legal header it answers Ok with the version, the screen descriptor and the global table's bytes
in DOUT; six other bytes are NotAGifFile; a stream that ends or errs inside the header fails there, with what was read
before it kept. -/
def Obligations.ROpenReadsHeader : Prop :=
  decode 0x10000000#32 = .instr .rOpen ∧
  (∀ s : State, s.reader.state ≠ .failed → s.reader.state ≠ .idle →
    exec .rOpen s = .next { s with last := .invalidSequence }) ∧
  (∀ (s : State) (v d0 d1 d2 d3 d4 d5 d6 : Byte) (table : List Byte) (rest : List SrcAnswer),
    s.reader.state = .idle → v = 0x37#8 ∨ v = 0x39#8 → table.length = tableSize d4 →
    s.reader.sin =
      ([0x47#8, 0x49#8, 0x46#8, 0x38#8, v, 0x61#8, d0, d1, d2, d3, d4, d5, d6] ++ table).map .byte ++ rest →
    exec .rOpen s = .next { s with
      last := .ok
      reader := { s.reader with
        state := .top, recType := .none, version := if v = 0x39#8 then 1#1 else 0#1,
        scrW := d1 ++ d0, scrH := d3 ++ d2, scrPacked := d4, bg := d5, aspect := d6,
        dout := s.reader.dout ++ table, sin := rest, sinRead := s.reader.sinRead + 13 + table.length } }) ∧
  (∀ (s : State) (sig : List Byte) (rest : List SrcAnswer),
    s.reader.state = .idle → sig.length = 6 → sig ≠ [0x47#8, 0x49#8, 0x46#8, 0x38#8, 0x37#8, 0x61#8] →
    sig ≠ [0x47#8, 0x49#8, 0x46#8, 0x38#8, 0x39#8, 0x61#8] → s.reader.sin = sig.map .byte ++ rest →
    exec .rOpen s = .next { s with
      last := .notAGifFile
      reader := { s.reader with
        state := .failed, err := .notAGifFile, sin := rest, sinRead := s.reader.sinRead + 6 } }) ∧
  ∀ (s : State) (got : List Byte) (tail rest : List SrcAnswer) (e : Status),
    s.reader.state = .idle → s.reader.sin = got.map .byte ++ tail → streamEnd tail = some (e, rest) →
    (got.length < 6 ∨
      (got.take 6 = [0x47#8, 0x49#8, 0x46#8, 0x38#8, 0x37#8, 0x61#8] ∨
        got.take 6 = [0x47#8, 0x49#8, 0x46#8, 0x38#8, 0x39#8, 0x61#8]) ∧
      got.length < 13 + tableSize (got.getD 10 0#8)) →
    exec .rOpen s = .next { s with
      last := e
      reader := { s.reader with
        state := .failed, err := e, sin := rest, sinRead := s.reader.sinRead + got.length,
        version := if got.length < 6 then s.reader.version else if got.getD 4 0#8 = 0x39#8 then 1#1 else 0#1,
        scrW := if got.length < 13 then s.reader.scrW else got.getD 7 0#8 ++ got.getD 6 0#8,
        scrH := if got.length < 13 then s.reader.scrH else got.getD 9 0#8 ++ got.getD 8 0#8,
        scrPacked := if got.length < 13 then s.reader.scrPacked else got.getD 10 0#8,
        bg := if got.length < 13 then s.reader.bg else got.getD 11 0#8,
        aspect := if got.length < 13 then s.reader.aspect else got.getD 12 0#8,
        dout := s.reader.dout ++ got.drop 13 } }

/-- R156: `R_NEXT` reads one introducer: 0x21, 0x2C and 0x3B give the record kind and the next state, any other byte is
CorruptData with R_REC_TYPE kept, and a stream that ends or errs there fails. -/
def Obligations.RNextReadsIntroducer : Prop :=
  decode 0x11000000#32 = .instr .rNext ∧
  (∀ s : State, s.reader.state ≠ .failed → s.reader.state ≠ .top →
    exec .rNext s = .next { s with last := .invalidSequence }) ∧
  (∀ (s : State) (x : Byte) (rest : List SrcAnswer), s.reader.state = .top → s.reader.sin = .byte x :: rest →
    (x = 0x21#8 → exec .rNext s = .next { s with
      last := .ok
      reader := { s.reader with
        recType := .extension, state := .extCode, sin := rest, sinRead := s.reader.sinRead + 1 } }) ∧
    (x = 0x2C#8 → exec .rNext s = .next { s with
      last := .ok
      reader := { s.reader with
        recType := .image, state := .imgDesc, sin := rest, sinRead := s.reader.sinRead + 1 } }) ∧
    (x = 0x3B#8 → exec .rNext s = .next { s with
      last := .ok
      reader := { s.reader with
        recType := .trailer, state := .done, sin := rest, sinRead := s.reader.sinRead + 1 } }) ∧
    (x ≠ 0x21#8 → x ≠ 0x2C#8 → x ≠ 0x3B#8 → exec .rNext s = .next { s with
      last := .corruptData
      reader := { s.reader with
        err := .corruptData, state := .failed, sin := rest, sinRead := s.reader.sinRead + 1 } })) ∧
  ∀ (s : State) (rest : List SrcAnswer) (e : Status), s.reader.state = .top →
    streamEnd s.reader.sin = some (e, rest) →
    exec .rNext s = .next { s with last := e, reader := { s.reader with err := e, state := .failed, sin := rest } }

/-- R158: `R_EXT` reads the function code, whatever its value; a stream that ends or errs there fails. -/
def Obligations.RExtReadsCode : Prop :=
  decode 0x12000000#32 = .instr .rExt ∧
  (∀ s : State, s.reader.state ≠ .failed → s.reader.state ≠ .extCode →
    exec .rExt s = .next { s with last := .invalidSequence }) ∧
  (∀ (s : State) (x : Byte) (rest : List SrcAnswer), s.reader.state = .extCode → s.reader.sin = .byte x :: rest →
    exec .rExt s = .next { s with
      last := .ok
      reader := { s.reader with
        extCode := x, state := .extData, sin := rest, sinRead := s.reader.sinRead + 1 } }) ∧
  ∀ (s : State) (rest : List SrcAnswer) (e : Status), s.reader.state = .extCode →
    streamEnd s.reader.sin = some (e, rest) →
    exec .rExt s = .next { s with last := e, reader := { s.reader with err := e, state := .failed, sin := rest } }

/-- R159: `R_EXT_BLOCK` reads one sub-block into DOUT, or the terminator, which ends the extension; where the stream ends
or errs inside the sub-block, R_SUBLEN and the bytes already pushed stay. -/
def Obligations.RExtBlockReadsSubBlock : Prop :=
  decode 0x13000000#32 = .instr .rExtBlock ∧
  (∀ s : State, s.reader.state ≠ .failed → s.reader.state ≠ .extData →
    exec .rExtBlock s = .next { s with last := .invalidSequence }) ∧
  (∀ (s : State) (rest : List SrcAnswer), s.reader.state = .extData → s.reader.sin = .byte 0#8 :: rest →
    exec .rExtBlock s = .next { s with
      last := .ok
      reader := { s.reader with
        subLen := 0#8, state := .top, sin := rest, sinRead := s.reader.sinRead + 1 } }) ∧
  (∀ (s : State) (l : Byte) (d : List Byte) (rest : List SrcAnswer), s.reader.state = .extData → l ≠ 0#8 →
    d.length = l.toNat → s.reader.sin = .byte l :: d.map .byte ++ rest →
    exec .rExtBlock s = .next { s with
      last := .ok
      reader := { s.reader with
        subLen := l, dout := s.reader.dout ++ d, sin := rest, sinRead := s.reader.sinRead + 1 + d.length } }) ∧
  (∀ (s : State) (l : Byte) (got : List Byte) (tail rest : List SrcAnswer) (e : Status), s.reader.state = .extData →
    got.length < l.toNat → s.reader.sin = .byte l :: got.map .byte ++ tail → streamEnd tail = some (e, rest) →
    exec .rExtBlock s = .next { s with
      last := e
      reader := { s.reader with
        state := .failed, err := e, subLen := l, dout := s.reader.dout ++ got, sin := rest,
        sinRead := s.reader.sinRead + 1 + got.length } }) ∧
  ∀ (s : State) (rest : List SrcAnswer) (e : Status), s.reader.state = .extData →
    streamEnd s.reader.sin = some (e, rest) →
    exec .rExtBlock s = .next { s with
      last := e, reader := { s.reader with err := e, state := .failed, sin := rest } }

/-- R161 and R162, W x H > 0: `R_IMAGE` records the descriptor, pushes the local table to DOUT and starts the unpacker,
the decompressor, the pixel count and the row tracker; no code is read yet. -/
def Obligations.RImageStarts : Prop :=
  ∀ (s : State) (d0 d1 d2 d3 d4 d5 d6 d7 d8 b : Byte) (table : List Byte) (rest : List SrcAnswer),
    s.reader.state = .imgDesc → table.length = tableSize d8 → 2 ≤ b.toNat → b.toNat ≤ 8 →
    (d5 ++ d4 : Half) ≠ 0#16 → (d7 ++ d6 : Half) ≠ 0#16 →
    s.reader.sin = ([d0, d1, d2, d3, d4, d5, d6, d7, d8] ++ table ++ [b]).map .byte ++ rest →
    exec .rImage s = .next { s with
      last := .ok
      reader := { s.reader with
        state := .pixels, imgLeft := d1 ++ d0, imgTop := d3 ++ d2, imgW := d5 ++ d4, imgH := d7 ++ d6,
        imgPacked := d8, codeSize := b,
        pixRemain := BitVec.ofNat 32 ((d5 ++ d4 : Half).toNat * (d7 ++ d6 : Half).toNat),
        rows := { row := 0, col := 0, pass := 0, w := d5 ++ d4, h := d7 ++ d6, il := BitVec.ofBool (d8.getLsbD 6) },
        dB := BitVec.ofNat 4 b.toNat, dClear := BitVec.ofNat 13 (2 ^ b.toNat),
        dEof := BitVec.ofNat 13 (2 ^ b.toNat + 1), dFirst := BitVec.ofNat 13 (2 ^ b.toNat + 2),
        dFree := BitVec.ofNat 13 (2 ^ b.toNat + 2), dW := BitVec.ofNat 4 (b.toNat + 1), dPrev := none, dDict := [],
        dPend := [], dDone := false, uAcc := 0, uCnt := 0, uLeft := 0, uEnd := false,
        dout := s.reader.dout ++ table, sin := rest, sinRead := s.reader.sinRead + 10 + table.length } }

/-- R163: after a successful R_IMAGE of an image with W x H > 0, R_CODEWIDTH, R_FREE and R_PIX_REMAIN are b + 1,
2^b + 2 and W x H, and the tracker stands at row 0, column 0, pass 0, interlaced or not. -/
def Obligations.RImageLeavesFirstPixel : Prop :=
  ∀ s t : State, s.reader.state = .imgDesc → exec .rImage s = .next t → t.last = .ok →
    0 < t.reader.imgW.toNat * t.reader.imgH.toNat →
    readRegister 0x154 t = BitVec.ofNat 32 (t.reader.codeSize.toNat + 1) ∧
    readRegister 0x158 t = BitVec.ofNat 32 (2 ^ t.reader.codeSize.toNat + 2) ∧
    (readRegister 0x144 t).toNat = t.reader.imgW.toNat * t.reader.imgH.toNat ∧
    readRegister 0x148 t = 0#32 ∧ readRegister 0x14C t = 0#32 ∧ readRegister 0x150 t = 0#32

/-- R162 and R112: a code size byte outside 2 to 8 is CorruptData, with the descriptor and the byte recorded; and a stream
that ends or errs inside the descriptor, the table or before the code size fails there. -/
def Obligations.RImageFailures : Prop :=
  (∀ (s : State) (d0 d1 d2 d3 d4 d5 d6 d7 d8 b : Byte) (table : List Byte) (rest : List SrcAnswer),
    s.reader.state = .imgDesc → table.length = tableSize d8 → b.toNat < 2 ∨ 8 < b.toNat →
    s.reader.sin = ([d0, d1, d2, d3, d4, d5, d6, d7, d8] ++ table ++ [b]).map .byte ++ rest →
    exec .rImage s = .next { s with
      last := .corruptData
      reader := { s.reader with
        state := .failed, err := .corruptData, imgLeft := d1 ++ d0, imgTop := d3 ++ d2, imgW := d5 ++ d4,
        imgH := d7 ++ d6, imgPacked := d8, codeSize := b, dout := s.reader.dout ++ table, sin := rest,
        sinRead := s.reader.sinRead + 10 + table.length } }) ∧
  ∀ (s : State) (got : List Byte) (tail rest : List SrcAnswer) (e : Status),
    s.reader.state = .imgDesc → s.reader.sin = got.map .byte ++ tail → streamEnd tail = some (e, rest) →
    got.length ≤ 9 + tableSize (got.getD 8 0#8) →
    exec .rImage s = .next { s with
      last := e
      reader := { s.reader with
        state := .failed, err := e, sin := rest, sinRead := s.reader.sinRead + got.length,
        imgLeft := if got.length < 9 then s.reader.imgLeft else got.getD 1 0#8 ++ got.getD 0 0#8,
        imgTop := if got.length < 9 then s.reader.imgTop else got.getD 3 0#8 ++ got.getD 2 0#8,
        imgW := if got.length < 9 then s.reader.imgW else got.getD 5 0#8 ++ got.getD 4 0#8,
        imgH := if got.length < 9 then s.reader.imgH else got.getD 7 0#8 ++ got.getD 6 0#8,
        imgPacked := if got.length < 9 then s.reader.imgPacked else got.getD 8 0#8,
        dout := s.reader.dout ++ got.drop 9 } }

/-- R162 and R147, W x H = 0. On image data of any number of Clear Codes and then the EOF Code, in whatever sub-blocks,
R_IMAGE reads the whole image data, drops the pad bits and the rest of the EOF Code's sub-block, and goes back to R_TOP
(D14, R132, V-F12). On any image data it ends as the epilogue of the reader it has started does; and the epilogue (R147)
fails with RasterOverflow while pixels are pending, runs SkipToTerminator (R120) once the EOF Code has been read, and
otherwise reads one code more, failing where that fails. -/
def Obligations.RImageEmptyRaster : Prop :=
  (∀ (s : State) (d0 d1 d2 d3 d4 d5 d6 d7 d8 b : Byte) (table : List Byte) (rest : List SrcAnswer) (started : Reader),
    s.reader.state = .imgDesc → table.length = tableSize d8 → 2 ≤ b.toNat → b.toNat ≤ 8 →
    (d5 ++ d4 : Half).toNat * (d7 ++ d6 : Half).toNat = 0 →
    s.reader.sin = ([d0, d1, d2, d3, d4, d5, d6, d7, d8] ++ table ++ [b]).map .byte ++ rest →
    started = { s.reader with
      imgLeft := d1 ++ d0, imgTop := d3 ++ d2, imgW := d5 ++ d4, imgH := d7 ++ d6, imgPacked := d8, codeSize := b,
      pixRemain := 0#32,
      rows := { row := 0, col := 0, pass := if (d7 ++ d6 : Half) = 0#16 then 4#3 else 0#3, w := d5 ++ d4,
                h := d7 ++ d6, il := BitVec.ofBool (d8.getLsbD 6) },
      dB := BitVec.ofNat 4 b.toNat, dClear := BitVec.ofNat 13 (2 ^ b.toNat),
      dEof := BitVec.ofNat 13 (2 ^ b.toNat + 1), dFirst := BitVec.ofNat 13 (2 ^ b.toNat + 2),
      dFree := BitVec.ofNat 13 (2 ^ b.toNat + 2), dW := BitVec.ofNat 4 (b.toNat + 1), dPrev := none, dDict := [],
      dPend := [], dDone := false, uAcc := 0, uCnt := 0, uLeft := 0, uEnd := false,
      dout := s.reader.dout ++ table, sin := rest, sinRead := s.reader.sinRead + 10 + table.length } →
    (∀ r, epilogue started = .ok () r →
      exec .rImage s = .next { s with last := .ok, reader := { r with state := .top } }) ∧
    (∀ e r, epilogue started = .raise e r →
      exec .rImage s = .next { s with last := e, reader := { r with state := .failed, err := e } }) ∧
    ∀ (blocks : List (List Byte)) (last : List Byte) (n : Nat) (more : List SrcAnswer),
      (∀ d ∈ blocks ++ [last], 1 ≤ d.length ∧ d.length ≤ 255) →
      8 * blocks.flatten.length < (n + 1) * (b.toNat + 1) →
      (n + 1) * (b.toNat + 1) ≤ 8 * (blocks ++ [last]).flatten.length →
      (∀ k, k < n → codeAt (blocks ++ [last]).flatten (b.toNat + 1) k = 2 ^ b.toNat) →
      codeAt (blocks ++ [last]).flatten (b.toNat + 1) n = 2 ^ b.toNat + 1 →
      rest = (inSubBlocks (blocks ++ [last]) ++ [0#8]).map .byte ++ more →
      exec .rImage s = .next { s with
        last := .ok
        reader := { started with
          state := .top, dDone := true, uEnd := true, sin := more,
          sinRead := s.reader.sinRead + 10 + table.length + (inSubBlocks (blocks ++ [last])).length + 1 } }) ∧
  (∀ r : Reader, r.dPend ≠ [] → epilogue r = .raise .rasterOverflow r) ∧
  (∀ r : Reader, r.dPend = [] → r.dDone = true →
    (∀ (skipped : List Byte) (more : List SrcAnswer), skipped.length = r.uLeft.toNat →
      r.sin = (skipped ++ [0#8]).map .byte ++ more →
      epilogue r = .ok () { r with
        uLeft := 0, uEnd := true, uAcc := 0, uCnt := 0, sin := more, sinRead := r.sinRead + skipped.length + 1 }) ∧
    (∀ (skipped : List Byte) (l : Byte) (more : List SrcAnswer), skipped.length = r.uLeft.toNat → l ≠ 0#8 →
      r.sin = (skipped ++ [l]).map .byte ++ more →
      epilogue r = .raise .unexpectedEndOfData { r with
        uLeft := 0, sin := more, sinRead := r.sinRead + skipped.length + 1 }) ∧
    ∀ (got : List Byte) (tail more : List SrcAnswer) (e : Status), got.length ≤ r.uLeft.toNat →
      r.sin = got.map .byte ++ tail → streamEnd tail = some (e, more) →
      epilogue r = .raise e { r with
        uLeft := if got.length < r.uLeft.toNat then r.uLeft else 0#8, sin := more,
        sinRead := r.sinRead + got.length }) ∧
  ∀ r : Reader, DecoderOk r → r.dPend = [] → r.dDone = false →
    (∀ e r1, readCode r.dW.toNat r = .raise e r1 → epilogue r = .raise e r1) ∧
    ∀ c r1, readCode r.dW.toNat r = .ok c r1 →
      (∀ e r2, applyCode c r1 = .raise e r2 → epilogue r = .raise e r2) ∧
      ∀ r2, applyCode c r1 = .ok () r2 → epilogue r = epilogue r2

/-- R164: in R_PIXELS a count beyond the raster is rejected and count 0 is Ok without effect; a count that the pending
pixels cover, short of the end of the raster, delivers them in order without reading SIN (R145). -/
def Obligations.RPixelsFromPending : Prop :=
  (∀ count : BitVec 24, decode (0x15#8 ++ count) = .instr (.rPixels count)) ∧
  (∀ (s : State) (count : BitVec 24), s.reader.state = .pixels → s.reader.pixRemain.toNat < count.toNat →
    exec (.rPixels count) s = .next { s with last := .invalidSequence }) ∧
  (∀ s : State, s.reader.state = .pixels → exec (.rPixels 0#24) s = .next { s with last := .ok }) ∧
  ∀ (s : State) (count : BitVec 24), s.reader.state = .pixels → count.toNat ≤ s.reader.dPend.length →
    count.toNat < s.reader.pixRemain.toNat →
    exec (.rPixels count) s = .next { s with
      last := .ok
      reader := { s.reader with
        dout := s.reader.dout ++ s.reader.dPend.take count.toNat,
        dPend := s.reader.dPend.drop count.toNat,
        pixRemain := s.reader.pixRemain - BitVec.ofNat 32 count.toNat,
        rows := rowAdvances count.toNat s.reader.rows } }

/-- R164, R145, R150, R165 for any stream that answers: in a state of the invariant, R_PIXELS with a count within the
raster answers. On success exactly COUNT pixels have reached DOUT, each below 2^b, the count and the tracker have
followed, and after the last pixel the reader is back in R_TOP with the tracker at (H, 0, 4); otherwise the reader has
failed with a code of R197 after at most COUNT pixels. Which of the two, and with what: once the EOF Code has been read
and fewer pixels than COUNT are pending, UnexpectedEndOfData (R146); when the raster is full, what the epilogue says,
RasterOverflow where pixels are still pending (R147); while more pixels are needed, one code more, failing where
ReadCode or the code fails and going on in the state it leaves where it does not. ReadCode (R118) goes byte by byte: a
terminator, or the end or an error of the stream, while bits are needed is its failure. -/
def Obligations.RPixelsDelivers : Prop :=
  (∀ (s : State) (count : BitVec 24), Inv s → sourceAnswers s.reader → s.reader.state = .pixels →
    count.toNat ≤ s.reader.pixRemain.toNat →
    ∃ t, exec (.rPixels count) s = .next t ∧
      ((t.last = .ok ∧ t.reader.err = .ok ∧
          t.reader.pixRemain.toNat = s.reader.pixRemain.toNat - count.toNat ∧
          (∃ d, t.reader.dout = s.reader.dout ++ d ∧ d.length = count.toNat ∧
            ∀ p ∈ d, p.toNat < 2 ^ s.reader.dB.toNat) ∧
          t.reader.rows = rowAdvances count.toNat s.reader.rows ∧
          (t.reader.pixRemain ≠ 0#32 → t.reader.state = .pixels) ∧
          (t.reader.pixRemain = 0#32 → t.reader.state = .top ∧ trackerDone t.reader.rows ∧ t.reader.dPend = [] ∧
            t.reader.dDone = true ∧ t.reader.uEnd = true)) ∨
        (t.last ∈ failuresOf (.rPixels count) ∧ t.reader.state = .failed ∧ t.reader.err = t.last ∧
          ∃ d, t.reader.dout = s.reader.dout ++ d ∧ d.length ≤ count.toNat ∧
            ∀ p ∈ d, p.toNat < 2 ^ s.reader.dB.toNat))) ∧
  (∀ (s : State) (count : BitVec 24), s.reader.state = .pixels → s.reader.dDone = true →
    s.reader.dPend.length < count.toNat → count.toNat ≤ s.reader.pixRemain.toNat →
    exec (.rPixels count) s = .next { s with
      last := .unexpectedEndOfData
      reader := { s.reader with
        state := .failed, err := .unexpectedEndOfData, dout := s.reader.dout ++ s.reader.dPend, dPend := [],
        pixRemain := s.reader.pixRemain - BitVec.ofNat 32 s.reader.dPend.length,
        rows := rowAdvances s.reader.dPend.length s.reader.rows } }) ∧
  (∀ (s : State) (count : BitVec 24) (full : Reader), s.reader.state = .pixels → 0 < count.toNat →
    count.toNat = s.reader.pixRemain.toNat → count.toNat ≤ s.reader.dPend.length →
    full = { s.reader with
      dout := s.reader.dout ++ s.reader.dPend.take count.toNat, dPend := s.reader.dPend.drop count.toNat,
      pixRemain := 0#32, rows := rowAdvances count.toNat s.reader.rows } →
    (count.toNat < s.reader.dPend.length →
      exec (.rPixels count) s = .next { s with
        last := .rasterOverflow, reader := { full with state := .failed, err := .rasterOverflow } }) ∧
    (∀ r, epilogue full = .ok () r →
      exec (.rPixels count) s = .next { s with last := .ok, reader := { r with state := .top } }) ∧
    ∀ e r, epilogue full = .raise e r →
      exec (.rPixels count) s = .next { s with last := e, reader := { r with state := .failed, err := e } }) ∧
  (∀ (s : State) (count : BitVec 24), Inv s → s.reader.state = .pixels → s.reader.dDone = false →
    s.reader.dPend.length < count.toNat → count.toNat ≤ s.reader.pixRemain.toNat →
    (∀ (e : Status) (r : Reader),
      (readCode s.reader.dW.toNat s.reader = .raise e r ∨
        ∃ c r1, readCode s.reader.dW.toNat s.reader = .ok c r1 ∧ applyCode c r1 = .raise e r) →
      exec (.rPixels count) s = .next { s with
        last := e
        reader := { r with
          state := .failed, err := e, dout := s.reader.dout ++ s.reader.dPend, dPend := [],
          pixRemain := s.reader.pixRemain - BitVec.ofNat 32 s.reader.dPend.length,
          rows := rowAdvances s.reader.dPend.length s.reader.rows } }) ∧
    ∀ (c : Nat) (r1 r : Reader), readCode s.reader.dW.toNat s.reader = .ok c r1 → applyCode c r1 = .ok () r →
      exec (.rPixels count) s = exec (.rPixels count) { s with reader := r }) ∧
  ∀ (r : Reader) (width : Nat),
    (width ≤ r.uCnt →
      readCode width r =
        .ok (r.uAcc.toNat % 2 ^ width) { r with uAcc := r.uAcc >>> width, uCnt := r.uCnt - width }) ∧
    (r.uCnt < width → r.uLeft = 0#8 → r.uEnd = true → readCode width r = .raise .unexpectedEndOfData r) ∧
    (r.uCnt < width → r.uLeft = 0#8 → r.uEnd = false → ∀ (l : Byte) (rest : List SrcAnswer), r.sin = .byte l :: rest →
      (l = 0#8 → readCode width r = .raise .unexpectedEndOfData { r with
        uEnd := true, sin := rest, sinRead := r.sinRead + 1 }) ∧
      (l ≠ 0#8 → readCode width r = readCode width { r with uLeft := l, sin := rest, sinRead := r.sinRead + 1 })) ∧
    (r.uCnt < width → r.uLeft ≠ 0#8 → ∀ (x : Byte) (rest : List SrcAnswer), r.sin = .byte x :: rest →
      readCode width r = readCode width { r with
        uLeft := r.uLeft - 1#8, uAcc := r.uAcc ||| (x.setWidth 19 <<< r.uCnt), uCnt := r.uCnt + 8, sin := rest,
        sinRead := r.sinRead + 1 }) ∧
    (r.uCnt < width → (r.uLeft = 0#8 → r.uEnd = false) → ∀ (e : Status) (rest : List SrcAnswer),
      streamEnd r.sin = some (e, rest) → readCode width r = .raise e { r with sin := rest })

/-- The frames of R_IMAGE and R_PIXELS, success or failure. R_IMAGE leaves the header's registers, R_REC_TYPE, R_EXT_CODE
and R_SUBLEN alone; R_PIXELS leaves every register of the reader alone but R_STATE, R_ERR, R_PIX_REMAIN, R_ROW, R_COL,
R_PASS, R_CODEWIDTH and R_FREE, and the code space; both leave the writer and the host's side alone. -/
def Obligations.ImageReadFrames : Prop :=
  (∀ s t : State, exec .rImage s = .next t →
    t.reader.version = s.reader.version ∧ t.reader.scrW = s.reader.scrW ∧ t.reader.scrH = s.reader.scrH ∧
    t.reader.scrPacked = s.reader.scrPacked ∧ t.reader.bg = s.reader.bg ∧ t.reader.aspect = s.reader.aspect ∧
    t.reader.recType = s.reader.recType ∧ t.reader.extCode = s.reader.extCode ∧
    t.reader.subLen = s.reader.subLen ∧ t = { s with last := t.last, reader := t.reader }) ∧
  ∀ (s t : State) (count : BitVec 24), exec (.rPixels count) s = .next t →
    t = { s with
      last := t.last
      reader := { s.reader with
        state := t.reader.state, err := t.reader.err, pixRemain := t.reader.pixRemain,
        rows := { s.reader.rows with row := t.reader.rows.row, col := t.reader.rows.col, pass := t.reader.rows.pass },
        dW := t.reader.dW, dFree := t.reader.dFree, dPrev := t.reader.dPrev, dDict := t.reader.dDict,
        dPend := t.reader.dPend, dDone := t.reader.dDone, uAcc := t.reader.uAcc, uCnt := t.reader.uCnt,
        uLeft := t.reader.uLeft, uEnd := t.reader.uEnd, dout := t.reader.dout, sin := t.reader.sin,
        sinRead := t.reader.sinRead } }

/-- R152: how a raster is split into R_PIXELS counts does not matter. A command that succeeds short of the end of the
raster, and a second one, do together what one command with the sum of the counts does, its failure included; and where
the first one fails, the one command fails the same. -/
def Obligations.RPixelsSplit : Prop :=
  ∀ (s t : State) (m n k : BitVec 24), k.toNat = m.toNat + n.toNat → s.reader.state = .pixels →
    k.toNat ≤ s.reader.pixRemain.toNat → exec (.rPixels m) s = .next t →
    (m.toNat < s.reader.pixRemain.toNat → t.last = .ok → exec (.rPixels k) s = exec (.rPixels n) t) ∧
    (t.reader.state = .failed → exec (.rPixels k) s = .next t)

/-! ### The decompressor -/

/-- R138, R139: the string of a root code is its pixel; the string of an assigned dictionary code is the string of its
prefix followed by its suffix, at most 4097 - D_first pixels long and beginning with a root code. -/
def Obligations.StringsOfCodes : Prop :=
  ∀ r : Reader, decoderSpace r → dictionaryOk r →
    (∀ c, c < r.dClear.toNat → pixelsOf c r = some [BitVec.ofNat 8 c]) ∧
    ∀ k, ∀ h : k < r.dDict.length, ∃ s : List Byte,
      pixelsOf r.dDict[k].pfx.toNat r = some s ∧
      pixelsOf (r.dFirst.toNat + k) r = some (s ++ [r.dDict[k].sfx]) ∧
      s.length + 1 ≤ 4097 - r.dFirst.toNat ∧ (∀ x, s.head? = some x → x.toNat < r.dClear.toNat)

/-- R142: the KwKwK code, equal to the free-code counter, outputs the string of the previous code followed by that
string's first pixel, and the entry inserted makes this the code's own string. -/
def Obligations.KwKwKCode : Prop :=
  ∀ (r : Reader) (q : Code), DecoderOk r → r.dPrev = some q → r.dFree.toNat < 4096 →
    ∃ (x : Byte) (s : List Byte) (r' : Reader),
      pixelsOf q.toNat r = some (x :: s) ∧ applyCode r.dFree.toNat r = .ok () r' ∧
      r'.dPend = r.dPend ++ (x :: s ++ [x]) ∧ r'.dDict = r.dDict ++ [{ pfx := q, sfx := x }] ∧
      r'.dFree.toNat = r.dFree.toNat + 1 ∧ pixelsOf r.dFree.toNat r' = some (x :: s ++ [x]) ∧
      r'.dPrev = some (BitVec.ofNat 12 r.dFree.toNat)

/-- R140, R141, R143, R144: the Clear Code empties the dictionary, resets counter, width and previous code and outputs
nothing; the EOF Code only sets D_done; a known code outputs its string and becomes the previous code; it inserts the previous code
followed by the string's first pixel where there is a previous code and room, and nothing otherwise; then the width grows
by the test on the counter after the insertion. -/
def Obligations.DecodeStepCodes : Prop :=
  (∀ r : Reader, decoderSpace r →
    applyCode (2 ^ r.dB.toNat) r =
      .ok () { r with dFree := r.dFirst, dW := r.dB + 1#4, dPrev := none, dDict := [] } ∧
    applyCode (2 ^ r.dB.toNat + 1) r = .ok () { r with dDone := true }) ∧
  ∀ (r : Reader) (c : Nat), DecoderOk r → codeAssigned r c → (r.dPrev = none → c < r.dClear.toNat) →
    ∃ (x : Byte) (s : List Byte) (r' : Reader),
      pixelsOf c r = some (x :: s) ∧ applyCode c r = .ok () r' ∧ r'.dPend = r.dPend ++ (x :: s) ∧
      r'.dPrev = some (BitVec.ofNat 12 c) ∧
      (∀ q, r.dPrev = some q → r.dFree.toNat < 4096 →
        r'.dDict = r.dDict ++ [{ pfx := q, sfx := x }] ∧ r'.dFree.toNat = r.dFree.toNat + 1) ∧
      (r.dPrev = none ∨ r.dFree.toNat = 4096 → r'.dDict = r.dDict ∧ r'.dFree = r.dFree) ∧
      r'.dW.toNat =
        if 2 ^ r.dW.toNat ≤ r'.dFree.toNat ∧ r.dW.toNat < 12 then r.dW.toNat + 1 else r.dW.toNat

/-- R149: a code that is read raises CorruptData in exactly two cases: without a previous code, a code from the first
free code on; with one, a code above the free-code counter. -/
def Obligations.CorruptCodes : Prop :=
  ∀ (r : Reader) (c : Nat), DecoderOk r → c < 4096 →
    ((∃ e r', applyCode c r = .raise e r') ↔
      (r.dPrev = none ∧ r.dFirst.toNat ≤ c) ∨ (r.dPrev ≠ none ∧ r.dFree.toNat < c)) ∧
    ∀ e r', applyCode c r = .raise e r' → e = .corruptData ∧ r' = r

/-- R148: while the dictionary is full, codes are read at width 12, every one below 4096 but the Clear and EOF Codes is
decoded as a known code, KwKwK cannot arise, and nothing is inserted; a Clear Code resets it. -/
def Obligations.FullDictionary : Prop :=
  ∀ r : Reader, DecoderOk r → r.dFree.toNat = 4096 →
    r.dW.toNat = 12 ∧
    (∀ c, c < 4096 → c ≠ r.dClear.toNat → c ≠ r.dEof.toNat → c ≠ r.dFree.toNat ∧
      ∃ s : List Byte, pixelsOf c r = some s ∧
        applyCode c r = .ok () { r with dPend := r.dPend ++ s, dPrev := some (BitVec.ofNat 12 c) }) ∧
    applyCode r.dClear.toNat r =
      .ok () { r with dFree := r.dFirst, dW := r.dB + 1#4, dPrev := none, dDict := [] }

/-! ### The row tracker -/

/-- R58, R59, R165, R180: the tracker follows the raster. Before pixel number k it stands on the row and column where
that pixel belongs, all rows of pass 0 first, then passes 1, 2 and 3 for an interlaced image, and after the last pixel it
is at (H, 0, 4). -/
def Obligations.RowTrackerFollowsRaster : Prop :=
  ∀ (w h : Half) (il : BitVec 1),
    (∀ k, k < w.toNat * h.toNat → ∃ row, (rasterRows il h.toNat)[k / w.toNat]? = some row ∧
      (rowAdvances k (rowInit w h il)).row.toNat = row ∧
      (rowAdvances k (rowInit w h il)).col.toNat = k % w.toNat ∧
      (rowAdvances k (rowInit w h il)).pass.toNat = if il = 1#1 then passOfRow row else 0) ∧
    (0 < w.toNat * h.toNat → trackerDone (rowAdvances (w.toNat * h.toNat) (rowInit w h il)))

/-! ### The writer's commands -/

/-- R169: `W_OPEN` takes the descriptor and the table its packed byte announces from DIN at once and writes the
signature and those bytes; too few bytes in DIN is a rejection; a refused byte is IoError (R67, R182), with the bytes
accepted before it in the sink, the refused one there or not (U3), and the DIN bytes gone. That the model counts the
refusal (`draws`) is its own choice: log entry 4. -/
def Obligations.WOpenWritesHeader : Prop :=
  (∀ v89a : BitVec 1, decode (0x100000#23 ++ 0#8 ++ v89a) = .instr (.wOpen v89a)) ∧
  (∀ (s : State) (v89a : BitVec 1), s.writer.state ≠ .failed → s.writer.state ≠ .idle →
    exec (.wOpen v89a) s = .next { s with last := .invalidSequence }) ∧
  (∀ (s : State) (v89a : BitVec 1), s.writer.state = .idle →
    (s.writer.din.length < 7 ∨ s.writer.din.length < 7 + tableSize (s.writer.din.getD 4 0#8)) →
    exec (.wOpen v89a) s = .next { s with last := .invalidSequence }) ∧
  ∀ (s : State) (v89a : BitVec 1) (d0 d1 d2 d3 d4 d5 d6 : Byte) (table more bytes : List Byte),
    s.writer.state = .idle → table.length = tableSize d4 →
    s.writer.din = [d0, d1, d2, d3, d4, d5, d6] ++ table ++ more →
    bytes = [0x47#8, 0x49#8, 0x46#8, 0x38#8, if v89a = 1#1 then 0x39#8 else 0x37#8, 0x61#8] ++
      [d0, d1, d2, d3, d4, d5, d6] ++ table →
    (acceptsFirst bytes.length s.writer →
      exec (.wOpen v89a) s = .next { s with
        last := .ok
        writer := { s.writer with
          state := .top, version := v89a,
          gctBpp := if d4.getLsbD 7 then BitVec.ofNat 4 (d4.toNat % 8 + 1) else 0#4,
          din := more, sout := s.writer.sout ++ bytes,
          sinkAnswers := s.writer.sinkAnswers.drop bytes.length } }) ∧
    ∀ (k : Nat) (rest : List SinkAnswer), k < bytes.length →
      s.writer.sinkAnswers = List.replicate k .ok ++ .error :: rest →
      ∃ landed : Nat, landed ≤ 1 ∧
        exec (.wOpen v89a) s = .next { s with
          last := .ioError
          writer := { s.writer with
            state := .failed, err := .ioError, din := more, sout := s.writer.sout ++ bytes.take (k + landed),
            sinkAnswers := rest, draws := s.writer.draws + 1 } }

/-- R172: `W_EXT` writes 0x21 and its function code, whatever it is; a refused byte is IoError (R67, R182), with what was
accepted before it in the sink, the refused one there or not (U3). That the model counts the refusal (`draws`) is its own
choice: log entry 4. -/
def Obligations.WExtWritesIntroducer : Prop :=
  (∀ imm8 : Byte, decode (0x210000#24 ++ imm8) = .instr (.wExt imm8)) ∧
  (∀ (s : State) (imm8 : Byte), s.writer.state ≠ .failed → s.writer.state ≠ .top →
    exec (.wExt imm8) s = .next { s with last := .invalidSequence }) ∧
  ∀ (s : State) (imm8 : Byte), s.writer.state = .top →
    (acceptsFirst 2 s.writer →
      exec (.wExt imm8) s = .next { s with
        last := .ok
        writer := { s.writer with
          state := .extData, sout := s.writer.sout ++ [0x21#8, imm8],
          sinkAnswers := s.writer.sinkAnswers.drop 2 } }) ∧
    ∀ (k : Nat) (rest : List SinkAnswer), k < 2 →
      s.writer.sinkAnswers = List.replicate k .ok ++ .error :: rest →
      ∃ landed : Nat, landed ≤ 1 ∧
        exec (.wExt imm8) s = .next { s with
          last := .ioError
          writer := { s.writer with
            state := .failed, err := .ioError, sout := s.writer.sout ++ [0x21#8, imm8].take (k + landed),
            sinkAnswers := rest, draws := s.writer.draws + 1 } }

/-- R173: `W_EXT_BLOCK` writes its length and that many bytes from DIN; length 0 is OutOfRange, before the DIN check; a
refused byte is IoError (R67, R182), with the bytes accepted before it in the sink, the refused one there or not (U3), and
the DIN bytes gone. That the model counts the refusal (`draws`) is its own choice: log entry 4. -/
def Obligations.WExtBlockWritesSubBlock : Prop :=
  (∀ imm8 : Byte, decode (0x220000#24 ++ imm8) = .instr (.wExtBlock imm8)) ∧
  (∀ (s : State) (imm8 : Byte), s.writer.state ≠ .failed → s.writer.state ≠ .extData →
    exec (.wExtBlock imm8) s = .next { s with last := .invalidSequence }) ∧
  (∀ s : State, s.writer.state = .extData → exec (.wExtBlock 0#8) s = .next { s with last := .outOfRange }) ∧
  (∀ (s : State) (imm8 : Byte), s.writer.state = .extData → imm8 ≠ 0#8 → s.writer.din.length < imm8.toNat →
    exec (.wExtBlock imm8) s = .next { s with last := .invalidSequence }) ∧
  ∀ (s : State) (imm8 : Byte) (d more : List Byte), s.writer.state = .extData → imm8 ≠ 0#8 →
    d.length = imm8.toNat → s.writer.din = d ++ more →
    (acceptsFirst (1 + d.length) s.writer →
      exec (.wExtBlock imm8) s = .next { s with
        last := .ok
        writer := { s.writer with
          din := more, sout := s.writer.sout ++ imm8 :: d,
          sinkAnswers := s.writer.sinkAnswers.drop (1 + d.length) } }) ∧
    ∀ (k : Nat) (rest : List SinkAnswer), k < 1 + d.length →
      s.writer.sinkAnswers = List.replicate k .ok ++ .error :: rest →
      ∃ landed : Nat, landed ≤ 1 ∧
        exec (.wExtBlock imm8) s = .next { s with
          last := .ioError
          writer := { s.writer with
            state := .failed, err := .ioError, din := more, sout := s.writer.sout ++ (imm8 :: d).take (k + landed),
            sinkAnswers := rest, draws := s.writer.draws + 1 } }

/-- R174: `W_EXT_END` writes the terminator and returns to W_TOP; where it is refused, that is IoError (R67, R182), the byte
in the sink or not (U3). That the model counts the refusal (`draws`) is its own choice: log entry 4. -/
def Obligations.WExtEndWritesTerminator : Prop :=
  decode 0x23000000#32 = .instr .wExtEnd ∧
  (∀ s : State, s.writer.state ≠ .failed → s.writer.state ≠ .extData →
    exec .wExtEnd s = .next { s with last := .invalidSequence }) ∧
  ∀ s : State, s.writer.state = .extData →
    (acceptsFirst 1 s.writer →
      exec .wExtEnd s = .next { s with
        last := .ok
        writer := { s.writer with
          state := .top, sout := s.writer.sout ++ [0x00#8], sinkAnswers := s.writer.sinkAnswers.drop 1 } }) ∧
    ∀ rest : List SinkAnswer, s.writer.sinkAnswers = .error :: rest →
      ∃ landed : Nat, landed ≤ 1 ∧
        exec .wExtEnd s = .next { s with
          last := .ioError
          writer := { s.writer with
            state := .failed, err := .ioError, sout := s.writer.sout ++ [0x00#8].take landed, sinkAnswers := rest,
            draws := s.writer.draws + 1 } }

/-- R181: `W_TRAILER` writes 0x3B and ends the file, after which no writer command but RESET is legal; where the byte is
refused, that is IoError (R67, R182), the byte in the sink or not (U3). That the model counts the refusal (`draws`) is its
own choice: log entry 4. -/
def Obligations.WTrailerEndsFile : Prop :=
  decode 0x26000000#32 = .instr .wTrailer ∧
  (∀ s : State, s.writer.state ≠ .failed → s.writer.state ≠ .top →
    exec .wTrailer s = .next { s with last := .invalidSequence }) ∧
  (∀ (i : Instr) (s : State), i.isWriter = true → s.writer.state = .done →
    exec i s = .next { s with last := .invalidSequence }) ∧
  ∀ s : State, s.writer.state = .top →
    (acceptsFirst 1 s.writer →
      exec .wTrailer s = .next { s with
        last := .ok
        writer := { s.writer with
          state := .done, sout := s.writer.sout ++ [0x3B#8], sinkAnswers := s.writer.sinkAnswers.drop 1 } }) ∧
    ∀ rest : List SinkAnswer, s.writer.sinkAnswers = .error :: rest →
      ∃ landed : Nat, landed ≤ 1 ∧
        exec .wTrailer s = .next { s with
          last := .ioError
          writer := { s.writer with
            state := .failed, err := .ioError, sout := s.writer.sout ++ [0x3B#8].take landed, sinkAnswers := rest,
            draws := s.writer.draws + 1 } }

/-- R175 to R178 and R126, W x H > 0: `W_IMAGE` writes the introducer, the descriptor with its reserved bits cleared, the
table and the code size b = max(bpp, 2), and starts compressor, packer, pixel count and tracker; the Clear Code stays in
the packer. Where the sink refuses one of those bytes, of an image of any size, W_IMAGE fails with IoError (R67, R182,
R193): the bytes accepted before it are in SOUT, the refused one too or not (U3), the bytes taken from DIN are gone, and
W_IMG_W, W_IMG_H, W_IMG_PACKED and W_BPP are written, C_b once all bytes before the code size are out; nothing else is.
Two points of this are the model's: that a refused code size byte leaves W_CODESIZE unwritten is its reading of R126
against R177 (log entry 14, DEDUCED), and that it counts the refusal (`draws`) is its own choice (log entry 4). -/
def Obligations.WImageStarts : Prop :=
  ∀ (s : State) (d0 d1 d2 d3 d4 d5 d6 d7 d8 : Byte) (table more bytes : List Byte) (bpp b : Nat),
    s.writer.state = .top → s.writer.gctBpp.toNat ≤ 8 → table.length = tableSize d8 →
    s.writer.din = [d0, d1, d2, d3, d4, d5, d6, d7, d8] ++ table ++ more →
    bpp = (if d8.getLsbD 7 then d8.toNat % 8 + 1 else s.writer.gctBpp.toNat) → bpp ≠ 0 → b = max bpp 2 →
    bytes = [0x2C#8, d0, d1, d2, d3, d4, d5, d6, d7, d8 &&& 0xE7#8] ++ table ++ [BitVec.ofNat 8 b] →
    ((d5 ++ d4 : Half) ≠ 0#16 → (d7 ++ d6 : Half) ≠ 0#16 → acceptsFirst (11 + table.length) s.writer →
      exec .wImage s = .next { s with
        last := .ok
        writer := { s.writer with
          state := .pixels, imgW := d5 ++ d4, imgH := d7 ++ d6, imgPacked := d8 &&& 0xE7#8,
          bpp := BitVec.ofNat 4 bpp, codeSize := BitVec.ofNat 8 b,
          pixRemain := BitVec.ofNat 32 ((d5 ++ d4 : Half).toNat * (d7 ++ d6 : Half).toNat),
          rows := { row := 0, col := 0, pass := 0, w := d5 ++ d4, h := d7 ++ d6, il := BitVec.ofBool (d8.getLsbD 6) },
          cB := BitVec.ofNat 4 b, cClear := BitVec.ofNat 13 (2 ^ b), cEof := BitVec.ofNat 13 (2 ^ b + 1),
          cFirst := BitVec.ofNat 13 (2 ^ b + 2), cFree := BitVec.ofNat 13 (2 ^ b + 2), cW := BitVec.ofNat 4 (b + 1),
          cPrefix := none, cDict := [],
          pAcc := BitVec.ofNat 19 (2 ^ b / 256 ^ ((b + 1) / 8)), pCnt := (b + 1) % 8,
          pBuf := lowBytes ((b + 1) / 8) (2 ^ b), din := more, sout := s.writer.sout ++ bytes,
          sinkAnswers := s.writer.sinkAnswers.drop (11 + table.length) } }) ∧
    ∀ (k : Nat) (rest : List SinkAnswer), k < 11 + table.length →
      s.writer.sinkAnswers = List.replicate k .ok ++ .error :: rest →
      ∃ landed : Nat, landed ≤ 1 ∧
        exec .wImage s = .next { s with
          last := .ioError
          writer := { s.writer with
            state := .failed, err := .ioError, imgW := d5 ++ d4, imgH := d7 ++ d6, imgPacked := d8 &&& 0xE7#8,
            bpp := BitVec.ofNat 4 bpp, cB := if k < 10 + table.length then s.writer.cB else BitVec.ofNat 4 b,
            din := more, sout := s.writer.sout ++ bytes.take (k + landed), sinkAnswers := rest,
            draws := s.writer.draws + 1 } }

/-- R132, with R126, R131 and R175 to R177: for W x H = 0, `W_IMAGE` writes the image whole: the code size, one sub-block
with the Clear Code and the EOF Code in b + 1 bits each, and the terminator, and returns to W_TOP; for b = 2 the image data
is 02 01 2C 00. Where the sink refuses a byte of the sub-block or the terminator, W_IMAGE fails with IoError (R67, R182,
R193) with every register of the image written and the bytes accepted before it in SOUT, the refused one too or not (U3).
That the model counts the refusal (`draws`) is its own choice: log entry 4. -/
def Obligations.WImageEmptyRaster : Prop :=
  (∀ (s : State) (d0 d1 d2 d3 d4 d5 d6 d7 d8 : Byte) (table more data bytes : List Byte) (bpp b : Nat)
    (written : Writer),
    s.writer.state = .top → s.writer.gctBpp.toNat ≤ 8 → table.length = tableSize d8 →
    s.writer.din = [d0, d1, d2, d3, d4, d5, d6, d7, d8] ++ table ++ more →
    bpp = (if d8.getLsbD 7 then d8.toNat % 8 + 1 else s.writer.gctBpp.toNat) → bpp ≠ 0 → b = max bpp 2 →
    (d5 ++ d4 : Half).toNat * (d7 ++ d6 : Half).toNat = 0 →
    data = lowBytes (byteCount (2 * (b + 1))) (2 ^ b + 2 ^ (b + 1) * (2 ^ b + 1)) →
    bytes = [0x2C#8, d0, d1, d2, d3, d4, d5, d6, d7, d8 &&& 0xE7#8] ++ table ++
      [BitVec.ofNat 8 b, BitVec.ofNat 8 data.length] ++ data ++ [0x00#8] →
    written = { s.writer with
      state := .top, imgW := d5 ++ d4, imgH := d7 ++ d6, imgPacked := d8 &&& 0xE7#8,
      bpp := BitVec.ofNat 4 bpp, codeSize := BitVec.ofNat 8 b, pixRemain := 0#32,
      rows := { row := 0, col := 0, pass := if (d7 ++ d6 : Half) = 0#16 then 4#3 else 0#3, w := d5 ++ d4,
                h := d7 ++ d6, il := BitVec.ofBool (d8.getLsbD 6) },
      cB := BitVec.ofNat 4 b, cClear := BitVec.ofNat 13 (2 ^ b), cEof := BitVec.ofNat 13 (2 ^ b + 1),
      cFirst := BitVec.ofNat 13 (2 ^ b + 2), cFree := BitVec.ofNat 13 (2 ^ b + 2), cW := BitVec.ofNat 4 (b + 1),
      cPrefix := none, cDict := [], pAcc := 0, pCnt := 0, pBuf := [], din := more } →
    (acceptsFirst bytes.length s.writer →
      exec .wImage s = .next { s with
        last := .ok
        writer := { written with
          sout := s.writer.sout ++ bytes, sinkAnswers := s.writer.sinkAnswers.drop bytes.length } }) ∧
    ∀ (k : Nat) (rest : List SinkAnswer), 11 + table.length ≤ k → k < bytes.length →
      s.writer.sinkAnswers = List.replicate k .ok ++ .error :: rest →
      ∃ landed : Nat, landed ≤ 1 ∧
        exec .wImage s = .next { s with
          last := .ioError
          writer := { written with
            state := .failed, err := .ioError, pBuf := if k + 1 < bytes.length then data else [],
            sout := s.writer.sout ++ bytes.take (k + landed), sinkAnswers := rest,
            draws := s.writer.draws + 1 } }) ∧
  [BitVec.ofNat 8 2, BitVec.ofNat 8 (byteCount 6)] ++ lowBytes (byteCount 6) (2 ^ 2 + 2 ^ 3 * (2 ^ 2 + 1)) ++ [0x00#8] =
    [0x02#8, 0x01#8, 0x2C#8, 0x00#8]

/-- R179: count 0 in W_PIXELS is Ok without effect, and so far as the string of the pixels is known nothing is written:
the first pixel only becomes the prefix, and a pixel whose pair with the prefix an entry of the dictionary has (R54, R125)
only moves the prefix on to that entry's code (R127). -/
def Obligations.WPixelsWithoutOutput : Prop :=
  (∀ count : BitVec 24, decode (0x25#8 ++ count) = .instr (.wPixels count)) ∧
  (∀ s : State, s.writer.state = .pixels → exec (.wPixels 0#24) s = .next { s with last := .ok }) ∧
  (∀ (s : State) (p : Byte) (more : List Byte), s.writer.state = .pixels → 1 < s.writer.pixRemain.toNat →
    s.writer.din = p :: more → p.toNat < 2 ^ s.writer.bpp.toNat → s.writer.cPrefix = none →
    exec (.wPixels 1#24) s = .next { s with
      last := .ok
      writer := { s.writer with
        cPrefix := some (p.setWidth 12), pixRemain := s.writer.pixRemain - 1#32, rows := rowAdvance s.writer.rows,
        din := more } }) ∧
  ∀ (s : State) (p : Byte) (more : List Byte) (q : Code) (e : CEntry), EncoderOk s.writer →
    s.writer.state = .pixels → 1 < s.writer.pixRemain.toNat → s.writer.din = p :: more →
    p.toNat < 2 ^ s.writer.bpp.toNat → s.writer.cPrefix = some q → e ∈ s.writer.cDict → e.pfx = q → e.pixel = p →
    exec (.wPixels 1#24) s = .next { s with
      last := .ok
      writer := { s.writer with
        cPrefix := some e.code, pixRemain := s.writer.pixRemain - 1#32, rows := rowAdvance s.writer.rows,
        din := more } }

/-- R179, R127, R129, R130, R113, R115 for a pixel whose pair with the prefix no entry of the dictionary has: the prefix
goes out in the current width, the pair gets the next free code, and the width grows by the test on the counter before
the insertion; when the counter reaches 4096, the Clear Code follows in 12 bits and the dictionary is fresh. The bits join
the pending ones, every full byte the pending sub-block, which goes out as soon as it holds 255 bytes. Where the sink
refuses one of those, W_PIXELS fails with IoError (R182, R193): amid the prefix with the dictionary untouched, amid the
Clear Code with the pair inserted; the pixel has left DIN and is not counted, and SOUT has the bytes accepted before the
refused one, and that one or not (U3). That the model counts the refusal (`draws`) is its own choice: log entry 4. -/
def Obligations.WPixelsEmitsAndInserts : Prop :=
  ∀ (s : State) (p : Byte) (more : List Byte) (q : Code) (bits1 bits v1 v : Nat) (data1 data : List Byte),
    EncoderOk s.writer → packerOk s.writer → s.writer.state = .pixels → 1 < s.writer.pixRemain.toNat →
    s.writer.din = p :: more → p.toNat < 2 ^ s.writer.bpp.toNat → s.writer.cPrefix = some q →
    (∀ e ∈ s.writer.cDict, ¬(e.pfx = q ∧ e.pixel = p)) →
    bits1 = s.writer.pCnt + s.writer.cW.toNat → v1 = s.writer.pAcc.toNat + q.toNat * 2 ^ s.writer.pCnt →
    bits = (if s.writer.cFree.toNat = 4095 then bits1 + 12 else bits1) →
    v = (if s.writer.cFree.toNat = 4095 then v1 + s.writer.cClear.toNat * 2 ^ bits1 else v1) →
    data1 = s.writer.pBuf ++ lowBytes (bits1 / 8) v1 → data = s.writer.pBuf ++ lowBytes (bits / 8) v →
    ((255 ≤ data.length → acceptsFirst 256 s.writer) →
      exec (.wPixels 1#24) s = .next { s with
        last := .ok
        writer := { s.writer with
          cPrefix := some (p.setWidth 12), pixRemain := s.writer.pixRemain - 1#32, rows := rowAdvance s.writer.rows,
          din := more,
          cDict := if s.writer.cFree.toNat = 4095 then []
            else { pfx := q, pixel := p, code := BitVec.ofNat 12 s.writer.cFree.toNat } :: s.writer.cDict,
          cFree := if s.writer.cFree.toNat = 4095 then s.writer.cFirst else s.writer.cFree + 1#13,
          cW := if s.writer.cFree.toNat = 4095 then s.writer.cB + 1#4
            else if 2 ^ s.writer.cW.toNat ≤ s.writer.cFree.toNat ∧ s.writer.cW.toNat < 12 then s.writer.cW + 1#4
            else s.writer.cW,
          pAcc := BitVec.ofNat 19 (v / 256 ^ (bits / 8)), pCnt := bits % 8,
          pBuf := if 255 ≤ data.length then data.drop 255 else data,
          sout := if 255 ≤ data.length then s.writer.sout ++ 255#8 :: data.take 255 else s.writer.sout,
          sinkAnswers := if 255 ≤ data.length then s.writer.sinkAnswers.drop 256 else s.writer.sinkAnswers } }) ∧
    ∀ (k : Nat) (rest : List SinkAnswer), k < 256 → s.writer.sinkAnswers = List.replicate k .ok ++ .error :: rest →
      (255 ≤ data1.length → ∃ landed : Nat, landed ≤ 1 ∧
        exec (.wPixels 1#24) s = .next { s with
          last := .ioError
          writer := { s.writer with
            state := .failed, err := .ioError, din := more,
            pAcc := BitVec.ofNat 19 (v1 / 256 ^ (254 - s.writer.pBuf.length)),
            pCnt := bits1 - 8 * (254 - s.writer.pBuf.length), pBuf := data1.take 255,
            sout := s.writer.sout ++ (255#8 :: data1.take 255).take (k + landed), sinkAnswers := rest,
            draws := s.writer.draws + 1 } }) ∧
      (data1.length < 255 → 255 ≤ data.length → ∃ landed : Nat, landed ≤ 1 ∧
        exec (.wPixels 1#24) s = .next { s with
          last := .ioError
          writer := { s.writer with
            state := .failed, err := .ioError, din := more, cPrefix := some (p.setWidth 12), cFree := 4096#13,
            cDict := { pfx := q, pixel := p, code := BitVec.ofNat 12 s.writer.cFree.toNat } :: s.writer.cDict,
            pAcc := BitVec.ofNat 19 (v / 256 ^ (254 - s.writer.pBuf.length)),
            pCnt := bits - 8 * (254 - s.writer.pBuf.length), pBuf := data.take 255,
            sout := s.writer.sout ++ (255#8 :: data.take 255).take (k + landed), sinkAnswers := rest,
            draws := s.writer.draws + 1 } })

/-- R179 for any count that passes its checks: in a state of the invariant, with a sink that accepts, W_PIXELS answers
Ok. The COUNT bytes leave DIN, the pixel count and the tracker follow, SOUT only grows, and after the last pixel the
writer is back in W_TOP with an empty packer and the tracker at (H, 0, 4). The last pixel is compressed like any other
(so the statement compares with one pixel more to come), and CompressFinish (R131) then writes the prefix, the EOF Code
in the width after the growth test, the pad bits, the sub-blocks and the terminator; where the sink refuses one of those
bytes, W_PIXELS fails with IoError (R182, R193) with the raster complete and the bytes accepted before it in SOUT, the
refused one too or not (U3). That the model counts the refusal (`draws`) is its own choice: log entry 4. -/
def Obligations.WPixelsCompletes : Prop :=
  (∀ (s : State) (count : BitVec 24), Inv s → s.writer.state = .pixels → sinkAccepts s.writer →
    count.toNat ≤ s.writer.pixRemain.toNat → count.toNat ≤ s.writer.din.length →
    (∀ p ∈ s.writer.din.take count.toNat, p.toNat < 2 ^ s.writer.bpp.toNat) →
    ∃ t, exec (.wPixels count) s = .next t ∧ t.last = .ok ∧
      t.writer.pixRemain.toNat = s.writer.pixRemain.toNat - count.toNat ∧
      t.writer.din = s.writer.din.drop count.toNat ∧
      t.writer.rows = rowAdvances count.toNat s.writer.rows ∧ s.writer.sout <+: t.writer.sout ∧
      (t.writer.pixRemain ≠ 0#32 → t.writer.state = .pixels) ∧
      (t.writer.pixRemain = 0#32 →
        t.writer.state = .top ∧ packerEmpty t.writer ∧ trackerDone t.writer.rows ∧ t.writer.cPrefix = none ∧
        t.writer.sout.getLast? = some 0x00#8)) ∧
  ∀ (s t : State) (p : Byte) (more : List Byte), EncoderOk s.writer → packerOk s.writer → s.writer.state = .pixels →
    s.writer.pixRemain = 1#32 → s.writer.din = p :: more → p.toNat < 2 ^ s.writer.bpp.toNat →
    exec (.wPixels 1#24) { s with writer := { s.writer with pixRemain := 2#32 } } = .next t →
    (t.last ≠ .ok →
      exec (.wPixels 1#24) s = .next { t with writer := { t.writer with pixRemain := 1#32 } }) ∧
    (t.last = .ok → ∀ (q : Code) (width : BitVec 4) (data : List Byte), t.writer.cPrefix = some q →
      width = (if 2 ^ t.writer.cW.toNat ≤ t.writer.cFree.toNat ∧ t.writer.cW.toNat < 12 then t.writer.cW + 1#4
        else t.writer.cW) →
      data = t.writer.pBuf ++ dataBytes (bitString [(t.writer.pAcc.toNat, t.writer.pCnt),
        (q.toNat, t.writer.cW.toNat), (t.writer.cEof.toNat, width.toNat)]) →
      (acceptsFirst (framed data).length t.writer →
        exec (.wPixels 1#24) s = .next { t with
          writer := { t.writer with
            state := .top, pixRemain := 0#32, cW := width, cPrefix := none, pAcc := 0, pCnt := 0, pBuf := [],
            sout := t.writer.sout ++ framed data,
            sinkAnswers := t.writer.sinkAnswers.drop (framed data).length } }) ∧
      ∀ (k : Nat) (rest : List SinkAnswer), k < (framed data).length →
        t.writer.sinkAnswers = List.replicate k .ok ++ .error :: rest →
        ∃ (landed : Nat) (u : State), landed ≤ 1 ∧ exec (.wPixels 1#24) s = .next u ∧
          u = { t with
            last := .ioError
            writer := { t.writer with
              state := .failed, err := .ioError, pixRemain := 0#32, cW := u.writer.cW, pAcc := u.writer.pAcc,
              pCnt := u.writer.pCnt, pBuf := u.writer.pBuf,
              sout := t.writer.sout ++ (framed data).take (k + landed), sinkAnswers := rest,
              draws := t.writer.draws + 1 } })

/-- The frames of W_IMAGE and W_PIXELS, success or failure. W_IMAGE leaves W_VERSION and W_GCT_BPP alone; W_PIXELS leaves
every register of the writer alone but W_STATE, W_ERR, W_PIX_REMAIN, W_ROW, W_COL, W_PASS, W_CODEWIDTH, W_FREE and
W_PENDING, and the code space; both leave the reader and the host's side alone. -/
def Obligations.ImageWriteFrames : Prop :=
  (∀ s t : State, exec .wImage s = .next t →
    t.writer.version = s.writer.version ∧ t.writer.gctBpp = s.writer.gctBpp ∧
    t = { s with last := t.last, writer := t.writer }) ∧
  ∀ (s t : State) (count : BitVec 24), exec (.wPixels count) s = .next t →
    t = { s with
      last := t.last
      writer := { s.writer with
        state := t.writer.state, err := t.writer.err, pixRemain := t.writer.pixRemain,
        rows := { s.writer.rows with row := t.writer.rows.row, col := t.writer.rows.col, pass := t.writer.rows.pass },
        cW := t.writer.cW, cFree := t.writer.cFree, cPrefix := t.writer.cPrefix, cDict := t.writer.cDict,
        pAcc := t.writer.pAcc, pCnt := t.writer.pCnt, pBuf := t.writer.pBuf, din := t.writer.din,
        sinkAnswers := t.writer.sinkAnswers, sout := t.writer.sout, draws := t.writer.draws } }

/-- R183, third law: how a raster is split into W_PIXELS counts does not matter. A command that succeeds short of the end
of the raster, and a second one, do together what one command with the sum of the counts does; and where the first one
fails, the one command fails the same. -/
def Obligations.WPixelsSplit : Prop :=
  ∀ (s t : State) (m n k : BitVec 24), k.toNat = m.toNat + n.toNat → s.writer.state = .pixels →
    k.toNat ≤ s.writer.pixRemain.toNat → k.toNat ≤ s.writer.din.length →
    (∀ p ∈ s.writer.din.take k.toNat, p.toNat < 2 ^ s.writer.bpp.toNat) → exec (.wPixels m) s = .next t →
    (m.toNat < s.writer.pixRemain.toNat → t.last = .ok → exec (.wPixels k) s = exec (.wPixels n) t) ∧
    (t.writer.state = .failed → exec (.wPixels k) s = .next t)

/-- R182: a writer command fails exactly where the sink refuses a byte it offers, and then with IoError. Let `d` be what a
writer command appends to SOUT when every byte is accepted. If the first `d.length` answers are Ok, it does the same; if
one of them is Error, SOUT gains the bytes of `d` accepted before it, and the refused byte or not (U3), and nothing of
what the packer holds; the registers of the image keep what was written, the bytes popped from DIN are gone, and a failed
writer writes nothing more until RESET. That the model counts the refusals (`draws`) is its own choice: log entry 4. -/
def Obligations.SinkErrorFails : Prop :=
  (∀ (i : Instr) (s t : State), i.isWriter = true → s.writer.state ≠ .failed → exec i s = .next t →
    t.writer.state = .failed →
    t.last = .ioError ∧ t.writer.err = .ioError ∧ SinkAnswer.error ∈ s.writer.sinkAnswers ∧
    s.writer.sout <+: t.writer.sout ∧ t.writer.draws = s.writer.draws + 1) ∧
  (∀ (i : Instr) (s t : State), i.isWriter = true → sinkAccepts s.writer → s.writer.state ≠ .failed →
    exec i s = .next t → t.writer.state ≠ .failed) ∧
  (∀ (i : Instr) (s t : State) (d : List Byte), i.isWriter = true →
    exec i { s with writer := { s.writer with sinkAnswers := [] } } = .next t →
    t.writer.sout = s.writer.sout ++ d →
    (acceptsFirst d.length s.writer →
      exec i s = .next { t with
        writer := { t.writer with sinkAnswers := s.writer.sinkAnswers.drop d.length } }) ∧
    ∀ (k : Nat) (rest : List SinkAnswer), k < d.length →
      s.writer.sinkAnswers = List.replicate k .ok ++ .error :: rest →
      ∃ (landed : Nat) (u : State), landed ≤ 1 ∧ exec i s = .next u ∧
        u = { s with last := .ioError, writer := u.writer } ∧
        u.writer.state = .failed ∧ u.writer.err = .ioError ∧ u.writer.sout = s.writer.sout ++ d.take (k + landed) ∧
        u.writer.sinkAnswers = rest ∧ u.writer.draws = s.writer.draws + 1 ∧
        u.writer.imgW = t.writer.imgW ∧ u.writer.imgH = t.writer.imgH ∧ u.writer.imgPacked = t.writer.imgPacked ∧
        u.writer.bpp = t.writer.bpp ∧ t.writer.din <:+ u.writer.din ∧
        ((∀ count, i ≠ .wPixels count) → u.writer.din = t.writer.din)) ∧
  ∀ (i : Instr) (s t : State), s.writer.state = .failed → exec i s = .next t → t.writer.sout = s.writer.sout

/-! ### The bit buffer -/

/-- R114: between operations at most 7 bits are pending, below 2^P_cnt, and a WriteCode of at most 12 bits keeps it so;
inside it P_cnt is at most 19, and the 19-bit accumulator holds every bit. -/
def Obligations.PackerInvariant : Prop :=
  (∀ (w w' : Writer) (c width : Nat), packerOk w → width ≤ 12 → writeCode c width w = .ok () w' → packerOk w') ∧
  ∀ (w : Writer) (c width : Nat), packerOk w → width ≤ 12 →
    w.pCnt + width ≤ 19 ∧ w.pAcc.toNat + c % 2 ^ width * 2 ^ w.pCnt < 2 ^ 19 ∧
    (w.pAcc ||| (BitVec.ofNat 19 (c % 2 ^ width) <<< w.pCnt)).toNat = w.pAcc.toNat + c % 2 ^ width * 2 ^ w.pCnt

/-- R115: a byte joins the pending sub-block, which goes out with its length byte 255 as soon as it holds 255 bytes; a
refused byte is IoError, with the bytes accepted before it in SOUT and the refused one there or not (U3, a free value: log
entry 4). -/
def Obligations.PutByteFillsSubBlock : Prop :=
  ∀ (w : Writer) (x : Byte),
    (w.pBuf.length < 254 → putByte x w = .ok () { w with pBuf := w.pBuf ++ [x] }) ∧
    (w.pBuf.length = 254 → acceptsFirst 256 w →
      putByte x w = .ok () { w with
        pBuf := [], sout := w.sout ++ 255#8 :: (w.pBuf ++ [x]), sinkAnswers := w.sinkAnswers.drop 256 }) ∧
    (w.pBuf.length = 254 → ∀ (k : Nat) (rest : List SinkAnswer), k < 256 →
      w.sinkAnswers = List.replicate k .ok ++ .error :: rest →
      ∃ w', putByte x w = .raise .ioError w' ∧
        ∃ landed : Nat, landed ≤ 1 ∧ w'.sout = w.sout ++ (255#8 :: (w.pBuf ++ [x])).take (k + landed))

/-- R113, R115, R116, R124: from an empty packer, the codes written and a Flush put into SOUT exactly the bit string of
the codes, least significant bit first, as bytes padded with zeros, in sub-blocks of 255 bytes and a shorter last one,
and the terminator: D + ceil(D / 255) + 1 bytes for D = ceil(B / 8) data bytes. -/
def Obligations.PackerWritesBitString : Prop :=
  (∀ (codes : List (Nat × Nat)) (w : Writer), (∀ p ∈ codes, p.2 ≤ 12 ∧ p.1 < 2 ^ p.2) → packerEmpty w →
    acceptsFirst (framed (dataBytes (bitString codes))).length w →
    (writeCodes codes w).bind (fun _ w => flushPacker w) =
      .ok () { w with
        sout := w.sout ++ framed (dataBytes (bitString codes)),
        sinkAnswers := w.sinkAnswers.drop (framed (dataBytes (bitString codes))).length }) ∧
  (∀ codes : List (Nat × Nat),
    (dataBytes (bitString codes)).length = ((codes.map Prod.snd).sum + 7) / 8) ∧
  ∀ d : List Byte, (framed d).length = d.length + (d.length + 254) / 255 + 1

/-- R123: what WriteCode and Flush write for a sequence of codes of 3 to 12 bits, ReadCode with the same widths reads
back in order, and SkipToTerminator then ends at the byte after it. -/
def Obligations.BitBufferRoundTrip : Prop :=
  ∀ (codes : List (Nat × Nat)) (w : Writer) (r : Reader) (rest : List SrcAnswer),
    (∀ p ∈ codes, 3 ≤ p.2 ∧ p.2 ≤ 12 ∧ p.1 < 2 ^ p.2) → packerEmpty w →
    acceptsFirst (framed (dataBytes (bitString codes))).length w →
    ∃ (w' : Writer) (data : List Byte),
      (writeCodes codes w).bind (fun _ w => flushPacker w) = .ok () w' ∧ w'.sout = w.sout ++ data ∧
      ∃ r1 r2, readCodes (codes.map Prod.snd) (startUnpacker { r with sin := data.map .byte ++ rest }) =
          .ok (codes.map Prod.fst) r1 ∧
        skipToTerminator r1 = .ok () r2 ∧ r2.sin = rest

/-- R133: in a compressor in order, every code it may write next fits the width it is written with, whatever pixel comes:
the prefix and the Clear Code in the current width, the EOF Code in it too and in the width after the growth test. -/
def Obligations.CodesFitTheirWidth : Prop :=
  ∀ w : Writer, EncoderOk w →
    (∀ q, w.cPrefix = some q → q.toNat < 2 ^ w.cW.toNat) ∧ w.cClear.toNat < 2 ^ w.cW.toNat ∧
    w.cEof.toNat < 2 ^ w.cW.toNat ∧ w.cEof.toNat < 2 ^ (grownWidth w.cFree w.cW).toNat ∧
    (w.cFree.toNat = 4095 → (grownWidth w.cFree w.cW).toNat = 12 ∧ w.cClear.toNat < 2 ^ 12)

/-! ### The whole machine -/

/-- The invariant holds right after power-on reset. -/
def Obligations.InvAtReset : Prop := Inv State.reset

/-- The invariant is kept by every step: in every state from which a step answers, the state it answers satisfies it
again. It rules out a failed channel without a code and a code without a failed channel, an open image without pixels, a
tracker outside the raster, a dictionary with a dangling prefix or with two entries for one pair, a width or a counter out
of range, and bits or bytes left in the packer between images. -/
def Obligations.StepKeepsInv : Prop :=
  ∀ s t : State, Inv s → step s = .next t → Inv t

/-- R217: under the premise that every SrcByte and SinkByte is answered, every command completes, in every state of the
invariant, and so does every step. -/
def Obligations.EveryCommandCompletes : Prop :=
  (∀ (i : Instr) (s : State), Inv s → sourceAnswers s.reader → sinkAnswered s.writer → ∃ t, exec i s = .next t) ∧
  ∀ s : State, Inv s → sourceAnswers s.reader → sinkAnswered s.writer → ∃ t, step s = .next t

/-- R136: decode(encode(R)) = R. What W_IMAGE and W_PIXELS write for an image without a local table, R_IMAGE and
R_PIXELS read back: the descriptor with its reserved bits cleared, every pixel in the order supplied, and not a byte
more. -/
def Obligations.ImageRoundTrip : Prop :=
  ∀ (s u : State) (d0 d1 d2 d3 d4 d5 d6 d7 d8 : Byte) (px more : List Byte) (count : BitVec 24)
    (rest : List SrcAnswer),
    s.writer.state = .top → 1 ≤ s.writer.gctBpp.toNat → s.writer.gctBpp.toNat ≤ 8 → sinkAccepts s.writer →
    d8.getLsbD 7 = false → count.toNat = (d5 ++ d4 : Half).toNat * (d7 ++ d6 : Half).toNat → 0 < count.toNat →
    px.length = count.toNat → (∀ p ∈ px, p.toNat < 2 ^ s.writer.gctBpp.toNat) →
    s.writer.din = [d0, d1, d2, d3, d4, d5, d6, d7, d8] ++ px ++ more → u.reader.state = .imgDesc →
    ∃ (s1 s2 : State) (data : List Byte),
      exec .wImage s = .next s1 ∧ exec (.wPixels count) s1 = .next s2 ∧ s2.last = .ok ∧ s2.writer.state = .top ∧
      s2.writer.din = more ∧
      s2.writer.sout = s.writer.sout ++ [0x2C#8, d0, d1, d2, d3, d4, d5, d6, d7, d8 &&& 0xE7#8] ++ data ∧
      ∃ u1 u2 : State,
        exec .rImage { u with reader := { u.reader with
          sin := ([d0, d1, d2, d3, d4, d5, d6, d7, d8 &&& 0xE7#8] ++ data).map .byte ++ rest } } = .next u1 ∧
        exec (.rPixels count) u1 = .next u2 ∧ u2.last = .ok ∧ u2.reader.state = .top ∧
        u2.reader.dout = u.reader.dout ++ px ∧ u2.reader.sin = rest
end

