-- ==== Sys2Proof/Laws/Body.lean ====
section
/-!
SUPPORT. How a body goes on and ends: `bind` on each ending, and `Body.Spec`, what holds at each of the three ends,
with one rule per way of composing bodies.
-/

namespace Sys2Proof.Machine

variable {σ α β γ : Type}

@[simp] theorem Body.bind_ok (a : α) (c : σ) (f : α → σ → Body σ β) : (Body.ok a c).bind f = f a c := rfl

@[simp] theorem Body.bind_raise (e : Status) (c : σ) (f : α → σ → Body σ β) :
    (Body.raise e c : Body σ α).bind f = .raise e c := rfl

@[simp] theorem Body.bind_stuck (r : Fault) (f : α → σ → Body σ β) :
    (Body.stuck r : Body σ α).bind f = .stuck r := rfl

theorem Body.bind_assoc (x : Body σ α) (f : α → σ → Body σ β) (g : β → σ → Body σ γ) :
    (x.bind f).bind g = x.bind fun a c => (f a c).bind g := by
  cases x <;> rfl

/-- A composed body completes exactly when both parts do. -/
theorem Body.bind_eq_ok {x : Body σ α} {f : α → σ → Body σ β} {b : β} {c : σ} :
    x.bind f = .ok b c ↔ ∃ a c', x = .ok a c' ∧ f a c' = .ok b c := by
  cases x <;> simp

/-- What holds at each end of a body: `P` where it completes, `Q` where it raises, `S` where it is stuck. -/
def Body.Spec (P : α → σ → Prop) (Q : Status → σ → Prop) (S : Fault → Prop) : Body σ α → Prop
  | .ok a c => P a c
  | .raise e c => Q e c
  | .stuck r => S r

@[simp] theorem Body.spec_ok (P : α → σ → Prop) (Q : Status → σ → Prop) (S : Fault → Prop) (a : α) (c : σ) :
    Body.Spec P Q S (.ok a c) = P a c := rfl

@[simp] theorem Body.spec_raise (P : α → σ → Prop) (Q : Status → σ → Prop) (S : Fault → Prop) (e : Status)
    (c : σ) : Body.Spec P Q S (.raise e c : Body σ α) = Q e c := rfl

@[simp] theorem Body.spec_stuck (P : α → σ → Prop) (Q : Status → σ → Prop) (S : Fault → Prop) (r : Fault) :
    Body.Spec P Q S (.stuck r : Body σ α) = S r := rfl

/-- What is known of the first part carries to the second. -/
theorem Body.Spec.bind {x : Body σ α} {f : α → σ → Body σ β} {P : α → σ → Prop} {P' : β → σ → Prop}
    {Q : Status → σ → Prop} {S : Fault → Prop} (hx : Body.Spec P Q S x)
    (hf : ∀ a c, P a c → Body.Spec P' Q S (f a c)) : Body.Spec P' Q S (x.bind f) := by
  cases x with
  | ok a c => exact hf a c hx
  | raise e c => exact hx
  | stuck r => exact hx

/-- Two ways to go on that agree wherever the first part may end are the same. -/
theorem Body.Spec.bind_congr {x : Body σ α} {f g : α → σ → Body σ β} {P : α → σ → Prop} {Q : Status → σ → Prop}
    {S : Fault → Prop} (hx : Body.Spec P Q S x) (hfg : ∀ a c, P a c → f a c = g a c) : x.bind f = x.bind g := by
  cases x with
  | ok a c => exact hfg a c hx
  | raise e c => rfl
  | stuck r => rfl

/-- A weaker claim follows. -/
theorem Body.Spec.mono {x : Body σ α} {P P' : α → σ → Prop} {Q Q' : Status → σ → Prop} {S S' : Fault → Prop}
    (hx : Body.Spec P Q S x) (hP : ∀ a c, P a c → P' a c) (hQ : ∀ e c, Q e c → Q' e c)
    (hS : ∀ r, S r → S' r) : Body.Spec P' Q' S' x := by
  cases x with
  | ok a c => exact hP a c hx
  | raise e c => exact hQ e c hx
  | stuck r => exact hS r hx

/-- Two claims hold together. -/
theorem Body.Spec.and {x : Body σ α} {P P' : α → σ → Prop} {Q Q' : Status → σ → Prop} {S S' : Fault → Prop}
    (h : Body.Spec P Q S x) (h' : Body.Spec P' Q' S' x) :
    Body.Spec (fun a c => P a c ∧ P' a c) (fun e c => Q e c ∧ Q' e c) (fun r => S r ∧ S' r) x := by
  cases x with
  | ok a c => exact ⟨h, h'⟩
  | raise e c => exact ⟨h, h'⟩
  | stuck r => exact ⟨h, h'⟩

theorem Body.Spec.of_ok {x : Body σ α} {P : α → σ → Prop} {Q : Status → σ → Prop} {S : Fault → Prop} {a : α}
    {c : σ} (h : Body.Spec P Q S x) (hx : x = .ok a c) : P a c := by subst hx; exact h

theorem Body.Spec.of_raise {x : Body σ α} {P : α → σ → Prop} {Q : Status → σ → Prop} {S : Fault → Prop}
    {e : Status} {c : σ} (h : Body.Spec P Q S x) (hx : x = .raise e c) : Q e c := by subst hx; exact h

theorem Body.Spec.of_stuck {x : Body σ α} {P : α → σ → Prop} {Q : Status → σ → Prop} {S : Fault → Prop}
    {r : Fault} (h : Body.Spec P Q S x) (hx : x = .stuck r) : S r := by subst hx; exact h

end Sys2Proof.Machine
end

