-- ==== Sys2Proof/Laws/CodeWidth.lean ====
section
/-!
SUPPORT. The arithmetic of the code width and the free-code counter that both directions share (R103, R129, R143).
-/

namespace Sys2Proof.Machine

theorem toNat_succ4 {w : BitVec 4} (h : w.toNat ≤ 14) : (w + 1#4).toNat = w.toNat + 1 := by
  rw [BitVec.toNat_add, BitVec.toNat_ofNat]; omega

theorem toNat_succ13 {c : Counter} (h : c.toNat ≤ 4096) : (c + 1#13).toNat = c.toNat + 1 := by
  rw [BitVec.toNat_add, BitVec.toNat_ofNat]; omega

/-- The growth test (R129, R143): a counter that fits before fits with one more. -/
theorem grownWidth_spec {free : Counter} {w : BitVec 4} (hw : w.toNat ≤ 12) :
    w.toNat ≤ (grownWidth free w).toNat ∧ (grownWidth free w).toNat ≤ 12 ∧
    (free.toNat ≤ 2 ^ w.toNat → free.toNat ≤ 4095 → free.toNat + 1 ≤ 2 ^ (grownWidth free w).toNat) := by
  unfold grownWidth
  split
  · rename_i h
    simp only [Config.maxCodeWidth] at h
    rw [toNat_succ4 (by omega)]
    refine ⟨by omega, by omega, fun h1 _ => ?_⟩
    have := Nat.two_pow_pos w.toNat
    rw [Nat.pow_succ]; omega
  · rename_i h
    simp only [Config.maxCodeWidth] at h
    refine ⟨le_refl _, hw, fun h1 h2 => ?_⟩
    by_cases h12 : w.toNat < 12
    · omega
    · rw [show w.toNat = 12 by omega] at h1 ⊢; omega

/-- The powers of two a code size gives. -/
theorem codeSize_bounds {b : Nat} (h2 : 2 ≤ b) (h8 : b ≤ 8) :
    4 ≤ 2 ^ b ∧ 2 ^ b ≤ 256 ∧ 2 ^ (b + 1) = 2 * 2 ^ b := by
  have l2 : 2 ^ 2 ≤ 2 ^ b := Nat.pow_le_pow_right (by omega) h2
  have l8 : 2 ^ b ≤ 2 ^ 8 := Nat.pow_le_pow_right (by omega) h8
  exact ⟨l2, l8, by rw [Nat.pow_succ]; omega⟩

end Sys2Proof.Machine
end

