-- ==== Sys2Proof/Laws/Ports.lean ====
section
/-!
SUPPORT. What each port operation can do (R66 to R69), said once: which answer it got, what changed, and when it is
stuck; and what a run of them does on a stream or a sink that is known.
-/

namespace Sys2Proof.Machine

/-! ### SIN -/

/-- `r'` is `r` after some of its stream has been consumed. -/
abbrev consumed (r r' : Reader) : Prop := r'.sin <:+ r.sin

theorem srcByte_spec (r : Reader) :
    Body.Spec (fun b r' => ∃ rest, r.sin = .byte b :: rest ∧ r' = { r with sin := rest, sinRead := r.sinRead + 1 })
      (fun e r' => (e = .unexpectedEndOfData ∨ e = .ioError) ∧ ∃ rest, r' = { r with sin := rest } ∧ rest <:+ r.sin)
      (fun f => f = .sourceNeverAnswers ∧ SrcAnswer.never ∈ r.sin) (srcByte r) := by
  unfold srcByte
  split
  · rename_i h
    exact ⟨.inl rfl, [], by rw [← h], List.nil_suffix⟩
  · rename_i b rest h
    exact ⟨rest, h, rfl⟩
  · rename_i rest h
    exact ⟨.inl rfl, rest, rfl, h ▸ List.suffix_cons ..⟩
  · rename_i rest h
    exact ⟨.inr rfl, rest, rfl, h ▸ List.suffix_cons ..⟩
  · rename_i rest h
    exact ⟨rfl, by simp [h]⟩

theorem srcByte_byte {r : Reader} {b : Byte} {rest : List SrcAnswer} (h : r.sin = .byte b :: rest) :
    srcByte r = .ok b { r with sin := rest, sinRead := r.sinRead + 1 } := by
  simp [srcByte, h]

theorem srcByte_nil {r : Reader} (h : r.sin = []) : srcByte r = .raise .unexpectedEndOfData r := by
  simp [srcByte, h]

theorem srcByte_atEnd {r : Reader} {rest : List SrcAnswer} (h : r.sin = .atEnd :: rest) :
    srcByte r = .raise .unexpectedEndOfData { r with sin := rest } := by
  simp [srcByte, h]

theorem srcByte_error {r : Reader} {rest : List SrcAnswer} (h : r.sin = .error :: rest) :
    srcByte r = .raise .ioError { r with sin := rest } := by
  simp [srcByte, h]

/-- Bytes that stand in the stream are read in order. -/
theorem srcBytes_bytes (d : List Byte) : ∀ (r : Reader) (rest : List SrcAnswer),
    r.sin = d.map .byte ++ rest →
    srcBytes d.length r = .ok d { r with sin := rest, sinRead := r.sinRead + d.length } := by
  induction d with
  | nil => intro r rest h; simp at h; simp [srcBytes, ← h]
  | cons b d ih =>
    intro r rest h
    simp only [List.map_cons, List.cons_append] at h
    simp only [List.length_cons, srcBytes, srcByte_byte h, Body.bind_ok]
    rw [ih _ rest rfl]
    simp [Nat.add_assoc, Nat.add_comm 1]

/-- Bytes that stand in the stream reach DOUT in order. -/
theorem copyBytes_bytes (d : List Byte) : ∀ (r : Reader) (rest : List SrcAnswer),
    r.sin = d.map .byte ++ rest →
    copyBytes d.length r =
      .ok () { r with sin := rest, sinRead := r.sinRead + d.length, dout := r.dout ++ d } := by
  induction d with
  | nil => intro r rest h; simp at h; simp [copyBytes, ← h]
  | cons b d ih =>
    intro r rest h
    simp only [List.map_cons, List.cons_append] at h
    simp only [List.length_cons, copyBytes, srcByte_byte h, Body.bind_ok]
    rw [ih _ rest rfl]
    simp [doutPush, Nat.add_assoc, Nat.add_comm 1]

/-- Bytes that stand in the stream are skipped. -/
theorem skipBytes_bytes (d : List Byte) : ∀ (r : Reader) (rest : List SrcAnswer),
    r.sin = d.map .byte ++ rest →
    skipBytes d.length r = .ok () { r with sin := rest, sinRead := r.sinRead + d.length } := by
  induction d with
  | nil => intro r rest h; simp at h; simp [skipBytes, ← h]
  | cons b d ih =>
    intro r rest h
    simp only [List.map_cons, List.cons_append] at h
    simp only [List.length_cons, skipBytes, srcByte_byte h, Body.bind_ok]
    rw [ih _ rest rfl]
    simp [Nat.add_assoc, Nat.add_comm 1]

/-- Everything but SIN. -/
def offStream (r : Reader) : Reader := { r with sin := [], sinRead := 0 }

theorem srcBytes_spec (n : Nat) : ∀ r : Reader,
    Body.Spec (fun d r' => d.length = n ∧ offStream r' = offStream r ∧ consumed r r')
      (fun e r' => (e = .unexpectedEndOfData ∨ e = .ioError) ∧ offStream r' = offStream r ∧ consumed r r')
      (fun f => f = .sourceNeverAnswers ∧ SrcAnswer.never ∈ r.sin) (srcBytes n r) := by
  induction n with
  | zero => intro r; simp [srcBytes]
  | succ n ih =>
    intro r
    refine ((srcByte_spec r).mono (P' := fun b r' => offStream r' = offStream r ∧ consumed r r')
      (Q' := fun e r' => (e = .unexpectedEndOfData ∨ e = .ioError) ∧ offStream r' = offStream r ∧ consumed r r')
      ?_ ?_ fun _ h => h).bind ?_
    · rintro b r' ⟨rest, h, rfl⟩
      exact ⟨rfl, by simp [consumed, h]⟩
    · rintro e r' ⟨he, rest, rfl, hs⟩
      exact ⟨he, rfl, hs⟩
    · rintro b r1 ⟨h1, c1⟩
      refine ((ih r1).mono
        (Q' := fun e r' => (e = .unexpectedEndOfData ∨ e = .ioError) ∧ offStream r' = offStream r ∧ consumed r r')
        (fun _ _ h => h) ?_ ?_).bind ?_
      · rintro e r' ⟨he, h2, c2⟩
        exact ⟨he, h2.trans h1, c2.trans c1⟩
      · rintro f ⟨hf, hm⟩
        exact ⟨hf, c1.subset hm⟩
      · rintro d r' ⟨hd, h2, c2⟩
        exact ⟨by simp [hd], h2.trans h1, c2.trans c1⟩

/-- Everything but SIN and DOUT. -/
def offCopy (r : Reader) : Reader := { offStream r with dout := [] }

theorem copyBytes_spec (n : Nat) : ∀ r : Reader,
    Body.Spec
      (fun _ r' => offCopy r' = offCopy r ∧ consumed r r' ∧ ∃ d, d.length = n ∧ r'.dout = r.dout ++ d)
      (fun e r' => (e = .unexpectedEndOfData ∨ e = .ioError) ∧ offCopy r' = offCopy r ∧ consumed r r' ∧
        ∃ d, d.length < n ∧ r'.dout = r.dout ++ d)
      (fun f => f = .sourceNeverAnswers ∧ SrcAnswer.never ∈ r.sin) (copyBytes n r) := by
  induction n with
  | zero => intro r; simp [copyBytes]
  | succ n ih =>
    intro r
    refine ((srcByte_spec r).mono
      (Q' := fun e r' => (e = .unexpectedEndOfData ∨ e = .ioError) ∧ offCopy r' = offCopy r ∧ consumed r r' ∧
        ∃ d, d.length < n + 1 ∧ r'.dout = r.dout ++ d) (fun _ _ h => h) ?_ fun _ h => h).bind ?_
    · rintro e r' ⟨he, rest, rfl, hs⟩
      exact ⟨he, rfl, hs, [], by simp, by simp⟩
    · rintro b r1 ⟨rest, h, rfl⟩
      refine (ih _).mono ?_ ?_ ?_
      · rintro _ r' ⟨h2, c2, d, hd, hr⟩
        refine ⟨h2, ?_, b :: d, by simp [hd], by simp [hr, doutPush]⟩
        exact c2.trans (by simp [doutPush, h])
      · rintro e r' ⟨he, h2, c2, d, hd, hr⟩
        refine ⟨he, h2, ?_, b :: d, by simp; omega, by simp [hr, doutPush]⟩
        exact c2.trans (by simp [doutPush, h])
      · rintro f ⟨hf, hm⟩
        exact ⟨hf, by simp [doutPush] at hm; simp [h, hm]⟩

theorem skipBytes_spec (n : Nat) : ∀ r : Reader,
    Body.Spec (fun _ r' => offStream r' = offStream r ∧ consumed r r')
      (fun e r' => (e = .unexpectedEndOfData ∨ e = .ioError) ∧ offStream r' = offStream r ∧ consumed r r')
      (fun f => f = .sourceNeverAnswers ∧ SrcAnswer.never ∈ r.sin) (skipBytes n r) := by
  induction n with
  | zero => intro r; simp [skipBytes]
  | succ n ih =>
    intro r
    refine ((srcByte_spec r).mono
      (Q' := fun e r' => (e = .unexpectedEndOfData ∨ e = .ioError) ∧ offStream r' = offStream r ∧ consumed r r')
      (fun _ _ h => h) ?_ fun _ h => h).bind ?_
    · rintro e r' ⟨he, rest, rfl, hs⟩
      exact ⟨he, rfl, hs⟩
    · rintro b r1 ⟨rest, h, rfl⟩
      refine (ih _).mono ?_ ?_ ?_
      · rintro _ r' ⟨h2, c2⟩
        exact ⟨h2, c2.trans (by simp [h])⟩
      · rintro e r' ⟨he, h2, c2⟩
        exact ⟨he, h2, c2.trans (by simp [h])⟩
      · rintro f ⟨hf, hm⟩
        exact ⟨hf, by simp at hm; simp [h, hm]⟩

/-! ### SOUT and DIN -/

/-- Everything but SOUT. -/
def offSink (w : Writer) : Writer := { w with sinkAnswers := [], sout := [], draws := 0 }

theorem sinkByte_spec (b : Byte) (w : Writer) :
    Body.Spec
      (fun _ w' => offSink w' = offSink w ∧ w'.sout = w.sout ++ [b] ∧ w'.draws = w.draws ∧
        w'.sinkAnswers <:+ w.sinkAnswers)
      (fun e w' => e = .ioError ∧ offSink w' = offSink w ∧ w.sout <+: w'.sout ∧ w'.draws = w.draws + 1 ∧
        SinkAnswer.error ∈ w.sinkAnswers ∧ w'.sinkAnswers <:+ w.sinkAnswers)
      (fun f => f = .sinkNeverAnswers ∧ SinkAnswer.never ∈ w.sinkAnswers) (sinkByte b w) := by
  unfold sinkByte
  split
  · rename_i h
    refine ⟨rfl, rfl, rfl, ?_⟩
    simp [sinkTake, h]
  · rename_i rest h
    exact ⟨rfl, rfl, rfl, h ▸ List.suffix_cons ..⟩
  · rename_i rest h
    refine ⟨rfl, rfl, ?_, rfl, by simp [h], h ▸ List.suffix_cons ..⟩
    simp only [sinkRefuse]
    split
    · exact List.prefix_append ..
    · exact List.prefix_refl _
  · rename_i rest h
    exact ⟨rfl, by simp [h]⟩

/-- A sink that accepts takes the byte. -/
theorem sinkByte_accepts {w : Writer} (b : Byte) (h : sinkAccepts w) :
    sinkByte b w = .ok () { w with sout := w.sout ++ [b], sinkAnswers := w.sinkAnswers.drop 1 } := by
  unfold sinkByte
  split
  · rename_i hn; simp [sinkTake, hn]
  · rename_i rest hc; simp [sinkTake, hc]
  · rename_i rest hc; exact absurd (h .error (by simp [hc])) (by decide)
  · rename_i rest hc; exact absurd (h .never (by simp [hc])) (by decide)

theorem sinkBytes_accepts (bs : List Byte) : ∀ w : Writer, sinkAccepts w →
    sinkBytes bs w =
      .ok () { w with sout := w.sout ++ bs, sinkAnswers := w.sinkAnswers.drop bs.length } := by
  induction bs with
  | nil => intro w _; simp [sinkBytes]
  | cons b bs ih =>
    intro w h
    simp only [sinkBytes, sinkByte_accepts b h, Body.bind_ok]
    rw [ih]
    · simp [Nat.add_comm]
    · exact fun a ha => h a (List.drop_subset _ _ ha)

theorem sinkBytes_spec (bs : List Byte) : ∀ w : Writer,
    Body.Spec
      (fun _ w' => offSink w' = offSink w ∧ w'.sout = w.sout ++ bs ∧ w'.draws = w.draws ∧
        w'.sinkAnswers <:+ w.sinkAnswers)
      (fun e w' => e = .ioError ∧ offSink w' = offSink w ∧ w.sout <+: w'.sout ∧ w'.draws = w.draws + 1 ∧
        SinkAnswer.error ∈ w.sinkAnswers ∧ w'.sinkAnswers <:+ w.sinkAnswers)
      (fun f => f = .sinkNeverAnswers ∧ SinkAnswer.never ∈ w.sinkAnswers) (sinkBytes bs w) := by
  induction bs with
  | nil => intro w; simp [sinkBytes]
  | cons b bs ih =>
    intro w
    refine (sinkByte_spec b w).bind ?_
    rintro _ w1 ⟨h1, s1, d1, a1⟩
    refine (ih w1).mono ?_ ?_ ?_
    · rintro _ w' ⟨h2, s2, d2, a2⟩
      exact ⟨h2.trans h1, by simp [s2, s1], d2.trans d1, a2.trans a1⟩
    · rintro e w' ⟨he, h2, s2, d2, a2, a3⟩
      refine ⟨he, h2.trans h1, ?_, d2.trans (by rw [d1]), a1.subset a2, a3.trans a1⟩
      exact (s1 ▸ List.prefix_append ..).trans s2
    · rintro f ⟨hf, hm⟩
      exact ⟨hf, a1.subset hm⟩

end Sys2Proof.Machine
end

