-- ==== Sys2Proof/Laws/Packer.lean ====
section
/-!
SUPPORT. What the packer can do (R113 to R117): it touches only its own state and SOUT, fails only with IoError, and
keeps fewer than 8 bits and fewer than 255 bytes pending (R114, R115).
-/

namespace Sys2Proof.Machine

/-- Everything but SOUT and the packer. -/
def offPacker (w : Writer) : Writer := { offSink w with pAcc := 0, pCnt := 0, pBuf := [] }

/-- SOUT has taken some bytes more, every one of them accepted, and DIN has only been popped from. -/
def SinkGrows (w w' : Writer) : Prop :=
  w.sout <+: w'.sout ∧ w'.draws = w.draws ∧ w'.sinkAnswers <:+ w.sinkAnswers ∧ w'.din <:+ w.din

/-- SOUT has refused a byte, and DIN has only been popped from. -/
def SinkFails (w : Writer) (e : Status) (w' : Writer) : Prop :=
  e = .ioError ∧ w.sout <+: w'.sout ∧ w'.draws = w.draws + 1 ∧ SinkAnswer.error ∈ w.sinkAnswers ∧
  w'.sinkAnswers <:+ w.sinkAnswers ∧ w'.din <:+ w.din

/-- SOUT does not answer. -/
def SinkSilent (w : Writer) (f : Fault) : Prop := f = .sinkNeverAnswers ∧ SinkAnswer.never ∈ w.sinkAnswers

theorem SinkGrows.refl (w : Writer) : SinkGrows w w :=
  ⟨List.prefix_refl _, rfl, List.suffix_refl _, List.suffix_refl _⟩

theorem SinkGrows.trans {w w1 w' : Writer} (h : SinkGrows w w1) (h' : SinkGrows w1 w') : SinkGrows w w' :=
  ⟨h.1.trans h'.1, h'.2.1.trans h.2.1, h'.2.2.1.trans h.2.2.1, h'.2.2.2.trans h.2.2.2⟩

theorem SinkGrows.fails {w w1 w' : Writer} {e : Status} (h : SinkGrows w w1) (h' : SinkFails w1 e w') :
    SinkFails w e w' :=
  ⟨h'.1, h.1.trans h'.2.1, h'.2.2.1.trans (by rw [h.2.1]), h.2.2.1.subset h'.2.2.2.1,
    h'.2.2.2.2.1.trans h.2.2.1, h'.2.2.2.2.2.trans h.2.2.2⟩

theorem SinkGrows.silent {w w1 : Writer} {f : Fault} (h : SinkGrows w w1) (h' : SinkSilent w1 f) :
    SinkSilent w f := ⟨h'.1, h.2.2.1.subset h'.2⟩

theorem SinkGrows.answered {w w' : Writer} (h : SinkGrows w w') (hw : sinkAnswered w) : sinkAnswered w' :=
  fun hm => hw (h.2.2.1.subset hm)

theorem SinkGrows.accepts {w w' : Writer} (h : SinkGrows w w') (hw : sinkAccepts w) : sinkAccepts w' :=
  fun a ha => hw a (h.2.2.1.subset ha)

/-- What a part of the writer does that leaves everything but `off` alone. -/
def WriterPart {β : Type} (off : Writer → β) (w : Writer) (x : Body Writer Unit) : Prop :=
  Body.Spec (fun _ w' => off w' = off w ∧ SinkGrows w w') (fun e w' => off w' = off w ∧ SinkFails w e w')
    (SinkSilent w) x

theorem WriterPart.ok {β : Type} {off : Writer → β} {w w' : Writer} (h : off w' = off w) (g : SinkGrows w w') :
    WriterPart off w (.ok () w') := ⟨h, g⟩

/-- Parts compose. -/
theorem WriterPart.bind {β : Type} {off : Writer → β} {w : Writer} {x : Body Writer Unit}
    {f : Unit → Writer → Body Writer Unit} (hx : WriterPart off w x)
    (hf : ∀ w', off w' = off w → SinkGrows w w' → WriterPart off w' (f () w')) : WriterPart off w (x.bind f) := by
  refine Body.Spec.bind hx ?_
  rintro _ w1 ⟨h1, g1⟩
  refine (hf w1 h1 g1).mono ?_ ?_ ?_
  · rintro _ w' ⟨h2, g2⟩; exact ⟨h2.trans h1, g1.trans g2⟩
  · rintro e w' ⟨h2, g2⟩; exact ⟨h2.trans h1, g1.fails g2⟩
  · intro f g2; exact g1.silent g2

/-- A part may start from a state that differs only in what it may change. -/
theorem WriterPart.start {β : Type} {off : Writer → β} {w w' : Writer} {x : Body Writer Unit} (hx : WriterPart off w' x)
    (h : off w' = off w) (g : SinkGrows w w') : WriterPart off w x := by
  refine hx.mono ?_ ?_ ?_
  · rintro _ w2 ⟨h2, g2⟩; exact ⟨h2.trans h, g.trans g2⟩
  · rintro e w2 ⟨h2, g2⟩; exact ⟨h2.trans h, g.fails g2⟩
  · intro f g2; exact g.silent g2

/-- A part that leaves more alone leaves less alone. -/
theorem WriterPart.widen {β γ : Type} {off : Writer → β} {off' : Writer → γ} {w : Writer} {x : Body Writer Unit} (hx : WriterPart off w x)
    (h : ∀ w', off w' = off w → off' w' = off' w) : WriterPart off' w x := by
  refine hx.mono ?_ ?_ fun _ h => h
  · rintro _ w2 ⟨h2, g2⟩; exact ⟨h _ h2, g2⟩
  · rintro e w2 ⟨h2, g2⟩; exact ⟨h _ h2, g2⟩

theorem offSink_din {w w' : Writer} (h : offSink w' = offSink w) : w'.din = w.din := by
  have := congrArg Writer.din h
  simpa only [offSink] using this

theorem sinkByte_part (b : Byte) (w : Writer) : WriterPart offSink w (sinkByte b w) := by
  refine (sinkByte_spec b w).mono ?_ ?_ fun _ h => h
  · rintro _ w' ⟨h, s, d, a⟩
    exact ⟨h, s ▸ List.prefix_append .., d, a, offSink_din h ▸ List.suffix_refl _⟩
  · rintro e w' ⟨he, h, s, d, a, a'⟩
    exact ⟨h, he, s, d, a, a', offSink_din h ▸ List.suffix_refl _⟩

theorem sinkBytes_part (bs : List Byte) (w : Writer) : WriterPart offSink w (sinkBytes bs w) := by
  refine (sinkBytes_spec bs w).mono ?_ ?_ fun _ h => h
  · rintro _ w' ⟨h, s, d, a⟩
    exact ⟨h, s ▸ List.prefix_append .., d, a, offSink_din h ▸ List.suffix_refl _⟩
  · rintro e w' ⟨he, h, s, d, a, a'⟩
    exact ⟨h, he, s, d, a, a', offSink_din h ▸ List.suffix_refl _⟩

theorem sinkSubBlock_part (bs : List Byte) (w : Writer) : WriterPart offSink w (sinkSubBlock bs w) :=
  (sinkByte_part _ w).bind fun w' _ _ => sinkBytes_part bs w'

theorem offPacker_of_offSink {w w' : Writer} (h : offSink w' = offSink w) : offPacker w' = offPacker w := by
  simp only [offPacker, h]

/-- The packer's own fields do not show outside it. -/
theorem offPacker_set (w : Writer) (a : Acc) (n : Nat) (l : List Byte) :
    offPacker { w with pAcc := a, pCnt := n, pBuf := l } = offPacker w := rfl

theorem offSink_pBuf {w w' : Writer} (h : offSink w' = offSink w) : w'.pBuf = w.pBuf := congrArg (·.pBuf) h
theorem offSink_pAcc {w w' : Writer} (h : offSink w' = offSink w) : w'.pAcc = w.pAcc := congrArg (·.pAcc) h
theorem offSink_pCnt {w w' : Writer} (h : offSink w' = offSink w) : w'.pCnt = w.pCnt := congrArg (·.pCnt) h

/-- `PutByte`: the accumulator stays, and at most 254 bytes are pending again. -/
theorem putByte_spec (x : Byte) (w : Writer) :
    Body.Spec (fun _ w' => offPacker w' = offPacker w ∧ SinkGrows w w' ∧ w'.pAcc = w.pAcc ∧ w'.pCnt = w.pCnt ∧
        (w.pBuf.length ≤ 254 → w'.pBuf.length ≤ 254))
      (fun e w' => offPacker w' = offPacker w ∧ SinkFails w e w') (SinkSilent w) (putByte x w) := by
  unfold putByte
  dsimp only
  split
  · refine Body.Spec.bind (P := fun _ w' => offSink w' = offSink { w with pBuf := w.pBuf ++ [x] } ∧ SinkGrows w w')
      ((sinkSubBlock_part _ _).mono (fun _ _ h => h) ?_ (fun _ h => h)) ?_
    · rintro e w' ⟨h1, h2⟩
      exact ⟨(offPacker_of_offSink h1).trans (offPacker_set w ..), h2⟩
    · rintro _ w1 ⟨h1, g1⟩
      refine ⟨?_, g1, ?_, ?_, fun _ => by simp⟩
      · exact (offPacker_set w1 ..).trans ((offPacker_of_offSink h1).trans (offPacker_set w ..))
      · exact (offSink_pAcc h1 :)
      · exact (offSink_pCnt h1 :)
  · rename_i hne
    refine ⟨rfl, SinkGrows.refl w, rfl, rfl, fun h => ?_⟩
    simp only [List.length_append, List.length_singleton, Config.subBlockMax] at hne ⊢
    omega

theorem accByte_toNat (a : Acc) : (accByte a).toNat = a.toNat % 256 := by
  simp [accByte, BitVec.toNat_setWidth]

/-- The accumulator loses its low byte. -/
theorem acc_shift {a : Acc} {n : Nat} (h : a.toNat < 2 ^ n) (hn : 8 ≤ n) : (a >>> 8).toNat < 2 ^ (n - 8) := by
  rw [BitVec.toNat_ushiftRight, Nat.shiftRight_eq_div_pow, Nat.div_lt_iff_lt_mul (Nat.two_pow_pos _), ← Nat.pow_add]
  rwa [Nat.sub_add_cancel hn]

theorem packBytes_spec (n : Nat) : ∀ w : Writer,
    Body.Spec (fun _ w' => offPacker w' = offPacker w ∧ SinkGrows w w' ∧
        (w.pCnt ≤ 8 * n + 7 → w.pAcc.toNat < 2 ^ w.pCnt → w.pBuf.length ≤ 254 → packerOk w'))
      (fun e w' => offPacker w' = offPacker w ∧ SinkFails w e w') (SinkSilent w) (packBytes n w) := by
  induction n with
  | zero => intro w; exact ⟨rfl, SinkGrows.refl w, fun h1 h2 h3 => ⟨by omega, h2, h3⟩⟩
  | succ n ih =>
    intro w
    simp only [packBytes]
    split
    · rename_i h8
      refine (putByte_spec _ w).bind ?_
      rintro _ w1 ⟨h1, g1, a1, c1, b1⟩
      refine (ih _).mono ?_ ?_ ?_
      · rintro _ w' ⟨h2, g2, p2⟩
        refine ⟨(h2.trans (offPacker_set w1 ..)).trans h1, g1.trans g2, fun k1 k2 k3 => p2 ?_ ?_ (b1 k3)⟩
        · simp only [c1]; omega
        · simp only [c1, a1]; exact acc_shift k2 h8
      · rintro e w' ⟨h2, g2⟩
        exact ⟨(h2.trans (offPacker_set w1 ..)).trans h1, g1.fails g2⟩
      · intro f g2; exact g1.silent g2
    · rename_i h8
      exact ⟨rfl, SinkGrows.refl w, fun h1 h2 h3 => ⟨by omega, h2, h3⟩⟩

/-- A code put above the pending bits. -/
theorem acc_append {a : Acc} {k width : Nat} (c : Nat) (h : a.toNat < 2 ^ k) :
    (a ||| (BitVec.ofNat 19 (c % 2 ^ width) <<< k)).toNat < 2 ^ (k + width) := by
  rw [BitVec.toNat_or, BitVec.toNat_shiftLeft, BitVec.toNat_ofNat]
  refine Nat.or_lt_two_pow (lt_of_lt_of_le h (Nat.pow_le_pow_right (by decide) (by omega))) ?_
  refine lt_of_le_of_lt (Nat.mod_le _ _) ?_
  rw [Nat.shiftLeft_eq, Nat.pow_add, Nat.mul_comm]
  exact Nat.mul_lt_mul_of_pos_left
    (lt_of_le_of_lt (Nat.mod_le _ _) (Nat.mod_lt _ (Nat.two_pow_pos _))) (Nat.two_pow_pos _)

/-- `WriteCode(c, w)` keeps the packer in order (R114). -/
theorem writeCode_spec (c width : Nat) (w : Writer) :
    Body.Spec (fun _ w' => offPacker w' = offPacker w ∧ SinkGrows w w' ∧ (packerOk w → packerOk w'))
      (fun e w' => offPacker w' = offPacker w ∧ SinkFails w e w') (SinkSilent w) (writeCode c width w) := by
  refine (packBytes_spec _ _).mono ?_ ?_ fun _ h => h
  · rintro _ w' ⟨h, g, p⟩
    refine ⟨h.trans (offPacker_set w ..), g, fun ⟨k1, k2, k3⟩ => p (by simp only; omega) ?_ k3⟩
    exact acc_append c k2
  · rintro e w' ⟨h, g⟩
    exact ⟨h.trans (offPacker_set w ..), g⟩

theorem flushBits_spec (w : Writer) :
    Body.Spec (fun _ w' => offPacker w' = offPacker w ∧ SinkGrows w w' ∧ w'.pCnt = 0 ∧
        (packerOk w → w'.pAcc = 0#19 ∧ w'.pBuf.length ≤ 254))
      (fun e w' => offPacker w' = offPacker w ∧ SinkFails w e w') (SinkSilent w) (flushBits w) := by
  unfold flushBits
  split
  · refine (putByte_spec _ w).bind ?_
    rintro _ w1 ⟨h1, g1, a1, c1, b1⟩
    exact ⟨(offPacker_set w1 ..).trans h1, g1, rfl, fun h => ⟨rfl, b1 h.2.2⟩⟩
  · rename_i h0
    refine ⟨rfl, SinkGrows.refl w, by omega, fun h => ⟨?_, h.2.2⟩⟩
    have := h.2.1
    rw [show w.pCnt = 0 by omega] at this
    apply BitVec.eq_of_toNat_eq
    simp only [BitVec.toNat_ofNat]
    omega

theorem flushSubBlock_spec (w : Writer) :
    Body.Spec (fun _ w' => offPacker w' = offPacker w ∧ SinkGrows w w' ∧ w'.pCnt = w.pCnt ∧ w'.pAcc = w.pAcc ∧
        w'.pBuf = [])
      (fun e w' => offPacker w' = offPacker w ∧ SinkFails w e w') (SinkSilent w) (flushSubBlock w) := by
  unfold flushSubBlock
  split
  · refine Body.Spec.bind (P := fun _ w' => offSink w' = offSink w ∧ SinkGrows w w')
      ((sinkSubBlock_part _ _).mono (fun _ _ h => h) ?_ (fun _ h => h)) ?_
    · rintro e w' ⟨h1, h2⟩
      exact ⟨offPacker_of_offSink h1, h2⟩
    · rintro _ w1 ⟨h1, g1⟩
      exact ⟨(offPacker_set w1 ..).trans (offPacker_of_offSink h1), g1, (offSink_pCnt h1 :), (offSink_pAcc h1 :), rfl⟩
  · rename_i h0
    exact ⟨rfl, SinkGrows.refl w, rfl, rfl, List.length_eq_zero_iff.1 (by omega)⟩

/-- `Flush()` leaves the packer empty (R116, R117). -/
theorem flushPacker_spec (w : Writer) :
    Body.Spec (fun _ w' => offPacker w' = offPacker w ∧ SinkGrows w w' ∧ (packerOk w → packerEmpty w'))
      (fun e w' => offPacker w' = offPacker w ∧ SinkFails w e w') (SinkSilent w) (flushPacker w) := by
  refine (flushBits_spec w).bind ?_
  rintro _ w1 ⟨h1, g1, c1, p1⟩
  refine Body.Spec.bind (P := fun _ w' => offPacker w' = offPacker w ∧ SinkGrows w w' ∧ w'.pCnt = w1.pCnt ∧
      w'.pAcc = w1.pAcc ∧ w'.pBuf = []) ((flushSubBlock_spec w1).mono ?_ ?_ ?_) ?_
  · rintro _ w' ⟨h2, g2, r⟩; exact ⟨h2.trans h1, g1.trans g2, r⟩
  · rintro e w' ⟨h2, g2⟩; exact ⟨h2.trans h1, g1.fails g2⟩
  · intro f g2; exact g1.silent g2
  · rintro _ w2 ⟨h2, g2, c2, a2, b2⟩
    refine (sinkByte_part _ w2).mono ?_ ?_ ?_
    · rintro _ w' ⟨h3, g3⟩
      refine ⟨(offPacker_of_offSink h3).trans h2, g2.trans g3, fun hp => ⟨?_, ?_, ?_⟩⟩
      · rw [offSink_pCnt h3, c2, c1]
      · rw [offSink_pAcc h3, a2, (p1 hp).1]
      · rw [offSink_pBuf h3, b2]
    · rintro e w' ⟨h3, g3⟩; exact ⟨(offPacker_of_offSink h3).trans h2, g2.fails g3⟩
    · intro f g3; exact g2.silent g3

end Sys2Proof.Machine
end

