-- ==== Sys2Proof/Laws/Compressor.lean ====
section
/-!
SUPPORT. What the compressor can do (R126 to R133): it touches only its own state, the packer and SOUT, fails only with
IoError, and keeps its dictionary, counter and width in order.
-/

namespace Sys2Proof.Machine

/-- Everything but SOUT, the packer and what the compressor changes from pixel to pixel. -/
def offCompressor (w : Writer) : Writer :=
  { offPacker w with cW := 0, cFree := 0, cPrefix := none, cDict := [] }

/-- Everything but SOUT, the packer and the compressor. -/
def offEncoder (w : Writer) : Writer :=
  { offCompressor w with bpp := 0, cB := 0, cClear := 0, cEof := 0, cFirst := 0 }

theorem offCompressor_of_offPacker {w w' : Writer} (h : offPacker w' = offPacker w) :
    offCompressor w' = offCompressor w := by simp only [offCompressor, h]

theorem offEncoder_of_offCompressor {w w' : Writer} (h : offCompressor w' = offCompressor w) :
    offEncoder w' = offEncoder w := by simp only [offEncoder, h]

theorem offCompressor_set (w : Writer) (n : BitVec 4) (f : Counter) (q : Option Code) (d : List CEntry) :
    offCompressor { w with cW := n, cFree := f, cPrefix := q, cDict := d } = offCompressor w := rfl

/-- The compressor's state is the same. -/
def sameEncoder (w w' : Writer) : Prop :=
  w'.bpp = w.bpp ∧ w'.cB = w.cB ∧ w'.cClear = w.cClear ∧ w'.cEof = w.cEof ∧ w'.cFirst = w.cFirst ∧ w'.cW = w.cW ∧
  w'.cFree = w.cFree ∧ w'.cPrefix = w.cPrefix ∧ w'.cDict = w.cDict

theorem sameEncoder_of_offPacker {w w' : Writer} (h : offPacker w' = offPacker w) : sameEncoder w w' :=
  ⟨(congrArg (·.bpp) h :), (congrArg (·.cB) h :), (congrArg (·.cClear) h :), (congrArg (·.cEof) h :),
    (congrArg (·.cFirst) h :), (congrArg (·.cW) h :), (congrArg (·.cFree) h :), (congrArg (·.cPrefix) h :),
    (congrArg (·.cDict) h :)⟩

theorem EncoderOk.of_same {w w' : Writer} (h : sameEncoder w w') (hw : EncoderOk w) : EncoderOk w' := by
  obtain ⟨h1, h2, h3, h4, h5, h6, h7, h8, h9⟩ := h
  simpa only [EncoderOk, encoderSpace, encoderWidth, pairsOk, pairsDistinct, codeKnown, h1, h2, h3, h4, h5, h6, h7, h8, h9] using hw

/-- A fresh dictionary is in order. -/
theorem resetDict_ok {w : Writer} (hs : encoderSpace w) (hp : ∀ q, w.cPrefix = some q → q.toNat < w.cClear.toNat) :
    EncoderOk (resetDict w) := by
  obtain ⟨h1, h2, h3, h4, h5, h6⟩ := hs
  obtain ⟨k1, k2, k3⟩ := codeSize_bounds (b := w.cB.toNat) (by omega) (by omega)
  have e : (w.cB + 1#4).toNat = w.cB.toNat + 1 := toNat_succ4 (by omega)
  refine ⟨⟨h1, h2, h3, h4, h5, h6⟩, ⟨le_refl _, ?_, ?_, ?_, ?_⟩, ⟨rfl, by simp [resetDict], fun q hq => .inl (hp q hq),
    List.Pairwise.nil⟩⟩
  all_goals simp only [resetDict, e]; omega

/-- The pair that is looked up stands in the dictionary. -/
theorem dictLookup_mem {d : List CEntry} {q : Code} {p : Byte} {c : Code} (h : dictLookup d q p = some c) :
    ∃ e ∈ d, e.pfx = q ∧ e.pixel = p ∧ e.code = c := by
  simp only [dictLookup, Option.map_eq_some_iff] at h
  obtain ⟨e, he, rfl⟩ := h
  have := List.find?_some he
  simp only [Bool.and_eq_true, beq_iff_eq] at this
  exact ⟨e, List.mem_of_find?_eq_some he, this.1, this.2, rfl⟩

/-- A pair is absent exactly where no entry has it. -/
theorem dictLookup_eq_none {d : List CEntry} {q : Code} {p : Byte} :
    dictLookup d q p = none ↔ ∀ e ∈ d, ¬(e.pfx = q ∧ e.pixel = p) := by
  simp [dictLookup, List.find?_eq_none]

/-- An entry answers a lookup of its pair with its code, since no other entry has that pair. -/
theorem dictLookup_of_mem {w : Writer} (h : pairsDistinct w) {e : CEntry} (he : e ∈ w.cDict) :
    dictLookup w.cDict e.pfx e.pixel = some e.code := by
  unfold pairsDistinct at h
  induction hd : w.cDict generalizing w with
  | nil => simp [hd] at he
  | cons x d ih =>
    rw [hd, List.pairwise_cons] at h
    obtain ⟨h1, h2⟩ := h
    rw [hd, List.mem_cons] at he
    simp only [dictLookup, List.find?_cons]
    obtain rfl | he := he
    · simp
    · have := (h1 e he).1
      have hne : (x.pfx == e.pfx && x.pixel == e.pixel) = false := by simpa using this
      rw [hne]
      exact ih (w := { w with cDict := d }) h2 he rfl

/-- What the insertion of an absent pair keeps in order; the counter may have reached 4096. -/
theorem insertPair_spec {w : Writer} {q : Code} {p : Byte} (h : EncoderOk w) (hq : w.cPrefix = some q)
    (hp : p.toNat < 2 ^ w.bpp.toNat) (hl : dictLookup w.cDict q p = none) :
    encoderSpace (insertPair q p w) ∧ p.toNat < w.cClear.toNat ∧
    ((insertPair q p w).cFree.toNat ≠ 4096 → EncoderOk (insertPair q p w)) := by
  obtain ⟨hs, ⟨w1, w2, w3, w4, w5⟩, ⟨p1, p2, p3, p4⟩⟩ := h
  have hs' := hs
  obtain ⟨h1, h2, h3, h4, h5, h6⟩ := hs'
  obtain ⟨g1, g2, g3⟩ := grownWidth_spec (free := w.cFree) w4
  have e : (w.cFree + 1#13).toNat = w.cFree.toNat + 1 := toNat_succ13 (by omega)
  have hpc : p.toNat < w.cClear.toNat := by
    refine lt_of_lt_of_le hp ?_
    rw [h4, h3]
    exact Nat.pow_le_pow_right (by decide) (le_max_left _ _)
  have hp8 : (p.setWidth 12).toNat = p.toNat := by
    rw [BitVec.toNat_setWidth]; exact Nat.mod_eq_of_lt (by have := p.isLt; omega)
  have hc : (w.cFree.setWidth 12).toNat = w.cFree.toNat := by
    rw [BitVec.toNat_setWidth]; exact Nat.mod_eq_of_lt (by omega)
  refine ⟨hs, hpc, fun hne => ⟨hs, ?_, ?_⟩⟩
  · simp only [insertPair, e] at hne
    refine ⟨?_, ?_, ?_, ?_, ?_⟩
    · simp only [insertPair, e]; omega
    · simp only [insertPair, e]; omega
    · simp only [insertPair]; omega
    · simp only [insertPair]; omega
    · simp only [insertPair, e]; exact g3 w5 w2
  · refine ⟨by simp only [insertPair, e, List.length_cons]; omega, ?_, ?_, ?_⟩
    · intro x hx
      simp only [insertPair, List.mem_cons] at hx
      obtain rfl | hx := hx
      · refine ⟨?_, hp, by simp only [insertPair, hc]; omega, by simp only [insertPair, hc, e]; omega⟩
        have := p3 q hq
        simp only [codeKnown, insertPair, e] at this ⊢; omega
      · obtain ⟨a1, a2, a3, a4⟩ := p2 x hx
        refine ⟨?_, a2, a3, by simp only [insertPair, e]; omega⟩
        simp only [codeKnown, insertPair, e] at a1 ⊢; omega
    · intro x hx
      simp only [insertPair, Option.some.injEq] at hx
      subst hx
      left
      simp only [insertPair, hp8]; exact hpc
    · refine List.pairwise_cons.2 ⟨fun x hx => ⟨fun hx2 => ?_, by rw [hc]; exact (p2 x hx).2.2.2⟩, p4⟩
      exact dictLookup_eq_none.1 hl x hx ⟨hx2.1.symm, hx2.2.symm⟩

theorem checkExhausted_spec {w : Writer} (hs : encoderSpace w) (hf : w.cFree.toNat ≠ 4096 → EncoderOk w)
    (hp : ∀ q, w.cPrefix = some q → q.toNat < w.cClear.toNat) :
    Body.Spec (fun _ w' => offCompressor w' = offCompressor w ∧ SinkGrows w w' ∧ EncoderOk w' ∧
        (packerOk w → packerOk w'))
      (fun e w' => offCompressor w' = offCompressor w ∧ SinkFails w e w') (SinkSilent w) (checkExhausted w) := by
  unfold checkExhausted
  split
  · refine Body.Spec.bind ((writeCode_spec _ _ w).mono (fun _ _ h => h) ?_ fun _ h => h) ?_
    · rintro e w' ⟨h, g⟩; exact ⟨offCompressor_of_offPacker h, g⟩
    · rintro _ w1 ⟨h, g, p⟩
      obtain ⟨e1, e2, e3, e4, e5, e6, e7, e8, e9⟩ := sameEncoder_of_offPacker h
      refine ⟨(offCompressor_set w1 ..).trans (offCompressor_of_offPacker h), g, resetDict_ok ?_ ?_, p⟩
      · simpa only [encoderSpace, e1, e2, e3, e4, e5] using hs
      · intro q hq; rw [e3]; exact hp q (e8 ▸ hq)
  · rename_i hne
    exact ⟨rfl, SinkGrows.refl w, hf hne, fun h => h⟩

/-- `CompressPixel(p)` keeps compressor and packer in order (R125, R133, R114). -/
theorem compressPixel_spec {w : Writer} {p : Byte} (h : EncoderOk w) (hp : p.toNat < 2 ^ w.bpp.toNat) :
    Body.Spec (fun _ w' => offCompressor w' = offCompressor w ∧ SinkGrows w w' ∧ EncoderOk w' ∧
        (packerOk w → packerOk w'))
      (fun e w' => offCompressor w' = offCompressor w ∧ SinkFails w e w') (SinkSilent w) (compressPixel p w) := by
  have hp8 : (p.setWidth 12).toNat = p.toNat := by
    rw [BitVec.toNat_setWidth]; exact Nat.mod_eq_of_lt (by have := p.isLt; omega)
  unfold compressPixel
  split
  · rename_i hn
    refine ⟨rfl, SinkGrows.refl w, ⟨h.1, h.2.1, h.2.2.1, h.2.2.2.1, ?_, h.2.2.2.2.2⟩, fun h => h⟩
    intro x hx
    simp only [Option.some.injEq] at hx
    subst hx
    obtain ⟨h1, h2, h3, h4, h5, h6⟩ := h.1
    left
    simp only [hp8]
    refine lt_of_lt_of_le hp ?_
    rw [h4, h3]
    exact Nat.pow_le_pow_right (by decide) (le_max_left _ _)
  · rename_i q hq
    split
    · rename_i c hc
      refine ⟨rfl, SinkGrows.refl w, ⟨h.1, h.2.1, h.2.2.1, h.2.2.2.1, ?_, h.2.2.2.2.2⟩, fun h => h⟩
      intro x hx
      simp only [Option.some.injEq] at hx
      subst hx
      obtain ⟨e, he, -, -, rfl⟩ := dictLookup_mem hc
      exact .inr (h.2.2.2.1 e he).2.2
    · rename_i hl
      refine Body.Spec.bind ((writeCode_spec _ _ w).mono (fun _ _ h => h) ?_ fun _ h => h) ?_
      · rintro e w' ⟨h, g⟩; exact ⟨offCompressor_of_offPacker h, g⟩
      · rintro _ w1 ⟨h1, g1, p1⟩
        have hsame := sameEncoder_of_offPacker h1
        have hq1 : w1.cPrefix = some q := hsame.2.2.2.2.2.2.2.1.trans hq
        obtain ⟨i1, i2, i3⟩ := insertPair_spec (p := p) (h.of_same hsame) hq1 (by rw [hsame.1]; exact hp)
          (by rw [hsame.2.2.2.2.2.2.2.2]; exact hl)
        refine (checkExhausted_spec i1 i3 ?_).mono ?_ ?_ ?_
        · intro x hx
          simp only [insertPair, Option.some.injEq] at hx
          subst hx
          simp only [insertPair, hp8]; exact i2
        · rintro _ w' ⟨h2, g2, o2, p2⟩
          exact ⟨(h2.trans (offCompressor_set w1 ..)).trans (offCompressor_of_offPacker h1), g1.trans g2, o2,
            fun hp => p2 (p1 hp)⟩
        · rintro e w' ⟨h2, g2⟩
          exact ⟨(h2.trans (offCompressor_set w1 ..)).trans (offCompressor_of_offPacker h1), g1.fails g2⟩
        · intro f g2; exact g1.silent g2

theorem emitLast_spec (w : Writer) :
    Body.Spec (fun _ w' => offCompressor w' = offCompressor w ∧ SinkGrows w w' ∧ (packerOk w → packerOk w'))
      (fun e w' => offCompressor w' = offCompressor w ∧ SinkFails w e w') (SinkSilent w) (emitLast w) := by
  unfold emitLast
  split
  · exact ⟨rfl, SinkGrows.refl w, fun h => h⟩
  · refine Body.Spec.bind ((writeCode_spec _ _ w).mono (fun _ _ h => h) ?_ fun _ h => h) ?_
    · rintro e w' ⟨h, g⟩; exact ⟨offCompressor_of_offPacker h, g⟩
    · rintro _ w1 ⟨h1, g1, p1⟩
      exact ⟨(offCompressor_set w1 ..).trans (offCompressor_of_offPacker h1), g1, p1⟩

/-- `CompressFinish()` leaves the packer empty (R131, R117). -/
theorem compressFinish_spec (w : Writer) :
    Body.Spec (fun _ w' => offCompressor w' = offCompressor w ∧ SinkGrows w w' ∧ w'.cPrefix = none ∧
        (packerOk w → packerEmpty w'))
      (fun e w' => offCompressor w' = offCompressor w ∧ SinkFails w e w') (SinkSilent w) (compressFinish w) := by
  refine (emitLast_spec w).bind ?_
  rintro _ w1 ⟨h1, g1, p1⟩
  refine Body.Spec.bind (P := fun _ w' => offCompressor w' = offCompressor w ∧ SinkGrows w w' ∧
    (packerOk w → packerOk w')) ((writeCode_spec _ _ w1).mono ?_ ?_ ?_) ?_
  · rintro _ w' ⟨h2, g2, p2⟩
    exact ⟨(offCompressor_of_offPacker h2).trans h1, g1.trans g2, fun h => p2 (p1 h)⟩
  · rintro e w' ⟨h2, g2⟩; exact ⟨(offCompressor_of_offPacker h2).trans h1, g1.fails g2⟩
  · intro f g2; exact g1.silent g2
  · rintro _ w2 ⟨h2, g2, p2⟩
    refine Body.Spec.bind (P := fun _ w' => offCompressor w' = offCompressor w ∧ SinkGrows w w' ∧
      (packerOk w → packerEmpty w')) ((flushPacker_spec w2).mono ?_ ?_ ?_) ?_
    · rintro _ w' ⟨h3, g3, p3⟩
      exact ⟨(offCompressor_of_offPacker h3).trans h2, g2.trans g3, fun h => p3 (p2 h)⟩
    · rintro e w' ⟨h3, g3⟩; exact ⟨(offCompressor_of_offPacker h3).trans h2, g2.fails g3⟩
    · intro f g3; exact g2.silent g3
    · rintro _ w3 ⟨h3, g3, p3⟩
      exact ⟨(offCompressor_set w3 ..).trans h3, g3, rfl, p3⟩

theorem codeSizeOf_spec {bpp : BitVec 4} : (codeSizeOf bpp).toNat = max bpp.toNat 2 := by
  unfold codeSizeOf
  split
  · rw [max_eq_right (by omega)]; rfl
  · rw [max_eq_left (by omega)]

theorem setCodeSpace_space {w : Writer} (h1 : 1 ≤ w.bpp.toNat) (h8 : w.bpp.toNat ≤ 8)
    (hb : w.cB.toNat = max w.bpp.toNat 2) : encoderSpace (setCodeSpace w) := by
  obtain ⟨k1, k2, k3⟩ := codeSize_bounds (b := w.cB.toNat) (by omega) (by omega)
  refine ⟨h1, h8, hb, ?_, ?_, ?_⟩
  all_goals simp only [setCodeSpace, BitVec.toNat_ofNat]; omega

/-- `CompressStart(bpp)` leaves compressor and packer in order (R126). -/
theorem compressStart_spec {bpp : BitVec 4} (w : Writer) (h1 : 1 ≤ bpp.toNat) (h8 : bpp.toNat ≤ 8) :
    Body.Spec (fun _ w' => offEncoder w' = offEncoder w ∧ SinkGrows w w' ∧ EncoderOk w' ∧ packerOk w' ∧
        w'.bpp = bpp ∧ w'.cB = codeSizeOf bpp ∧ w'.cPrefix = none ∧ w'.cFree = w'.cFirst ∧ w'.cW = w'.cB + 1#4)
      (fun e w' => offEncoder w' = offEncoder w ∧ SinkFails w e w') (SinkSilent w) (compressStart bpp w) := by
  unfold compressStart
  dsimp only
  refine Body.Spec.bind
    (P := fun _ w' => offSink w' = offSink { w with bpp := bpp, cB := codeSizeOf bpp } ∧ SinkGrows w w')
    ((sinkByte_part _ _).mono (fun _ _ h => h) ?_ fun _ h => h) ?_
  · rintro e w' ⟨h, g⟩
    exact ⟨(offEncoder_of_offCompressor (offCompressor_of_offPacker (offPacker_of_offSink h)) :), g⟩
  · rintro _ w1 ⟨h, g⟩
    have hoff : offEncoder w1 = offEncoder w :=
      (offEncoder_of_offCompressor (offCompressor_of_offPacker (offPacker_of_offSink h)) :)
    have hbpp : w1.bpp = bpp := (congrArg (·.bpp) h :)
    have hcB : w1.cB = codeSizeOf bpp := (congrArg (·.cB) h :)
    have hspace : encoderSpace (setCodeSpace w1) :=
      setCodeSpace_space (by rw [hbpp]; exact h1) (by rw [hbpp]; exact h8) (by rw [hcB, hbpp]; exact codeSizeOf_spec)
    have hok : EncoderOk { resetDict (startPacker (setCodeSpace w1)) with cPrefix := none } :=
      resetDict_ok (w := { startPacker (setCodeSpace w1) with cPrefix := none }) hspace (by simp)
    generalize hw2 : ({ resetDict (startPacker (setCodeSpace w1)) with cPrefix := none } : Writer) = w2 at hok ⊢
    have hoff2 : offEncoder w2 = offEncoder w := by rw [← hw2]; exact hoff
    have hp2 : packerOk w2 := by rw [← hw2]; exact ⟨Nat.zero_le _, (by decide : (0#19).toNat < 2 ^ 0), Nat.zero_le _⟩
    have hg2 : SinkGrows w w2 := by rw [← hw2]; exact g
    have hf2 : w2.bpp = bpp ∧ w2.cB = codeSizeOf bpp ∧ w2.cPrefix = none ∧ w2.cFree = w2.cFirst ∧
        w2.cW = w2.cB + 1#4 := by rw [← hw2]; exact ⟨hbpp, hcB, rfl, rfl, rfl⟩
    refine (writeCode_spec _ _ w2).mono ?_ ?_ ?_
    · rintro _ w' ⟨h3, g3, p3⟩
      have hs := sameEncoder_of_offPacker h3
      refine ⟨(offEncoder_of_offCompressor (offCompressor_of_offPacker h3)).trans hoff2, hg2.trans g3,
        hok.of_same hs, p3 hp2, ?_⟩
      obtain ⟨s1, s2, s3, s4, s5, s6, s7, s8, s9⟩ := hs
      rw [s1, s2, s5, s6, s7, s8]
      exact hf2
    · rintro e w' ⟨h3, g3⟩
      exact ⟨(offEncoder_of_offCompressor (offCompressor_of_offPacker h3)).trans hoff2, hg2.fails g3⟩
    · intro f g3; exact hg2.silent g3

end Sys2Proof.Machine
end

