-- ==== Sys2Proof/Laws/RowTracker.lean ====
section
/-!
SUPPORT. The row tracker (R59): where the loop over the passes ends, where a raster starts, and how many pixels are left
after each step.
-/

namespace Sys2Proof.Machine

/-- The raster length (R13, R162). -/
theorem rasterLength_toNat (w h : Half) : (rasterLength w h).toNat = w.toNat * h.toNat := by
  have hw := w.isLt
  have hh := h.isLt
  have : w.toNat * h.toNat ≤ 65535 * 65535 := Nat.mul_le_mul (by omega) (by omega)
  rw [rasterLength, BitVec.toNat_ofNat]
  exact Nat.mod_eq_of_lt (by omega)

/-- The rows left from row `row` of pass `pass` on. -/
def rowsFromPass (h pass row : Nat) : Nat := rowsFrom pass row h + rowsAfter h pass

theorem rowsFrom_zero {pass row h : Nat} (hp : pass < 4) (hr : h ≤ row) : rowsFrom pass row h = 0 := by
  obtain rfl | rfl | rfl | rfl : pass = 0 ∨ pass = 1 ∨ pass = 2 ∨ pass = 3 := by omega
  all_goals simp only [rowsFrom, interlaceStride]; omega

theorem rowsFrom_pos {pass row h : Nat} (hp : pass < 4) (hr : row < h) : 0 < rowsFrom pass row h := by
  obtain rfl | rfl | rfl | rfl : pass = 0 ∨ pass = 1 ∨ pass = 2 ∨ pass = 3 := by omega
  all_goals simp only [rowsFrom, interlaceStride]; omega

theorem rowsFrom_stride {pass row h : Nat} (hp : pass < 4) (hr : row < h) :
    rowsFrom pass (row + interlaceStride pass) h + 1 = rowsFrom pass row h := by
  obtain rfl | rfl | rfl | rfl : pass = 0 ∨ pass = 1 ∨ pass = 2 ∨ pass = 3 := by omega
  all_goals simp only [rowsFrom, interlaceStride]; omega

theorem rowsAfter_succ {pass h : Nat} (hp : pass < 3) :
    rowsAfter h pass = rowsFrom (pass + 1) (interlaceOffset (pass + 1)) h + rowsAfter h (pass + 1) := by
  obtain rfl | rfl | rfl : pass = 0 ∨ pass = 1 ∨ pass = 2 := by omega
  all_goals simp [rowsAfter, interlaceOffset, Nat.add_assoc]

/-- The rows of the four passes are the rows of the image. -/
theorem rowsFromPass_start (h : Nat) : rowsFromPass h 0 0 = h := by
  simp only [rowsFromPass, rowsAfter, rowsFrom, interlaceStride]; omega

/-- Where the loop of R59 ends: at the next row of the raster, or at (4, H) when no row is left. -/
theorem settleRow_spec (h n : Nat) : ∀ pass row, pass < 4 → 4 ≤ pass + n →
    (rowsFromPass h pass row = 0 → settleRow h n pass row = (4, h)) ∧
    (0 < rowsFromPass h pass row →
      (settleRow h n pass row).1 < 4 ∧ (settleRow h n pass row).2 < h ∧
      rowsFromPass h (settleRow h n pass row).1 (settleRow h n pass row).2 = rowsFromPass h pass row) := by
  induction n with
  | zero => intro pass row hp hn; omega
  | succ n ih =>
    intro pass row hp hn
    by_cases hr : h ≤ row
    · have h0 := rowsFrom_zero hp hr
      simp only [settleRow, hp, hr, and_self, if_true]
      by_cases hp3 : pass < 3
      · have := ih (pass + 1) (interlaceOffset (pass + 1)) (by omega) (by omega)
        rw [if_pos (by omega)]
        simpa only [rowsFromPass, h0, Nat.zero_add, rowsAfter_succ hp3] using this
      · obtain rfl : pass = 3 := by omega
        simp only [rowsFromPass, h0, rowsAfter]
        cases n <;> simp [settleRow]
    · simp only [settleRow, hr, and_false, if_false]
      rw [if_neg (by omega)]
      have := rowsFrom_pos hp (by omega : row < h)
      refine ⟨fun h0 => absurd h0 (by unfold rowsFromPass; omega), fun _ => ⟨hp, by omega, rfl⟩⟩

/-- A raster with pixels starts inside, all of them left (R163). -/
theorem rowInit_inside {w h : Half} (il : BitVec 1) (hw : 0 < w.toNat) (hh : 0 < h.toNat) :
    trackerInside (rowInit w h il) ∧ trackerLeft (rowInit w h il) (w.toNat * h.toNat) ∧
    (rowInit w h il).row = 0#16 ∧ (rowInit w h il).col = 0#16 ∧ (rowInit w h il).pass = 0#3 := by
  unfold rowInit
  split
  · rename_i hil
    have hs : settleRow h.toNat 4 0 (interlaceOffset 0) = (0, 0) := by
      have : ¬ h.toNat ≤ 0 := by omega
      simp [settleRow, interlaceOffset, this]
    rw [hs]
    simp only [trackerInside, trackerLeft, rowsLeft, hil]
    have := rowsFromPass_start h.toNat
    simp only [rowsFromPass] at this
    simp [hw, hh, this, Nat.mul_comm]
  · rename_i hil
    have hn : h ≠ 0#16 := by rintro rfl; simp at hh
    rw [if_neg hn]
    simp [trackerInside, trackerLeft, rowsLeft, hil, hw, hh, Nat.mul_comm]

@[simp] theorem nextRow_w (t : RowTracker) : (nextRow t).w = t.w := by unfold nextRow; split <;> [rfl; (split <;> rfl)]
@[simp] theorem nextRow_h (t : RowTracker) : (nextRow t).h = t.h := by unfold nextRow; split <;> [rfl; (split <;> rfl)]
@[simp] theorem nextRow_il (t : RowTracker) : (nextRow t).il = t.il := by
  unfold nextRow; split <;> [rfl; (split <;> rfl)]
@[simp] theorem nextRow_col (t : RowTracker) : (nextRow t).col = t.col := by
  unfold nextRow; split <;> [rfl; (split <;> rfl)]
@[simp] theorem rowAdvance_w (t : RowTracker) : (rowAdvance t).w = t.w := by unfold rowAdvance; split <;> simp
@[simp] theorem rowAdvance_h (t : RowTracker) : (rowAdvance t).h = t.h := by unfold rowAdvance; split <;> simp
@[simp] theorem rowAdvance_il (t : RowTracker) : (rowAdvance t).il = t.il := by unfold rowAdvance; split <;> simp

/-- The step to the next row: the raster is complete, or the tracker stands on a row with one row less to go. -/
theorem nextRow_spec {t : RowTracker} (hr : t.row.toNat < t.h.toNat) (hp : t.pass.toNat < 4)
    (hil : t.il ≠ 1#1 → t.pass = 0#3) :
    (rowsLeft t = 1 → (nextRow t).row = t.h ∧ (nextRow t).pass = 4#3) ∧
    (1 < rowsLeft t → (nextRow t).row.toNat < t.h.toNat ∧ (nextRow t).pass.toNat < 4 ∧
      (t.il ≠ 1#1 → (nextRow t).pass = 0#3) ∧ rowsLeft (nextRow t) + 1 = rowsLeft t) := by
  have hh := t.h.isLt
  by_cases h1 : t.il = 1#1
  · have hst := rowsFrom_stride hp hr
    have key := settleRow_spec t.h.toNat 4 t.pass.toNat (t.row.toNat + interlaceStride t.pass.toNat) hp (by omega)
    have hleft : rowsLeft t = rowsFromPass t.h.toNat t.pass.toNat (t.row.toNat + interlaceStride t.pass.toNat) + 1 := by
      simp only [rowsLeft, h1, if_true, rowsFromPass]; omega
    constructor
    · intro hl
      have h0 := key.1 (by omega)
      simp only [nextRow, h1, if_true, h0]
      simp
    · intro hl
      obtain ⟨k1, k2, k3⟩ := key.2 (by omega)
      have e1 : (nextRow t).row.toNat =
          (settleRow t.h.toNat 4 t.pass.toNat (t.row.toNat + interlaceStride t.pass.toNat)).2 := by
        simp only [nextRow, h1, if_true, BitVec.toNat_ofNat]; exact Nat.mod_eq_of_lt (by omega)
      have e2 : (nextRow t).pass.toNat =
          (settleRow t.h.toNat 4 t.pass.toNat (t.row.toNat + interlaceStride t.pass.toNat)).1 := by
        simp only [nextRow, h1, if_true, BitVec.toNat_ofNat]; exact Nat.mod_eq_of_lt (by omega)
      refine ⟨by omega, by omega, fun h => absurd h1 h, ?_⟩
      have : rowsLeft (nextRow t) = rowsFromPass t.h.toNat (nextRow t).pass.toNat (nextRow t).row.toNat := by
        simp [rowsLeft, h1, rowsFromPass]
      rw [this, e1, e2, k3, hleft]
  · have hleft : rowsLeft t = t.h.toNat - t.row.toNat := by simp [rowsLeft, h1]
    constructor
    · intro hl
      have : t.row.toNat + 1 = t.h.toNat := by omega
      simp [nextRow, h1, this]
    · intro hl
      have hne : ¬ t.row.toNat + 1 = t.h.toNat := by omega
      have e1 : (nextRow t).row.toNat = t.row.toNat + 1 := by
        simp only [nextRow, h1, if_false, hne, BitVec.toNat_ofNat]; exact Nat.mod_eq_of_lt (by omega)
      have e2 : (nextRow t).pass = t.pass := by simp only [nextRow, h1, if_false, hne]
      refine ⟨by omega, by rw [e2]; exact hp, fun h => by rw [e2]; exact hil h, ?_⟩
      have : rowsLeft (nextRow t) = t.h.toNat - (nextRow t).row.toNat := by simp [rowsLeft, h1]
      omega

/-- One pixel on: the raster is complete after the last, and the tracker stands on the next otherwise. -/
theorem rowAdvance_spec {t : RowTracker} {n : Nat} (hin : trackerInside t) (hl : trackerLeft t n) :
    0 < n ∧ (n = 1 → trackerDone (rowAdvance t)) ∧
    (1 < n → trackerInside (rowAdvance t) ∧ trackerLeft (rowAdvance t) (n - 1)) := by
  obtain ⟨hr, hc, hp, hil⟩ := hin
  simp only [trackerLeft] at hl
  have hw := t.w.isLt
  have hpos : 1 ≤ rowsLeft t := by
    unfold rowsLeft; split
    · have := rowsFrom_pos hp hr; omega
    · omega
  have hmul : t.w.toNat ≤ rowsLeft t * t.w.toNat := Nat.le_mul_of_pos_left _ hpos
  refine ⟨by omega, ?_⟩
  by_cases hlast : t.col.toNat + 1 = t.w.toNat
  · have hadv : rowAdvance t = nextRow { t with col := 0#16 } := by simp only [rowAdvance, hlast, if_true]
    have hrl : rowsLeft { t with col := 0#16 } = rowsLeft t := rfl
    have key := nextRow_spec (t := { t with col := 0#16 }) hr hp hil
    rw [hrl] at key
    constructor
    · intro h1
      have : rowsLeft t = 1 := by
        by_contra hne
        have : 2 * t.w.toNat ≤ rowsLeft t * t.w.toNat := Nat.mul_le_mul_right _ (by omega)
        omega
      obtain ⟨k1, k2⟩ := key.1 this
      exact ⟨by rw [hadv, k1]; simp, by rw [hadv]; simp, by rw [hadv, k2]⟩
    · intro h1
      have : 1 < rowsLeft t := by
        by_contra hne
        have : rowsLeft t = 1 := by omega
        rw [this] at hl; omega
      obtain ⟨k1, k2, k3, k4⟩ := key.2 this
      refine ⟨⟨by rw [hadv]; simpa using k1, by rw [hadv]; simp; omega, by rw [hadv]; exact k2,
        by rw [hadv]; simpa using k3⟩, ?_⟩
      rw [trackerLeft, hadv]
      have hk : rowsLeft t = rowsLeft (nextRow { t with col := 0#16 }) + 1 := k4.symm
      rw [hk, Nat.add_mul] at hl
      simp only [nextRow_col, nextRow_w, BitVec.toNat_ofNat, Nat.zero_mod]
      omega
  · have hadv : rowAdvance t = { t with col := BitVec.ofNat 16 (t.col.toNat + 1) } := by
      simp only [rowAdvance, hlast, if_false]
    have e1 : (rowAdvance t).col.toNat = t.col.toNat + 1 := by
      rw [hadv]; simp only [BitVec.toNat_ofNat]; exact Nat.mod_eq_of_lt (by omega)
    have e2 : rowsLeft (rowAdvance t) = rowsLeft t := by rw [hadv]; rfl
    constructor
    · intro h1; omega
    · intro h1
      refine ⟨⟨by rw [hadv]; exact hr, by rw [e1]; simp; omega, by rw [hadv]; exact hp, by rw [hadv]; exact hil⟩, ?_⟩
      rw [trackerLeft, e1, e2]; simp; omega

end Sys2Proof.Machine
end

