-- ==== Sys2Proof/Laws/Unpacker.lean ====
section
/-!
SUPPORT. What the unpacker can do (R118 to R120): it touches only its own state and SIN, raises only
UnexpectedEndOfData and IoError, keeps its accumulator in order, and every code uses up its bits.
-/

namespace Sys2Proof.Machine

/-- Everything but SIN and the unpacker. -/
def offUnpacker (r : Reader) : Reader :=
  { offStream r with uAcc := 0, uCnt := 0, uLeft := 0, uEnd := false }

/-- The bits held and the bits that may still come. -/
def bitsLeft (r : Reader) : Nat := r.uCnt + 8 * r.sin.length

/-- How a part of the reader that only unpacks fails. -/
def UnpackFails (r : Reader) (e : Status) (r' : Reader) : Prop :=
  (e = .unexpectedEndOfData ∨ e = .ioError) ∧ offUnpacker r' = offUnpacker r ∧ consumed r r'

/-- When a part of the reader is stuck for want of an answer. -/
def SourceSilent (r : Reader) (f : Fault) : Prop := f = .sourceNeverAnswers ∧ SrcAnswer.never ∈ r.sin

theorem UnpackFails.trans {r r1 r' : Reader} {e : Status} (h1 : offUnpacker r1 = offUnpacker r)
    (c1 : consumed r r1) (h : UnpackFails r1 e r') : UnpackFails r e r' :=
  ⟨h.1, h.2.1.trans h1, h.2.2.trans c1⟩

theorem SourceSilent.trans {r r1 : Reader} {f : Fault} (c1 : consumed r r1) (h : SourceSilent r1 f) :
    SourceSilent r f := ⟨h.1, c1.subset h.2⟩

/-- The accumulator with a byte more above its bits. -/
theorem acc_load {a : Acc} {n : Nat} (x : Byte) (ha : a.toNat < 2 ^ n) :
    (a ||| (x.setWidth 19 <<< n)).toNat < 2 ^ (n + 8) := by
  rw [BitVec.toNat_or, BitVec.toNat_shiftLeft, BitVec.toNat_setWidth]
  have hx := x.isLt
  refine Nat.or_lt_two_pow (lt_of_lt_of_le ha (Nat.pow_le_pow_right (by decide) (by omega))) ?_
  refine lt_of_le_of_lt (Nat.mod_le _ _) ?_
  rw [Nat.mod_eq_of_lt (by omega), Nat.shiftLeft_eq, Nat.pow_add, Nat.mul_comm]
  exact Nat.mul_lt_mul_of_pos_left hx (Nat.two_pow_pos n)

theorem offUnpacker_of_offStream {r r' : Reader} (h : offStream r' = offStream r) :
    offUnpacker r' = offUnpacker r := by
  simp only [offUnpacker, h]

/-- The unpacker's own fields do not show outside it. -/
theorem offUnpacker_set (r : Reader) (a : Acc) (n : Nat) (l : Byte) (e : Bool) (q : List SrcAnswer) (k : Nat) :
    offUnpacker { r with uAcc := a, uCnt := n, uLeft := l, uEnd := e, sin := q, sinRead := k } = offUnpacker r := rfl

theorem loadDataByte_spec (r : Reader) :
    Body.Spec (fun _ r' => offUnpacker r' = offUnpacker r ∧ consumed r r' ∧ r'.uCnt = r.uCnt + 8 ∧
        bitsLeft r' ≤ bitsLeft r ∧
        (r.uAcc.toNat < 2 ^ r.uCnt → r'.uAcc.toNat < 2 ^ r'.uCnt))
      (UnpackFails r) (SourceSilent r) (loadDataByte r) := by
  refine ((srcByte_spec r).mono (Q' := UnpackFails r) (fun _ _ h => h) ?_ fun _ h => h).bind ?_
  · rintro e r' ⟨he, rest, rfl, hs⟩
    exact ⟨he, rfl, hs⟩
  · rintro x r1 ⟨rest, h, rfl⟩
    refine ⟨rfl, by simp [consumed, h], rfl, ?_, fun ha => acc_load x ha⟩
    simp only [bitsLeft, h, List.length_cons]; omega

theorem loadBits_spec (r : Reader) :
    Body.Spec (fun _ r' => offUnpacker r' = offUnpacker r ∧ consumed r r' ∧ r'.uCnt = r.uCnt + 8 ∧
        bitsLeft r' ≤ bitsLeft r ∧
        (r.uAcc.toNat < 2 ^ r.uCnt → r'.uAcc.toNat < 2 ^ r'.uCnt))
      (UnpackFails r) (SourceSilent r) (loadBits r) := by
  unfold loadBits
  split
  · split
    · exact ⟨.inl rfl, rfl, List.suffix_refl _⟩
    · refine ((srcByte_spec r).mono (Q' := UnpackFails r) (fun _ _ h => h) ?_ fun _ h => h).bind ?_
      · rintro e r' ⟨he, rest, rfl, hs⟩
        exact ⟨he, rfl, hs⟩
      · rintro l r1 ⟨rest, h, rfl⟩
        split
        · exact ⟨.inl rfl, rfl, by simp [consumed, h]⟩
        · refine (loadDataByte_spec _).mono ?_ ?_ ?_
          · rintro _ r' ⟨h1, h2, h3, h4, h5⟩
            refine ⟨h1, h2.trans (by simp [h]), h3, h4.trans ?_, h5⟩
            simp only [bitsLeft, h, List.length_cons]; omega
          · rintro e r' ⟨he, h1, h2⟩
            exact ⟨he, h1, h2.trans (by simp [h])⟩
          · rintro f ⟨hf, hm⟩
            exact ⟨hf, by simp only at hm; simp [h, hm]⟩
  · exact loadDataByte_spec r

theorem fillBits_spec (width n : Nat) : ∀ r : Reader,
    Body.Spec (fun _ r' => offUnpacker r' = offUnpacker r ∧ consumed r r' ∧ bitsLeft r' ≤ bitsLeft r ∧
        (width ≤ r.uCnt + 8 * n → width ≤ r'.uCnt) ∧
        (width ≤ 12 → r.uCnt ≤ width + 7 → r.uAcc.toNat < 2 ^ r.uCnt →
          r'.uCnt ≤ width + 7 ∧ r'.uAcc.toNat < 2 ^ r'.uCnt))
      (UnpackFails r) (SourceSilent r) (fillBits width n r) := by
  induction n with
  | zero => intro r; simp +contextual [fillBits, consumed]
  | succ n ih =>
    intro r
    simp only [fillBits]
    split
    · refine (loadBits_spec r).bind ?_
      rintro _ r1 ⟨h1, c1, u1, b1, a1⟩
      refine (ih r1).mono ?_ ?_ ?_
      · rintro _ r' ⟨h2, c2, b2, w2, a2⟩
        exact ⟨h2.trans h1, c2.trans c1, b2.trans b1, fun hw => w2 (by omega),
          fun hw hu ha => a2 hw (by omega) (a1 ha)⟩
      · intro e r' hf; exact hf.trans h1 c1
      · intro f hf; exact hf.trans c1
    · rename_i hlt
      exact ⟨rfl, List.suffix_refl _, le_refl _, fun _ => by omega, fun _ hu ha => ⟨hu, ha⟩⟩

/-- The loop of ReadCode does not depend on its bound, where the bound covers the bits that are missing. -/
theorem fillBits_bound (width n : Nat) : ∀ (m : Nat) (r : Reader), width ≤ r.uCnt + 8 * n → width ≤ r.uCnt + 8 * m →
    fillBits width n r = fillBits width m r := by
  have enough : ∀ (k : Nat) (r : Reader), width ≤ r.uCnt → fillBits width k r = .ok () r := by
    intro k r h
    cases k with
    | zero => rfl
    | succ k => simp only [fillBits]; rw [if_neg (by omega)]
  induction n with
  | zero => intro m r hn _; rw [enough 0 r (by omega), enough m r (by omega)]
  | succ n ih =>
    intro m r hn hm
    by_cases hw : width ≤ r.uCnt
    · rw [enough _ r hw, enough _ r hw]
    · obtain ⟨m, rfl⟩ : ∃ k, m = k + 1 := ⟨m - 1, by omega⟩
      simp only [fillBits]
      rw [if_pos (by omega), if_pos (by omega)]
      exact (loadBits_spec r).bind_congr fun _ r1 h => ih m r1 (by omega) (by omega)

/-- `ReadCode(w)`: the code fits its width and uses up its bits; between codes fewer than 8 bits are held. -/
theorem readCode_spec (width : Nat) (r : Reader) :
    Body.Spec (fun c r' => offUnpacker r' = offUnpacker r ∧ consumed r r' ∧ c < 2 ^ width ∧
        bitsLeft r' + width ≤ bitsLeft r ∧ (width ≤ 12 → unpackerOk r → unpackerOk r'))
      (UnpackFails r) (SourceSilent r) (readCode width r) := by
  refine (fillBits_spec width width r).bind ?_
  rintro _ r1 ⟨h1, c1, b1, w1, a1⟩
  have hw := w1 (by omega)
  refine ⟨h1, c1, Nat.mod_lt _ (Nat.two_pow_pos _), ?_, ?_⟩
  · simp only [bitsLeft] at b1 ⊢; omega
  · rintro h12 ⟨hu, ha⟩
    obtain ⟨hu1, ha1⟩ := a1 h12 (by omega) ha
    refine ⟨by simp only; omega, ?_⟩
    simp only [BitVec.toNat_ushiftRight, Nat.shiftRight_eq_div_pow]
    rw [Nat.div_lt_iff_lt_mul (Nat.two_pow_pos _), ← Nat.pow_add]
    rwa [show r1.uCnt - width + width = r1.uCnt by omega]

theorem skipToTerminator_spec (r : Reader) :
    Body.Spec (fun _ r' => offUnpacker r' = offUnpacker r ∧ consumed r r' ∧ r'.uEnd = true ∧ r'.uAcc = 0#19 ∧
        r'.uCnt = 0 ∧ r'.uLeft = 0#8)
      (UnpackFails r) (SourceSilent r) (skipToTerminator r) := by
  refine ((skipBytes_spec r.uLeft.toNat r).mono (Q' := UnpackFails r) (fun _ _ h => h) ?_ fun _ h => h).bind ?_
  · rintro e r' ⟨he, h, hs⟩
    exact ⟨he, offUnpacker_of_offStream h, hs⟩
  · rintro _ r1 ⟨h1, c1⟩
    have u1 := offUnpacker_of_offStream h1
    refine ((srcByte_spec _).mono (Q' := UnpackFails r) (S' := SourceSilent r) (fun _ _ h => h) ?_ ?_).bind ?_
    · rintro e r' ⟨he, rest, rfl, hs⟩
      exact ⟨he, (offUnpacker_set r1 ..).trans u1, hs.trans c1⟩
    · rintro f ⟨hf, hm⟩
      exact ⟨hf, c1.subset hm⟩
    · rintro l r2 ⟨rest, h, rfl⟩
      have c2 : rest <:+ r.sin := List.IsSuffix.trans (by simp only at h; simp [h]) c1
      split
      · exact ⟨.inl rfl, (offUnpacker_set r1 ..).trans u1, c2⟩
      · exact ⟨(offUnpacker_set r1 ..).trans u1, c2, rfl, rfl, rfl, rfl⟩

end Sys2Proof.Machine
end

