-- ==== Sys2Proof/Laws/Decompressor.lean ====
section
/-!
SUPPORT. What the decompressor can do (R137 to R150): the string walk ends in a root code, the dictionary stays in
order, every loop ends, and what is delivered is a root code.
-/

namespace Sys2Proof.Machine

/-- Everything but SIN, the unpacker and what the decompressor changes from code to code. -/
def offDecompressor (r : Reader) : Reader :=
  { offUnpacker r with dW := 0, dFree := 0, dPrev := none, dDict := [], dPend := [], dDone := false }

/-- Everything but SIN, DOUT, the unpacker, the decompressor's changing state, the pixel count and the row tracker. -/
def offPixels (r : Reader) : Reader :=
  { offDecompressor r with dout := [], pixRemain := 0, rows := RowTracker.reset }

theorem offDecompressor_of_offUnpacker {r r' : Reader} (h : offUnpacker r' = offUnpacker r) :
    offDecompressor r' = offDecompressor r := by simp only [offDecompressor, h]

theorem offPixels_of_offDecompressor {r r' : Reader} (h : offDecompressor r' = offDecompressor r) :
    offPixels r' = offPixels r := by simp only [offPixels, h]

theorem offDecompressor_state {r r' : Reader} (h : offDecompressor r' = offDecompressor r) : r'.state = r.state := by
  have := congrArg Reader.state h
  simpa only [offDecompressor, offUnpacker, offStream] using this

theorem offDecompressor_err {r r' : Reader} (h : offDecompressor r' = offDecompressor r) : r'.err = r.err := by
  have := congrArg Reader.err h
  simpa only [offDecompressor, offUnpacker, offStream] using this

theorem offDecompressor_dB {r r' : Reader} (h : offDecompressor r' = offDecompressor r) : r'.dB = r.dB := by
  have := congrArg Reader.dB h
  simpa only [offDecompressor, offUnpacker, offStream] using this

theorem offDecompressor_pixRemain {r r' : Reader} (h : offDecompressor r' = offDecompressor r) : r'.pixRemain = r.pixRemain := by
  have := congrArg Reader.pixRemain h
  simpa only [offDecompressor, offUnpacker, offStream] using this

theorem offDecompressor_rows {r r' : Reader} (h : offDecompressor r' = offDecompressor r) : r'.rows = r.rows := by
  have := congrArg Reader.rows h
  simpa only [offDecompressor, offUnpacker, offStream] using this

theorem offDecompressor_dout {r r' : Reader} (h : offDecompressor r' = offDecompressor r) : r'.dout = r.dout := by
  have := congrArg Reader.dout h
  simpa only [offDecompressor, offUnpacker, offStream] using this

theorem offPixels_state {r r' : Reader} (h : offPixels r' = offPixels r) : r'.state = r.state := by
  have := congrArg Reader.state h
  simpa only [offPixels, offDecompressor, offUnpacker, offStream] using this

theorem offPixels_err {r r' : Reader} (h : offPixels r' = offPixels r) : r'.err = r.err := by
  have := congrArg Reader.err h
  simpa only [offPixels, offDecompressor, offUnpacker, offStream] using this

theorem offPixels_dB {r r' : Reader} (h : offPixels r' = offPixels r) : r'.dB = r.dB := by
  have := congrArg Reader.dB h
  simpa only [offPixels, offDecompressor, offUnpacker, offStream] using this

theorem offDecompressor_set (r : Reader) (w : BitVec 4) (f : Counter) (q : Option Code) (d : List DEntry)
    (p : List Byte) (e : Bool) :
    offDecompressor { r with dW := w, dFree := f, dPrev := q, dDict := d, dPend := p, dDone := e } =
      offDecompressor r := rfl

/-- The decompressor's state is the same. -/
def sameDecoder (r r' : Reader) : Prop :=
  r'.dB = r.dB ∧ r'.dClear = r.dClear ∧ r'.dEof = r.dEof ∧ r'.dFirst = r.dFirst ∧ r'.dW = r.dW ∧
  r'.dFree = r.dFree ∧ r'.dPrev = r.dPrev ∧ r'.dDict = r.dDict ∧ r'.dPend = r.dPend ∧ r'.dDone = r.dDone

theorem sameDecoder_of_offUnpacker {r r' : Reader} (h : offUnpacker r' = offUnpacker r) : sameDecoder r r' :=
  ⟨(congrArg (·.dB) h :), (congrArg (·.dClear) h :), (congrArg (·.dEof) h :), (congrArg (·.dFirst) h :),
    (congrArg (·.dW) h :), (congrArg (·.dFree) h :), (congrArg (·.dPrev) h :), (congrArg (·.dDict) h :),
    (congrArg (·.dPend) h :), (congrArg (·.dDone) h :)⟩

theorem DecoderOk.of_same {r r' : Reader} (h : sameDecoder r r') (hu : unpackerOk r') (hr : DecoderOk r) :
    DecoderOk r' := by
  obtain ⟨h1, h2, h3, h4, h5, h6, h7, h8, h9, h10⟩ := h
  obtain ⟨k1, k2, k3, k4, k5, k6⟩ := hr
  refine ⟨?_, ?_, ?_, hu, ?_, ?_⟩
  · simpa only [decoderSpace, h1, h2, h3, h4] using k1
  · simpa only [dictionaryOk, h1, h2, h4, h6, h8] using k2
  · simpa only [decoderWidth, codeAssigned, h1, h2, h4, h5, h6, h7] using k3
  · simpa only [pendingOk, h1, h9] using k5
  · simpa only [decoderPace, h4, h5, h6, h7] using k6

/-! ### The string walk -/

/-- The walk ends in a root code, and every pixel it finds is one (R138, R139). -/
theorem walkString_spec {r : Reader} (hs : decoderSpace r) (hd : dictionaryOk r) (n : Nat) :
    ∀ (c : Nat) (s : List Byte), codeAssigned r c → c < r.dFirst.toNat + n →
    ∃ x l, walkString r.dFirst.toNat r.dDict n c s = some (x, l ++ s) ∧ x.toNat < 2 ^ r.dB.toNat ∧
      (∀ y ∈ l, y.toNat < 2 ^ r.dB.toNat) ∧ l.length ≤ n := by
  obtain ⟨h1, h2, h3, h4, h5⟩ := hs
  obtain ⟨d1, d2, d3⟩ := hd
  have root : ∀ c, codeAssigned r c → c < r.dFirst.toNat → (BitVec.ofNat 8 c).toNat < 2 ^ r.dB.toNat := by
    intro c hc hlt
    rw [BitVec.toNat_ofNat]
    exact lt_of_le_of_lt (Nat.mod_le _ _) (by simp only [codeAssigned] at hc; omega)
  induction n with
  | zero =>
    intro c s hc hlt
    refine ⟨BitVec.ofNat 8 c, [], ?_, root c hc (by omega), by simp, by simp⟩
    simp only [walkString]; rw [if_pos (by omega)]; rfl
  | succ n ih =>
    intro c s hc hlt
    by_cases hr : c < r.dFirst.toNat
    · refine ⟨BitVec.ofNat 8 c, [], ?_, root c hc hr, by simp, by simp⟩
      simp only [walkString]; rw [if_pos hr]; rfl
    · have hk : c - r.dFirst.toNat < r.dDict.length := by simp only [codeAssigned] at hc; omega
      obtain ⟨p1, p2⟩ := d3 _ hk
      obtain ⟨x, l, e1, e2, e3, e4⟩ := ih (r.dDict[c - r.dFirst.toNat].pfx.toNat)
        (r.dDict[c - r.dFirst.toNat].sfx :: s) (by simp only [codeAssigned]; omega) (by omega)
      refine ⟨x, l ++ [r.dDict[c - r.dFirst.toNat].sfx], ?_, e2, ?_, by simp; omega⟩
      · simp only [walkString]
        rw [if_neg hr, List.getElem?_eq_getElem hk]
        simp only [e1, List.append_assoc, List.singleton_append]
      · intro y hy
        simp only [List.mem_append, List.mem_singleton] at hy
        obtain hy | rfl := hy
        · exact e3 y hy
        · exact p2

/-- `StringOf(c)` of an assigned code. -/
theorem stringOf_spec {r : Reader} {c : Nat} (hs : decoderSpace r) (hd : dictionaryOk r) (hc : codeAssigned r c) :
    ∃ x l, stringOf c r = some (x, l) ∧ x.toNat < 2 ^ r.dB.toNat ∧ (∀ y ∈ l, y.toNat < 2 ^ r.dB.toNat) ∧
      l.length ≤ r.dDict.length := by
  obtain ⟨x, l, h, hx, hl, hn⟩ := walkString_spec hs hd r.dDict.length c [] hc
    (by have := hs.2.2; have := hd.1; simp only [codeAssigned] at hc; omega)
  exact ⟨x, l, by simpa [stringOf] using h, hx, hl, hn⟩

/-! ### Codes -/

theorem resetDecoder_ok {r : Reader} (h : DecoderOk r) : DecoderOk (resetDecoder r) := by
  obtain ⟨h1, h2, h3, h4, h5, h6⟩ := h
  have e : (r.dB + 1#4).toNat = r.dB.toNat + 1 := toNat_succ4 (by have := h1.2.1; omega)
  obtain ⟨k1, k2, k3⟩ := codeSize_bounds h1.1 h1.2.1
  refine ⟨h1, ⟨rfl, ?_, ?_⟩, ⟨?_, ?_, ?_⟩, h4, h5, .inl ?_, fun _ => rfl⟩
  · have := h1.2.2.2.2; simp only [resetDecoder]; omega
  · intro k hk; simp [resetDecoder] at hk
  · simp only [resetDecoder, e]; omega
  · have := h1.2.1; simp only [resetDecoder, e]; omega
  · intro q hq; simp [resetDecoder] at hq
  · have := h1.2.2.2.2; simp only [resetDecoder, e]; omega

/-- The decompressor is in order but for the growth test that a new entry still waits for (R140: `AddEntry` comes before
`GrowWidth`). -/
def EntryAdded (r : Reader) : Prop :=
  decoderSpace r ∧ dictionaryOk r ∧ decoderWidth r ∧ unpackerOk r ∧ pendingOk r ∧
  (r.dFree.toNat ≤ 2 ^ r.dW.toNat ∨ r.dW.toNat = 12)

theorem DecoderOk.entryAdded {r : Reader} (h : DecoderOk r) : EntryAdded r := by
  obtain ⟨h1, h2, h3, h4, h5, h6, -⟩ := h
  exact ⟨h1, h2, h3, h4, h5, by omega⟩

/-- What `AddEntry(q, x)` keeps in order (R141). -/
theorem addEntry_spec {r : Reader} {q : Code} {x : Byte} (h : DecoderOk r) (hq : codeAssigned r q.toNat)
    (hx : x.toNat < 2 ^ r.dB.toNat) :
    EntryAdded (addEntry q x r) ∧ (addEntry q x r).dB = r.dB ∧ (addEntry q x r).dClear = r.dClear ∧
    (addEntry q x r).dFirst = r.dFirst ∧ r.dFree.toNat ≤ (addEntry q x r).dFree.toNat ∧
    (r.dFree.toNat < 4096 → (addEntry q x r).dFree.toNat = r.dFree.toNat + 1) := by
  obtain ⟨h1, ⟨d1, d2, d3⟩, ⟨w1, w2, w3⟩, h4, h5, h6, -⟩ := h
  unfold addEntry
  split
  · rename_i hf
    simp only [Config.dictCodes] at hf
    have e : (r.dFree + 1#13).toNat = r.dFree.toNat + 1 := toNat_succ13 (by omega)
    refine ⟨⟨h1, ⟨?_, ?_, ?_⟩, ⟨w1, w2, ?_⟩, h4, h5, by simp only [e]; omega⟩, rfl, rfl, rfl, by simp only [e]; omega,
      fun _ => e⟩
    · simp only [List.length_append, List.length_singleton, e]; omega
    · simp only [e]; omega
    · intro k hk
      simp only [List.length_append, List.length_singleton] at hk
      by_cases hkl : k < r.dDict.length
      · simp only [List.getElem_append_left hkl]
        exact d3 k hkl
      · obtain rfl : k = r.dDict.length := by omega
        simp only [List.getElem_concat_length]
        refine ⟨?_, hx⟩
        simp only [codeAssigned] at hq
        omega
    · intro p hp
      have := w3 p hp
      simp only [codeAssigned, e] at this ⊢; omega
  · rename_i hf
    exact ⟨⟨h1, ⟨d1, d2, d3⟩, ⟨w1, w2, w3⟩, h4, h5, by omega⟩, rfl, rfl, rfl, le_refl _, fun h => absurd h hf⟩

theorem acceptString_ok {r : Reader} {c : Nat} {s : List Byte} (h : EntryAdded r) (hc : codeAssigned r c)
    (hs : ∀ y ∈ s, y.toNat < 2 ^ r.dB.toNat) : DecoderOk (acceptString c s r) := by
  obtain ⟨h1, h2, ⟨w1, w2, w3⟩, h4, h5, h6⟩ := h
  obtain ⟨g1, g2, g3⟩ := grownWidth_spec (free := r.dFree) w2
  refine ⟨h1, h2, ⟨?_, g2, ?_⟩, h4, ?_, ?_, fun hn => by simp [acceptString] at hn⟩
  · simp only [acceptString]; omega
  · intro q hq
    simp only [acceptString, Option.some.injEq] at hq
    subst hq
    obtain ⟨s1, s2, s3, s4, s5⟩ := h1
    obtain ⟨k1, k2, k3⟩ := codeSize_bounds s1 s2
    have : c < 4096 := by have := h2.2.1; simp only [codeAssigned] at hc; omega
    rw [BitVec.toNat_ofNat, Nat.mod_eq_of_lt (by omega)]
    exact hc
  · intro y hy
    simp only [acceptString, List.mem_append] at hy
    obtain hy | hy := hy
    · exact h5 y hy
    · exact hs y hy
  · simp only [acceptString]
    by_cases h12 : (grownWidth r.dFree r.dW).toNat = 12
    · exact .inr h12
    · refine .inl (g3 (by omega) ?_)
      have : 2 ^ r.dW.toNat ≤ 2 ^ 11 := Nat.pow_le_pow_right (by omega) (by omega)
      omega

/-- Nothing but the decompressor's changing state. -/
def onlyDecoder (r r' : Reader) : Prop :=
  offDecompressor r' = offDecompressor r ∧ r'.sin = r.sin ∧ r'.sinRead = r.sinRead ∧ r'.uAcc = r.uAcc ∧
  r'.uCnt = r.uCnt ∧ r'.uLeft = r.uLeft ∧ r'.uEnd = r.uEnd

theorem onlyDecoder_accept (c : Nat) (s : List Byte) (q : Code) (x : Byte) (r : Reader) :
    onlyDecoder r (acceptString c s (addEntry q x r)) := by
  unfold addEntry
  split <;> exact ⟨rfl, rfl, rfl, rfl, rfl, rfl, rfl⟩

/-- What `DecodeStep()` does with a code keeps the decompressor in order; its only failure is CorruptData, which changes
nothing (R140, R149). -/
theorem applyCode_spec {r : Reader} (c : Nat) (h : DecoderOk r) :
    Body.Spec (fun _ r' => onlyDecoder r r' ∧ DecoderOk r') (fun e r' => e = .corruptData ∧ r' = r) (fun _ => False)
      (applyCode c r) := by
  have h' := h
  obtain ⟨h1, h2, ⟨w1, w2, w3⟩, h4, h5, -⟩ := h'
  have hroot : ∀ c, c < r.dClear.toNat → (BitVec.ofNat 8 c).toNat < 2 ^ r.dB.toNat := by
    intro c hc
    rw [BitVec.toNat_ofNat]
    exact lt_of_le_of_lt (Nat.mod_le _ _) (by have := h1.2.2.1; omega)
  unfold applyCode
  split
  · exact ⟨⟨rfl, rfl, rfl, rfl, rfl, rfl, rfl⟩, resetDecoder_ok h⟩
  split
  · exact ⟨⟨rfl, rfl, rfl, rfl, rfl, rfl, rfl⟩, h⟩
  split
  · split
    · exact ⟨rfl, rfl⟩
    · rename_i hc
      refine ⟨⟨rfl, rfl, rfl, rfl, rfl, rfl, rfl⟩, acceptString_ok h.entryAdded (.inl (by omega)) ?_⟩
      intro y hy
      simp only [List.mem_singleton] at hy
      subst hy
      exact hroot c (by omega)
  · rename_i q hq
    have hqa := w3 q hq
    split
    · rename_i hc
      obtain ⟨x, l, hx, x1, l1, -⟩ := stringOf_spec h1 h2 (c := c) hc
      rw [hx]
      obtain ⟨a1, a2, a3, a4, a5, -⟩ := addEntry_spec (x := x) h hqa x1
      refine ⟨onlyDecoder_accept .., acceptString_ok a1 ?_ ?_⟩
      · simp only [codeAssigned, a3, a4]; omega
      · intro y hy
        rw [a2]
        simp only [List.mem_cons] at hy
        obtain rfl | hy := hy
        · exact x1
        · exact l1 y hy
    · split
      · rename_i hc hk
        simp only [Config.dictCodes] at hk
        obtain ⟨x, l, hx, x1, l1, -⟩ := stringOf_spec h1 h2 hqa
        rw [hx]
        obtain ⟨a1, a2, a3, a4, a5, a6⟩ := addEntry_spec (x := x) h hqa x1
        have a6 := a6 hk.2
        refine ⟨onlyDecoder_accept .., acceptString_ok a1 ?_ ?_⟩
        · have := h2.1
          simp only [codeAssigned, a3, a4, a6]; omega
        · intro y hy
          rw [a2]
          simp only [List.cons_append, List.mem_cons, List.mem_append, List.not_mem_nil, or_false] at hy
          obtain rfl | hy | rfl := hy
          · exact x1
          · exact l1 y hy
          · exact x1
      · exact ⟨rfl, rfl⟩

/-- How a part of the reader that only decodes fails. -/
def DecodeFails (r : Reader) (e : Status) (r' : Reader) : Prop :=
  (e = .corruptData ∨ e = .unexpectedEndOfData ∨ e = .ioError) ∧ offDecompressor r' = offDecompressor r ∧
  consumed r r'

theorem DecodeFails.trans {r r1 r' : Reader} {e : Status} (h1 : offDecompressor r1 = offDecompressor r)
    (c1 : consumed r r1) (h : DecodeFails r1 e r') : DecodeFails r e r' :=
  ⟨h.1, h.2.1.trans h1, h.2.2.trans c1⟩

/-- `DecodeStep()` uses up bits and keeps the decompressor in order. -/
theorem decodeStep_spec {r : Reader} (h : DecoderOk r) :
    Body.Spec (fun _ r' => offDecompressor r' = offDecompressor r ∧ consumed r r' ∧ bitsLeft r' < bitsLeft r ∧
        DecoderOk r')
      (DecodeFails r) (SourceSilent r) (decodeStep r) := by
  refine Body.Spec.bind ((readCode_spec _ r).mono (fun _ _ h => h) ?_ fun _ h => h) ?_
  · rintro e r' ⟨he, h1, c1⟩
    exact ⟨.inr he, offDecompressor_of_offUnpacker h1, c1⟩
  · rintro c r1 ⟨h1, c1, -, b1, u1⟩
    obtain ⟨w1, w2, -⟩ := h.2.2.1
    have hok : DecoderOk r1 := h.of_same (sameDecoder_of_offUnpacker h1) (u1 w2 h.2.2.2.1)
    have o1 := offDecompressor_of_offUnpacker h1
    refine (applyCode_spec c hok).mono ?_ ?_ ?_
    · rintro _ r' ⟨⟨o2, s2, -, -, u2, -, -⟩, k2⟩
      refine ⟨o2.trans o1, by simpa only [consumed, s2] using c1, ?_, k2⟩
      simp only [bitsLeft, s2, u2] at b1 ⊢; omega
    · rintro e r' ⟨rfl, rfl⟩
      exact ⟨.inl rfl, o1, c1⟩
    · intro f hf; exact hf.elim

/-! ### Pixels -/

theorem nextPixel_spec (n : Nat) : ∀ {r : Reader}, DecoderOk r → bitsLeft r < n →
    Body.Spec (fun x r' => offDecompressor r' = offDecompressor r ∧ consumed r r' ∧ x.toNat < 2 ^ r.dB.toNat ∧
        DecoderOk r')
      (DecodeFails r) (SourceSilent r) (nextPixel n r) := by
  induction n with
  | zero => intro r _ hn; omega
  | succ n ih =>
    intro r h hn
    unfold nextPixel
    split
    · rename_i x rest hp
      have h5 := h.2.2.2.2.1
      refine ⟨rfl, List.suffix_refl _, h5 x (by simp [hp]), h.1, h.2.1, h.2.2.1, h.2.2.2.1, ?_, h.2.2.2.2.2⟩
      intro y hy
      exact h5 y (by simp only at hy; simp [hp, hy])
    · split
      · exact ⟨.inr (.inl rfl), rfl, List.suffix_refl _⟩
      · refine (decodeStep_spec h).bind ?_
        rintro _ r1 ⟨o1, c1, b1, k1⟩
        have hb : r1.dB = r.dB := offDecompressor_dB o1
        refine (ih k1 (by omega)).mono ?_ ?_ ?_
        · rintro x r' ⟨o2, c2, x2, k2⟩
          exact ⟨o2.trans o1, c2.trans c1, by rw [← hb]; exact x2, k2⟩
        · intro e r' hf; exact hf.trans o1 c1
        · intro f hf; exact hf.trans c1

/-- How the epilogue and the pixel loop fail. -/
def ImageFails (off : Reader → Reader) (r : Reader) (e : Status) (r' : Reader) : Prop :=
  (e = .corruptData ∨ e = .unexpectedEndOfData ∨ e = .rasterOverflow ∨ e = .ioError) ∧ off r' = off r ∧ consumed r r'

theorem ImageFails.trans {off : Reader → Reader} {r r1 r' : Reader} {e : Status} (h1 : off r1 = off r)
    (c1 : consumed r r1) (h : ImageFails off r1 e r') : ImageFails off r e r' :=
  ⟨h.1, h.2.1.trans h1, h.2.2.trans c1⟩

theorem DecodeFails.image {r r' : Reader} {e : Status} (h : DecodeFails r e r') :
    ImageFails offDecompressor r e r' := by
  obtain ⟨he, h1, h2⟩ := h
  exact ⟨by tauto, h1, h2⟩

theorem readToEof_spec (n : Nat) : ∀ {r : Reader}, DecoderOk r → bitsLeft r < n →
    Body.Spec (fun _ r' => offDecompressor r' = offDecompressor r ∧ consumed r r' ∧ r'.dPend = [] ∧ r'.dDone = true ∧
        DecoderOk r')
      (ImageFails offDecompressor r) (SourceSilent r) (readToEof n r) := by
  induction n with
  | zero => intro r _ hn; omega
  | succ n ih =>
    intro r h hn
    unfold readToEof
    split
    · exact ⟨by simp, rfl, List.suffix_refl _⟩
    · rename_i hp
      split
      · rename_i hd
        exact ⟨rfl, List.suffix_refl _, by simpa using hp, hd, h⟩
      · refine Body.Spec.bind ((decodeStep_spec h).mono (fun _ _ h => h) (fun _ _ h => h.image) fun _ h => h) ?_
        rintro _ r1 ⟨o1, c1, b1, k1⟩
        refine (ih k1 (by omega)).mono ?_ ?_ ?_
        · rintro _ r' ⟨o2, c2, rest⟩
          exact ⟨o2.trans o1, c2.trans c1, rest⟩
        · intro e r' hf; exact hf.trans o1 c1
        · intro f hf; exact hf.trans c1

/-- The next pixel does not depend on the bound of its loop, where the bound covers the bits that may come. -/
theorem nextPixel_bound (n : Nat) : ∀ (m : Nat) {r : Reader}, DecoderOk r → bitsLeft r < n → bitsLeft r < m →
    nextPixel n r = nextPixel m r := by
  induction n with
  | zero => intro m r _ hn _; omega
  | succ n ih =>
    intro m r h hn hm
    obtain ⟨m, rfl⟩ : ∃ k, m = k + 1 := ⟨m - 1, by omega⟩
    unfold nextPixel
    split
    · rfl
    · split
      · rfl
      · exact (decodeStep_spec h).bind_congr fun _ r1 ⟨_, _, b1, k1⟩ => ih m k1 (by omega) (by omega)

/-- The loop of the epilogue does not depend on its bound, where the bound covers the bits that may come. -/
theorem readToEof_bound (n : Nat) : ∀ (m : Nat) {r : Reader}, DecoderOk r → bitsLeft r < n → bitsLeft r < m →
    readToEof n r = readToEof m r := by
  induction n with
  | zero => intro m r _ hn _; omega
  | succ n ih =>
    intro m r h hn hm
    obtain ⟨m, rfl⟩ : ∃ k, m = k + 1 := ⟨m - 1, by omega⟩
    unfold readToEof
    split
    · rfl
    · split
      · rfl
      · exact (decodeStep_spec h).bind_congr fun _ r1 ⟨_, _, b1, k1⟩ => ih m k1 (by omega) (by omega)

/-- `Epilogue()` (R147): it ends with the EOF Code read and the terminator behind it. -/
theorem epilogue_spec {r : Reader} (h : DecoderOk r) :
    Body.Spec (fun _ r' => offDecompressor r' = offDecompressor r ∧ consumed r r' ∧ r'.dPend = [] ∧ r'.dDone = true ∧
        r'.uEnd = true ∧ r'.uAcc = 0#19 ∧ r'.uCnt = 0 ∧ r'.uLeft = 0#8)
      (ImageFails offDecompressor r) (SourceSilent r) (epilogue r) := by
  refine (readToEof_spec _ h (by simp only [bitsLeft, decodeTurns]; omega)).bind ?_
  rintro _ r1 ⟨o1, c1, p1, d1, -⟩
  refine (skipToTerminator_spec r1).mono ?_ ?_ ?_
  · rintro _ r' ⟨h2, c2, rest⟩
    obtain ⟨-, -, -, -, -, -, -, -, e1, e2⟩ := sameDecoder_of_offUnpacker h2
    exact ⟨(offDecompressor_of_offUnpacker h2).trans o1, c2.trans c1, e1.trans p1, e2.trans d1, rest⟩
  · rintro e r' ⟨he, h2, c2⟩
    exact ⟨by tauto, (offDecompressor_of_offUnpacker h2).trans o1, c2.trans c1⟩
  · intro f hf; exact hf.trans c1

/-- A reader in the middle of an image with `n` pixels to deliver. -/
def ImageOpen (n : Nat) (r : Reader) : Prop :=
  r.pixRemain.toNat = n ∧ trackerInside r.rows ∧ trackerLeft r.rows n ∧ DecoderOk r

/-- A reader whose raster is complete and whose image data has been read to its terminator. -/
def ImageClosed (r : Reader) : Prop :=
  r.pixRemain = 0#32 ∧ trackerDone r.rows ∧ r.dPend = [] ∧ r.dDone = true ∧ r.uEnd = true

/-- `n` pixels of the image are still to be delivered. -/
def ImageAt (n : Nat) (r : Reader) : Prop := (n = 0 → ImageClosed r) ∧ (0 < n → ImageOpen n r)

theorem pixRemain_pred {v : Word} {n : Nat} (h : v.toNat = n) (hn : 0 < n) : (v - 1#32).toNat = n - 1 := by
  have := v.isLt
  rw [BitVec.toNat_sub, BitVec.toNat_ofNat]; omega

/-- DOUT has grown by at most `n` bytes, all below 2^b (R150, R216). -/
def Delivered (n : Nat) (r r' : Reader) : Prop :=
  ∃ d : List Byte, r'.dout = r.dout ++ d ∧ d.length ≤ n ∧ ∀ y ∈ d, y.toNat < 2 ^ r.dB.toNat

theorem deliverPixel_spec {n : Nat} {r : Reader} (h : ImageOpen n r) :
    Body.Spec (fun _ r' => offPixels r' = offPixels r ∧ consumed r r' ∧
        (∃ x : Byte, r'.dout = r.dout ++ [x] ∧ x.toNat < 2 ^ r.dB.toNat) ∧ ImageAt (n - 1) r')
      (fun e r' => ImageFails offPixels r e r' ∧ Delivered 1 r r') (SourceSilent r) (deliverPixel r) := by
  obtain ⟨hn, hin, hl, hk⟩ := h
  obtain ⟨t1, t2, t3⟩ := rowAdvance_spec hin hl
  refine Body.Spec.bind ((nextPixel_spec _ hk (by simp only [bitsLeft, decodeTurns]; omega)).mono
    (fun _ _ h => h) ?_ fun _ h => h) ?_
  · rintro e r' hf
    obtain ⟨he, h1, h2⟩ := hf.image
    have f0 : r'.dout = r.dout := offDecompressor_dout h1
    exact ⟨⟨he, offPixels_of_offDecompressor h1, h2⟩, [], by simpa using f0, by simp, by simp⟩
  · rintro x r1 ⟨o1, c1, x1, k1⟩
    have e1 : r1.pixRemain = r.pixRemain := offDecompressor_pixRemain o1
    have e2 : r1.rows = r.rows := offDecompressor_rows o1
    have e3 : r1.dout = r.dout := offDecompressor_dout o1
    have o2 : offPixels (pushPixel x r1) = offPixels r := (offPixels_of_offDecompressor o1 :)
    have q1 : (pushPixel x r1).pixRemain.toNat = n - 1 := by
      simp only [pushPixel, e1]; exact pixRemain_pred hn t1
    have q2 : (pushPixel x r1).rows = rowAdvance r.rows := by simp only [pushPixel, e2]
    have q3 : (pushPixel x r1).dout = r.dout ++ [x] := by simp only [pushPixel, doutPush, e3]
    have q4 : DecoderOk (pushPixel x r1) := k1
    have q5 : consumed r (pushPixel x r1) := c1
    dsimp only
    generalize pushPixel x r1 = r2 at o2 q1 q2 q3 q4 q5 ⊢
    split
    · rename_i h0
      have hn1 : n = 1 := by rw [h0] at q1; simp only [BitVec.toNat_ofNat] at q1; omega
      refine (epilogue_spec q4).mono ?_ ?_ ?_
      · rintro _ r' ⟨h3, c3, p3, d3, u3, -⟩
        have f1 : r'.pixRemain = r2.pixRemain := offDecompressor_pixRemain h3
        have f2 : r'.rows = r2.rows := offDecompressor_rows h3
        have f3 : r'.dout = r2.dout := offDecompressor_dout h3
        refine ⟨(offPixels_of_offDecompressor h3).trans o2, c3.trans q5, ⟨x, f3.trans q3, x1⟩, fun _ => ?_, by omega⟩
        exact ⟨f1.trans h0, by rw [f2, q2]; exact t2 hn1, p3, d3, u3⟩
      · rintro e r' ⟨he, h3, c3⟩
        have f3 : r'.dout = r2.dout := offDecompressor_dout h3
        exact ⟨⟨he, (offPixels_of_offDecompressor h3).trans o2, c3.trans q5⟩, [x], f3.trans q3, by simp, by simpa using x1⟩
      · intro f hf; exact hf.trans q5
    · rename_i h0
      have hn1 : 1 < n := by
        by_contra hc
        exact h0 (BitVec.eq_of_toNat_eq (by rw [q1, BitVec.toNat_ofNat]; omega))
      obtain ⟨t3, t4⟩ := t3 hn1
      exact ⟨o2, q5, ⟨x, q3, x1⟩, by omega, fun _ => ⟨q1, by rw [q2]; exact t3, by rw [q2]; exact t4, q4⟩⟩

/-- `DeliverPixels(m)` (R145): `m` pixels more in DOUT, `m` fewer to come. -/
theorem deliverPixels_spec (m : Nat) : ∀ {n : Nat} {r : Reader}, ImageAt n r → m ≤ n →
    Body.Spec (fun _ r' => offPixels r' = offPixels r ∧ consumed r r' ∧
        (∃ d : List Byte, r'.dout = r.dout ++ d ∧ d.length = m ∧ ∀ y ∈ d, y.toNat < 2 ^ r.dB.toNat) ∧
        ImageAt (n - m) r')
      (fun e r' => ImageFails offPixels r e r' ∧ Delivered m r r') (SourceSilent r) (deliverPixels m r) := by
  induction m with
  | zero => intro n r h _; exact ⟨rfl, List.suffix_refl _, ⟨[], by simp, rfl, by simp⟩, h⟩
  | succ m ih =>
    intro n r h hm
    simp only [deliverPixels]
    refine Body.Spec.bind ((deliverPixel_spec (h.2 (by omega))).mono (fun _ _ h => h) ?_ fun _ h => h) ?_
    · rintro e r' ⟨hf, d, d1, d2, d3⟩
      exact ⟨hf, d, d1, by omega, d3⟩
    · rintro _ r1 ⟨o1, c1, ⟨x, x1, x2⟩, k1⟩
      have hb : r1.dB = r.dB := offPixels_dB o1
      refine (ih k1 (by omega)).mono ?_ ?_ ?_
      · rintro _ r' ⟨o2, c2, ⟨d, d1, d2, d3⟩, k2⟩
        refine ⟨o2.trans o1, c2.trans c1, ⟨x :: d, by rw [d1, x1]; simp, by simp [d2], ?_⟩, ?_⟩
        · intro y hy
          simp only [List.mem_cons] at hy
          obtain rfl | hy := hy
          · exact x2
          · rw [← hb]; exact d3 y hy
        · rwa [show n - (m + 1) = n - 1 - m by omega]
      · rintro e r' ⟨hf, d, d1, d2, d3⟩
        refine ⟨hf.trans o1 c1, x :: d, by rw [d1, x1]; simp, by simp; omega, ?_⟩
        intro y hy
        simp only [List.mem_cons] at hy
        obtain rfl | hy := hy
        · exact x2
        · rw [← hb]; exact d3 y hy
      · intro f hf; exact hf.trans c1

end Sys2Proof.Machine
end

