-- ==== Sys2Proof/Laws/Frame.lean ====
section
/-!
SUPPORT. The common command frame (R185), read backwards: which of its exits a command took, and when it is stuck.
-/

namespace Sys2Proof.Machine

theorem readerCommand_failed {need : RState} {check : Reader → Option Status} {body : Reader → Body Reader Unit}
    {s : State} (h : s.reader.state = .failed) :
    readerCommand need check body s = .next (rejectWith s.reader.err s) := by
  rw [readerCommand, if_pos h]

theorem readerCommand_sequence {need : RState} {check : Reader → Option Status} {body : Reader → Body Reader Unit}
    {s : State} (h : s.reader.state ≠ .failed) (hn : s.reader.state ≠ need) :
    readerCommand need check body s = .next (rejectWith .invalidSequence s) := by
  rw [readerCommand, if_neg h, if_neg hn]

theorem readerCommand_rejected {need : RState} {check : Reader → Option Status} {body : Reader → Body Reader Unit}
    {s : State} {e : Status} (h : s.reader.state ≠ .failed) (hn : s.reader.state = need)
    (hc : check s.reader = some e) : readerCommand need check body s = .next (rejectWith e s) := by
  rw [readerCommand, if_neg h, if_pos hn, hc]

theorem readerCommand_runs {need : RState} {check : Reader → Option Status} {body : Reader → Body Reader Unit}
    {s : State} (h : s.reader.state ≠ .failed) (hn : s.reader.state = need) (hc : check s.reader = none) :
    readerCommand need check body s = endReader s (body s.reader) := by
  rw [readerCommand, if_neg h, if_pos hn, hc]

/-- Every reader command is rejected, or runs its body. -/
theorem readerCommand_cases (need : RState) (check : Reader → Option Status) (body : Reader → Body Reader Unit)
    (s : State) :
    (s.reader.state = .failed ∧ readerCommand need check body s = .next (rejectWith s.reader.err s)) ∨
    (s.reader.state ≠ .failed ∧ s.reader.state ≠ need ∧
      readerCommand need check body s = .next (rejectWith .invalidSequence s)) ∨
    (s.reader.state ≠ .failed ∧ s.reader.state = need ∧
      ∃ e, check s.reader = some e ∧ readerCommand need check body s = .next (rejectWith e s)) ∨
    (s.reader.state ≠ .failed ∧ s.reader.state = need ∧ check s.reader = none ∧
      readerCommand need check body s = endReader s (body s.reader)) := by
  by_cases h : s.reader.state = .failed
  · exact .inl ⟨h, readerCommand_failed h⟩
  by_cases hn : s.reader.state = need
  · cases hc : check s.reader with
    | none => exact .inr (.inr (.inr ⟨h, hn, rfl, readerCommand_runs h hn hc⟩))
    | some e => exact .inr (.inr (.inl ⟨h, hn, e, rfl, readerCommand_rejected h hn hc⟩))
  · exact .inr (.inl ⟨h, hn, readerCommand_sequence h hn⟩)

theorem writerCommand_failed {need : WState} {check : Writer → Option Status} {body : Writer → Body Writer Unit}
    {s : State} (h : s.writer.state = .failed) :
    writerCommand need check body s = .next (rejectWith s.writer.err s) := by
  rw [writerCommand, if_pos h]

theorem writerCommand_sequence {need : WState} {check : Writer → Option Status} {body : Writer → Body Writer Unit}
    {s : State} (h : s.writer.state ≠ .failed) (hn : s.writer.state ≠ need) :
    writerCommand need check body s = .next (rejectWith .invalidSequence s) := by
  rw [writerCommand, if_neg h, if_neg hn]

theorem writerCommand_rejected {need : WState} {check : Writer → Option Status} {body : Writer → Body Writer Unit}
    {s : State} {e : Status} (h : s.writer.state ≠ .failed) (hn : s.writer.state = need)
    (hc : check s.writer = some e) : writerCommand need check body s = .next (rejectWith e s) := by
  rw [writerCommand, if_neg h, if_pos hn, hc]

theorem writerCommand_runs {need : WState} {check : Writer → Option Status} {body : Writer → Body Writer Unit}
    {s : State} (h : s.writer.state ≠ .failed) (hn : s.writer.state = need) (hc : check s.writer = none) :
    writerCommand need check body s = endWriter s (body s.writer) := by
  rw [writerCommand, if_neg h, if_pos hn, hc]

/-- Every writer command is rejected, or runs its body. -/
theorem writerCommand_cases (need : WState) (check : Writer → Option Status) (body : Writer → Body Writer Unit)
    (s : State) :
    (s.writer.state = .failed ∧ writerCommand need check body s = .next (rejectWith s.writer.err s)) ∨
    (s.writer.state ≠ .failed ∧ s.writer.state ≠ need ∧
      writerCommand need check body s = .next (rejectWith .invalidSequence s)) ∨
    (s.writer.state ≠ .failed ∧ s.writer.state = need ∧
      ∃ e, check s.writer = some e ∧ writerCommand need check body s = .next (rejectWith e s)) ∨
    (s.writer.state ≠ .failed ∧ s.writer.state = need ∧ check s.writer = none ∧
      writerCommand need check body s = endWriter s (body s.writer)) := by
  by_cases h : s.writer.state = .failed
  · exact .inl ⟨h, writerCommand_failed h⟩
  by_cases hn : s.writer.state = need
  · cases hc : check s.writer with
    | none => exact .inr (.inr (.inr ⟨h, hn, rfl, writerCommand_runs h hn hc⟩))
    | some e => exact .inr (.inr (.inl ⟨h, hn, e, rfl, writerCommand_rejected h hn hc⟩))
  · exact .inr (.inl ⟨h, hn, writerCommand_sequence h hn⟩)

/-- A reader command ends in the next state of a completed body or of a failed one. -/
theorem endReader_next {s t : State} {x : Body Reader Unit} (h : endReader s x = .next t) :
    (∃ r, x = .ok () r ∧ t = { s with reader := r, last := .ok }) ∨
    (∃ e r, x = .raise e r ∧ t = { s with reader := failReader e r, last := e }) := by
  cases x with
  | ok a r => simp only [endReader, Host.Outcome.next.injEq] at h; exact .inl ⟨r, rfl, h.symm⟩
  | raise e r => simp only [endReader, Host.Outcome.next.injEq] at h; exact .inr ⟨e, r, rfl, h.symm⟩
  | stuck f => simp [endReader] at h

/-- A writer command ends in the next state of a completed body or of a failed one. -/
theorem endWriter_next {s t : State} {x : Body Writer Unit} (h : endWriter s x = .next t) :
    (∃ w, x = .ok () w ∧ t = { s with writer := w, last := .ok }) ∨
    (∃ e w, x = .raise e w ∧ t = { s with writer := failWriter e w, last := e }) := by
  cases x with
  | ok a w => simp only [endWriter, Host.Outcome.next.injEq] at h; exact .inl ⟨w, rfl, h.symm⟩
  | raise e w => simp only [endWriter, Host.Outcome.next.injEq] at h; exact .inr ⟨e, w, rfl, h.symm⟩
  | stuck f => simp [endWriter] at h

end Sys2Proof.Machine
end

