-- ==== Sys2Proof/Laws/PerInstr.lean ====
section
/-!
SUPPORT. The per-instruction law of the encoding: the word of a command holds its opcode in bits [31:24] and its operand,
zero-extended, in bits [23:0] (R84 to R87, R109).
-/

namespace Sys2Proof.Laws.EncodeOpcode

open Sys2Proof

/-- The opcode and the operand field of the command's word. -/
def Statement (i : Instr) : Prop := (encode i).toNat = opcode i * 2 ^ 24 + operand i

/-- The word of an opcode below 256 and an operand of 24 bits. -/
theorem word_toNat (op v : Nat) (hop : op < 256) (hv : v < 2 ^ 24) :
    (BitVec.ofNat 32 op <<< 24 ||| BitVec.ofNat 32 v).toNat = op * 2 ^ 24 + v := by
  have hs : op <<< 24 = 2 ^ 24 * op := by rw [Nat.shiftLeft_eq, Nat.mul_comm]
  have ho : op % 2 ^ 32 = op := Nat.mod_eq_of_lt (by omega)
  have hm : 2 ^ 24 * op % 2 ^ 32 = 2 ^ 24 * op := Nat.mod_eq_of_lt (by omega)
  have hw : v % 2 ^ 32 = v := Nat.mod_eq_of_lt (by omega)
  rw [BitVec.toNat_or, BitVec.toNat_shiftLeft, BitVec.toNat_ofNat, BitVec.toNat_ofNat, ho, hw, hs, hm,
    ← Nat.two_pow_add_eq_or_of_lt hv]
  omega

theorem reset (sel : BitVec 2) : Statement (.reset sel) :=
  word_toNat 0x01 sel.toNat (by decide) (Nat.lt_of_lt_of_le sel.isLt (by decide))
theorem rOpen : Statement .rOpen := word_toNat 0x10 0 (by decide) (by decide)
theorem rNext : Statement .rNext := word_toNat 0x11 0 (by decide) (by decide)
theorem rExt : Statement .rExt := word_toNat 0x12 0 (by decide) (by decide)
theorem rExtBlock : Statement .rExtBlock := word_toNat 0x13 0 (by decide) (by decide)
theorem rImage : Statement .rImage := word_toNat 0x14 0 (by decide) (by decide)
theorem rPixels (count : BitVec 24) : Statement (.rPixels count) :=
  word_toNat 0x15 count.toNat (by decide) (Nat.lt_of_lt_of_le count.isLt (by decide))
theorem wOpen (v89a : BitVec 1) : Statement (.wOpen v89a) :=
  word_toNat 0x20 v89a.toNat (by decide) (Nat.lt_of_lt_of_le v89a.isLt (by decide))
theorem wExt (imm8 : Byte) : Statement (.wExt imm8) :=
  word_toNat 0x21 imm8.toNat (by decide) (Nat.lt_of_lt_of_le imm8.isLt (by decide))
theorem wExtBlock (imm8 : Byte) : Statement (.wExtBlock imm8) :=
  word_toNat 0x22 imm8.toNat (by decide) (Nat.lt_of_lt_of_le imm8.isLt (by decide))
theorem wExtEnd : Statement .wExtEnd := word_toNat 0x23 0 (by decide) (by decide)
theorem wImage : Statement .wImage := word_toNat 0x24 0 (by decide) (by decide)
theorem wPixels (count : BitVec 24) : Statement (.wPixels count) :=
  word_toNat 0x25 count.toNat (by decide) (Nat.lt_of_lt_of_le count.isLt (by decide))
theorem wTrailer : Statement .wTrailer := word_toNat 0x26 0 (by decide) (by decide)

end Sys2Proof.Laws.EncodeOpcode
end

