-- ==== Sys2Proof/Laws/ReaderBodies.lean ====
section
/-!
SUPPORT. What the body of each reader command can do (R153 to R164): what it leaves alone, how it can fail (R197), that
it is stuck only where the source is silent, and that it keeps the reader's invariant.
-/

namespace Sys2Proof.Machine

/-- A reader command's body: `P` where it completes; the failures it may report; stuck only for want of an answer. -/
def ReaderBody (fails : List Status) (r : Reader) (P : Reader → Prop) (x : Body Reader Unit) : Prop :=
  Body.Spec (fun _ r' => P r' ∧ consumed r r' ∧ r'.err = r.err) (fun e r' => e ∈ fails ∧ consumed r r')
    (SourceSilent r) x

theorem offStream_err {r r' : Reader} (h : offStream r' = offStream r) : r'.err = r.err := congrArg (·.err) h

theorem copyTable_spec (packed : Byte) (r : Reader) :
    Body.Spec
      (fun _ r' => offCopy r' = offCopy r ∧ consumed r r' ∧ ∃ d, d.length = tableBytes packed ∧ r'.dout = r.dout ++ d)
      (fun e r' => (e = .unexpectedEndOfData ∨ e = .ioError) ∧ offCopy r' = offCopy r ∧ consumed r r' ∧
        ∃ d, d.length < tableBytes packed ∧ r'.dout = r.dout ++ d)
      (SourceSilent r) (copyTable packed r) := copyBytes_spec _ r

/-- `R_OPEN` (R153). -/
theorem rOpenBody_spec (r : Reader) :
    ReaderBody [.notAGifFile, .unexpectedEndOfData, .ioError] r (fun r' => r'.state = .top ∧ r'.recType = .none)
      (rOpenBody r) := by
  refine Body.Spec.bind ((srcBytes_spec 6 r).mono (fun _ _ h => h) ?_ fun _ h => h) ?_
  · rintro e r' ⟨he, h1, c1⟩
    exact ⟨by simp; tauto, c1⟩
  · rintro sig r1 ⟨-, h1, c1⟩
    have e1 := offStream_err h1
    dsimp only
    split
    · exact ⟨by simp, c1⟩
    · refine Body.Spec.bind ((srcBytes_spec 7 _).mono (Q' := fun e r' => e ∈ _ ∧ consumed r r')
        (S' := SourceSilent r) (fun _ _ h => h) ?_ ?_) ?_
      · rintro e r' ⟨he, h2, c2⟩
        exact ⟨by simp; tauto, c2.trans c1⟩
      · rintro f ⟨hf, hm⟩; exact ⟨hf, c1.subset hm⟩
      · rintro d r2 ⟨-, h2, c2⟩
        have e2 : r2.err = r.err := (offStream_err h2).trans e1
        refine Body.Spec.bind ((copyTable_spec _ _).mono (fun _ _ h => h) ?_ ?_) ?_
        · rintro e r' ⟨he, h3, c3, -⟩
          exact ⟨by simp; tauto, c3.trans (c2.trans c1)⟩
        · rintro f ⟨hf, hm⟩; exact ⟨hf, c1.subset (c2.subset hm)⟩
        · rintro _ r3 ⟨h3, c3, -⟩
          have e3 : r3.err = r2.err := (congrArg (·.err) h3 :)
          exact ⟨⟨rfl, rfl⟩, c3.trans (c2.trans c1), e3.trans e2⟩

/-- `R_NEXT` (R156). -/
theorem rNextBody_spec (r : Reader) :
    ReaderBody [.corruptData, .unexpectedEndOfData, .ioError] r
      (fun r' => r'.state = .extCode ∨ r'.state = .imgDesc ∨ r'.state = .done) (rNextBody r) := by
  refine Body.Spec.bind ((srcByte_spec r).mono (fun _ _ h => h) ?_ fun _ h => h) ?_
  · rintro e r' ⟨he, rest, rfl, hs⟩
    exact ⟨by simp; tauto, hs⟩
  · rintro x r1 ⟨rest, h, rfl⟩
    have c : consumed r { r with sin := rest, sinRead := r.sinRead + 1 } := by simp [consumed, h]
    dsimp only
    split
    · exact ⟨.inl rfl, c, rfl⟩
    split
    · exact ⟨.inr (.inl rfl), c, rfl⟩
    split
    · exact ⟨.inr (.inr rfl), c, rfl⟩
    · exact ⟨by simp, c⟩

/-- `R_EXT` (R158). -/
theorem rExtBody_spec (r : Reader) :
    ReaderBody [.unexpectedEndOfData, .ioError] r (fun r' => r'.state = .extData) (rExtBody r) := by
  refine Body.Spec.bind ((srcByte_spec r).mono (fun _ _ h => h) ?_ fun _ h => h) ?_
  · rintro e r' ⟨he, rest, rfl, hs⟩
    exact ⟨by simp; tauto, hs⟩
  · rintro x r1 ⟨rest, h, rfl⟩
    exact ⟨rfl, by simp [consumed, h], rfl⟩

/-- `R_EXT_BLOCK` (R159). -/
theorem rExtBlockBody_spec (r : Reader) :
    ReaderBody [.unexpectedEndOfData, .ioError] r (fun r' => r'.state = .top ∨ r'.state = r.state)
      (rExtBlockBody r) := by
  refine Body.Spec.bind ((srcByte_spec r).mono (fun _ _ h => h) ?_ fun _ h => h) ?_
  · rintro e r' ⟨he, rest, rfl, hs⟩
    exact ⟨by simp; tauto, hs⟩
  · rintro x r1 ⟨rest, h, rfl⟩
    have c : consumed r { r with sin := rest, sinRead := r.sinRead + 1 } := by simp [consumed, h]
    dsimp only
    split
    · exact ⟨.inl rfl, c, rfl⟩
    · refine (copyBytes_spec _ _).mono ?_ ?_ ?_
      · rintro _ r' ⟨h2, c2, -⟩
        exact ⟨.inr (congrArg (·.state) h2 :), c2.trans c, (congrArg (·.err) h2 :)⟩
      · rintro e r' ⟨he, h2, c2, -⟩
        exact ⟨by simp; tauto, c2.trans c⟩
      · rintro f ⟨hf, hm⟩; exact ⟨hf, c.subset hm⟩

theorem startImage_err (b : Byte) (r : Reader) : (startImage b r).err = r.err := by
  simp only [startImage, decompressStart, resetDecoder, startUnpacker]

theorem startImage_sin (b : Byte) (r : Reader) : (startImage b r).sin = r.sin := by
  simp only [startImage, decompressStart, resetDecoder, startUnpacker]

/-- The decompressor that `ImageDataStart()` starts is in order (R137, R119). -/
theorem startImage_ok {r : Reader} {b : Byte} (h2 : 2 ≤ b.toNat) (h8 : b.toNat ≤ 8) : DecoderOk (startImage b r) := by
  have eb : (b.setWidth 4).toNat = b.toNat := by
    rw [BitVec.toNat_setWidth]; exact Nat.mod_eq_of_lt (by omega)
  have e1 : (b.setWidth 4 + 1#4).toNat = b.toNat + 1 := by rw [toNat_succ4 (by omega), eb]
  obtain ⟨k1, k2, k3⟩ := codeSize_bounds h2 h8
  refine ⟨⟨?_, ?_, ?_, ?_, ?_⟩, ⟨rfl, ?_, ?_⟩, ⟨?_, ?_, ?_⟩, ⟨Nat.zero_le _, (by decide : (0#19).toNat < 2 ^ 0)⟩, ?_,
    .inl ?_, fun _ => rfl⟩
  all_goals
    simp only [startImage, decompressStart, resetDecoder, eb, e1, BitVec.toNat_ofNat, List.length_nil,
      Nat.not_lt_zero, IsEmpty.forall_iff, implies_true, reduceCtorEq, List.not_mem_nil, pendingOk]
  all_goals omega

/-- An image with pixels starts open (R163). -/
theorem startImage_open {r : Reader} {b : Byte} (h2 : 2 ≤ b.toNat) (h8 : b.toNat ≤ 8)
    (hn : (startImage b r).pixRemain ≠ 0#32) :
    ImageOpen (r.imgW.toNat * r.imgH.toNat) (startImage b r) := by
  have hpos : 0 < r.imgW.toNat * r.imgH.toNat := by
    refine Nat.pos_of_ne_zero fun h0 => hn (BitVec.eq_of_toNat_eq ?_)
    show (rasterLength r.imgW r.imgH).toNat = _
    rw [rasterLength_toNat, h0]; rfl
  obtain ⟨i1, i2, -⟩ := rowInit_inside (interlaceBit r.imgPacked) (Nat.pos_of_mul_pos_right hpos)
    (Nat.pos_of_mul_pos_left hpos)
  exact ⟨rasterLength_toNat _ _, i1, i2, startImage_ok h2 h8⟩

/-- Where a reader command leaves the reader, as far as its invariant needs it. -/
def ImageReady (r : Reader) : Prop :=
  r.state = .top ∨ r.state = .pixels ∧ r.pixRemain ≠ 0#32 ∧ ImageOpen r.pixRemain.toNat r

theorem imageDataStart_spec (r : Reader) :
    ReaderBody [.corruptData, .unexpectedEndOfData, .rasterOverflow, .ioError] r ImageReady (imageDataStart r) := by
  unfold imageDataStart
  refine Body.Spec.bind ((srcByte_spec r).mono (fun _ _ h => h) ?_ fun _ h => h) ?_
  · rintro e r' ⟨he, rest, rfl, hs⟩
    exact ⟨by simp; tauto, hs⟩
  · rintro b r1 ⟨rest, h, rfl⟩
    have c : consumed r { r with sin := rest, sinRead := r.sinRead + 1 } := by simp [consumed, h]
    dsimp only
    split
    · exact ⟨by simp, c⟩
    · rename_i hb
      have hk := startImage_ok (b := b) (r := { r with sin := rest, sinRead := r.sinRead + 1, codeSize := b })
        (by omega) (by omega)
      have ho := startImage_open (b := b) (r := { r with sin := rest, sinRead := r.sinRead + 1, codeSize := b })
        (by omega) (by omega)
      have c' : consumed r (startImage b { r with sin := rest, sinRead := r.sinRead + 1, codeSize := b }) := by
        rw [consumed, startImage_sin]; exact c
      have e' : (startImage b { r with sin := rest, sinRead := r.sinRead + 1, codeSize := b }).err = r.err := by
        rw [startImage_err]
      generalize startImage b { r with sin := rest, sinRead := r.sinRead + 1, codeSize := b } = r2 at hk ho c' e' ⊢
      split
      · refine Body.Spec.bind ((epilogue_spec hk).mono (fun _ _ h => h) ?_ ?_) ?_
        · rintro e r' ⟨he, -, c3⟩
          exact ⟨by simp; tauto, c3.trans c'⟩
        · intro f hf; exact hf.trans c'
        · rintro _ r3 ⟨h3, c3, -⟩
          exact ⟨.inl rfl, c3.trans c', (offDecompressor_err h3).trans e'⟩
      · rename_i h0
        have ho := ho h0
        exact ⟨.inr ⟨rfl, h0, rfl, ho.2.1, ho.1 ▸ ho.2.2.1, ho.2.2.2⟩, c', e'⟩

/-- `R_IMAGE` (R161, R162). -/
theorem rImageBody_spec (r : Reader) :
    ReaderBody [.corruptData, .unexpectedEndOfData, .rasterOverflow, .ioError] r ImageReady (rImageBody r) := by
  refine Body.Spec.bind ((srcBytes_spec 9 r).mono (fun _ _ h => h) ?_ fun _ h => h) ?_
  · rintro e r' ⟨he, h1, c1⟩
    exact ⟨by simp; tauto, c1⟩
  · rintro d r1 ⟨-, h1, c1⟩
    have e1 := offStream_err h1
    refine Body.Spec.bind ((copyTable_spec _ _).mono (fun _ _ h => h) ?_ ?_) ?_
    · rintro e r' ⟨he, h3, c3, -⟩
      exact ⟨by simp; tauto, c3.trans c1⟩
    · rintro f ⟨hf, hm⟩; exact ⟨hf, c1.subset hm⟩
    · rintro _ r2 ⟨h2, c2, -⟩
      have e2 : r2.err = r.err := ((congrArg (·.err) h2 :) : r2.err = r1.err).trans e1
      refine (imageDataStart_spec r2).mono ?_ ?_ ?_
      · rintro _ r' ⟨h3, c3, e3⟩
        exact ⟨h3, c3.trans (c2.trans c1), e3.trans e2⟩
      · rintro e r' ⟨he, c3⟩
        exact ⟨he, c3.trans (c2.trans c1)⟩
      · intro f hf; exact hf.trans (c2.trans c1)

/-- `R_PIXELS` (R164) in the middle of an image. -/
theorem rPixelsBody_spec {m n : Nat} {r : Reader} (h : ImageOpen n r) (hs : r.state = .pixels) (hn : 0 < n)
    (hm : m ≤ n) :
    ReaderBody [.corruptData, .unexpectedEndOfData, .rasterOverflow, .ioError] r ImageReady (rPixelsBody m r) := by
  have hne : r.pixRemain ≠ 0#32 := by
    intro h0; have := h.1; rw [h0] at this; simp only [BitVec.toNat_ofNat] at this; omega
  unfold rPixelsBody
  split
  · exact ⟨.inr ⟨hs, hne, rfl, h.2.1, h.1 ▸ h.2.2.1, h.2.2.2⟩, List.suffix_refl _, rfl⟩
  · have hat : ImageAt n r := ⟨fun h0 => by omega, fun _ => h⟩
    refine Body.Spec.bind ((deliverPixels_spec m hat hm).mono (fun _ _ h => h) ?_ fun _ h => h) ?_
    · rintro e r' ⟨⟨he, -, c⟩, -⟩
      exact ⟨by simp; tauto, c⟩
    · rintro _ r1 ⟨o1, c1, -, hat⟩
      have e1 := offPixels_err o1
      have s1 := offPixels_state o1
      split
      · exact ⟨.inl rfl, c1, e1⟩
      · rename_i h0
        have hpos : 0 < n - m := by
          by_contra hc
          exact h0 (hat.1 (by omega)).1
        obtain ⟨p1, p2, p3, p4⟩ := hat.2 hpos
        exact ⟨.inr ⟨s1.trans hs, h0, rfl, p2, p1 ▸ p3, p4⟩, c1, e1⟩

end Sys2Proof.Machine
end

