-- ==== Sys2Proof/Laws/ReaderParts.lean ====
section
/-!
SUPPORT. What each part of the reader can do from any state at all, invariant or not: what it leaves alone, that streams
and DOUT only move forward, and which failures it can raise.
-/

namespace Sys2Proof.Machine

/-- SIN has only been read on, and DOUT only pushed to (R66, R69). -/
def ReaderMoves (r r' : Reader) : Prop :=
  r'.sin <:+ r.sin ∧ r.sinRead ≤ r'.sinRead ∧ r.dout <+: r'.dout

theorem ReaderMoves.refl (r : Reader) : ReaderMoves r r := ⟨List.suffix_refl _, le_refl _, List.prefix_refl _⟩

theorem ReaderMoves.trans {r r1 r' : Reader} (h : ReaderMoves r r1) (h' : ReaderMoves r1 r') : ReaderMoves r r' :=
  ⟨h'.1.trans h.1, h.2.1.trans h'.2.1, h.2.2.trans h'.2.2⟩

/-- What a part of the reader does that leaves everything but `off` alone and raises only the failures `codes`. -/
def ReaderPart {α β : Type} (off : Reader → β) (codes : List Status) (r : Reader) (x : Body Reader α) : Prop :=
  Body.Spec (fun _ r' => off r' = off r ∧ ReaderMoves r r') (fun e r' => e ∈ codes ∧ off r' = off r ∧ ReaderMoves r r')
    (fun _ => True) x

variable {α β γ : Type}

theorem ReaderPart.ok {off : Reader → β} {codes : List Status} {r r' : Reader} {a : α} (h : off r' = off r)
    (m : ReaderMoves r r') : ReaderPart off codes r (.ok a r') := ⟨h, m⟩

theorem ReaderPart.raise {off : Reader → β} {codes : List Status} {r r' : Reader} {e : Status} (he : e ∈ codes)
    (h : off r' = off r) (m : ReaderMoves r r') : ReaderPart off codes r (.raise e r' : Body Reader α) := ⟨he, h, m⟩

theorem ReaderPart.stuck {off : Reader → β} {codes : List Status} {r : Reader} {f : Fault} :
    ReaderPart off codes r (.stuck f : Body Reader α) := trivial

/-- A part may start from a state that differs only in what it may change. -/
theorem ReaderPart.start {off : Reader → β} {codes : List Status} {r r' : Reader} {x : Body Reader α}
    (hx : ReaderPart off codes r' x) (h : off r' = off r) (m : ReaderMoves r r') : ReaderPart off codes r x := by
  refine hx.mono ?_ ?_ fun _ h => h
  · rintro _ r2 ⟨h2, m2⟩; exact ⟨h2.trans h, m.trans m2⟩
  · rintro e r2 ⟨he, h2, m2⟩; exact ⟨he, h2.trans h, m.trans m2⟩

/-- Parts compose. -/
theorem ReaderPart.bind {δ : Type} {off : Reader → β} {codes : List Status} {r : Reader} {x : Body Reader α}
    {f : α → Reader → Body Reader δ} (hx : ReaderPart off codes r x)
    (hf : ∀ a r', ReaderPart off codes r' (f a r')) : ReaderPart off codes r (x.bind f) :=
  Body.Spec.bind hx fun a r1 h => (hf a r1).start h.1 h.2

/-- A part that leaves more alone, and fails in fewer ways, is one that leaves less alone and fails in more. -/
theorem ReaderPart.widen {off : Reader → β} {off' : Reader → γ} {codes codes' : List Status} {r : Reader}
    {x : Body Reader α} (hx : ReaderPart off codes r x) (h : ∀ r', off r' = off r → off' r' = off' r)
    (hc : ∀ e ∈ codes, e ∈ codes') : ReaderPart off' codes' r x := by
  refine hx.mono ?_ ?_ fun _ h => h
  · rintro _ r2 ⟨h2, m2⟩; exact ⟨h _ h2, m2⟩
  · rintro e r2 ⟨he, h2, m2⟩; exact ⟨hc e he, h _ h2, m2⟩

theorem srcByte_part (r : Reader) : ReaderPart offStream [.unexpectedEndOfData, .ioError] r (srcByte r) := by
  refine (srcByte_spec r).mono ?_ ?_ fun _ _ => trivial
  · rintro b r' ⟨rest, h, rfl⟩
    exact ⟨rfl, by simp [h], by simp, List.prefix_refl _⟩
  · rintro e r' ⟨he, rest, rfl, hs⟩
    exact ⟨by simpa using he, rfl, hs, le_refl _, List.prefix_refl _⟩

theorem srcBytes_part (n : Nat) : ∀ r : Reader,
    ReaderPart offStream [.unexpectedEndOfData, .ioError] r (srcBytes n r) := by
  induction n with
  | zero => intro r; exact .ok rfl (ReaderMoves.refl r)
  | succ n ih =>
    intro r
    simp only [srcBytes]
    exact (srcByte_part r).bind fun _ r => (ih r).bind fun _ r => .ok rfl (ReaderMoves.refl r)

theorem skipBytes_part (n : Nat) : ∀ r : Reader,
    ReaderPart offStream [.unexpectedEndOfData, .ioError] r (skipBytes n r) := by
  induction n with
  | zero => intro r; exact .ok rfl (ReaderMoves.refl r)
  | succ n ih =>
    intro r
    simp only [skipBytes]
    exact (srcByte_part r).bind fun _ r => ih r

theorem offCopy_of_offStream {r r' : Reader} (h : offStream r' = offStream r) : offCopy r' = offCopy r := by
  simp only [offCopy, h]

theorem doutPush_moves (b : Byte) (r : Reader) : ReaderMoves r (doutPush b r) :=
  ⟨List.suffix_refl _, le_refl _, List.prefix_append ..⟩

theorem copyBytes_part (n : Nat) : ∀ r : Reader,
    ReaderPart offCopy [.unexpectedEndOfData, .ioError] r (copyBytes n r) := by
  induction n with
  | zero => intro r; exact .ok rfl (ReaderMoves.refl r)
  | succ n ih =>
    intro r
    simp only [copyBytes]
    exact ((srcByte_part r).widen (fun _ h => offCopy_of_offStream h) fun _ h => h).bind fun b r =>
      (ih _).start rfl (doutPush_moves b r)

theorem loadDataByte_part (r : Reader) :
    ReaderPart offUnpacker [.unexpectedEndOfData, .ioError] r (loadDataByte r) :=
  ((srcByte_part r).widen (fun _ h => offUnpacker_of_offStream h) fun _ h => h).bind fun _ r =>
    .ok rfl (ReaderMoves.refl r)

theorem loadBits_part (r : Reader) : ReaderPart offUnpacker [.unexpectedEndOfData, .ioError] r (loadBits r) := by
  unfold loadBits
  split
  · split
    · exact .raise (by simp) rfl (ReaderMoves.refl r)
    · refine ((srcByte_part r).widen (fun _ h => offUnpacker_of_offStream h) fun _ h => h).bind fun l r => ?_
      split
      · exact .raise (by simp) rfl (ReaderMoves.refl r)
      · exact (loadDataByte_part _).start rfl (ReaderMoves.refl r)
  · exact loadDataByte_part r

theorem fillBits_part (width n : Nat) : ∀ r : Reader,
    ReaderPart offUnpacker [.unexpectedEndOfData, .ioError] r (fillBits width n r) := by
  induction n with
  | zero => intro r; exact .ok rfl (ReaderMoves.refl r)
  | succ n ih =>
    intro r
    simp only [fillBits]
    split
    · exact (loadBits_part r).bind fun _ r => ih r
    · exact .ok rfl (ReaderMoves.refl r)

theorem readCode_part (width : Nat) (r : Reader) :
    ReaderPart offUnpacker [.unexpectedEndOfData, .ioError] r (readCode width r) :=
  (fillBits_part width width r).bind fun _ r => .ok rfl (ReaderMoves.refl r)

theorem skipToTerminator_part (r : Reader) :
    ReaderPart offUnpacker [.unexpectedEndOfData, .ioError] r (skipToTerminator r) := by
  unfold skipToTerminator
  refine ((skipBytes_part _ r).widen (fun _ h => offUnpacker_of_offStream h) fun _ h => h).bind fun _ r => ?_
  refine (((srcByte_part _).widen (fun _ h => offUnpacker_of_offStream h) fun _ h => h).bind fun l r => ?_).start
    (r := r) rfl (ReaderMoves.refl r)
  split
  · exact .raise (by simp) rfl (ReaderMoves.refl r)
  · exact .ok rfl (ReaderMoves.refl r)

theorem acceptString_moves (c : Nat) (s : List Byte) (r : Reader) : ReaderMoves r (acceptString c s r) :=
  ReaderMoves.refl r

theorem offDecompressor_accept (c : Nat) (s : List Byte) (q : Code) (x : Byte) (r : Reader) :
    offDecompressor (acceptString c s (addEntry q x r)) = offDecompressor r ∧
    ReaderMoves r (acceptString c s (addEntry q x r)) := by
  unfold addEntry
  split
  · exact ⟨rfl, ReaderMoves.refl r⟩
  · exact ⟨rfl, ReaderMoves.refl r⟩

theorem applyCode_part (c : Nat) (r : Reader) : ReaderPart offDecompressor [.corruptData] r (applyCode c r) := by
  unfold applyCode
  split
  · exact .ok rfl (ReaderMoves.refl r)
  split
  · exact .ok rfl (ReaderMoves.refl r)
  split
  · split
    · exact .raise (by simp) rfl (ReaderMoves.refl r)
    · exact .ok rfl (ReaderMoves.refl r)
  · split
    · split
      · exact .ok (offDecompressor_accept ..).1 (offDecompressor_accept ..).2
      · exact .stuck
    · split
      · split
        · exact .ok (offDecompressor_accept ..).1 (offDecompressor_accept ..).2
        · exact .stuck
      · exact .raise (by simp) rfl (ReaderMoves.refl r)

/-- The failures of decoding (R140). -/
def decodeCodes : List Status := [.corruptData, .unexpectedEndOfData, .ioError]

/-- The failures of delivering pixels (R145, R147). -/
def imageCodes : List Status := [.corruptData, .unexpectedEndOfData, .rasterOverflow, .ioError]

theorem decodeStep_part (r : Reader) : ReaderPart offDecompressor decodeCodes r (decodeStep r) :=
  ((readCode_part _ r).widen (fun _ h => offDecompressor_of_offUnpacker h) (by decide)).bind fun c r =>
    (applyCode_part c r).widen (fun _ h => h) (by decide)

theorem nextPixel_part (n : Nat) : ∀ r : Reader, ReaderPart offDecompressor imageCodes r (nextPixel n r) := by
  induction n with
  | zero => intro r; exact .stuck
  | succ n ih =>
    intro r
    unfold nextPixel
    split
    · exact .ok rfl (ReaderMoves.refl r)
    · split
      · exact .raise (by decide) rfl (ReaderMoves.refl r)
      · exact ((decodeStep_part r).widen (fun _ h => h) (by decide)).bind fun _ r => ih r

theorem readToEof_part (n : Nat) : ∀ r : Reader, ReaderPart offDecompressor imageCodes r (readToEof n r) := by
  induction n with
  | zero => intro r; exact .stuck
  | succ n ih =>
    intro r
    unfold readToEof
    split
    · exact .raise (by decide) rfl (ReaderMoves.refl r)
    · split
      · exact .ok rfl (ReaderMoves.refl r)
      · exact ((decodeStep_part r).widen (fun _ h => h) (by decide)).bind fun _ r => ih r

theorem epilogue_part (r : Reader) : ReaderPart offDecompressor imageCodes r (epilogue r) :=
  (readToEof_part _ r).bind fun _ r =>
    (skipToTerminator_part r).widen (fun _ h => offDecompressor_of_offUnpacker h) (by decide)

/-- What R_PIXELS leaves alone: everything but SIN, DOUT, the unpacker, the decompressor's changing state, the pixel
count and the tracker's position. -/
def offDelivery (r : Reader) : Reader × (Half × Half × BitVec 1) := (offPixels r, r.rows.w, r.rows.h, r.rows.il)

theorem offDelivery_of_offDecompressor {r r' : Reader} (h : offDecompressor r' = offDecompressor r) :
    offDelivery r' = offDelivery r := by
  have hr := offDecompressor_rows h
  simp only [offDelivery, offPixels_of_offDecompressor h, hr]

theorem pushPixel_moves (x : Byte) (r : Reader) : ReaderMoves r (pushPixel x r) :=
  ⟨List.suffix_refl _, le_refl _, List.prefix_append ..⟩

theorem offDelivery_push (x : Byte) (r : Reader) : offDelivery (pushPixel x r) = offDelivery r := by
  simp only [offDelivery, offPixels, offDecompressor, offUnpacker, offStream, pushPixel, doutPush, rowAdvance_w,
    rowAdvance_h, rowAdvance_il]

theorem deliverPixel_part (r : Reader) : ReaderPart offDelivery imageCodes r (deliverPixel r) := by
  refine ((nextPixel_part _ r).widen (fun _ h => offDelivery_of_offDecompressor h) fun _ h => h).bind fun x r => ?_
  refine ReaderPart.start (r' := pushPixel x r) ?_ (offDelivery_push x r) (pushPixel_moves x r)
  dsimp only
  split
  · exact (epilogue_part _).widen (fun _ h => offDelivery_of_offDecompressor h) fun _ h => h
  · exact .ok rfl (ReaderMoves.refl _)

theorem deliverPixels_part (n : Nat) : ∀ r : Reader, ReaderPart offDelivery imageCodes r (deliverPixels n r) := by
  induction n with
  | zero => intro r; exact .ok rfl (ReaderMoves.refl r)
  | succ n ih =>
    intro r
    simp only [deliverPixels]
    exact (deliverPixel_part r).bind fun _ r => ih r

/-! ### Bodies -/

/-- What no reader command's body changes but by its failure: R_ERR. -/
def offBody (r : Reader) : Status := r.err

theorem offBody_of_offStream {r r' : Reader} (h : offStream r' = offStream r) : offBody r' = offBody r :=
  offStream_err h

theorem offBody_of_offCopy {r r' : Reader} (h : offCopy r' = offCopy r) : offBody r' = offBody r := by
  have := congrArg Reader.err h
  simpa only [offCopy, offStream, offBody] using this

theorem offBody_of_offDelivery {r r' : Reader} (h : offDelivery r' = offDelivery r) : offBody r' = offBody r :=
  offPixels_err (congrArg Prod.fst h)

theorem rOpenBody_part (r : Reader) : ReaderPart offBody (failuresOf .rOpen) r (rOpenBody r) := by
  refine ((srcBytes_part 6 r).widen (fun _ h => offBody_of_offStream h) (by decide)).bind fun sig r => ?_
  split
  · exact .raise (by decide) rfl (ReaderMoves.refl r)
  · refine (((srcBytes_part 7 _).widen (fun _ h => offBody_of_offStream h) (by decide)).bind fun d r => ?_).start
      (r := r) rfl (ReaderMoves.refl r)
    refine (((copyBytes_part _ _).widen (fun _ h => offBody_of_offCopy h) (by decide)).bind fun _ r => ?_).start
      (r := r) rfl (ReaderMoves.refl r)
    exact .ok rfl (ReaderMoves.refl r)

theorem rNextBody_part (r : Reader) : ReaderPart offBody (failuresOf .rNext) r (rNextBody r) := by
  refine ((srcByte_part r).widen (fun _ h => offBody_of_offStream h) (by decide)).bind fun x r => ?_
  split
  · exact .ok rfl (ReaderMoves.refl r)
  split
  · exact .ok rfl (ReaderMoves.refl r)
  split
  · exact .ok rfl (ReaderMoves.refl r)
  · exact .raise (by decide) rfl (ReaderMoves.refl r)

theorem rExtBody_part (r : Reader) : ReaderPart offBody (failuresOf .rExt) r (rExtBody r) :=
  ((srcByte_part r).widen (fun _ h => offBody_of_offStream h) (by decide)).bind fun _ r =>
    .ok rfl (ReaderMoves.refl r)

theorem rExtBlockBody_part (r : Reader) : ReaderPart offBody (failuresOf .rExtBlock) r (rExtBlockBody r) := by
  refine ((srcByte_part r).widen (fun _ h => offBody_of_offStream h) (by decide)).bind fun l r => ?_
  split
  · exact .ok rfl (ReaderMoves.refl r)
  · exact ((copyBytes_part _ _).widen (fun _ h => offBody_of_offCopy h) (by decide)).start rfl (ReaderMoves.refl r)

/-- What R_IMAGE leaves alone. -/
def offImage (r : Reader) :
    Status × BitVec 1 × Half × Half × Byte × Byte × Byte × RecType × Byte × Byte :=
  (r.err, r.version, r.scrW, r.scrH, r.scrPacked, r.bg, r.aspect, r.recType, r.extCode, r.subLen)

theorem offImage_of_offCopy {r r' : Reader} (h : offCopy r' = offCopy r) : offImage r' = offImage r := by
  have := congrArg offImage h
  simpa only [offCopy, offStream, offImage] using this

theorem offImage_of_offDecompressor {r r' : Reader} (h : offDecompressor r' = offDecompressor r) :
    offImage r' = offImage r := by
  have := congrArg offImage h
  simpa only [offDecompressor, offUnpacker, offStream, offImage] using this

theorem startImage_frame (b : Byte) (r : Reader) :
    offImage (startImage b r) = offImage r ∧ ReaderMoves r (startImage b r) := by
  constructor
  · simp only [startImage, decompressStart, resetDecoder, startUnpacker, offImage]
  · simp only [startImage, decompressStart, resetDecoder, startUnpacker, ReaderMoves, le_refl, List.suffix_refl,
      List.prefix_refl, and_self]

theorem imageDataStart_part (r : Reader) : ReaderPart offImage imageCodes r (imageDataStart r) := by
  unfold imageDataStart
  refine ((srcByte_part r).widen (fun _ h => offImage_of_offCopy (offCopy_of_offStream h)) (by decide)).bind
    fun b r => ?_
  dsimp only
  split
  · exact .raise (by decide) rfl (ReaderMoves.refl r)
  · obtain ⟨h1, h2⟩ := startImage_frame b { r with codeSize := b }
    refine ReaderPart.start (r' := startImage b { r with codeSize := b }) ?_ h1 h2
    split
    · exact ((epilogue_part _).widen (fun _ h => offImage_of_offDecompressor h) fun _ h => h).bind fun _ r =>
        .ok rfl (ReaderMoves.refl r)
    · exact .ok rfl (ReaderMoves.refl _)

theorem rImageBody_part (r : Reader) : ReaderPart offImage (failuresOf .rImage) r (rImageBody r) := by
  refine ((srcBytes_part 9 r).widen (fun _ h => offImage_of_offCopy (offCopy_of_offStream h)) (by decide)).bind
    fun d r => ?_
  refine (((copyBytes_part _ _).widen (fun _ h => offImage_of_offCopy h) (by decide)).bind fun _ r => ?_).start
    (r := r) rfl (ReaderMoves.refl r)
  exact imageDataStart_part r

/-- What R_PIXELS leaves alone: `offDelivery` but R_STATE. -/
def offRPixels (r : Reader) : Reader × (Half × Half × BitVec 1) :=
  ({ (offDelivery r).1 with state := .idle }, (offDelivery r).2)

theorem rPixelsBody_part (n : Nat) (r : Reader) : ReaderPart offRPixels imageCodes r (rPixelsBody n r) := by
  unfold rPixelsBody
  split
  · exact .ok rfl (ReaderMoves.refl r)
  · refine ((deliverPixels_part n r).widen (fun _ h => ?_) fun _ h => h).bind fun _ r => ?_
    · simp only [offRPixels, h]
    · split
      · exact .ok rfl (ReaderMoves.refl r)
      · exact .ok rfl (ReaderMoves.refl r)

end Sys2Proof.Machine
end

