-- ==== Sys2Proof/Laws/State.lean ====
section
/-!
SUPPORT. One lemma per field per update: what each operation that only sets fields leaves in the field and leaves alone,
each by rfl.
-/

namespace Sys2Proof.Machine

/-! ### rejectWith (R192) -/
@[simp] theorem rejectWith_last (e : Status) (s : State) : (rejectWith e s).last = e := rfl
@[simp] theorem rejectWith_busy (e : Status) (s : State) : (rejectWith e s).busy = s.busy := rfl
@[simp] theorem rejectWith_reader (e : Status) (s : State) : (rejectWith e s).reader = s.reader := rfl
@[simp] theorem rejectWith_writer (e : Status) (s : State) : (rejectWith e s).writer = s.writer := rfl
@[simp] theorem rejectWith_host (e : Status) (s : State) : (rejectWith e s).host = s.host := rfl
@[simp] theorem rejectWith_readData (e : Status) (s : State) : (rejectWith e s).readData = s.readData := rfl

/-! ### doutPush (R69) -/
@[simp] theorem doutPush_state (b : Byte) (r : Reader) : (doutPush b r).state = r.state := rfl
@[simp] theorem doutPush_err (b : Byte) (r : Reader) : (doutPush b r).err = r.err := rfl
@[simp] theorem doutPush_version (b : Byte) (r : Reader) : (doutPush b r).version = r.version := rfl
@[simp] theorem doutPush_scrW (b : Byte) (r : Reader) : (doutPush b r).scrW = r.scrW := rfl
@[simp] theorem doutPush_scrH (b : Byte) (r : Reader) : (doutPush b r).scrH = r.scrH := rfl
@[simp] theorem doutPush_scrPacked (b : Byte) (r : Reader) : (doutPush b r).scrPacked = r.scrPacked := rfl
@[simp] theorem doutPush_bg (b : Byte) (r : Reader) : (doutPush b r).bg = r.bg := rfl
@[simp] theorem doutPush_aspect (b : Byte) (r : Reader) : (doutPush b r).aspect = r.aspect := rfl
@[simp] theorem doutPush_recType (b : Byte) (r : Reader) : (doutPush b r).recType = r.recType := rfl
@[simp] theorem doutPush_extCode (b : Byte) (r : Reader) : (doutPush b r).extCode = r.extCode := rfl
@[simp] theorem doutPush_subLen (b : Byte) (r : Reader) : (doutPush b r).subLen = r.subLen := rfl
@[simp] theorem doutPush_imgLeft (b : Byte) (r : Reader) : (doutPush b r).imgLeft = r.imgLeft := rfl
@[simp] theorem doutPush_imgTop (b : Byte) (r : Reader) : (doutPush b r).imgTop = r.imgTop := rfl
@[simp] theorem doutPush_imgW (b : Byte) (r : Reader) : (doutPush b r).imgW = r.imgW := rfl
@[simp] theorem doutPush_imgH (b : Byte) (r : Reader) : (doutPush b r).imgH = r.imgH := rfl
@[simp] theorem doutPush_imgPacked (b : Byte) (r : Reader) : (doutPush b r).imgPacked = r.imgPacked := rfl
@[simp] theorem doutPush_codeSize (b : Byte) (r : Reader) : (doutPush b r).codeSize = r.codeSize := rfl
@[simp] theorem doutPush_pixRemain (b : Byte) (r : Reader) : (doutPush b r).pixRemain = r.pixRemain := rfl
@[simp] theorem doutPush_rows (b : Byte) (r : Reader) : (doutPush b r).rows = r.rows := rfl
@[simp] theorem doutPush_dB (b : Byte) (r : Reader) : (doutPush b r).dB = r.dB := rfl
@[simp] theorem doutPush_dClear (b : Byte) (r : Reader) : (doutPush b r).dClear = r.dClear := rfl
@[simp] theorem doutPush_dEof (b : Byte) (r : Reader) : (doutPush b r).dEof = r.dEof := rfl
@[simp] theorem doutPush_dFirst (b : Byte) (r : Reader) : (doutPush b r).dFirst = r.dFirst := rfl
@[simp] theorem doutPush_dW (b : Byte) (r : Reader) : (doutPush b r).dW = r.dW := rfl
@[simp] theorem doutPush_dFree (b : Byte) (r : Reader) : (doutPush b r).dFree = r.dFree := rfl
@[simp] theorem doutPush_dPrev (b : Byte) (r : Reader) : (doutPush b r).dPrev = r.dPrev := rfl
@[simp] theorem doutPush_dDict (b : Byte) (r : Reader) : (doutPush b r).dDict = r.dDict := rfl
@[simp] theorem doutPush_dPend (b : Byte) (r : Reader) : (doutPush b r).dPend = r.dPend := rfl
@[simp] theorem doutPush_dDone (b : Byte) (r : Reader) : (doutPush b r).dDone = r.dDone := rfl
@[simp] theorem doutPush_uAcc (b : Byte) (r : Reader) : (doutPush b r).uAcc = r.uAcc := rfl
@[simp] theorem doutPush_uCnt (b : Byte) (r : Reader) : (doutPush b r).uCnt = r.uCnt := rfl
@[simp] theorem doutPush_uLeft (b : Byte) (r : Reader) : (doutPush b r).uLeft = r.uLeft := rfl
@[simp] theorem doutPush_uEnd (b : Byte) (r : Reader) : (doutPush b r).uEnd = r.uEnd := rfl
@[simp] theorem doutPush_dout (b : Byte) (r : Reader) : (doutPush b r).dout = r.dout ++ [b] := rfl
@[simp] theorem doutPush_sin (b : Byte) (r : Reader) : (doutPush b r).sin = r.sin := rfl
@[simp] theorem doutPush_sinRead (b : Byte) (r : Reader) : (doutPush b r).sinRead = r.sinRead := rfl

/-! ### failReader (R193) -/
@[simp] theorem failReader_state (e : Status) (r : Reader) : (failReader e r).state = .failed := rfl
@[simp] theorem failReader_err (e : Status) (r : Reader) : (failReader e r).err = e := rfl
@[simp] theorem failReader_version (e : Status) (r : Reader) : (failReader e r).version = r.version := rfl
@[simp] theorem failReader_scrW (e : Status) (r : Reader) : (failReader e r).scrW = r.scrW := rfl
@[simp] theorem failReader_scrH (e : Status) (r : Reader) : (failReader e r).scrH = r.scrH := rfl
@[simp] theorem failReader_scrPacked (e : Status) (r : Reader) : (failReader e r).scrPacked = r.scrPacked := rfl
@[simp] theorem failReader_bg (e : Status) (r : Reader) : (failReader e r).bg = r.bg := rfl
@[simp] theorem failReader_aspect (e : Status) (r : Reader) : (failReader e r).aspect = r.aspect := rfl
@[simp] theorem failReader_recType (e : Status) (r : Reader) : (failReader e r).recType = r.recType := rfl
@[simp] theorem failReader_extCode (e : Status) (r : Reader) : (failReader e r).extCode = r.extCode := rfl
@[simp] theorem failReader_subLen (e : Status) (r : Reader) : (failReader e r).subLen = r.subLen := rfl
@[simp] theorem failReader_imgLeft (e : Status) (r : Reader) : (failReader e r).imgLeft = r.imgLeft := rfl
@[simp] theorem failReader_imgTop (e : Status) (r : Reader) : (failReader e r).imgTop = r.imgTop := rfl
@[simp] theorem failReader_imgW (e : Status) (r : Reader) : (failReader e r).imgW = r.imgW := rfl
@[simp] theorem failReader_imgH (e : Status) (r : Reader) : (failReader e r).imgH = r.imgH := rfl
@[simp] theorem failReader_imgPacked (e : Status) (r : Reader) : (failReader e r).imgPacked = r.imgPacked := rfl
@[simp] theorem failReader_codeSize (e : Status) (r : Reader) : (failReader e r).codeSize = r.codeSize := rfl
@[simp] theorem failReader_pixRemain (e : Status) (r : Reader) : (failReader e r).pixRemain = r.pixRemain := rfl
@[simp] theorem failReader_rows (e : Status) (r : Reader) : (failReader e r).rows = r.rows := rfl
@[simp] theorem failReader_dB (e : Status) (r : Reader) : (failReader e r).dB = r.dB := rfl
@[simp] theorem failReader_dClear (e : Status) (r : Reader) : (failReader e r).dClear = r.dClear := rfl
@[simp] theorem failReader_dEof (e : Status) (r : Reader) : (failReader e r).dEof = r.dEof := rfl
@[simp] theorem failReader_dFirst (e : Status) (r : Reader) : (failReader e r).dFirst = r.dFirst := rfl
@[simp] theorem failReader_dW (e : Status) (r : Reader) : (failReader e r).dW = r.dW := rfl
@[simp] theorem failReader_dFree (e : Status) (r : Reader) : (failReader e r).dFree = r.dFree := rfl
@[simp] theorem failReader_dPrev (e : Status) (r : Reader) : (failReader e r).dPrev = r.dPrev := rfl
@[simp] theorem failReader_dDict (e : Status) (r : Reader) : (failReader e r).dDict = r.dDict := rfl
@[simp] theorem failReader_dPend (e : Status) (r : Reader) : (failReader e r).dPend = r.dPend := rfl
@[simp] theorem failReader_dDone (e : Status) (r : Reader) : (failReader e r).dDone = r.dDone := rfl
@[simp] theorem failReader_uAcc (e : Status) (r : Reader) : (failReader e r).uAcc = r.uAcc := rfl
@[simp] theorem failReader_uCnt (e : Status) (r : Reader) : (failReader e r).uCnt = r.uCnt := rfl
@[simp] theorem failReader_uLeft (e : Status) (r : Reader) : (failReader e r).uLeft = r.uLeft := rfl
@[simp] theorem failReader_uEnd (e : Status) (r : Reader) : (failReader e r).uEnd = r.uEnd := rfl
@[simp] theorem failReader_dout (e : Status) (r : Reader) : (failReader e r).dout = r.dout := rfl
@[simp] theorem failReader_sin (e : Status) (r : Reader) : (failReader e r).sin = r.sin := rfl
@[simp] theorem failReader_sinRead (e : Status) (r : Reader) : (failReader e r).sinRead = r.sinRead := rfl

/-! ### failWriter (R193) -/
@[simp] theorem failWriter_state (e : Status) (w : Writer) : (failWriter e w).state = .failed := rfl
@[simp] theorem failWriter_err (e : Status) (w : Writer) : (failWriter e w).err = e := rfl
@[simp] theorem failWriter_version (e : Status) (w : Writer) : (failWriter e w).version = w.version := rfl
@[simp] theorem failWriter_gctBpp (e : Status) (w : Writer) : (failWriter e w).gctBpp = w.gctBpp := rfl
@[simp] theorem failWriter_imgW (e : Status) (w : Writer) : (failWriter e w).imgW = w.imgW := rfl
@[simp] theorem failWriter_imgH (e : Status) (w : Writer) : (failWriter e w).imgH = w.imgH := rfl
@[simp] theorem failWriter_imgPacked (e : Status) (w : Writer) : (failWriter e w).imgPacked = w.imgPacked := rfl
@[simp] theorem failWriter_bpp (e : Status) (w : Writer) : (failWriter e w).bpp = w.bpp := rfl
@[simp] theorem failWriter_codeSize (e : Status) (w : Writer) : (failWriter e w).codeSize = w.codeSize := rfl
@[simp] theorem failWriter_pixRemain (e : Status) (w : Writer) : (failWriter e w).pixRemain = w.pixRemain := rfl
@[simp] theorem failWriter_rows (e : Status) (w : Writer) : (failWriter e w).rows = w.rows := rfl
@[simp] theorem failWriter_cB (e : Status) (w : Writer) : (failWriter e w).cB = w.cB := rfl
@[simp] theorem failWriter_cClear (e : Status) (w : Writer) : (failWriter e w).cClear = w.cClear := rfl
@[simp] theorem failWriter_cEof (e : Status) (w : Writer) : (failWriter e w).cEof = w.cEof := rfl
@[simp] theorem failWriter_cFirst (e : Status) (w : Writer) : (failWriter e w).cFirst = w.cFirst := rfl
@[simp] theorem failWriter_cW (e : Status) (w : Writer) : (failWriter e w).cW = w.cW := rfl
@[simp] theorem failWriter_cFree (e : Status) (w : Writer) : (failWriter e w).cFree = w.cFree := rfl
@[simp] theorem failWriter_cPrefix (e : Status) (w : Writer) : (failWriter e w).cPrefix = w.cPrefix := rfl
@[simp] theorem failWriter_cDict (e : Status) (w : Writer) : (failWriter e w).cDict = w.cDict := rfl
@[simp] theorem failWriter_pAcc (e : Status) (w : Writer) : (failWriter e w).pAcc = w.pAcc := rfl
@[simp] theorem failWriter_pCnt (e : Status) (w : Writer) : (failWriter e w).pCnt = w.pCnt := rfl
@[simp] theorem failWriter_pBuf (e : Status) (w : Writer) : (failWriter e w).pBuf = w.pBuf := rfl
@[simp] theorem failWriter_din (e : Status) (w : Writer) : (failWriter e w).din = w.din := rfl
@[simp] theorem failWriter_sinkAnswers (e : Status) (w : Writer) : (failWriter e w).sinkAnswers = w.sinkAnswers := rfl
@[simp] theorem failWriter_sout (e : Status) (w : Writer) : (failWriter e w).sout = w.sout := rfl
@[simp] theorem failWriter_draws (e : Status) (w : Writer) : (failWriter e w).draws = w.draws := rfl

/-! ### resetReader (R184) -/
@[simp] theorem resetReader_state (r : Reader) : (resetReader r).state = Reader.reset.state := rfl
@[simp] theorem resetReader_err (r : Reader) : (resetReader r).err = Reader.reset.err := rfl
@[simp] theorem resetReader_version (r : Reader) : (resetReader r).version = Reader.reset.version := rfl
@[simp] theorem resetReader_scrW (r : Reader) : (resetReader r).scrW = Reader.reset.scrW := rfl
@[simp] theorem resetReader_scrH (r : Reader) : (resetReader r).scrH = Reader.reset.scrH := rfl
@[simp] theorem resetReader_scrPacked (r : Reader) : (resetReader r).scrPacked = Reader.reset.scrPacked := rfl
@[simp] theorem resetReader_bg (r : Reader) : (resetReader r).bg = Reader.reset.bg := rfl
@[simp] theorem resetReader_aspect (r : Reader) : (resetReader r).aspect = Reader.reset.aspect := rfl
@[simp] theorem resetReader_recType (r : Reader) : (resetReader r).recType = Reader.reset.recType := rfl
@[simp] theorem resetReader_extCode (r : Reader) : (resetReader r).extCode = Reader.reset.extCode := rfl
@[simp] theorem resetReader_subLen (r : Reader) : (resetReader r).subLen = Reader.reset.subLen := rfl
@[simp] theorem resetReader_imgLeft (r : Reader) : (resetReader r).imgLeft = Reader.reset.imgLeft := rfl
@[simp] theorem resetReader_imgTop (r : Reader) : (resetReader r).imgTop = Reader.reset.imgTop := rfl
@[simp] theorem resetReader_imgW (r : Reader) : (resetReader r).imgW = Reader.reset.imgW := rfl
@[simp] theorem resetReader_imgH (r : Reader) : (resetReader r).imgH = Reader.reset.imgH := rfl
@[simp] theorem resetReader_imgPacked (r : Reader) : (resetReader r).imgPacked = Reader.reset.imgPacked := rfl
@[simp] theorem resetReader_codeSize (r : Reader) : (resetReader r).codeSize = Reader.reset.codeSize := rfl
@[simp] theorem resetReader_pixRemain (r : Reader) : (resetReader r).pixRemain = Reader.reset.pixRemain := rfl
@[simp] theorem resetReader_rows (r : Reader) : (resetReader r).rows = Reader.reset.rows := rfl
@[simp] theorem resetReader_dB (r : Reader) : (resetReader r).dB = Reader.reset.dB := rfl
@[simp] theorem resetReader_dClear (r : Reader) : (resetReader r).dClear = Reader.reset.dClear := rfl
@[simp] theorem resetReader_dEof (r : Reader) : (resetReader r).dEof = Reader.reset.dEof := rfl
@[simp] theorem resetReader_dFirst (r : Reader) : (resetReader r).dFirst = Reader.reset.dFirst := rfl
@[simp] theorem resetReader_dW (r : Reader) : (resetReader r).dW = Reader.reset.dW := rfl
@[simp] theorem resetReader_dFree (r : Reader) : (resetReader r).dFree = Reader.reset.dFree := rfl
@[simp] theorem resetReader_dPrev (r : Reader) : (resetReader r).dPrev = Reader.reset.dPrev := rfl
@[simp] theorem resetReader_dDict (r : Reader) : (resetReader r).dDict = Reader.reset.dDict := rfl
@[simp] theorem resetReader_dPend (r : Reader) : (resetReader r).dPend = Reader.reset.dPend := rfl
@[simp] theorem resetReader_dDone (r : Reader) : (resetReader r).dDone = Reader.reset.dDone := rfl
@[simp] theorem resetReader_uAcc (r : Reader) : (resetReader r).uAcc = Reader.reset.uAcc := rfl
@[simp] theorem resetReader_uCnt (r : Reader) : (resetReader r).uCnt = Reader.reset.uCnt := rfl
@[simp] theorem resetReader_uLeft (r : Reader) : (resetReader r).uLeft = Reader.reset.uLeft := rfl
@[simp] theorem resetReader_uEnd (r : Reader) : (resetReader r).uEnd = Reader.reset.uEnd := rfl
@[simp] theorem resetReader_dout (r : Reader) : (resetReader r).dout = Reader.reset.dout := rfl
@[simp] theorem resetReader_sin (r : Reader) : (resetReader r).sin = r.sin := rfl
@[simp] theorem resetReader_sinRead (r : Reader) : (resetReader r).sinRead = r.sinRead := rfl

/-! ### resetWriter (R184) -/
@[simp] theorem resetWriter_state (w : Writer) : (resetWriter w).state = Writer.reset.state := rfl
@[simp] theorem resetWriter_err (w : Writer) : (resetWriter w).err = Writer.reset.err := rfl
@[simp] theorem resetWriter_version (w : Writer) : (resetWriter w).version = Writer.reset.version := rfl
@[simp] theorem resetWriter_gctBpp (w : Writer) : (resetWriter w).gctBpp = Writer.reset.gctBpp := rfl
@[simp] theorem resetWriter_imgW (w : Writer) : (resetWriter w).imgW = Writer.reset.imgW := rfl
@[simp] theorem resetWriter_imgH (w : Writer) : (resetWriter w).imgH = Writer.reset.imgH := rfl
@[simp] theorem resetWriter_imgPacked (w : Writer) : (resetWriter w).imgPacked = Writer.reset.imgPacked := rfl
@[simp] theorem resetWriter_bpp (w : Writer) : (resetWriter w).bpp = Writer.reset.bpp := rfl
@[simp] theorem resetWriter_codeSize (w : Writer) : (resetWriter w).codeSize = Writer.reset.codeSize := rfl
@[simp] theorem resetWriter_pixRemain (w : Writer) : (resetWriter w).pixRemain = Writer.reset.pixRemain := rfl
@[simp] theorem resetWriter_rows (w : Writer) : (resetWriter w).rows = Writer.reset.rows := rfl
@[simp] theorem resetWriter_cB (w : Writer) : (resetWriter w).cB = Writer.reset.cB := rfl
@[simp] theorem resetWriter_cClear (w : Writer) : (resetWriter w).cClear = Writer.reset.cClear := rfl
@[simp] theorem resetWriter_cEof (w : Writer) : (resetWriter w).cEof = Writer.reset.cEof := rfl
@[simp] theorem resetWriter_cFirst (w : Writer) : (resetWriter w).cFirst = Writer.reset.cFirst := rfl
@[simp] theorem resetWriter_cW (w : Writer) : (resetWriter w).cW = Writer.reset.cW := rfl
@[simp] theorem resetWriter_cFree (w : Writer) : (resetWriter w).cFree = Writer.reset.cFree := rfl
@[simp] theorem resetWriter_cPrefix (w : Writer) : (resetWriter w).cPrefix = Writer.reset.cPrefix := rfl
@[simp] theorem resetWriter_cDict (w : Writer) : (resetWriter w).cDict = Writer.reset.cDict := rfl
@[simp] theorem resetWriter_pAcc (w : Writer) : (resetWriter w).pAcc = Writer.reset.pAcc := rfl
@[simp] theorem resetWriter_pCnt (w : Writer) : (resetWriter w).pCnt = Writer.reset.pCnt := rfl
@[simp] theorem resetWriter_pBuf (w : Writer) : (resetWriter w).pBuf = Writer.reset.pBuf := rfl
@[simp] theorem resetWriter_din (w : Writer) : (resetWriter w).din = Writer.reset.din := rfl
@[simp] theorem resetWriter_sinkAnswers (w : Writer) : (resetWriter w).sinkAnswers = w.sinkAnswers := rfl
@[simp] theorem resetWriter_sout (w : Writer) : (resetWriter w).sout = w.sout := rfl
@[simp] theorem resetWriter_draws (w : Writer) : (resetWriter w).draws = w.draws := rfl

/-! ### sinkTake (R67) -/
@[simp] theorem sinkTake_state (b : Byte) (w : Writer) : (sinkTake b w).state = w.state := rfl
@[simp] theorem sinkTake_err (b : Byte) (w : Writer) : (sinkTake b w).err = w.err := rfl
@[simp] theorem sinkTake_version (b : Byte) (w : Writer) : (sinkTake b w).version = w.version := rfl
@[simp] theorem sinkTake_gctBpp (b : Byte) (w : Writer) : (sinkTake b w).gctBpp = w.gctBpp := rfl
@[simp] theorem sinkTake_imgW (b : Byte) (w : Writer) : (sinkTake b w).imgW = w.imgW := rfl
@[simp] theorem sinkTake_imgH (b : Byte) (w : Writer) : (sinkTake b w).imgH = w.imgH := rfl
@[simp] theorem sinkTake_imgPacked (b : Byte) (w : Writer) : (sinkTake b w).imgPacked = w.imgPacked := rfl
@[simp] theorem sinkTake_bpp (b : Byte) (w : Writer) : (sinkTake b w).bpp = w.bpp := rfl
@[simp] theorem sinkTake_codeSize (b : Byte) (w : Writer) : (sinkTake b w).codeSize = w.codeSize := rfl
@[simp] theorem sinkTake_pixRemain (b : Byte) (w : Writer) : (sinkTake b w).pixRemain = w.pixRemain := rfl
@[simp] theorem sinkTake_rows (b : Byte) (w : Writer) : (sinkTake b w).rows = w.rows := rfl
@[simp] theorem sinkTake_cB (b : Byte) (w : Writer) : (sinkTake b w).cB = w.cB := rfl
@[simp] theorem sinkTake_cClear (b : Byte) (w : Writer) : (sinkTake b w).cClear = w.cClear := rfl
@[simp] theorem sinkTake_cEof (b : Byte) (w : Writer) : (sinkTake b w).cEof = w.cEof := rfl
@[simp] theorem sinkTake_cFirst (b : Byte) (w : Writer) : (sinkTake b w).cFirst = w.cFirst := rfl
@[simp] theorem sinkTake_cW (b : Byte) (w : Writer) : (sinkTake b w).cW = w.cW := rfl
@[simp] theorem sinkTake_cFree (b : Byte) (w : Writer) : (sinkTake b w).cFree = w.cFree := rfl
@[simp] theorem sinkTake_cPrefix (b : Byte) (w : Writer) : (sinkTake b w).cPrefix = w.cPrefix := rfl
@[simp] theorem sinkTake_cDict (b : Byte) (w : Writer) : (sinkTake b w).cDict = w.cDict := rfl
@[simp] theorem sinkTake_pAcc (b : Byte) (w : Writer) : (sinkTake b w).pAcc = w.pAcc := rfl
@[simp] theorem sinkTake_pCnt (b : Byte) (w : Writer) : (sinkTake b w).pCnt = w.pCnt := rfl
@[simp] theorem sinkTake_pBuf (b : Byte) (w : Writer) : (sinkTake b w).pBuf = w.pBuf := rfl
@[simp] theorem sinkTake_din (b : Byte) (w : Writer) : (sinkTake b w).din = w.din := rfl
@[simp] theorem sinkTake_sinkAnswers (b : Byte) (w : Writer) : (sinkTake b w).sinkAnswers = w.sinkAnswers := rfl
@[simp] theorem sinkTake_sout (b : Byte) (w : Writer) : (sinkTake b w).sout = w.sout ++ [b] := rfl
@[simp] theorem sinkTake_draws (b : Byte) (w : Writer) : (sinkTake b w).draws = w.draws := rfl

/-! ### sinkRefuse (R67) -/
@[simp] theorem sinkRefuse_state (b : Byte) (w : Writer) : (sinkRefuse b w).state = w.state := rfl
@[simp] theorem sinkRefuse_err (b : Byte) (w : Writer) : (sinkRefuse b w).err = w.err := rfl
@[simp] theorem sinkRefuse_version (b : Byte) (w : Writer) : (sinkRefuse b w).version = w.version := rfl
@[simp] theorem sinkRefuse_gctBpp (b : Byte) (w : Writer) : (sinkRefuse b w).gctBpp = w.gctBpp := rfl
@[simp] theorem sinkRefuse_imgW (b : Byte) (w : Writer) : (sinkRefuse b w).imgW = w.imgW := rfl
@[simp] theorem sinkRefuse_imgH (b : Byte) (w : Writer) : (sinkRefuse b w).imgH = w.imgH := rfl
@[simp] theorem sinkRefuse_imgPacked (b : Byte) (w : Writer) : (sinkRefuse b w).imgPacked = w.imgPacked := rfl
@[simp] theorem sinkRefuse_bpp (b : Byte) (w : Writer) : (sinkRefuse b w).bpp = w.bpp := rfl
@[simp] theorem sinkRefuse_codeSize (b : Byte) (w : Writer) : (sinkRefuse b w).codeSize = w.codeSize := rfl
@[simp] theorem sinkRefuse_pixRemain (b : Byte) (w : Writer) : (sinkRefuse b w).pixRemain = w.pixRemain := rfl
@[simp] theorem sinkRefuse_rows (b : Byte) (w : Writer) : (sinkRefuse b w).rows = w.rows := rfl
@[simp] theorem sinkRefuse_cB (b : Byte) (w : Writer) : (sinkRefuse b w).cB = w.cB := rfl
@[simp] theorem sinkRefuse_cClear (b : Byte) (w : Writer) : (sinkRefuse b w).cClear = w.cClear := rfl
@[simp] theorem sinkRefuse_cEof (b : Byte) (w : Writer) : (sinkRefuse b w).cEof = w.cEof := rfl
@[simp] theorem sinkRefuse_cFirst (b : Byte) (w : Writer) : (sinkRefuse b w).cFirst = w.cFirst := rfl
@[simp] theorem sinkRefuse_cW (b : Byte) (w : Writer) : (sinkRefuse b w).cW = w.cW := rfl
@[simp] theorem sinkRefuse_cFree (b : Byte) (w : Writer) : (sinkRefuse b w).cFree = w.cFree := rfl
@[simp] theorem sinkRefuse_cPrefix (b : Byte) (w : Writer) : (sinkRefuse b w).cPrefix = w.cPrefix := rfl
@[simp] theorem sinkRefuse_cDict (b : Byte) (w : Writer) : (sinkRefuse b w).cDict = w.cDict := rfl
@[simp] theorem sinkRefuse_pAcc (b : Byte) (w : Writer) : (sinkRefuse b w).pAcc = w.pAcc := rfl
@[simp] theorem sinkRefuse_pCnt (b : Byte) (w : Writer) : (sinkRefuse b w).pCnt = w.pCnt := rfl
@[simp] theorem sinkRefuse_pBuf (b : Byte) (w : Writer) : (sinkRefuse b w).pBuf = w.pBuf := rfl
@[simp] theorem sinkRefuse_din (b : Byte) (w : Writer) : (sinkRefuse b w).din = w.din := rfl
@[simp] theorem sinkRefuse_sinkAnswers (b : Byte) (w : Writer) : (sinkRefuse b w).sinkAnswers = w.sinkAnswers := rfl
@[simp] theorem sinkRefuse_sout (b : Byte) (w : Writer) :
    (sinkRefuse b w).sout = if Config.refusedByteLanded w.draws then w.sout ++ [b] else w.sout := rfl
@[simp] theorem sinkRefuse_draws (b : Byte) (w : Writer) : (sinkRefuse b w).draws = w.draws + 1 := rfl

/-! ### dinDrop (R68) -/
@[simp] theorem dinDrop_state (n : Nat) (w : Writer) : (dinDrop n w).state = w.state := rfl
@[simp] theorem dinDrop_err (n : Nat) (w : Writer) : (dinDrop n w).err = w.err := rfl
@[simp] theorem dinDrop_version (n : Nat) (w : Writer) : (dinDrop n w).version = w.version := rfl
@[simp] theorem dinDrop_gctBpp (n : Nat) (w : Writer) : (dinDrop n w).gctBpp = w.gctBpp := rfl
@[simp] theorem dinDrop_imgW (n : Nat) (w : Writer) : (dinDrop n w).imgW = w.imgW := rfl
@[simp] theorem dinDrop_imgH (n : Nat) (w : Writer) : (dinDrop n w).imgH = w.imgH := rfl
@[simp] theorem dinDrop_imgPacked (n : Nat) (w : Writer) : (dinDrop n w).imgPacked = w.imgPacked := rfl
@[simp] theorem dinDrop_bpp (n : Nat) (w : Writer) : (dinDrop n w).bpp = w.bpp := rfl
@[simp] theorem dinDrop_codeSize (n : Nat) (w : Writer) : (dinDrop n w).codeSize = w.codeSize := rfl
@[simp] theorem dinDrop_pixRemain (n : Nat) (w : Writer) : (dinDrop n w).pixRemain = w.pixRemain := rfl
@[simp] theorem dinDrop_rows (n : Nat) (w : Writer) : (dinDrop n w).rows = w.rows := rfl
@[simp] theorem dinDrop_cB (n : Nat) (w : Writer) : (dinDrop n w).cB = w.cB := rfl
@[simp] theorem dinDrop_cClear (n : Nat) (w : Writer) : (dinDrop n w).cClear = w.cClear := rfl
@[simp] theorem dinDrop_cEof (n : Nat) (w : Writer) : (dinDrop n w).cEof = w.cEof := rfl
@[simp] theorem dinDrop_cFirst (n : Nat) (w : Writer) : (dinDrop n w).cFirst = w.cFirst := rfl
@[simp] theorem dinDrop_cW (n : Nat) (w : Writer) : (dinDrop n w).cW = w.cW := rfl
@[simp] theorem dinDrop_cFree (n : Nat) (w : Writer) : (dinDrop n w).cFree = w.cFree := rfl
@[simp] theorem dinDrop_cPrefix (n : Nat) (w : Writer) : (dinDrop n w).cPrefix = w.cPrefix := rfl
@[simp] theorem dinDrop_cDict (n : Nat) (w : Writer) : (dinDrop n w).cDict = w.cDict := rfl
@[simp] theorem dinDrop_pAcc (n : Nat) (w : Writer) : (dinDrop n w).pAcc = w.pAcc := rfl
@[simp] theorem dinDrop_pCnt (n : Nat) (w : Writer) : (dinDrop n w).pCnt = w.pCnt := rfl
@[simp] theorem dinDrop_pBuf (n : Nat) (w : Writer) : (dinDrop n w).pBuf = w.pBuf := rfl
@[simp] theorem dinDrop_din (n : Nat) (w : Writer) : (dinDrop n w).din = w.din.drop n := rfl
@[simp] theorem dinDrop_sinkAnswers (n : Nat) (w : Writer) : (dinDrop n w).sinkAnswers = w.sinkAnswers := rfl
@[simp] theorem dinDrop_sout (n : Nat) (w : Writer) : (dinDrop n w).sout = w.sout := rfl
@[simp] theorem dinDrop_draws (n : Nat) (w : Writer) : (dinDrop n w).draws = w.draws := rfl

/-! ### setScreen (R153) -/
@[simp] theorem setScreen_state (d : List Byte) (r : Reader) : (setScreen d r).state = r.state := rfl
@[simp] theorem setScreen_err (d : List Byte) (r : Reader) : (setScreen d r).err = r.err := rfl
@[simp] theorem setScreen_version (d : List Byte) (r : Reader) : (setScreen d r).version = r.version := rfl
@[simp] theorem setScreen_scrW (d : List Byte) (r : Reader) : (setScreen d r).scrW = u16At d 0 := rfl
@[simp] theorem setScreen_scrH (d : List Byte) (r : Reader) : (setScreen d r).scrH = u16At d 2 := rfl
@[simp] theorem setScreen_scrPacked (d : List Byte) (r : Reader) : (setScreen d r).scrPacked = byteOf d 4 := rfl
@[simp] theorem setScreen_bg (d : List Byte) (r : Reader) : (setScreen d r).bg = byteOf d 5 := rfl
@[simp] theorem setScreen_aspect (d : List Byte) (r : Reader) : (setScreen d r).aspect = byteOf d 6 := rfl
@[simp] theorem setScreen_recType (d : List Byte) (r : Reader) : (setScreen d r).recType = r.recType := rfl
@[simp] theorem setScreen_extCode (d : List Byte) (r : Reader) : (setScreen d r).extCode = r.extCode := rfl
@[simp] theorem setScreen_subLen (d : List Byte) (r : Reader) : (setScreen d r).subLen = r.subLen := rfl
@[simp] theorem setScreen_imgLeft (d : List Byte) (r : Reader) : (setScreen d r).imgLeft = r.imgLeft := rfl
@[simp] theorem setScreen_imgTop (d : List Byte) (r : Reader) : (setScreen d r).imgTop = r.imgTop := rfl
@[simp] theorem setScreen_imgW (d : List Byte) (r : Reader) : (setScreen d r).imgW = r.imgW := rfl
@[simp] theorem setScreen_imgH (d : List Byte) (r : Reader) : (setScreen d r).imgH = r.imgH := rfl
@[simp] theorem setScreen_imgPacked (d : List Byte) (r : Reader) : (setScreen d r).imgPacked = r.imgPacked := rfl
@[simp] theorem setScreen_codeSize (d : List Byte) (r : Reader) : (setScreen d r).codeSize = r.codeSize := rfl
@[simp] theorem setScreen_pixRemain (d : List Byte) (r : Reader) : (setScreen d r).pixRemain = r.pixRemain := rfl
@[simp] theorem setScreen_rows (d : List Byte) (r : Reader) : (setScreen d r).rows = r.rows := rfl
@[simp] theorem setScreen_dB (d : List Byte) (r : Reader) : (setScreen d r).dB = r.dB := rfl
@[simp] theorem setScreen_dClear (d : List Byte) (r : Reader) : (setScreen d r).dClear = r.dClear := rfl
@[simp] theorem setScreen_dEof (d : List Byte) (r : Reader) : (setScreen d r).dEof = r.dEof := rfl
@[simp] theorem setScreen_dFirst (d : List Byte) (r : Reader) : (setScreen d r).dFirst = r.dFirst := rfl
@[simp] theorem setScreen_dW (d : List Byte) (r : Reader) : (setScreen d r).dW = r.dW := rfl
@[simp] theorem setScreen_dFree (d : List Byte) (r : Reader) : (setScreen d r).dFree = r.dFree := rfl
@[simp] theorem setScreen_dPrev (d : List Byte) (r : Reader) : (setScreen d r).dPrev = r.dPrev := rfl
@[simp] theorem setScreen_dDict (d : List Byte) (r : Reader) : (setScreen d r).dDict = r.dDict := rfl
@[simp] theorem setScreen_dPend (d : List Byte) (r : Reader) : (setScreen d r).dPend = r.dPend := rfl
@[simp] theorem setScreen_dDone (d : List Byte) (r : Reader) : (setScreen d r).dDone = r.dDone := rfl
@[simp] theorem setScreen_uAcc (d : List Byte) (r : Reader) : (setScreen d r).uAcc = r.uAcc := rfl
@[simp] theorem setScreen_uCnt (d : List Byte) (r : Reader) : (setScreen d r).uCnt = r.uCnt := rfl
@[simp] theorem setScreen_uLeft (d : List Byte) (r : Reader) : (setScreen d r).uLeft = r.uLeft := rfl
@[simp] theorem setScreen_uEnd (d : List Byte) (r : Reader) : (setScreen d r).uEnd = r.uEnd := rfl
@[simp] theorem setScreen_dout (d : List Byte) (r : Reader) : (setScreen d r).dout = r.dout := rfl
@[simp] theorem setScreen_sin (d : List Byte) (r : Reader) : (setScreen d r).sin = r.sin := rfl
@[simp] theorem setScreen_sinRead (d : List Byte) (r : Reader) : (setScreen d r).sinRead = r.sinRead := rfl

/-! ### setDescriptor (R161) -/
@[simp] theorem setDescriptor_state (d : List Byte) (r : Reader) : (setDescriptor d r).state = r.state := rfl
@[simp] theorem setDescriptor_err (d : List Byte) (r : Reader) : (setDescriptor d r).err = r.err := rfl
@[simp] theorem setDescriptor_version (d : List Byte) (r : Reader) : (setDescriptor d r).version = r.version := rfl
@[simp] theorem setDescriptor_scrW (d : List Byte) (r : Reader) : (setDescriptor d r).scrW = r.scrW := rfl
@[simp] theorem setDescriptor_scrH (d : List Byte) (r : Reader) : (setDescriptor d r).scrH = r.scrH := rfl
@[simp] theorem setDescriptor_scrPacked (d : List Byte) (r : Reader) :
    (setDescriptor d r).scrPacked = r.scrPacked := rfl
@[simp] theorem setDescriptor_bg (d : List Byte) (r : Reader) : (setDescriptor d r).bg = r.bg := rfl
@[simp] theorem setDescriptor_aspect (d : List Byte) (r : Reader) : (setDescriptor d r).aspect = r.aspect := rfl
@[simp] theorem setDescriptor_recType (d : List Byte) (r : Reader) : (setDescriptor d r).recType = r.recType := rfl
@[simp] theorem setDescriptor_extCode (d : List Byte) (r : Reader) : (setDescriptor d r).extCode = r.extCode := rfl
@[simp] theorem setDescriptor_subLen (d : List Byte) (r : Reader) : (setDescriptor d r).subLen = r.subLen := rfl
@[simp] theorem setDescriptor_imgLeft (d : List Byte) (r : Reader) : (setDescriptor d r).imgLeft = u16At d 0 := rfl
@[simp] theorem setDescriptor_imgTop (d : List Byte) (r : Reader) : (setDescriptor d r).imgTop = u16At d 2 := rfl
@[simp] theorem setDescriptor_imgW (d : List Byte) (r : Reader) : (setDescriptor d r).imgW = u16At d 4 := rfl
@[simp] theorem setDescriptor_imgH (d : List Byte) (r : Reader) : (setDescriptor d r).imgH = u16At d 6 := rfl
@[simp] theorem setDescriptor_imgPacked (d : List Byte) (r : Reader) : (setDescriptor d r).imgPacked = byteOf d 8 := rfl
@[simp] theorem setDescriptor_codeSize (d : List Byte) (r : Reader) : (setDescriptor d r).codeSize = r.codeSize := rfl
@[simp] theorem setDescriptor_pixRemain (d : List Byte) (r : Reader) :
    (setDescriptor d r).pixRemain = r.pixRemain := rfl
@[simp] theorem setDescriptor_rows (d : List Byte) (r : Reader) : (setDescriptor d r).rows = r.rows := rfl
@[simp] theorem setDescriptor_dB (d : List Byte) (r : Reader) : (setDescriptor d r).dB = r.dB := rfl
@[simp] theorem setDescriptor_dClear (d : List Byte) (r : Reader) : (setDescriptor d r).dClear = r.dClear := rfl
@[simp] theorem setDescriptor_dEof (d : List Byte) (r : Reader) : (setDescriptor d r).dEof = r.dEof := rfl
@[simp] theorem setDescriptor_dFirst (d : List Byte) (r : Reader) : (setDescriptor d r).dFirst = r.dFirst := rfl
@[simp] theorem setDescriptor_dW (d : List Byte) (r : Reader) : (setDescriptor d r).dW = r.dW := rfl
@[simp] theorem setDescriptor_dFree (d : List Byte) (r : Reader) : (setDescriptor d r).dFree = r.dFree := rfl
@[simp] theorem setDescriptor_dPrev (d : List Byte) (r : Reader) : (setDescriptor d r).dPrev = r.dPrev := rfl
@[simp] theorem setDescriptor_dDict (d : List Byte) (r : Reader) : (setDescriptor d r).dDict = r.dDict := rfl
@[simp] theorem setDescriptor_dPend (d : List Byte) (r : Reader) : (setDescriptor d r).dPend = r.dPend := rfl
@[simp] theorem setDescriptor_dDone (d : List Byte) (r : Reader) : (setDescriptor d r).dDone = r.dDone := rfl
@[simp] theorem setDescriptor_uAcc (d : List Byte) (r : Reader) : (setDescriptor d r).uAcc = r.uAcc := rfl
@[simp] theorem setDescriptor_uCnt (d : List Byte) (r : Reader) : (setDescriptor d r).uCnt = r.uCnt := rfl
@[simp] theorem setDescriptor_uLeft (d : List Byte) (r : Reader) : (setDescriptor d r).uLeft = r.uLeft := rfl
@[simp] theorem setDescriptor_uEnd (d : List Byte) (r : Reader) : (setDescriptor d r).uEnd = r.uEnd := rfl
@[simp] theorem setDescriptor_dout (d : List Byte) (r : Reader) : (setDescriptor d r).dout = r.dout := rfl
@[simp] theorem setDescriptor_sin (d : List Byte) (r : Reader) : (setDescriptor d r).sin = r.sin := rfl
@[simp] theorem setDescriptor_sinRead (d : List Byte) (r : Reader) : (setDescriptor d r).sinRead = r.sinRead := rfl

/-! ### setImage (R175, R176) -/
@[simp] theorem setImage_state (d : List Byte) (bpp : BitVec 4) (w : Writer) : (setImage d bpp w).state = w.state := rfl
@[simp] theorem setImage_err (d : List Byte) (bpp : BitVec 4) (w : Writer) : (setImage d bpp w).err = w.err := rfl
@[simp] theorem setImage_version (d : List Byte) (bpp : BitVec 4) (w : Writer) :
    (setImage d bpp w).version = w.version := rfl
@[simp] theorem setImage_gctBpp (d : List Byte) (bpp : BitVec 4) (w : Writer) :
    (setImage d bpp w).gctBpp = w.gctBpp := rfl
@[simp] theorem setImage_imgW (d : List Byte) (bpp : BitVec 4) (w : Writer) : (setImage d bpp w).imgW = u16At d 4 := rfl
@[simp] theorem setImage_imgH (d : List Byte) (bpp : BitVec 4) (w : Writer) : (setImage d bpp w).imgH = u16At d 6 := rfl
@[simp] theorem setImage_imgPacked (d : List Byte) (bpp : BitVec 4) (w : Writer) :
    (setImage d bpp w).imgPacked = clearReserved (byteOf d 8) := rfl
@[simp] theorem setImage_bpp (d : List Byte) (bpp : BitVec 4) (w : Writer) : (setImage d bpp w).bpp = bpp := rfl
@[simp] theorem setImage_codeSize (d : List Byte) (bpp : BitVec 4) (w : Writer) :
    (setImage d bpp w).codeSize = w.codeSize := rfl
@[simp] theorem setImage_pixRemain (d : List Byte) (bpp : BitVec 4) (w : Writer) :
    (setImage d bpp w).pixRemain = w.pixRemain := rfl
@[simp] theorem setImage_rows (d : List Byte) (bpp : BitVec 4) (w : Writer) : (setImage d bpp w).rows = w.rows := rfl
@[simp] theorem setImage_cB (d : List Byte) (bpp : BitVec 4) (w : Writer) : (setImage d bpp w).cB = w.cB := rfl
@[simp] theorem setImage_cClear (d : List Byte) (bpp : BitVec 4) (w : Writer) :
    (setImage d bpp w).cClear = w.cClear := rfl
@[simp] theorem setImage_cEof (d : List Byte) (bpp : BitVec 4) (w : Writer) : (setImage d bpp w).cEof = w.cEof := rfl
@[simp] theorem setImage_cFirst (d : List Byte) (bpp : BitVec 4) (w : Writer) :
    (setImage d bpp w).cFirst = w.cFirst := rfl
@[simp] theorem setImage_cW (d : List Byte) (bpp : BitVec 4) (w : Writer) : (setImage d bpp w).cW = w.cW := rfl
@[simp] theorem setImage_cFree (d : List Byte) (bpp : BitVec 4) (w : Writer) : (setImage d bpp w).cFree = w.cFree := rfl
@[simp] theorem setImage_cPrefix (d : List Byte) (bpp : BitVec 4) (w : Writer) :
    (setImage d bpp w).cPrefix = w.cPrefix := rfl
@[simp] theorem setImage_cDict (d : List Byte) (bpp : BitVec 4) (w : Writer) : (setImage d bpp w).cDict = w.cDict := rfl
@[simp] theorem setImage_pAcc (d : List Byte) (bpp : BitVec 4) (w : Writer) : (setImage d bpp w).pAcc = w.pAcc := rfl
@[simp] theorem setImage_pCnt (d : List Byte) (bpp : BitVec 4) (w : Writer) : (setImage d bpp w).pCnt = w.pCnt := rfl
@[simp] theorem setImage_pBuf (d : List Byte) (bpp : BitVec 4) (w : Writer) : (setImage d bpp w).pBuf = w.pBuf := rfl
@[simp] theorem setImage_din (d : List Byte) (bpp : BitVec 4) (w : Writer) : (setImage d bpp w).din = w.din := rfl
@[simp] theorem setImage_sinkAnswers (d : List Byte) (bpp : BitVec 4) (w : Writer) :
    (setImage d bpp w).sinkAnswers = w.sinkAnswers := rfl
@[simp] theorem setImage_sout (d : List Byte) (bpp : BitVec 4) (w : Writer) : (setImage d bpp w).sout = w.sout := rfl
@[simp] theorem setImage_draws (d : List Byte) (bpp : BitVec 4) (w : Writer) : (setImage d bpp w).draws = w.draws := rfl

/-! ### startPacker (R117) -/
@[simp] theorem startPacker_state (w : Writer) : (startPacker w).state = w.state := rfl
@[simp] theorem startPacker_err (w : Writer) : (startPacker w).err = w.err := rfl
@[simp] theorem startPacker_version (w : Writer) : (startPacker w).version = w.version := rfl
@[simp] theorem startPacker_gctBpp (w : Writer) : (startPacker w).gctBpp = w.gctBpp := rfl
@[simp] theorem startPacker_imgW (w : Writer) : (startPacker w).imgW = w.imgW := rfl
@[simp] theorem startPacker_imgH (w : Writer) : (startPacker w).imgH = w.imgH := rfl
@[simp] theorem startPacker_imgPacked (w : Writer) : (startPacker w).imgPacked = w.imgPacked := rfl
@[simp] theorem startPacker_bpp (w : Writer) : (startPacker w).bpp = w.bpp := rfl
@[simp] theorem startPacker_codeSize (w : Writer) : (startPacker w).codeSize = w.codeSize := rfl
@[simp] theorem startPacker_pixRemain (w : Writer) : (startPacker w).pixRemain = w.pixRemain := rfl
@[simp] theorem startPacker_rows (w : Writer) : (startPacker w).rows = w.rows := rfl
@[simp] theorem startPacker_cB (w : Writer) : (startPacker w).cB = w.cB := rfl
@[simp] theorem startPacker_cClear (w : Writer) : (startPacker w).cClear = w.cClear := rfl
@[simp] theorem startPacker_cEof (w : Writer) : (startPacker w).cEof = w.cEof := rfl
@[simp] theorem startPacker_cFirst (w : Writer) : (startPacker w).cFirst = w.cFirst := rfl
@[simp] theorem startPacker_cW (w : Writer) : (startPacker w).cW = w.cW := rfl
@[simp] theorem startPacker_cFree (w : Writer) : (startPacker w).cFree = w.cFree := rfl
@[simp] theorem startPacker_cPrefix (w : Writer) : (startPacker w).cPrefix = w.cPrefix := rfl
@[simp] theorem startPacker_cDict (w : Writer) : (startPacker w).cDict = w.cDict := rfl
@[simp] theorem startPacker_pAcc (w : Writer) : (startPacker w).pAcc = 0#19 := rfl
@[simp] theorem startPacker_pCnt (w : Writer) : (startPacker w).pCnt = 0 := rfl
@[simp] theorem startPacker_pBuf (w : Writer) : (startPacker w).pBuf = [] := rfl
@[simp] theorem startPacker_din (w : Writer) : (startPacker w).din = w.din := rfl
@[simp] theorem startPacker_sinkAnswers (w : Writer) : (startPacker w).sinkAnswers = w.sinkAnswers := rfl
@[simp] theorem startPacker_sout (w : Writer) : (startPacker w).sout = w.sout := rfl
@[simp] theorem startPacker_draws (w : Writer) : (startPacker w).draws = w.draws := rfl

/-! ### startUnpacker (R119) -/
@[simp] theorem startUnpacker_state (r : Reader) : (startUnpacker r).state = r.state := rfl
@[simp] theorem startUnpacker_err (r : Reader) : (startUnpacker r).err = r.err := rfl
@[simp] theorem startUnpacker_version (r : Reader) : (startUnpacker r).version = r.version := rfl
@[simp] theorem startUnpacker_scrW (r : Reader) : (startUnpacker r).scrW = r.scrW := rfl
@[simp] theorem startUnpacker_scrH (r : Reader) : (startUnpacker r).scrH = r.scrH := rfl
@[simp] theorem startUnpacker_scrPacked (r : Reader) : (startUnpacker r).scrPacked = r.scrPacked := rfl
@[simp] theorem startUnpacker_bg (r : Reader) : (startUnpacker r).bg = r.bg := rfl
@[simp] theorem startUnpacker_aspect (r : Reader) : (startUnpacker r).aspect = r.aspect := rfl
@[simp] theorem startUnpacker_recType (r : Reader) : (startUnpacker r).recType = r.recType := rfl
@[simp] theorem startUnpacker_extCode (r : Reader) : (startUnpacker r).extCode = r.extCode := rfl
@[simp] theorem startUnpacker_subLen (r : Reader) : (startUnpacker r).subLen = r.subLen := rfl
@[simp] theorem startUnpacker_imgLeft (r : Reader) : (startUnpacker r).imgLeft = r.imgLeft := rfl
@[simp] theorem startUnpacker_imgTop (r : Reader) : (startUnpacker r).imgTop = r.imgTop := rfl
@[simp] theorem startUnpacker_imgW (r : Reader) : (startUnpacker r).imgW = r.imgW := rfl
@[simp] theorem startUnpacker_imgH (r : Reader) : (startUnpacker r).imgH = r.imgH := rfl
@[simp] theorem startUnpacker_imgPacked (r : Reader) : (startUnpacker r).imgPacked = r.imgPacked := rfl
@[simp] theorem startUnpacker_codeSize (r : Reader) : (startUnpacker r).codeSize = r.codeSize := rfl
@[simp] theorem startUnpacker_pixRemain (r : Reader) : (startUnpacker r).pixRemain = r.pixRemain := rfl
@[simp] theorem startUnpacker_rows (r : Reader) : (startUnpacker r).rows = r.rows := rfl
@[simp] theorem startUnpacker_dB (r : Reader) : (startUnpacker r).dB = r.dB := rfl
@[simp] theorem startUnpacker_dClear (r : Reader) : (startUnpacker r).dClear = r.dClear := rfl
@[simp] theorem startUnpacker_dEof (r : Reader) : (startUnpacker r).dEof = r.dEof := rfl
@[simp] theorem startUnpacker_dFirst (r : Reader) : (startUnpacker r).dFirst = r.dFirst := rfl
@[simp] theorem startUnpacker_dW (r : Reader) : (startUnpacker r).dW = r.dW := rfl
@[simp] theorem startUnpacker_dFree (r : Reader) : (startUnpacker r).dFree = r.dFree := rfl
@[simp] theorem startUnpacker_dPrev (r : Reader) : (startUnpacker r).dPrev = r.dPrev := rfl
@[simp] theorem startUnpacker_dDict (r : Reader) : (startUnpacker r).dDict = r.dDict := rfl
@[simp] theorem startUnpacker_dPend (r : Reader) : (startUnpacker r).dPend = r.dPend := rfl
@[simp] theorem startUnpacker_dDone (r : Reader) : (startUnpacker r).dDone = r.dDone := rfl
@[simp] theorem startUnpacker_uAcc (r : Reader) : (startUnpacker r).uAcc = 0#19 := rfl
@[simp] theorem startUnpacker_uCnt (r : Reader) : (startUnpacker r).uCnt = 0 := rfl
@[simp] theorem startUnpacker_uLeft (r : Reader) : (startUnpacker r).uLeft = 0#8 := rfl
@[simp] theorem startUnpacker_uEnd (r : Reader) : (startUnpacker r).uEnd = false := rfl
@[simp] theorem startUnpacker_dout (r : Reader) : (startUnpacker r).dout = r.dout := rfl
@[simp] theorem startUnpacker_sin (r : Reader) : (startUnpacker r).sin = r.sin := rfl
@[simp] theorem startUnpacker_sinRead (r : Reader) : (startUnpacker r).sinRead = r.sinRead := rfl

/-! ### resetDict (R128) -/
@[simp] theorem resetDict_state (w : Writer) : (resetDict w).state = w.state := rfl
@[simp] theorem resetDict_err (w : Writer) : (resetDict w).err = w.err := rfl
@[simp] theorem resetDict_version (w : Writer) : (resetDict w).version = w.version := rfl
@[simp] theorem resetDict_gctBpp (w : Writer) : (resetDict w).gctBpp = w.gctBpp := rfl
@[simp] theorem resetDict_imgW (w : Writer) : (resetDict w).imgW = w.imgW := rfl
@[simp] theorem resetDict_imgH (w : Writer) : (resetDict w).imgH = w.imgH := rfl
@[simp] theorem resetDict_imgPacked (w : Writer) : (resetDict w).imgPacked = w.imgPacked := rfl
@[simp] theorem resetDict_bpp (w : Writer) : (resetDict w).bpp = w.bpp := rfl
@[simp] theorem resetDict_codeSize (w : Writer) : (resetDict w).codeSize = w.codeSize := rfl
@[simp] theorem resetDict_pixRemain (w : Writer) : (resetDict w).pixRemain = w.pixRemain := rfl
@[simp] theorem resetDict_rows (w : Writer) : (resetDict w).rows = w.rows := rfl
@[simp] theorem resetDict_cB (w : Writer) : (resetDict w).cB = w.cB := rfl
@[simp] theorem resetDict_cClear (w : Writer) : (resetDict w).cClear = w.cClear := rfl
@[simp] theorem resetDict_cEof (w : Writer) : (resetDict w).cEof = w.cEof := rfl
@[simp] theorem resetDict_cFirst (w : Writer) : (resetDict w).cFirst = w.cFirst := rfl
@[simp] theorem resetDict_cW (w : Writer) : (resetDict w).cW = w.cB + 1#4 := rfl
@[simp] theorem resetDict_cFree (w : Writer) : (resetDict w).cFree = w.cFirst := rfl
@[simp] theorem resetDict_cPrefix (w : Writer) : (resetDict w).cPrefix = w.cPrefix := rfl
@[simp] theorem resetDict_cDict (w : Writer) : (resetDict w).cDict = [] := rfl
@[simp] theorem resetDict_pAcc (w : Writer) : (resetDict w).pAcc = w.pAcc := rfl
@[simp] theorem resetDict_pCnt (w : Writer) : (resetDict w).pCnt = w.pCnt := rfl
@[simp] theorem resetDict_pBuf (w : Writer) : (resetDict w).pBuf = w.pBuf := rfl
@[simp] theorem resetDict_din (w : Writer) : (resetDict w).din = w.din := rfl
@[simp] theorem resetDict_sinkAnswers (w : Writer) : (resetDict w).sinkAnswers = w.sinkAnswers := rfl
@[simp] theorem resetDict_sout (w : Writer) : (resetDict w).sout = w.sout := rfl
@[simp] theorem resetDict_draws (w : Writer) : (resetDict w).draws = w.draws := rfl

/-! ### resetDecoder (R144) -/
@[simp] theorem resetDecoder_state (r : Reader) : (resetDecoder r).state = r.state := rfl
@[simp] theorem resetDecoder_err (r : Reader) : (resetDecoder r).err = r.err := rfl
@[simp] theorem resetDecoder_version (r : Reader) : (resetDecoder r).version = r.version := rfl
@[simp] theorem resetDecoder_scrW (r : Reader) : (resetDecoder r).scrW = r.scrW := rfl
@[simp] theorem resetDecoder_scrH (r : Reader) : (resetDecoder r).scrH = r.scrH := rfl
@[simp] theorem resetDecoder_scrPacked (r : Reader) : (resetDecoder r).scrPacked = r.scrPacked := rfl
@[simp] theorem resetDecoder_bg (r : Reader) : (resetDecoder r).bg = r.bg := rfl
@[simp] theorem resetDecoder_aspect (r : Reader) : (resetDecoder r).aspect = r.aspect := rfl
@[simp] theorem resetDecoder_recType (r : Reader) : (resetDecoder r).recType = r.recType := rfl
@[simp] theorem resetDecoder_extCode (r : Reader) : (resetDecoder r).extCode = r.extCode := rfl
@[simp] theorem resetDecoder_subLen (r : Reader) : (resetDecoder r).subLen = r.subLen := rfl
@[simp] theorem resetDecoder_imgLeft (r : Reader) : (resetDecoder r).imgLeft = r.imgLeft := rfl
@[simp] theorem resetDecoder_imgTop (r : Reader) : (resetDecoder r).imgTop = r.imgTop := rfl
@[simp] theorem resetDecoder_imgW (r : Reader) : (resetDecoder r).imgW = r.imgW := rfl
@[simp] theorem resetDecoder_imgH (r : Reader) : (resetDecoder r).imgH = r.imgH := rfl
@[simp] theorem resetDecoder_imgPacked (r : Reader) : (resetDecoder r).imgPacked = r.imgPacked := rfl
@[simp] theorem resetDecoder_codeSize (r : Reader) : (resetDecoder r).codeSize = r.codeSize := rfl
@[simp] theorem resetDecoder_pixRemain (r : Reader) : (resetDecoder r).pixRemain = r.pixRemain := rfl
@[simp] theorem resetDecoder_rows (r : Reader) : (resetDecoder r).rows = r.rows := rfl
@[simp] theorem resetDecoder_dB (r : Reader) : (resetDecoder r).dB = r.dB := rfl
@[simp] theorem resetDecoder_dClear (r : Reader) : (resetDecoder r).dClear = r.dClear := rfl
@[simp] theorem resetDecoder_dEof (r : Reader) : (resetDecoder r).dEof = r.dEof := rfl
@[simp] theorem resetDecoder_dFirst (r : Reader) : (resetDecoder r).dFirst = r.dFirst := rfl
@[simp] theorem resetDecoder_dW (r : Reader) : (resetDecoder r).dW = r.dB + 1#4 := rfl
@[simp] theorem resetDecoder_dFree (r : Reader) : (resetDecoder r).dFree = r.dFirst := rfl
@[simp] theorem resetDecoder_dPrev (r : Reader) : (resetDecoder r).dPrev = none := rfl
@[simp] theorem resetDecoder_dDict (r : Reader) : (resetDecoder r).dDict = [] := rfl
@[simp] theorem resetDecoder_dPend (r : Reader) : (resetDecoder r).dPend = r.dPend := rfl
@[simp] theorem resetDecoder_dDone (r : Reader) : (resetDecoder r).dDone = r.dDone := rfl
@[simp] theorem resetDecoder_uAcc (r : Reader) : (resetDecoder r).uAcc = r.uAcc := rfl
@[simp] theorem resetDecoder_uCnt (r : Reader) : (resetDecoder r).uCnt = r.uCnt := rfl
@[simp] theorem resetDecoder_uLeft (r : Reader) : (resetDecoder r).uLeft = r.uLeft := rfl
@[simp] theorem resetDecoder_uEnd (r : Reader) : (resetDecoder r).uEnd = r.uEnd := rfl
@[simp] theorem resetDecoder_dout (r : Reader) : (resetDecoder r).dout = r.dout := rfl
@[simp] theorem resetDecoder_sin (r : Reader) : (resetDecoder r).sin = r.sin := rfl
@[simp] theorem resetDecoder_sinRead (r : Reader) : (resetDecoder r).sinRead = r.sinRead := rfl

/-! ### acceptString (R140) -/
@[simp] theorem acceptString_state (c : Nat) (p : List Byte) (r : Reader) : (acceptString c p r).state = r.state := rfl
@[simp] theorem acceptString_err (c : Nat) (p : List Byte) (r : Reader) : (acceptString c p r).err = r.err := rfl
@[simp] theorem acceptString_version (c : Nat) (p : List Byte) (r : Reader) :
    (acceptString c p r).version = r.version := rfl
@[simp] theorem acceptString_scrW (c : Nat) (p : List Byte) (r : Reader) : (acceptString c p r).scrW = r.scrW := rfl
@[simp] theorem acceptString_scrH (c : Nat) (p : List Byte) (r : Reader) : (acceptString c p r).scrH = r.scrH := rfl
@[simp] theorem acceptString_scrPacked (c : Nat) (p : List Byte) (r : Reader) :
    (acceptString c p r).scrPacked = r.scrPacked := rfl
@[simp] theorem acceptString_bg (c : Nat) (p : List Byte) (r : Reader) : (acceptString c p r).bg = r.bg := rfl
@[simp] theorem acceptString_aspect (c : Nat) (p : List Byte) (r : Reader) :
    (acceptString c p r).aspect = r.aspect := rfl
@[simp] theorem acceptString_recType (c : Nat) (p : List Byte) (r : Reader) :
    (acceptString c p r).recType = r.recType := rfl
@[simp] theorem acceptString_extCode (c : Nat) (p : List Byte) (r : Reader) :
    (acceptString c p r).extCode = r.extCode := rfl
@[simp] theorem acceptString_subLen (c : Nat) (p : List Byte) (r : Reader) :
    (acceptString c p r).subLen = r.subLen := rfl
@[simp] theorem acceptString_imgLeft (c : Nat) (p : List Byte) (r : Reader) :
    (acceptString c p r).imgLeft = r.imgLeft := rfl
@[simp] theorem acceptString_imgTop (c : Nat) (p : List Byte) (r : Reader) :
    (acceptString c p r).imgTop = r.imgTop := rfl
@[simp] theorem acceptString_imgW (c : Nat) (p : List Byte) (r : Reader) : (acceptString c p r).imgW = r.imgW := rfl
@[simp] theorem acceptString_imgH (c : Nat) (p : List Byte) (r : Reader) : (acceptString c p r).imgH = r.imgH := rfl
@[simp] theorem acceptString_imgPacked (c : Nat) (p : List Byte) (r : Reader) :
    (acceptString c p r).imgPacked = r.imgPacked := rfl
@[simp] theorem acceptString_codeSize (c : Nat) (p : List Byte) (r : Reader) :
    (acceptString c p r).codeSize = r.codeSize := rfl
@[simp] theorem acceptString_pixRemain (c : Nat) (p : List Byte) (r : Reader) :
    (acceptString c p r).pixRemain = r.pixRemain := rfl
@[simp] theorem acceptString_rows (c : Nat) (p : List Byte) (r : Reader) : (acceptString c p r).rows = r.rows := rfl
@[simp] theorem acceptString_dB (c : Nat) (p : List Byte) (r : Reader) : (acceptString c p r).dB = r.dB := rfl
@[simp] theorem acceptString_dClear (c : Nat) (p : List Byte) (r : Reader) :
    (acceptString c p r).dClear = r.dClear := rfl
@[simp] theorem acceptString_dEof (c : Nat) (p : List Byte) (r : Reader) : (acceptString c p r).dEof = r.dEof := rfl
@[simp] theorem acceptString_dFirst (c : Nat) (p : List Byte) (r : Reader) :
    (acceptString c p r).dFirst = r.dFirst := rfl
@[simp] theorem acceptString_dW (c : Nat) (p : List Byte) (r : Reader) :
    (acceptString c p r).dW = grownWidth r.dFree r.dW := rfl
@[simp] theorem acceptString_dFree (c : Nat) (p : List Byte) (r : Reader) : (acceptString c p r).dFree = r.dFree := rfl
@[simp] theorem acceptString_dPrev (c : Nat) (p : List Byte) (r : Reader) :
    (acceptString c p r).dPrev = some (BitVec.ofNat 12 c) := rfl
@[simp] theorem acceptString_dDict (c : Nat) (p : List Byte) (r : Reader) : (acceptString c p r).dDict = r.dDict := rfl
@[simp] theorem acceptString_dPend (c : Nat) (p : List Byte) (r : Reader) :
    (acceptString c p r).dPend = r.dPend ++ p := rfl
@[simp] theorem acceptString_dDone (c : Nat) (p : List Byte) (r : Reader) : (acceptString c p r).dDone = r.dDone := rfl
@[simp] theorem acceptString_uAcc (c : Nat) (p : List Byte) (r : Reader) : (acceptString c p r).uAcc = r.uAcc := rfl
@[simp] theorem acceptString_uCnt (c : Nat) (p : List Byte) (r : Reader) : (acceptString c p r).uCnt = r.uCnt := rfl
@[simp] theorem acceptString_uLeft (c : Nat) (p : List Byte) (r : Reader) : (acceptString c p r).uLeft = r.uLeft := rfl
@[simp] theorem acceptString_uEnd (c : Nat) (p : List Byte) (r : Reader) : (acceptString c p r).uEnd = r.uEnd := rfl
@[simp] theorem acceptString_dout (c : Nat) (p : List Byte) (r : Reader) : (acceptString c p r).dout = r.dout := rfl
@[simp] theorem acceptString_sin (c : Nat) (p : List Byte) (r : Reader) : (acceptString c p r).sin = r.sin := rfl
@[simp] theorem acceptString_sinRead (c : Nat) (p : List Byte) (r : Reader) :
    (acceptString c p r).sinRead = r.sinRead := rfl

/-! ### insertPair (R129) -/
@[simp] theorem insertPair_state (q : Code) (p : Byte) (w : Writer) : (insertPair q p w).state = w.state := rfl
@[simp] theorem insertPair_err (q : Code) (p : Byte) (w : Writer) : (insertPair q p w).err = w.err := rfl
@[simp] theorem insertPair_version (q : Code) (p : Byte) (w : Writer) : (insertPair q p w).version = w.version := rfl
@[simp] theorem insertPair_gctBpp (q : Code) (p : Byte) (w : Writer) : (insertPair q p w).gctBpp = w.gctBpp := rfl
@[simp] theorem insertPair_imgW (q : Code) (p : Byte) (w : Writer) : (insertPair q p w).imgW = w.imgW := rfl
@[simp] theorem insertPair_imgH (q : Code) (p : Byte) (w : Writer) : (insertPair q p w).imgH = w.imgH := rfl
@[simp] theorem insertPair_imgPacked (q : Code) (p : Byte) (w : Writer) :
    (insertPair q p w).imgPacked = w.imgPacked := rfl
@[simp] theorem insertPair_bpp (q : Code) (p : Byte) (w : Writer) : (insertPair q p w).bpp = w.bpp := rfl
@[simp] theorem insertPair_codeSize (q : Code) (p : Byte) (w : Writer) : (insertPair q p w).codeSize = w.codeSize := rfl
@[simp] theorem insertPair_pixRemain (q : Code) (p : Byte) (w : Writer) :
    (insertPair q p w).pixRemain = w.pixRemain := rfl
@[simp] theorem insertPair_rows (q : Code) (p : Byte) (w : Writer) : (insertPair q p w).rows = w.rows := rfl
@[simp] theorem insertPair_cB (q : Code) (p : Byte) (w : Writer) : (insertPair q p w).cB = w.cB := rfl
@[simp] theorem insertPair_cClear (q : Code) (p : Byte) (w : Writer) : (insertPair q p w).cClear = w.cClear := rfl
@[simp] theorem insertPair_cEof (q : Code) (p : Byte) (w : Writer) : (insertPair q p w).cEof = w.cEof := rfl
@[simp] theorem insertPair_cFirst (q : Code) (p : Byte) (w : Writer) : (insertPair q p w).cFirst = w.cFirst := rfl
@[simp] theorem insertPair_cW (q : Code) (p : Byte) (w : Writer) :
    (insertPair q p w).cW = grownWidth w.cFree w.cW := rfl
@[simp] theorem insertPair_cFree (q : Code) (p : Byte) (w : Writer) : (insertPair q p w).cFree = w.cFree + 1#13 := rfl
@[simp] theorem insertPair_cPrefix (q : Code) (p : Byte) (w : Writer) :
    (insertPair q p w).cPrefix = some (p.setWidth 12) := rfl
@[simp] theorem insertPair_cDict (q : Code) (p : Byte) (w : Writer) :
    (insertPair q p w).cDict = { pfx := q, pixel := p, code := w.cFree.setWidth 12 } :: w.cDict := rfl
@[simp] theorem insertPair_pAcc (q : Code) (p : Byte) (w : Writer) : (insertPair q p w).pAcc = w.pAcc := rfl
@[simp] theorem insertPair_pCnt (q : Code) (p : Byte) (w : Writer) : (insertPair q p w).pCnt = w.pCnt := rfl
@[simp] theorem insertPair_pBuf (q : Code) (p : Byte) (w : Writer) : (insertPair q p w).pBuf = w.pBuf := rfl
@[simp] theorem insertPair_din (q : Code) (p : Byte) (w : Writer) : (insertPair q p w).din = w.din := rfl
@[simp] theorem insertPair_sinkAnswers (q : Code) (p : Byte) (w : Writer) :
    (insertPair q p w).sinkAnswers = w.sinkAnswers := rfl
@[simp] theorem insertPair_sout (q : Code) (p : Byte) (w : Writer) : (insertPair q p w).sout = w.sout := rfl
@[simp] theorem insertPair_draws (q : Code) (p : Byte) (w : Writer) : (insertPair q p w).draws = w.draws := rfl

/-! ### pushPixel (R145) -/
@[simp] theorem pushPixel_state (x : Byte) (r : Reader) : (pushPixel x r).state = r.state := rfl
@[simp] theorem pushPixel_err (x : Byte) (r : Reader) : (pushPixel x r).err = r.err := rfl
@[simp] theorem pushPixel_version (x : Byte) (r : Reader) : (pushPixel x r).version = r.version := rfl
@[simp] theorem pushPixel_scrW (x : Byte) (r : Reader) : (pushPixel x r).scrW = r.scrW := rfl
@[simp] theorem pushPixel_scrH (x : Byte) (r : Reader) : (pushPixel x r).scrH = r.scrH := rfl
@[simp] theorem pushPixel_scrPacked (x : Byte) (r : Reader) : (pushPixel x r).scrPacked = r.scrPacked := rfl
@[simp] theorem pushPixel_bg (x : Byte) (r : Reader) : (pushPixel x r).bg = r.bg := rfl
@[simp] theorem pushPixel_aspect (x : Byte) (r : Reader) : (pushPixel x r).aspect = r.aspect := rfl
@[simp] theorem pushPixel_recType (x : Byte) (r : Reader) : (pushPixel x r).recType = r.recType := rfl
@[simp] theorem pushPixel_extCode (x : Byte) (r : Reader) : (pushPixel x r).extCode = r.extCode := rfl
@[simp] theorem pushPixel_subLen (x : Byte) (r : Reader) : (pushPixel x r).subLen = r.subLen := rfl
@[simp] theorem pushPixel_imgLeft (x : Byte) (r : Reader) : (pushPixel x r).imgLeft = r.imgLeft := rfl
@[simp] theorem pushPixel_imgTop (x : Byte) (r : Reader) : (pushPixel x r).imgTop = r.imgTop := rfl
@[simp] theorem pushPixel_imgW (x : Byte) (r : Reader) : (pushPixel x r).imgW = r.imgW := rfl
@[simp] theorem pushPixel_imgH (x : Byte) (r : Reader) : (pushPixel x r).imgH = r.imgH := rfl
@[simp] theorem pushPixel_imgPacked (x : Byte) (r : Reader) : (pushPixel x r).imgPacked = r.imgPacked := rfl
@[simp] theorem pushPixel_codeSize (x : Byte) (r : Reader) : (pushPixel x r).codeSize = r.codeSize := rfl
@[simp] theorem pushPixel_pixRemain (x : Byte) (r : Reader) : (pushPixel x r).pixRemain = r.pixRemain - 1#32 := rfl
@[simp] theorem pushPixel_rows (x : Byte) (r : Reader) : (pushPixel x r).rows = rowAdvance r.rows := rfl
@[simp] theorem pushPixel_dB (x : Byte) (r : Reader) : (pushPixel x r).dB = r.dB := rfl
@[simp] theorem pushPixel_dClear (x : Byte) (r : Reader) : (pushPixel x r).dClear = r.dClear := rfl
@[simp] theorem pushPixel_dEof (x : Byte) (r : Reader) : (pushPixel x r).dEof = r.dEof := rfl
@[simp] theorem pushPixel_dFirst (x : Byte) (r : Reader) : (pushPixel x r).dFirst = r.dFirst := rfl
@[simp] theorem pushPixel_dW (x : Byte) (r : Reader) : (pushPixel x r).dW = r.dW := rfl
@[simp] theorem pushPixel_dFree (x : Byte) (r : Reader) : (pushPixel x r).dFree = r.dFree := rfl
@[simp] theorem pushPixel_dPrev (x : Byte) (r : Reader) : (pushPixel x r).dPrev = r.dPrev := rfl
@[simp] theorem pushPixel_dDict (x : Byte) (r : Reader) : (pushPixel x r).dDict = r.dDict := rfl
@[simp] theorem pushPixel_dPend (x : Byte) (r : Reader) : (pushPixel x r).dPend = r.dPend := rfl
@[simp] theorem pushPixel_dDone (x : Byte) (r : Reader) : (pushPixel x r).dDone = r.dDone := rfl
@[simp] theorem pushPixel_uAcc (x : Byte) (r : Reader) : (pushPixel x r).uAcc = r.uAcc := rfl
@[simp] theorem pushPixel_uCnt (x : Byte) (r : Reader) : (pushPixel x r).uCnt = r.uCnt := rfl
@[simp] theorem pushPixel_uLeft (x : Byte) (r : Reader) : (pushPixel x r).uLeft = r.uLeft := rfl
@[simp] theorem pushPixel_uEnd (x : Byte) (r : Reader) : (pushPixel x r).uEnd = r.uEnd := rfl
@[simp] theorem pushPixel_dout (x : Byte) (r : Reader) : (pushPixel x r).dout = r.dout ++ [x] := rfl
@[simp] theorem pushPixel_sin (x : Byte) (r : Reader) : (pushPixel x r).sin = r.sin := rfl
@[simp] theorem pushPixel_sinRead (x : Byte) (r : Reader) : (pushPixel x r).sinRead = r.sinRead := rfl

/-! ### connectSource (R209) -/
@[simp] theorem connectSource_last (a : List SrcAnswer) (s : State) : (connectSource a s).last = s.last := rfl
@[simp] theorem connectSource_busy (a : List SrcAnswer) (s : State) : (connectSource a s).busy = s.busy := rfl
@[simp] theorem connectSource_reader (a : List SrcAnswer) (s : State) :
    (connectSource a s).reader = { s.reader with sin := a, sinRead := 0 } := rfl
@[simp] theorem connectSource_writer (a : List SrcAnswer) (s : State) : (connectSource a s).writer = s.writer := rfl
@[simp] theorem connectSource_host (a : List SrcAnswer) (s : State) : (connectSource a s).host = s.host := rfl
@[simp] theorem connectSource_readData (a : List SrcAnswer) (s : State) :
    (connectSource a s).readData = s.readData := rfl

/-! ### connectSink (R209) -/
@[simp] theorem connectSink_last (a : List SinkAnswer) (s : State) : (connectSink a s).last = s.last := rfl
@[simp] theorem connectSink_busy (a : List SinkAnswer) (s : State) : (connectSink a s).busy = s.busy := rfl
@[simp] theorem connectSink_reader (a : List SinkAnswer) (s : State) : (connectSink a s).reader = s.reader := rfl
@[simp] theorem connectSink_writer (a : List SinkAnswer) (s : State) :
    (connectSink a s).writer = { s.writer with sinkAnswers := a, sout := [] } := rfl
@[simp] theorem connectSink_host (a : List SinkAnswer) (s : State) : (connectSink a s).host = s.host := rfl
@[simp] theorem connectSink_readData (a : List SinkAnswer) (s : State) : (connectSink a s).readData = s.readData := rfl

end Sys2Proof.Machine
end

