-- ==== Sys2Proof/Laws/WriterBodies.lean ====
section
/-!
SUPPORT. What the body of each writer command can do (R169 to R181): how it can fail (R197), that it is stuck only where
the sink is silent, and that it keeps the writer's invariant.
-/

namespace Sys2Proof.Machine

/-- What the writer's invariant says of registers that no failure may spoil (R48, R49). -/
def RegistersOk (w : Writer) : Prop := w.gctBpp.toNat ≤ 8 ∧ w.imgPacked &&& 0x18#8 = 0#8

/-- A writer command's body: `P` where it completes; IoError is its only failure; stuck only for want of an answer. -/
def WriterBody (w : Writer) (P : Writer → Prop) (x : Body Writer Unit) : Prop :=
  Body.Spec (fun _ w' => P w' ∧ RegistersOk w' ∧ SinkGrows w w' ∧ w'.err = w.err)
    (fun e w' => RegistersOk w' ∧ SinkFails w e w') (SinkSilent w) x

theorem RegistersOk.of_offEncoder {w w' : Writer} (h : offEncoder w' = offEncoder w) (hw : RegistersOk w) :
    RegistersOk w' := by
  have h1 := congrArg Writer.gctBpp h
  have h2 := congrArg Writer.imgPacked h
  simp only [offEncoder, offCompressor, offPacker, offSink] at h1 h2
  simpa only [RegistersOk, h1, h2] using hw

theorem offEncoder_err {w w' : Writer} (h : offEncoder w' = offEncoder w) : w'.err = w.err := by
  have := congrArg Writer.err h
  simpa only [offEncoder, offCompressor, offPacker, offSink] using this

theorem offEncoder_state {w w' : Writer} (h : offEncoder w' = offEncoder w) : w'.state = w.state := by
  have := congrArg Writer.state h
  simpa only [offEncoder, offCompressor, offPacker, offSink] using this

theorem offEncoder_rows {w w' : Writer} (h : offEncoder w' = offEncoder w) : w'.rows = w.rows := by
  have := congrArg Writer.rows h
  simpa only [offEncoder, offCompressor, offPacker, offSink] using this

theorem offEncoder_pixRemain {w w' : Writer} (h : offEncoder w' = offEncoder w) : w'.pixRemain = w.pixRemain := by
  have := congrArg Writer.pixRemain h
  simpa only [offEncoder, offCompressor, offPacker, offSink] using this

theorem offEncoder_of_offSink {w w' : Writer} (h : offSink w' = offSink w) : offEncoder w' = offEncoder w :=
  offEncoder_of_offCompressor (offCompressor_of_offPacker (offPacker_of_offSink h))

theorem packerEmpty_of_offSink {w w' : Writer} (h : offSink w' = offSink w) (hw : packerEmpty w) : packerEmpty w' := by
  simpa only [packerEmpty, offSink_pCnt h, offSink_pAcc h, offSink_pBuf h] using hw

/-- The writer's body where it only writes bytes and moves on to a state outside an image. -/
theorem WriterBody.of_sink {w : Writer} {st : WState} {x : Body Writer Unit} (hx : WriterPart offSink w x)
    (hr : RegistersOk w) (hp : packerEmpty w) :
    WriterBody w (fun w' => w'.state = st ∧ packerEmpty w') (x.bind fun _ w => .ok () { w with state := st }) := by
  refine Body.Spec.bind (Body.Spec.mono hx (fun _ _ h => h) ?_ fun _ h => h) ?_
  · rintro e w' ⟨h, g⟩
    exact ⟨hr.of_offEncoder (offEncoder_of_offSink h), g⟩
  · rintro _ w1 ⟨h, g⟩
    have hr1 : RegistersOk w1 := hr.of_offEncoder (offEncoder_of_offSink h)
    have hp1 := packerEmpty_of_offSink h hp
    have he := offEncoder_err (offEncoder_of_offSink h)
    exact ⟨⟨rfl, hp1⟩, hr1, g, he⟩

/-- `W_EXT` (R172). -/
theorem wExtBody_spec {w : Writer} (imm8 : Byte) (hr : RegistersOk w) (hp : packerEmpty w) :
    WriterBody w (fun w' => w'.state = .extData ∧ packerEmpty w') (wExtBody imm8 w) := by
  unfold wExtBody
  rw [← Body.bind_assoc]
  exact WriterBody.of_sink ((sinkByte_part _ w).bind fun w' _ _ => sinkByte_part _ w') hr hp

/-- `W_EXT_END` (R174). -/
theorem wExtEndBody_spec {w : Writer} (hr : RegistersOk w) (hp : packerEmpty w) :
    WriterBody w (fun w' => w'.state = .top ∧ packerEmpty w') (wExtEndBody w) :=
  WriterBody.of_sink (sinkByte_part _ w) hr hp

/-- `W_TRAILER` (R181). -/
theorem wTrailerBody_spec {w : Writer} (hr : RegistersOk w) (hp : packerEmpty w) :
    WriterBody w (fun w' => w'.state = .done ∧ packerEmpty w') (wTrailerBody w) :=
  WriterBody.of_sink (sinkByte_part _ w) hr hp

theorem dinDrop_grows (n : Nat) (w : Writer) : SinkGrows w (dinDrop n w) :=
  ⟨List.prefix_refl _, rfl, List.suffix_refl _, List.drop_suffix _ _⟩

/-- `W_EXT_BLOCK` (R173). -/
theorem wExtBlockBody_spec {w : Writer} (imm8 : Byte) (hr : RegistersOk w) (hp : packerEmpty w) :
    WriterBody w (fun w' => w'.state = w.state ∧ packerEmpty w') (wExtBlockBody imm8 w) := by
  have hx : WriterPart offSink (dinDrop (lengthOperand imm8) w) (wExtBlockBody imm8 w) :=
    (sinkByte_part _ _).bind fun w' _ _ => sinkBytes_part _ w'
  have hg := dinDrop_grows (lengthOperand imm8) w
  refine Body.Spec.mono hx ?_ ?_ fun _ h => hg.silent h
  · rintro _ w' ⟨h, g⟩
    have h := offEncoder_of_offSink h
    have hr' : RegistersOk w' := RegistersOk.of_offEncoder h hr
    refine ⟨⟨(offEncoder_state h).trans ?_, ?_⟩, hr', hg.trans g, (offEncoder_err h).trans ?_⟩
    · simp only [dinDrop]
    · rename_i h0; exact packerEmpty_of_offSink h0 hp
    · simp only [dinDrop]
  · rintro e w' ⟨h, g⟩
    exact ⟨RegistersOk.of_offEncoder (offEncoder_of_offSink h) hr, hg.fails g⟩

theorem tableExp_lt (packed : Byte) : tableExp packed < 8 := (packed.extractLsb' 0 3).isLt

/-- A table has 1 to 8 bits per pixel (R48, R95). -/
theorem tableBpp_spec (packed : Byte) :
    (tableBpp packed).toNat = if hasTable packed then tableExp packed + 1 else 0 := by
  have := tableExp_lt packed
  unfold tableBpp
  split
  · rw [BitVec.toNat_ofNat]; exact Nat.mod_eq_of_lt (by omega)
  · rfl

theorem tableBpp_le (packed : Byte) : (tableBpp packed).toNat ≤ 8 := by
  have := tableExp_lt packed
  rw [tableBpp_spec]; split <;> omega

/-- `W_OPEN` (R169). -/
theorem wOpenBody_spec {w : Writer} (v89a : BitVec 1) (hr : RegistersOk w) (hp : packerEmpty w) :
    WriterBody w (fun w' => w'.state = .top ∧ packerEmpty w') (wOpenBody v89a w) := by
  unfold wOpenBody
  dsimp only
  rw [← Body.bind_assoc]
  have hx : WriterPart offSink (dinDrop (wOpenLength w) w)
      ((sinkBytes (signatureOf v89a) (dinDrop (wOpenLength w) w)).bind fun _ w_1 =>
        sinkBytes (dinTake (wOpenLength w) w) w_1) :=
    (sinkBytes_part _ _).bind fun w' _ _ => sinkBytes_part _ w'
  have hg := dinDrop_grows (wOpenLength w) w
  refine Body.Spec.bind (Body.Spec.mono hx (fun _ _ h => h) ?_ fun _ h => hg.silent h) ?_
  · rintro e w' ⟨h, g⟩
    exact ⟨RegistersOk.of_offEncoder (offEncoder_of_offSink h) hr, hg.fails g⟩
  · rintro _ w1 ⟨h, g⟩
    have hr1 : RegistersOk w1 := RegistersOk.of_offEncoder (offEncoder_of_offSink h) hr
    have he := offEncoder_err (offEncoder_of_offSink h)
    have hp1 := packerEmpty_of_offSink h hp
    simp only [dinDrop] at he
    exact ⟨⟨rfl, hp1⟩, ⟨tableBpp_le _, hr1.2⟩, hg.trans g, he⟩

/-- A writer in the middle of an image with `n` pixels to come. -/
def RasterOpen (n : Nat) (w : Writer) : Prop :=
  w.pixRemain.toNat = n ∧ trackerInside w.rows ∧ trackerLeft w.rows n ∧ EncoderOk w ∧ packerOk w

/-- `n` pixels of the image are still to come; at 0 the raster is complete and only CompressFinish is left. -/
def RasterAt (n : Nat) (w : Writer) : Prop :=
  w.pixRemain.toNat = n ∧ (n = 0 → trackerDone w.rows) ∧ (0 < n → trackerInside w.rows ∧ trackerLeft w.rows n) ∧
  EncoderOk w ∧ packerOk w

/-- Where W_IMAGE and W_PIXELS leave the writer, as far as its invariant needs it. -/
def RasterReady (w : Writer) : Prop :=
  w.state = .top ∧ packerEmpty w ∨
  w.state = .pixels ∧ w.pixRemain ≠ 0#32 ∧ RasterOpen w.pixRemain.toNat w

/-- CompressFinish ends the image. -/
theorem finish_spec {w : Writer} (hr : RegistersOk w) (hp : packerOk w) :
    WriterBody w RasterReady ((compressFinish w).bind fun _ w => .ok () { w with state := .top }) := by
  refine Body.Spec.bind ((compressFinish_spec w).mono (fun _ _ h => h) ?_ fun _ h => h) ?_
  · rintro e w' ⟨h, g⟩
    exact ⟨hr.of_offEncoder (offEncoder_of_offCompressor h), g⟩
  · rintro _ w1 ⟨h, g, -, p⟩
    have hr1 : RegistersOk w1 := hr.of_offEncoder (offEncoder_of_offCompressor h)
    have he := offEncoder_err (offEncoder_of_offCompressor h)
    exact ⟨.inl ⟨rfl, p hp⟩, hr1, g, he⟩

theorem writer_pixRemain_zero {w : Writer} {n : Nat} (h : w.pixRemain.toNat = n) : w.pixRemain = 0#32 ↔ n = 0 := by
  constructor
  · intro h0; rw [h0] at h; simp only [BitVec.toNat_ofNat] at h; omega
  · intro h0; exact BitVec.eq_of_toNat_eq (by rw [h, BitVec.toNat_ofNat]; omega)

/-- `ImageStart()` (R177). -/
theorem imageStart_spec {w : Writer} (h1 : 1 ≤ w.bpp.toNat) (h8 : w.bpp.toNat ≤ 8) (hr : RegistersOk w) :
    WriterBody w RasterReady (imageStart w) := by
  unfold imageStart
  refine Body.Spec.bind ((compressStart_spec w h1 h8).mono (fun _ _ h => h) ?_ fun _ h => h) ?_
  · rintro e w' ⟨h, g⟩
    exact ⟨hr.of_offEncoder h, g⟩
  · rintro _ w1 ⟨h, g, k, p, -⟩
    dsimp only
    have hr1 : RegistersOk w1 := hr.of_offEncoder h
    have he := offEncoder_err h
    split
    · rename_i h0
      refine (finish_spec (w := { w1 with
          codeSize := w1.cB.setWidth 8
          pixRemain := rasterLength w1.imgW w1.imgH
          rows := rowInit w1.imgW w1.imgH (interlaceBit w1.imgPacked) }) hr1 p).mono ?_ ?_ ?_
      · rintro _ w' ⟨a, b, c, d⟩
        exact ⟨a, b, g.trans c, d.trans he⟩
      · rintro e w' ⟨b, c⟩
        exact ⟨b, g.fails c⟩
      · intro f c; exact g.silent c
    · rename_i h0
      have hpos : 0 < w1.imgW.toNat * w1.imgH.toNat := by
        refine Nat.pos_of_ne_zero fun hz => h0 (BitVec.eq_of_toNat_eq ?_)
        simp only [rasterLength_toNat, hz, BitVec.toNat_ofNat, Nat.zero_mod]
      obtain ⟨i1, i2, -⟩ := rowInit_inside (interlaceBit w1.imgPacked) (Nat.pos_of_mul_pos_right hpos)
        (Nat.pos_of_mul_pos_left hpos)
      refine ⟨.inr ⟨rfl, h0, rfl, i1, ?_, k, p⟩, hr1, g, he⟩
      simp only [rasterLength_toNat]; exact i2

theorem clearReserved_ok (packed : Byte) : clearReserved packed &&& 0x18#8 = 0#8 := by
  rw [clearReserved, BitVec.and_assoc]
  have : (0xE7#8 &&& 0x18#8 : Byte) = 0#8 := by decide
  rw [this, BitVec.and_zero]

/-- The depth of an image with a table is 1 to 8 (R50). -/
theorem imageBpp_spec {w : Writer} {packed : Byte} (hr : RegistersOk w) (h : imageBpp packed w ≠ 0#4) :
    1 ≤ (imageBpp packed w).toNat ∧ (imageBpp packed w).toNat ≤ 8 := by
  constructor
  · refine Nat.pos_of_ne_zero fun h0 => h (BitVec.eq_of_toNat_eq h0)
  · unfold imageBpp
    split
    · exact tableBpp_le _
    · exact hr.1

/-- `W_IMAGE` (R175 to R177), after its checks. -/
theorem wImageBody_spec {w : Writer} (hr : RegistersOk w) (hb : imageBpp (dinAt 8 w) w ≠ 0#4) :
    WriterBody w RasterReady (wImageBody w) := by
  unfold wImageBody
  dsimp only
  generalize hd : dinTake (wImageLength w) w = d
  generalize hw0 : setImage d (imageBpp (dinAt 8 w) w) (dinDrop (wImageLength w) w) = w0
  have hr0 : RegistersOk w0 := by rw [← hw0]; exact ⟨hr.1, clearReserved_ok _⟩
  have hb0 : w0.bpp = imageBpp (dinAt 8 w) w := by rw [← hw0]; rfl
  have hg0 : SinkGrows w w0 := by rw [← hw0]; exact (dinDrop_grows (wImageLength w) w :)
  have he0 : w0.err = w.err := by rw [← hw0]; simp only [setImage, dinDrop]
  obtain ⟨b1, b8⟩ := imageBpp_spec hr hb
  refine Body.Spec.bind (Body.Spec.mono (sinkBytes_part (imageBytes d) w0) (fun _ _ h => h) ?_ ?_) ?_
  · rintro e w' ⟨h, g⟩
    exact ⟨hr0.of_offEncoder (offEncoder_of_offSink h), hg0.fails g⟩
  · intro f g; exact hg0.silent g
  · rintro _ w1 ⟨h, g⟩
    have hb1 : w1.bpp = w0.bpp := by
      have := congrArg Writer.bpp h
      simpa only [offSink] using this
    refine (imageStart_spec (w := w1) (by rw [hb1, hb0]; exact b1) (by rw [hb1, hb0]; exact b8)
      (hr0.of_offEncoder (offEncoder_of_offSink h))).mono ?_ ?_ ?_
    · rintro _ w' ⟨a, b, c, d⟩
      exact ⟨a, b, (hg0.trans g).trans c, (d.trans (offEncoder_err (offEncoder_of_offSink h))).trans he0⟩
    · rintro e w' ⟨b, c⟩; exact ⟨b, (hg0.trans g).fails c⟩
    · intro f c; exact (hg0.trans g).silent c

/-- Everything but SOUT, DIN, the packer, the compressor's changing state, the pixel count and the row tracker. -/
def offRaster (w : Writer) : Writer :=
  { offCompressor w with din := [], pixRemain := 0, rows := RowTracker.reset }

theorem offRaster_of_offCompressor {w w' : Writer} (h : offCompressor w' = offCompressor w) :
    offRaster w' = offRaster w := by simp only [offRaster, h]

theorem offRaster_facts {w w' : Writer} (h : offRaster w' = offRaster w) :
    w'.state = w.state ∧ w'.err = w.err ∧ w'.gctBpp = w.gctBpp ∧ w'.imgPacked = w.imgPacked ∧ w'.bpp = w.bpp := by
  have h1 := congrArg Writer.state h
  have h2 := congrArg Writer.err h
  have h3 := congrArg Writer.gctBpp h
  have h4 := congrArg Writer.imgPacked h
  have h5 := congrArg Writer.bpp h
  simp only [offRaster, offCompressor, offPacker, offSink] at h1 h2 h3 h4 h5
  exact ⟨h1, h2, h3, h4, h5⟩

theorem RegistersOk.of_offRaster {w w' : Writer} (h : offRaster w' = offRaster w) (hw : RegistersOk w) :
    RegistersOk w' := by
  obtain ⟨-, -, h3, h4, -⟩ := offRaster_facts h
  simpa only [RegistersOk, h3, h4] using hw

/-- A pixel consumed: one fewer to come, the tracker one on. -/
theorem raster_step {n : Nat} {w : Writer} {v : Word} {t : RowTracker} (hv : w.pixRemain = v - 1#32)
    (ht : w.rows = rowAdvance t) (hn : v.toNat = n) (hin : trackerInside t) (hl : trackerLeft t n)
    (hk : EncoderOk w) (hp : packerOk w) : RasterAt (n - 1) w := by
  obtain ⟨t1, t2, t3⟩ := rowAdvance_spec hin hl
  refine ⟨?_, fun h0 => ?_, fun h0 => ?_, hk, hp⟩
  · have := v.isLt
    rw [hv, BitVec.toNat_sub, BitVec.toNat_ofNat]; omega
  · rw [ht]; exact t2 (by omega)
  · rw [ht]; exact t3 (by omega)

/-- The loop of W_PIXELS (R179): every pixel popped, compressed and counted. -/
theorem compressPixels_spec (ps : List Byte) : ∀ {n : Nat} {w : Writer}, RasterAt n w → ps.length ≤ n →
    (∀ p ∈ ps, p.toNat < 2 ^ w.bpp.toNat) →
    Body.Spec (fun _ w' => offRaster w' = offRaster w ∧ SinkGrows w w' ∧ w'.din = w.din.drop ps.length ∧
        RasterAt (n - ps.length) w')
      (fun e w' => offRaster w' = offRaster w ∧ SinkFails w e w') (SinkSilent w) (compressPixels ps w) := by
  induction ps with
  | nil => intro n w h _ _; exact ⟨rfl, SinkGrows.refl w, by simp, by simpa using h⟩
  | cons p ps ih =>
    intro n w h hn hp
    simp only [List.length_cons] at hn
    simp only [compressPixels]
    obtain ⟨r1, r2, r3, k, pk⟩ := h
    obtain ⟨hin, hl⟩ := r3 (by omega)
    have kd : EncoderOk (dinDrop 1 w) := k
    have pd : packerOk (dinDrop 1 w) := pk
    have hd1 : (dinDrop 1 w).din = w.din.drop 1 := rfl
    have hd2 : (dinDrop 1 w).pixRemain = w.pixRemain := by simp only [dinDrop]
    have hd3 : (dinDrop 1 w).rows = w.rows := by simp only [dinDrop]
    have hd4 : (dinDrop 1 w).bpp = w.bpp := by simp only [dinDrop]
    have hdo : offRaster (dinDrop 1 w) = offRaster w := by
      simp only [offRaster, offCompressor, offPacker, offSink, dinDrop]
    have hdg : SinkGrows w (dinDrop 1 w) := dinDrop_grows 1 w
    generalize dinDrop 1 w = w0 at kd pd hd1 hd2 hd3 hd4 hdo hdg ⊢
    refine Body.Spec.bind (Body.Spec.mono (compressPixel_spec (w := w0) kd
      (by rw [hd4]; exact hp p (by simp))) (fun _ _ h => h) ?_ ?_) ?_
    · rintro e w' ⟨h, g⟩
      exact ⟨(offRaster_of_offCompressor h).trans hdo, hdg.fails g⟩
    · intro f g; exact hdg.silent g
    · rintro _ w1 ⟨h1, g1, k1, p1⟩
      have e1 := offEncoder_pixRemain (offEncoder_of_offCompressor h1)
      have e2 := offEncoder_rows (offEncoder_of_offCompressor h1)
      have e3 : w1.din = w0.din := by
        have := congrArg Writer.din h1
        simpa only [offCompressor, offPacker, offSink] using this
      have o1 := (offRaster_of_offCompressor h1).trans hdo
      have hs : RasterAt (n - 1) { w1 with pixRemain := w1.pixRemain - 1#32, rows := rowAdvance w1.rows } :=
        raster_step (v := w1.pixRemain) (t := w1.rows) rfl rfl (by rw [e1, hd2]; exact r1)
          (by rw [e2, hd3]; exact hin) (by rw [e2, hd3]; exact hl) k1 (p1 pd)
      have o2 : offRaster { w1 with pixRemain := w1.pixRemain - 1#32, rows := rowAdvance w1.rows } = offRaster w := by
        rw [← o1]; simp only [offRaster, offCompressor, offPacker, offSink]
      have g2 : SinkGrows w { w1 with pixRemain := w1.pixRemain - 1#32, rows := rowAdvance w1.rows } := hdg.trans g1
      have d2 : ({ w1 with pixRemain := w1.pixRemain - 1#32, rows := rowAdvance w1.rows } : Writer).din =
          w.din.drop 1 := e3.trans hd1
      generalize ({ w1 with pixRemain := w1.pixRemain - 1#32, rows := rowAdvance w1.rows } : Writer) = w2
        at hs o2 g2 d2 ⊢
      have b2 := (offRaster_facts o2).2.2.2.2
      refine (ih hs (by omega) (fun x hx => by rw [b2]; exact hp x (by simp [hx]))).mono ?_ ?_ ?_
      · rintro _ w' ⟨h3, g3, d3, s3⟩
        refine ⟨h3.trans o2, g2.trans g3, ?_, ?_⟩
        · rw [d3, d2, List.drop_drop, List.length_cons, Nat.add_comm]
        · rwa [List.length_cons, show n - (ps.length + 1) = n - 1 - ps.length by omega]
      · rintro e w' ⟨h3, g3⟩
        exact ⟨h3.trans o2, g2.fails g3⟩
      · intro f g3; exact g2.silent g3

/-- What the checks of W_PIXELS have made sure of (R179). -/
theorem wPixelsCheck_none {m : Nat} {w : Writer} (h : wPixelsCheck m w = none) :
    m ≤ w.pixRemain.toNat ∧ m ≤ w.din.length ∧ ∀ p ∈ dinTake m w, p.toNat < 2 ^ w.bpp.toNat := by
  unfold wPixelsCheck at h
  split at h
  · simp at h
  split at h
  · simp at h
  split at h
  · simp at h
  · rename_i h1 h2 h3
    refine ⟨by omega, by omega, fun p hp => ?_⟩
    simp only [List.any_eq_true, pixelOutOfRange, decide_eq_true_eq, not_exists, not_and, not_le] at h3
    exact h3 p hp

/-- `W_PIXELS` (R179) in the middle of an image, after its checks. -/
theorem wPixelsBody_spec {m n : Nat} {w : Writer} (h : RasterOpen n w) (hs : w.state = .pixels) (hn : 0 < n)
    (hr : RegistersOk w) (hc : wPixelsCheck m w = none) : WriterBody w RasterReady (wPixelsBody m w) := by
  obtain ⟨r1, r2, r3, k, p⟩ := h
  obtain ⟨c1, c2, c3⟩ := wPixelsCheck_none hc
  have hne : w.pixRemain ≠ 0#32 := fun h0 => by have := (writer_pixRemain_zero r1).1 h0; omega
  unfold wPixelsBody
  split
  · exact ⟨.inr ⟨hs, hne, rfl, r2, r1 ▸ r3, k, p⟩, hr, SinkGrows.refl w, rfl⟩
  · have hat : RasterAt n w := ⟨r1, fun h0 => by omega, fun _ => ⟨r2, r3⟩, k, p⟩
    have hlen : (dinTake m w).length = m := by rw [dinTake, List.length_take]; omega
    refine Body.Spec.bind (Body.Spec.mono (compressPixels_spec (dinTake m w) hat (by omega) c3) (fun _ _ h => h) ?_
      fun _ h => h) ?_
    · rintro e w' ⟨h, g⟩
      exact ⟨hr.of_offRaster h, g⟩
    · rintro _ w1 ⟨o1, g1, -, ⟨q1, q2, q3, k1, p1⟩⟩
      obtain ⟨s1, e1, -⟩ := offRaster_facts o1
      have hr1 := hr.of_offRaster o1
      split
      · refine (finish_spec hr1 p1).mono ?_ ?_ ?_
        · rintro _ w' ⟨a, b, c, d⟩
          exact ⟨a, b, g1.trans c, d.trans e1⟩
        · rintro e w' ⟨b, c⟩; exact ⟨b, g1.fails c⟩
        · intro f c; exact g1.silent c
      · rename_i h0
        have hpos : 0 < n - (dinTake m w).length :=
          Nat.pos_of_ne_zero fun hz => h0 ((writer_pixRemain_zero q1).2 hz)
        obtain ⟨t1, t2⟩ := q3 hpos
        exact ⟨.inr ⟨s1.trans hs, h0, rfl, t1, q1 ▸ t2, k1, p1⟩, hr1, g1, e1⟩

end Sys2Proof.Machine
end

