-- ==== Sys2Proof/Laws/WriterParts.lean ====
section
/-!
SUPPORT. What each part of the writer can do from any state at all, invariant or not: what it leaves alone, that SOUT
only grows and DIN is only popped from, and that IoError is its only failure.
-/

namespace Sys2Proof.Machine

theorem putByte_part (x : Byte) (w : Writer) : WriterPart offPacker w (putByte x w) :=
  (putByte_spec x w).mono (fun _ _ h => ⟨h.1, h.2.1⟩) (fun _ _ h => h) fun _ h => h

theorem writeCode_part (c width : Nat) (w : Writer) : WriterPart offPacker w (writeCode c width w) :=
  (writeCode_spec c width w).mono (fun _ _ h => ⟨h.1, h.2.1⟩) (fun _ _ h => h) fun _ h => h

theorem flushPacker_part (w : Writer) : WriterPart offPacker w (flushPacker w) :=
  (flushPacker_spec w).mono (fun _ _ h => ⟨h.1, h.2.1⟩) (fun _ _ h => h) fun _ h => h

theorem compressFinish_part (w : Writer) : WriterPart offCompressor w (compressFinish w) :=
  (compressFinish_spec w).mono (fun _ _ h => ⟨h.1, h.2.1⟩) (fun _ _ h => h) fun _ h => h

theorem checkExhausted_part (w : Writer) : WriterPart offCompressor w (checkExhausted w) := by
  unfold checkExhausted
  split
  · exact ((writeCode_part _ _ w).widen fun _ h => offCompressor_of_offPacker h).bind fun w' _ _ =>
      .ok (offCompressor_set w' ..) (SinkGrows.refl w')
  · exact .ok rfl (SinkGrows.refl w)

theorem compressPixel_part (p : Byte) (w : Writer) : WriterPart offCompressor w (compressPixel p w) := by
  unfold compressPixel
  split
  · exact .ok rfl (SinkGrows.refl w)
  · split
    · exact .ok rfl (SinkGrows.refl w)
    · exact ((writeCode_part _ _ w).widen fun _ h => offCompressor_of_offPacker h).bind fun w' _ _ =>
        (checkExhausted_part _).start (offCompressor_set w' ..) (SinkGrows.refl w')

theorem compressStart_part (bpp : BitVec 4) (w : Writer) : WriterPart offEncoder w (compressStart bpp w) := by
  unfold compressStart
  dsimp only
  have h0 : offEncoder { w with bpp := bpp, cB := codeSizeOf bpp } = offEncoder w := by
    simp only [offEncoder, offCompressor, offPacker, offSink]
  refine WriterPart.start (w' := { w with bpp := bpp, cB := codeSizeOf bpp }) ?_ h0 (SinkGrows.refl w)
  refine ((sinkByte_part _ _).widen fun _ h => offEncoder_of_offSink h).bind fun w' _ _ => ?_
  refine WriterPart.start (w' := { resetDict (startPacker (setCodeSpace w')) with cPrefix := none }) ?_ ?_
    (SinkGrows.refl w')
  · exact (writeCode_part _ _ _).widen fun _ h => offEncoder_of_offCompressor (offCompressor_of_offPacker h)
  · simp only [offEncoder, offCompressor, offPacker, offSink, resetDict, startPacker, setCodeSpace]

/-- What W_PIXELS leaves alone: everything but SOUT, DIN, the packer, the compressor's changing state, the pixel count and
the tracker's position. -/
def offConsumption (w : Writer) : Writer × (Half × Half × BitVec 1) := (offRaster w, w.rows.w, w.rows.h, w.rows.il)

theorem offConsumption_of_offCompressor {w w' : Writer} (h : offCompressor w' = offCompressor w) :
    offConsumption w' = offConsumption w := by
  have hr := offEncoder_rows (offEncoder_of_offCompressor h)
  simp only [offConsumption, offRaster_of_offCompressor h, hr]

theorem compressPixels_part (ps : List Byte) : ∀ w : Writer, WriterPart offConsumption w (compressPixels ps w) := by
  induction ps with
  | nil => intro w; exact .ok rfl (SinkGrows.refl w)
  | cons p ps ih =>
    intro w
    simp only [compressPixels]
    refine WriterPart.start (w' := dinDrop 1 w) ?_ ?_ (dinDrop_grows 1 w)
    · refine ((compressPixel_part p _).widen fun _ h => offConsumption_of_offCompressor h).bind fun w' _ _ => ?_
      refine (ih _).start ?_ (SinkGrows.refl w')
      simp only [offConsumption, offRaster, offCompressor, offPacker, offSink, rowAdvance_w, rowAdvance_h,
        rowAdvance_il]
    · simp only [offConsumption, offRaster, offCompressor, offPacker, offSink, dinDrop]

/-! ### Bodies -/

/-- What no writer command's body changes but by its failure: W_ERR. -/
def offErr (w : Writer) : Status := w.err

theorem offErr_of_offEncoder {w w' : Writer} (h : offEncoder w' = offEncoder w) : offErr w' = offErr w :=
  offEncoder_err h

theorem offErr_of_offSink {w w' : Writer} (h : offSink w' = offSink w) : offErr w' = offErr w :=
  offErr_of_offEncoder (offEncoder_of_offSink h)

theorem sinkByte_err (b : Byte) (w : Writer) : WriterPart offErr w (sinkByte b w) :=
  (sinkByte_part b w).widen fun _ h => offErr_of_offSink h

theorem sinkBytes_err (bs : List Byte) (w : Writer) : WriterPart offErr w (sinkBytes bs w) :=
  (sinkBytes_part bs w).widen fun _ h => offErr_of_offSink h

theorem wOpenBody_part (v89a : BitVec 1) (w : Writer) : WriterPart offErr w (wOpenBody v89a w) := by
  unfold wOpenBody
  dsimp only
  refine WriterPart.start (w' := dinDrop (wOpenLength w) w) ?_ (by simp only [offErr, dinDrop])
    (dinDrop_grows (wOpenLength w) w)
  exact (sinkBytes_err _ _).bind fun w' _ _ => (sinkBytes_err _ w').bind fun w'' _ _ =>
    .ok rfl (SinkGrows.refl w'')

theorem wExtBody_part (imm8 : Byte) (w : Writer) : WriterPart offErr w (wExtBody imm8 w) :=
  (sinkByte_err _ w).bind fun w' _ _ => (sinkByte_err _ w').bind fun w'' _ _ => .ok rfl (SinkGrows.refl w'')

theorem wExtBlockBody_part (imm8 : Byte) (w : Writer) : WriterPart offErr w (wExtBlockBody imm8 w) := by
  refine WriterPart.start (w' := dinDrop (lengthOperand imm8) w) ?_ (by simp only [offErr, dinDrop])
    (dinDrop_grows (lengthOperand imm8) w)
  exact (sinkByte_err _ _).bind fun w' _ _ => sinkBytes_err _ w'

theorem wExtEndBody_part (w : Writer) : WriterPart offErr w (wExtEndBody w) :=
  (sinkByte_err _ w).bind fun w' _ _ => .ok rfl (SinkGrows.refl w')

theorem wTrailerBody_part (w : Writer) : WriterPart offErr w (wTrailerBody w) :=
  (sinkByte_err _ w).bind fun w' _ _ => .ok rfl (SinkGrows.refl w')

/-- What W_IMAGE leaves alone. -/
def offWImage (w : Writer) : Status × BitVec 1 × BitVec 4 := (w.err, w.version, w.gctBpp)

theorem offWImage_of_offEncoder {w w' : Writer} (h : offEncoder w' = offEncoder w) : offWImage w' = offWImage w := by
  have := congrArg offWImage h
  simpa only [offEncoder, offCompressor, offPacker, offSink, offWImage] using this

theorem imageStart_part (w : Writer) : WriterPart offWImage w (imageStart w) := by
  unfold imageStart
  refine ((compressStart_part _ w).widen fun _ h => offWImage_of_offEncoder h).bind fun w' _ _ => ?_
  dsimp only
  split
  · refine WriterPart.bind (w := w') (WriterPart.start ((compressFinish_part _).widen fun _ h =>
      offWImage_of_offEncoder (offEncoder_of_offCompressor h)) ?_ (SinkGrows.refl w')) fun w'' _ _ => ?_
    · simp only [offWImage]
    · exact .ok rfl (SinkGrows.refl w'')
  · exact .ok rfl (SinkGrows.refl w')

theorem wImageBody_part (w : Writer) : WriterPart offWImage w (wImageBody w) := by
  unfold wImageBody
  dsimp only
  refine WriterPart.start
    (w' := setImage (dinTake (wImageLength w) w) (imageBpp (dinAt 8 w) w) (dinDrop (wImageLength w) w)) ?_
    (by simp only [offWImage, setImage, dinDrop]) (dinDrop_grows (wImageLength w) w)
  exact ((sinkBytes_part _ _).widen fun _ h => offWImage_of_offEncoder (offEncoder_of_offSink h)).bind
    fun w' _ _ => imageStart_part w'

/-- What W_PIXELS leaves alone: `offConsumption` but W_STATE. -/
def offWPixels (w : Writer) : Writer × (Half × Half × BitVec 1) :=
  ({ (offConsumption w).1 with state := .idle }, (offConsumption w).2)

theorem wPixelsBody_part (n : Nat) (w : Writer) : WriterPart offWPixels w (wPixelsBody n w) := by
  unfold wPixelsBody
  split
  · exact .ok rfl (SinkGrows.refl w)
  · refine WriterPart.bind ((compressPixels_part _ w).widen fun _ h => ?_) fun w' _ _ => ?_
    · simp only [offWPixels, h]
    · split
      · refine WriterPart.bind ((compressFinish_part w').widen fun _ h => ?_) fun w'' _ _ => ?_
        · simp only [offWPixels, offConsumption_of_offCompressor h]
        · exact .ok rfl (SinkGrows.refl w'')
      · exact .ok rfl (SinkGrows.refl w')

end Sys2Proof.Machine
end

