-- ==== Sys2Proof/Tests/Slice0.lean ====
section
/-!
SUPPORT. Tests: the well-formedness smoke, words decoded by hand, one-step tests with results from spec/95_test_vectors.md,
and for every obligation with hypotheses a witness that meets them.
-/

namespace Sys2Proof.Tests

open Sys2Proof Sys2Proof.Machine

/-! ### Helpers -/

/-- The state a step or a command goes on to. -/
def after : Host.Outcome State Fault Refusal → Option State
  | .next t => some t
  | .fault _ => none
  | .refused _ => none

/-- The reset machine with a reader in a state, before a stream. -/
def rAt (st : RState) (sin : List SrcAnswer) : State :=
  { State.reset with reader := { Reader.reset with state := st, sin := sin } }

/-- The reset machine with a writer in a state, with bytes in DIN. -/
def wAt (st : WState) (din : List Byte) : State :=
  { State.reset with writer := { Writer.reset with state := st, din := din } }

/-- The reader in a failed state with a code. -/
def rFailed : State := { State.reset with reader := { Reader.reset with state := .failed, err := .notAGifFile } }

/-- The writer in a failed state with a code. -/
def wFailed : State := { State.reset with writer := { Writer.reset with state := .failed, err := .ioError } }

/-- The host is about to make a move. -/
def about (m : HostMove) (s : State) : State := { s with host := [m] }

/-- A reader that has opened a 4 x 4 image of code size 2 (V-R15, V-E1). -/
def rOpenImage (sin : List SrcAnswer) : Reader :=
  { Reader.reset with
    state := .pixels, imgW := 4, imgH := 4, codeSize := 2, pixRemain := 16, rows := rowInit 4 4 0,
    dB := 2, dClear := 4, dEof := 5, dFirst := 6, dFree := 6, dW := 3, sin := sin }

/-- The machine with that reader. -/
def rPix (sin : List SrcAnswer) : State := { State.reset with reader := rOpenImage sin }

/-- A writer that has opened a 4 x 4 image of depth 2 (V-W10): the Clear Code is in the packer. -/
def wOpenImage (din : List Byte) : Writer :=
  { Writer.reset with
    state := .pixels, gctBpp := 2, imgW := 4, imgH := 4, bpp := 2, codeSize := 2, pixRemain := 16,
    rows := rowInit 4 4 0, cB := 2, cClear := 4, cEof := 5, cFirst := 6, cFree := 6, cW := 3, pAcc := 4, pCnt := 3,
    din := din }

/-- The machine with that writer. -/
def wPix (din : List Byte) : State := { State.reset with writer := wOpenImage din }

/-- The image data of V-E1 after its code size byte. -/
def dataE1 : List SrcAnswer := ([0x04, 0x84, 0x8F, 0x09, 0x05, 0x00] : List Byte).map .byte

/-! ### Well-formedness (R88, R89) -/

theorem test_wf_reset_selecting_nothing_is_refused : (Instr.reset 0#2).wf = false := by decide

theorem test_wf_reset_is_accepted : (Instr.reset 1#2).wf = true := by decide

/-! ### Decoding: words written out bit by bit from R84 to R87 -/

/-- RESET 3: opcode 0x01, bits [23:2] zero, SEL = 11. -/
theorem test_decode_reset :
    decode 0b00000001_0000000000000000000000_11#32 = .instr (.reset 3#2) := by decide

/-- R_OPEN, R_NEXT, R_EXT, R_EXT_BLOCK, R_IMAGE: format N, opcodes 0x10 to 0x14. -/
theorem test_decode_reader_format_n :
    decode 0b00010000_000000000000000000000000#32 = .instr .rOpen ∧
    decode 0b00010001_000000000000000000000000#32 = .instr .rNext ∧
    decode 0b00010010_000000000000000000000000#32 = .instr .rExt ∧
    decode 0b00010011_000000000000000000000000#32 = .instr .rExtBlock ∧
    decode 0b00010100_000000000000000000000000#32 = .instr .rImage := by decide

/-- R_PIXELS: format C, opcode 0x15, COUNT in bits [23:0]. -/
theorem test_decode_rPixels :
    decode 0b00010101_000000000000000000000100#32 = .instr (.rPixels 4#24) := by decide

/-- W_OPEN 1: format V, opcode 0x20, V89A in bit 0. -/
theorem test_decode_wOpen : decode 0b00100000_00000000000000000000000_1#32 = .instr (.wOpen 1#1) := by decide

/-- W_EXT 0xFE and W_EXT_BLOCK 2: format B, opcodes 0x21 and 0x22, IMM8 in bits [7:0]. -/
theorem test_decode_writer_format_b :
    decode 0b00100001_0000000000000000_11111110#32 = .instr (.wExt 0xFE#8) ∧
    decode 0b00100010_0000000000000000_00000010#32 = .instr (.wExtBlock 2#8) := by decide

/-- W_EXT_END, W_IMAGE, W_TRAILER: format N, opcodes 0x23, 0x24 and 0x26. -/
theorem test_decode_writer_format_n :
    decode 0b00100011_000000000000000000000000#32 = .instr .wExtEnd ∧
    decode 0b00100100_000000000000000000000000#32 = .instr .wImage ∧
    decode 0b00100110_000000000000000000000000#32 = .instr .wTrailer := by decide

/-- W_PIXELS 16: format C, opcode 0x25. -/
theorem test_decode_wPixels :
    decode 0b00100101_000000000000000000010000#32 = .instr (.wPixels 16#24) := by decide

/-- V-K1: the illegal words. -/
theorem test_decode_illegal :
    decode 0xFF000000#32 = .illegal .reservedOpcode ∧ decode 0x11000001#32 = .illegal .mustBeZero ∧
    decode 0x21000100#32 = .illegal .mustBeZero ∧ decode 0x20000002#32 = .illegal .mustBeZero ∧
    decode 0x01000004#32 = .illegal .mustBeZero ∧ decode 0x01000000#32 = .illegal .selectsNothing := by decide

/-- The table's numbering: bit 0 is the word's least significant bit. -/
theorem test_decodeTableWord : decodeTableWord 32 0x210000F9 = some (.wExt 0xF9#8) := by decide

/-! ### The host's accesses -/

/-- A CMD write runs its command as the first step after reset (R25). -/
theorem test_step_runs_command :
    ((after (step (State.reset.withFetchWord 32 0x10000000))).map fun t => (t.last, t.reader.state)) =
      some (.unexpectedEndOfData, .failed) := by decide

/-- V-K3: a reserved word on a failed channel: 9, and R_ERR stays 1. -/
theorem test_step_illegal_word :
    ((after (step (rFailed.withFetchWord 32 0xFF000000))).map fun t => (t.last, t.reader.err)) =
      some (.illegalCommand, .notAGifFile) := by decide

/-- R27, R29: DIN keeps the low byte of the value written. -/
theorem test_din_low_byte :
    ((after (step (about (.write 0x008 0xABCDEF48) State.reset))).map fun t => t.writer.din) =
      some [0x48] := by decide

/-- R28: DOUT reads DATA with VALID and removes the byte. -/
theorem test_dout_read :
    ((after (step (about (.read 0x00C)
        { State.reset with reader := { Reader.reset with dout := [0x48, 0x69] } }))).map fun t =>
      (t.readData, t.reader.dout)) = some (0x148, [0x69]) := by decide

/-! ### RESET -/

/-- V-K2: RESET 1 on a failed reader and an open image of the writer. -/
theorem test_reset_reader :
    ((after (exec (.reset 1#2) { rFailed with writer := wOpenImage [5] })).map fun t =>
      (t.last, t.reader.state, t.reader.err, decide (t.writer = wOpenImage [5]))) =
      some (.ok, .idle, .ok, true) := by decide

/-- V-K2: RESET 2 drops the bytes DIN and the packer hold, which never reach SOUT. -/
theorem test_reset_writer :
    ((after (exec (.reset 2#2) (wPix [1, 2, 3]))).map fun t =>
      (t.writer.state, t.writer.din, t.writer.pCnt, t.writer.sout)) = some (.idle, [], 0, []) := by decide

/-! ### The reader -/

/-- V-R4: GIF87a, no table, no check of the aspect byte. -/
theorem test_rOpen_no_table :
    ((after (exec .rOpen (rAt .idle (([0x47, 0x49, 0x46, 0x38, 0x37, 0x61, 1, 0, 1, 0, 0, 5, 0x31] : List Byte).map
        .byte)))).map fun t => (t.last, t.reader.version, t.reader.bg, t.reader.aspect,
      t.reader.dout)) = some (.ok, 0, 5, 0x31, []) := by decide

/-- V-R2: a signature that is not one. -/
theorem test_rOpen_bad_signature :
    ((after (exec .rOpen (rAt .idle (([0x47, 0x49, 0x46, 0x38, 0x39, 0x62, 1] : List Byte).map .byte)))).map fun t =>
      (t.last, t.reader.state, t.reader.sinRead)) = some (.notAGifFile, .failed, 6) := by decide

/-- V-R7: an image follows. -/
theorem test_rNext_image :
    ((after (exec .rNext (rAt .top [.byte 0x2C]))).map fun t => (t.last, t.reader.recType, t.reader.state)) =
      some (.ok, .image, .imgDesc) := by decide

/-- V-R23: an error of the stream. -/
theorem test_rNext_ioError :
    ((after (exec .rNext (rAt .top [.error]))).map fun t => (t.last, t.reader.err, t.reader.state)) =
      some (.ioError, .ioError, .failed) := by decide

/-- V-R11, first command. -/
theorem test_rExt :
    ((after (exec .rExt (rAt .extCode [.byte 0xFE, .byte 2]))).map fun t =>
      (t.last, t.reader.extCode, t.reader.state)) = some (.ok, 0xFE, .extData) := by decide

/-- V-R11, second command. -/
theorem test_rExtBlock :
    ((after (exec .rExtBlock (rAt .extData (([2, 0x48, 0x69, 0] : List Byte).map .byte)))).map fun t =>
      (t.last, t.reader.subLen, t.reader.dout, t.reader.state)) = some (.ok, 2, [0x48, 0x69], .extData) := by decide

/-- V-R13: the stream ends inside the sub-block. -/
theorem test_rExtBlock_truncated :
    ((after (exec .rExtBlock (rAt .extData (([3, 0x41, 0x42] : List Byte).map .byte)))).map fun t =>
      (t.last, t.reader.subLen, t.reader.dout, t.reader.state)) =
      some (.unexpectedEndOfData, 3, [0x41, 0x42], .failed) := by decide

/-- V-R15: a 2 x 1 image at (1, 2) with a local table. -/
theorem test_rImage :
    ((after (exec .rImage (rAt .imgDesc (([1, 0, 2, 0, 2, 0, 1, 0, 0x80, 0, 0, 0, 0xFF, 0xFF, 0xFF, 2, 2, 0x44, 0x0A,
        0] : List Byte).map .byte)))).map fun t => (t.reader.imgLeft, t.reader.pixRemain,
      t.reader.dW, t.reader.dFree, t.reader.dout)) = some (1, 2, 3, 6, [0, 0, 0, 0xFF, 0xFF, 0xFF]) := by decide

/-- V-R16: a 0 x 5 image is read whole. -/
theorem test_rImage_empty :
    ((after (exec .rImage (rAt .imgDesc (([0, 0, 0, 0, 0, 0, 5, 0, 0, 2, 1, 0x2C, 0] : List Byte).map .byte)))).map
      fun t => (t.last, t.reader.state, t.reader.rows.row, t.reader.rows.pass, t.reader.sinRead)) =
      some (.ok, .top, 0, 0, 13) := by decide

/-- V-D1: four pixels of V-E1 leave two pending. -/
theorem test_rPixels_partial :
    ((after (exec (.rPixels 4#24) (rPix dataE1))).map fun t =>
      (t.reader.dout, t.reader.dPend, t.reader.dFree, t.reader.dW, t.reader.rows.row)) =
      some ([0, 0, 0, 0], [0, 0], 8, 4, 1) := by decide

/-- V-F1: a code above the free-code counter. -/
theorem test_rPixels_corrupt :
    ((after (exec (.rPixels 4#24) (rPix (([2, 0xC4, 1, 0] : List Byte).map .byte)))).map fun t =>
      (t.last, t.reader.err, t.reader.dout, t.reader.sinRead)) = some (.corruptData, .corruptData, [0], 3) := by decide

/-! ### The writer -/

/-- V-W4: no table. -/
theorem test_wOpen_no_table :
    ((after (exec (.wOpen 0#1) (wAt .idle [2, 0, 2, 0, 0, 0, 0]))).map fun t =>
      (t.last, t.writer.sout, t.writer.gctBpp, t.writer.state)) =
      some (.ok, [0x47, 0x49, 0x46, 0x38, 0x37, 0x61, 2, 0, 2, 0, 0, 0, 0], 0, .top) := by decide

/-- V-W3: one byte of the table is missing. -/
theorem test_wOpen_short_table :
    ((after (exec (.wOpen 1#1) (wAt .idle [4, 0, 4, 0, 0x91, 0, 0, 1, 2, 3, 4, 5, 6, 7, 8, 9, 10, 11]))).map fun t =>
      (t.last, t.writer.din.length, t.writer.sout)) = some (.invalidSequence, 18, []) := by decide

/-- V-W5. -/
theorem test_wExt :
    ((after (exec (.wExt 0xFE#8) (wAt .top []))).map fun t => (t.last, t.writer.sout, t.writer.state)) =
      some (.ok, [0x21, 0xFE], .extData) := by decide

/-- V-W6. -/
theorem test_wExtBlock :
    ((after (exec (.wExtBlock 2#8) (wAt .extData [0x48, 0x69]))).map fun t => (t.last, t.writer.sout, t.writer.din)) =
      some (.ok, [2, 0x48, 0x69], []) := by decide

/-- V-W7: OutOfRange comes before the DIN check. -/
theorem test_wExtBlock_zero :
    ((after (exec (.wExtBlock 0#8) (wAt .extData []))).map fun t => t.last) = some .outOfRange := by decide

/-- V-W9. -/
theorem test_wExtEnd :
    ((after (exec .wExtEnd (wAt .extData []))).map fun t => (t.last, t.writer.sout, t.writer.state)) =
      some (.ok, [0], .top) := by decide

/-- V-W11: the reserved bits of 0x5A are cleared. -/
theorem test_wImage_reserved_bits :
    ((after (exec .wImage { State.reset with writer := { Writer.reset with
        state := .top, gctBpp := 2, din := [0, 0, 0, 0, 1, 0, 1, 0, 0x5A] } })).map fun t =>
      (t.last, t.writer.sout, t.writer.imgPacked, t.writer.rows.il)) =
      some (.ok, [0x2C, 0, 0, 0, 0, 1, 0, 1, 0, 0x42, 2], 0x42, 1) := by decide

/-- V-W12: no color table applies. -/
theorem test_wImage_no_table :
    ((after (exec .wImage (wAt .top [0, 0, 0, 0, 2, 0, 2, 0, 0]))).map fun t => (t.last, t.writer.din.length)) =
      some (.corruptData, 9) := by decide

/-- V-W10 in one command: sixteen pixels 0 (V-E1). -/
theorem test_wPixels_E1 :
    ((after (exec (.wPixels 16#24) (wPix (List.replicate 16 0)))).map fun t =>
      (t.writer.sout, t.writer.cW, t.writer.cFree, t.writer.rows.pass, t.writer.state)) =
      some ([4, 0x84, 0x8F, 9, 5, 0], 4, 11, 4, .top) := by decide

/-- V-W16, with a depth of 2: the pixel 4 is no index. -/
theorem test_wPixels_out_of_range :
    ((after (exec (.wPixels 4#24) (wPix [0, 1, 4, 0]))).map fun t => (t.last, t.writer.din)) =
      some (.outOfRange, [0, 1, 4, 0]) := by decide

/-- V-W21. -/
theorem test_wTrailer :
    ((after (exec .wTrailer (wAt .top []))).map fun t => (t.last, t.writer.sout, t.writer.state)) =
      some (.ok, [0x3B], .done) := by decide

/-- V-W24: the sticky failure code. -/
theorem test_sticky_code :
    ((after (exec (.wExt 0xFE#8) wFailed)).map fun t => (t.last, t.writer.sout)) = some (.ioError, []) := by decide

/-! ### Row tracker -/

/-- V-L1, H = 5: the rows of an interlaced image of width 1. -/
theorem test_interlace_rows :
    ((List.range 6).map fun k => ((rowAdvances k (rowInit 1 5 1)).row, (rowAdvances k (rowInit 1 5 1)).pass)) =
      [(0, 0), (4, 1), (2, 2), (1, 3), (3, 3), (5, 4)] := by decide


/-! ### Witnesses: for each obligation with hypotheses, a state and operands that meet them, clause by clause -/

/-- The invariant holds right after reset. -/
theorem reset_inv : Inv State.reset :=
  ⟨rfl, ⟨by decide, by decide⟩, by decide, by decide, by decide, by decide, by decide⟩

/-- The invariant holds of a reader that has opened an image; no clause speaks of SIN. -/
theorem rOpenImage_inv (sin : List SrcAnswer) : ReaderInv (rOpenImage sin) :=
  have h : ReaderInv (rOpenImage []) :=
    ⟨by decide, fun _ => ⟨by decide, by decide, by decide, by decide, by decide,
      ⟨by decide, by decide, fun _ h => by cases h⟩, by decide, by decide, by decide⟩⟩
  h

/-- The invariant holds of a writer that has opened an image; no clause speaks of DIN. -/
theorem wOpenImage_inv (din : List Byte) : WriterInv (wOpenImage din) :=
  have h : WriterInv (wOpenImage []) :=
    ⟨by decide, by decide, by decide,
      fun _ => ⟨by decide, by decide, by decide,
        ⟨by decide, by decide, by decide, by decide, (fun _ h => by cases h), List.Pairwise.nil⟩, by decide⟩,
      fun h => absurd rfl h⟩
  h

/-- The machine with an open image in the reader meets the invariant. -/
theorem rPix_inv (sin : List SrcAnswer) : Inv (rPix sin) :=
  ⟨rfl, rOpenImage_inv sin, reset_inv.2.2⟩

/-- The machine with an open image in the writer meets the invariant. -/
theorem wPix_inv (din : List Byte) : Inv (wPix din) :=
  ⟨rfl, reset_inv.2.1, wOpenImage_inv din⟩

theorem witness_DecodeOfEncode :
    (Instr.rPixels 0xFFFFFF#24).wf = true ∧ (Instr.reset 3#2).wf = true ∧ (Instr.wExtBlock 0#8).wf = true := by decide

theorem witness_EncodeOfDecode :
    decode 0x15FFFFFF#32 = .instr (.rPixels 0xFFFFFF#24) ∧ decode 0x01000001#32 = .instr (.reset 1#2) := by decide

theorem witness_IllegalWordsAreThese :
    legalWord 0x01000000#32 = false ∧ legalWord 0x20000002#32 = false ∧ legalWord 0xFF000000#32 = false ∧
    legalWord 0x20000001#32 = true := by decide

theorem witness_StepRunsDecodedCommand :
    (about (.write 3#12 0x10000000#32) State.reset).host = .write 3#12 0x10000000#32 :: [] ∧ (3#12).toNat < 4 ∧
    State.reset.busy = false ∧ decode 0x10000000#32 = .instr .rOpen := by decide

theorem witness_IllegalWordRejected :
    (about (.write cmdOffset 0xFF000000#32) rFailed).host = .write cmdOffset 0xFF000000#32 :: [] ∧
    rFailed.busy = false ∧ legalWord 0xFF000000#32 = false := by decide

theorem witness_DinWriteAppends :
    ((about (.write 0x008#12 (0xFFFFFF#24 ++ 0x48#8)) State.reset).host =
        .write 0x008#12 (0xFFFFFF#24 ++ 0x48#8) :: [] ∧ State.reset.busy = false) ∧
    (about (.read 0x008#12) State.reset).host = .read 0x008#12 :: [] := by decide

theorem witness_DoutReadPops :
    (∃ (s : State) (b : Byte) (more : List Byte) (rest : List HostMove),
      s.host = .read 0x00C#12 :: rest ∧ s.busy = false ∧ s.reader.dout = b :: more) ∧
    ∃ (s : State) (rest : List HostMove), s.host = .read 0x00C#12 :: rest ∧ s.busy = false ∧ s.reader.dout = [] :=
  ⟨⟨about (.read 0x00C#12) { State.reset with reader := { Reader.reset with dout := [0xFF] } }, 0xFF, [], [],
      rfl, rfl, rfl⟩,
    about (.read 0x00C#12) State.reset, [], rfl, rfl, rfl⟩

theorem witness_OtherAccessesHaveNoEffect :
    (∃ (s : State) (offset : BitVec 12) (rest : List HostMove),
      s.host = .read offset :: rest ∧ offset.toNat / 4 ≠ 0x00C / 4) ∧
    (∃ (s : State) (offset : BitVec 12) (value : Word) (rest : List HostMove), s.host = .write offset value :: rest ∧
      offset.toNat / 4 ≠ 0 ∧ offset.toNat / 4 ≠ 0x008 / 4) ∧
    ∃ (s : State) (offset : BitVec 12) (value : Word) (rest : List HostMove), s.host = .write offset value :: rest ∧
      offset.toNat / 4 = 0 ∧ s.busy = true ∧ offset.toNat / 4 ≠ 0x008 / 4 :=
  ⟨⟨about (.read 0x010#12) State.reset, 0x010#12, [], rfl, by decide⟩,
    ⟨about (.write 0xFFC#12 1#32) State.reset, 0xFFC#12, 1#32, [], rfl, by decide, by decide⟩,
    about (.write 0x000#12 1#32) { State.reset with busy := true }, 0x000#12, 1#32, [], rfl, by decide, rfl,
      by decide⟩

theorem witness_RegisterMap :
    (rFailed.last = .ok ∧ rFailed.busy = false ∧ rFailed.reader.err = .notAGifFile ∧ wFailed.writer.err = .ioError ∧
      rFailed.reader.state = .failed ∧ rFailed.reader.recType = .none ∧ wFailed.writer.state = .failed ∧
      ({ rFailed with busy := true } : State).busy = true) ∧
    (rFailed.reader.dout = [] ∧
      ({ rFailed with reader := { Reader.reset with dout := [0xFF, 1] } } : State).reader.dout = 0xFF :: [1]) ∧
    ({ Writer.reset with pBuf := List.replicate 254 0 } : Writer).pBuf.length ≤ 254 ∧
    (0x010#12).toNat / 4 = (0x013#12).toNat / 4 ∧ 4 * ((0x018#12).toNat / 4) ∉ listedOffsets ∧
    4 * ((0xFFC#12).toNat / 4) ∉ listedOffsets ∧ 4 * ((0x15F#12).toNat / 4) ∉ listedOffsets := by
  exact ⟨by decide, by decide, Nat.le_of_eq List.length_replicate, by decide, by decide, by decide, by decide⟩

theorem witness_ResetValues :
    (about .powerOn rFailed).host = .powerOn :: [] ∧ rFailed.busy = false := by decide

theorem witness_FailedChannelRejects :
    (Instr.rPixels 0xFFFFFF#24).isReader = true ∧ rFailed.reader.state = .failed ∧
    Instr.wTrailer.isWriter = true ∧ wFailed.writer.state = .failed ∧
    (∃ t, exec .wTrailer rFailed = .next t) ∧ ∃ t, exec .rNext wFailed = .next t :=
  ⟨rfl, rfl, rfl, rfl, ⟨_, rfl⟩, _, rfl⟩

theorem witness_OutOfSequenceRejects :
    (readerNeeds .rNext = some .top ∧ (rAt .done []).reader.state ≠ .failed ∧ (rAt .done []).reader.state ≠ .top) ∧
    (writerNeeds .wTrailer = some .top ∧ (wPix []).writer.state ≠ .failed ∧ (wPix []).writer.state ≠ .top) ∧
    1#2 ≠ 0#2 := by decide

theorem witness_ChecksInOrder :
    ((wAt .extData []).writer.state = .extData ∧ 1#8 ≠ 0#8 ∧ (wAt .extData []).writer.din.length < (1#8).toNat) ∧
    ((wAt .top [1, 2, 3, 4, 5, 6, 7, 8]).writer.state = .top ∧
      (wAt .top [1, 2, 3, 4, 5, 6, 7, 8]).writer.din.length < 9) ∧
    (9 ≤ (wAt .top [0, 0, 0, 0, 2, 0, 2, 0, 0x80]).writer.din.length ∧
      (wAt .top [0, 0, 0, 0, 2, 0, 2, 0, 0x80]).writer.din.length <
        9 + tableSize ((wAt .top [0, 0, 0, 0, 2, 0, 2, 0, 0x80]).writer.din.getD 8 0#8)) ∧
    (9 + tableSize ((wAt .top [0, 0, 0, 0, 2, 0, 2, 0, 0]).writer.din.getD 8 0#8) ≤
        (wAt .top [0, 0, 0, 0, 2, 0, 2, 0, 0]).writer.din.length ∧
      tableSize ((wAt .top [0, 0, 0, 0, 2, 0, 2, 0, 0]).writer.din.getD 8 0#8) = 0 ∧
      (wAt .top [0, 0, 0, 0, 2, 0, 2, 0, 0]).writer.gctBpp = 0#4) ∧
    ((wPix [7]).writer.state = .pixels ∧ (wPix [7]).writer.pixRemain.toNat < (17#24).toNat) ∧
    ((16#24).toNat ≤ (wPix [7]).writer.pixRemain.toNat ∧ (wPix [7]).writer.din.length < (16#24).toNat) ∧
    ((1#24).toNat ≤ (wPix [4]).writer.pixRemain.toNat ∧ (1#24).toNat ≤ (wPix [4]).writer.din.length ∧
      ∃ p ∈ (wPix [4]).writer.din.take (1#24).toNat, 2 ^ (wPix [4]).writer.bpp.toNat ≤ p.toNat) ∧
    ((rPix []).reader.state = .pixels ∧ (rPix []).reader.pixRemain.toNat < (17#24).toNat) ∧
    ((wAt .idle [1, 2, 3, 4, 5, 6]).writer.state = .idle ∧ (wAt .idle [1, 2, 3, 4, 5, 6]).writer.din.length < 7) ∧
    ((wAt .idle [4, 0, 4, 0, 0x80, 0, 0, 1, 2, 3, 4, 5]).writer.state = .idle ∧
      (wAt .idle [4, 0, 4, 0, 0x80, 0, 0, 1, 2, 3, 4, 5]).writer.din.length <
        7 + tableSize ((wAt .idle [4, 0, 4, 0, 0x80, 0, 0, 1, 2, 3, 4, 5]).writer.din.getD 4 0#8)) := by
  decide

theorem witness_ReportableCodes :
    (∃ t, exec .rNext rFailed = .next t) ∧ (∃ t, exec (.reset 0#2) rFailed = .next t) ∧
    (∃ t, exec (.reset 3#2) rFailed = .next t) ∧ legalWord 0x01000004#32 = false :=
  ⟨⟨_, rfl⟩, ⟨_, rfl⟩, ⟨_, rfl⟩, by decide⟩

theorem witness_RejectionChangesOnlyLast :
    ∃ t, issueWord 0xFF000000#32 rFailed = .next t ∧ t.last ≠ .ok ∧
      (t.reader.state = .failed → rFailed.reader.state = .failed) ∧
      (t.writer.state = .failed → rFailed.writer.state = .failed) :=
  ⟨_, rfl, by decide, fun _ => rfl, fun h => h⟩

theorem witness_FailureIsRecordedAndSticky :
    (∃ t, exec .rNext (rAt .top []) = .next t ∧ (rAt .top []).reader.state ≠ .failed ∧ t.reader.state = .failed) ∧
    (∃ (s t : State), exec .wTrailer s = .next t ∧ s.writer.state ≠ .failed ∧ t.writer.state = .failed) ∧
    (∃ t, exec (.reset 2#2) rFailed = .next t ∧ rFailed.reader.state = .failed ∧
      ∀ sel, Instr.reset 2#2 = .reset sel → sel.getLsbD 0 = false) ∧
    ∃ t, exec (.reset 1#2) wFailed = .next t ∧ wFailed.writer.state = .failed ∧
      ∀ sel, Instr.reset 1#2 = .reset sel → sel.getLsbD 1 = false :=
  ⟨⟨_, rfl, by decide, rfl⟩,
    ⟨{ State.reset with writer := { Writer.reset with state := .top, sinkAnswers := [.error] } }, _, rfl, by decide, rfl⟩,
    ⟨_, rfl, rfl, fun _ h => by injection h with h; subst h; decide⟩,
    _, rfl, rfl, fun _ h => by injection h with h; subst h; decide⟩

theorem witness_ChannelIsolation :
    (Instr.rNext.isReader = true ∧ ∃ t, exec .rNext (rAt .top [.byte 0x2C]) = .next t) ∧
    (Instr.wTrailer.isWriter = true ∧ ∃ t, exec .wTrailer (wAt .top []) = .next t) ∧
    { rAt .top [.byte 0x2C] with writer := wFailed.writer }.reader = (rAt .top [.byte 0x2C]).reader ∧
    { wAt .top [] with reader := rFailed.reader }.writer = (wAt .top []).writer :=
  ⟨⟨rfl, _, rfl⟩, ⟨rfl, _, rfl⟩, rfl, rfl⟩

theorem witness_StreamsMoveForward :
    (∃ t, exec (.reset 3#2) (wPix [1]) = .next t) ∧
    (∃ t, exec .rNext (rAt .top [.byte 0x2C]) = .next t) ∧ ∀ sel, Instr.rNext ≠ .reset sel :=
  ⟨⟨_, rfl⟩, ⟨_, rfl⟩, fun _ h => by cases h⟩

theorem witness_ResetCommand : 1#2 ≠ 0#2 ∧ 2#2 ≠ 0#2 ∧ 3#2 ≠ 0#2 := by decide

/-- A header with a table of two entries, one of the other version with no table, one that is no signature, and headers
cut inside the signature, inside the descriptor and inside the table. -/
theorem witness_ROpenReadsHeader :
    ((rAt .top []).reader.state ≠ .failed ∧ (rAt .top []).reader.state ≠ .idle) ∧
    (∃ (s : State) (v d0 d1 d2 d3 d4 d5 d6 : Byte) (table : List Byte) (rest : List SrcAnswer),
      s.reader.state = .idle ∧ (v = 0x37#8 ∨ v = 0x39#8) ∧ table.length = tableSize d4 ∧ d4 = 0x80#8 ∧
      s.reader.sin =
        ([0x47#8, 0x49#8, 0x46#8, 0x38#8, v, 0x61#8, d0, d1, d2, d3, d4, d5, d6] ++ table).map .byte ++ rest) ∧
    (∃ (s : State) (v d0 d1 d2 d3 d4 d5 d6 : Byte) (table : List Byte) (rest : List SrcAnswer),
      s.reader.state = .idle ∧ (v = 0x37#8 ∨ v = 0x39#8) ∧ table.length = tableSize d4 ∧ d4 = 0x07#8 ∧
      s.reader.sin =
        ([0x47#8, 0x49#8, 0x46#8, 0x38#8, v, 0x61#8, d0, d1, d2, d3, d4, d5, d6] ++ table).map .byte ++ rest) ∧
    (∃ (s : State) (sig : List Byte) (rest : List SrcAnswer),
      s.reader.state = .idle ∧ sig.length = 6 ∧ sig ≠ [0x47#8, 0x49#8, 0x46#8, 0x38#8, 0x37#8, 0x61#8] ∧
      sig ≠ [0x47#8, 0x49#8, 0x46#8, 0x38#8, 0x39#8, 0x61#8] ∧ s.reader.sin = sig.map .byte ++ rest) ∧
    (∃ (s : State) (got : List Byte) (tail rest : List SrcAnswer) (e : Status),
      s.reader.state = .idle ∧ s.reader.sin = got.map .byte ++ tail ∧ streamEnd tail = some (e, rest) ∧
      got.length < 6) ∧
    ∀ got ∈ [[0x47#8, 0x49#8, 0x46#8, 0x38#8, 0x37#8, 0x61#8],
        [0x47#8, 0x49#8, 0x46#8, 0x38#8, 0x39#8, 0x61#8, 0, 0, 0, 0, 0x80, 0],
        [0x47#8, 0x49#8, 0x46#8, 0x38#8, 0x39#8, 0x61#8, 0, 0, 0, 0, 0x80, 0, 0, 1, 2, 3, 4, 5]],
      (rAt .idle (got.map .byte ++ [.error])).reader.sin = got.map .byte ++ [.error] ∧
      streamEnd [.error] = some (.ioError, []) ∧
      (got.take 6 = [0x47#8, 0x49#8, 0x46#8, 0x38#8, 0x37#8, 0x61#8] ∨
        got.take 6 = [0x47#8, 0x49#8, 0x46#8, 0x38#8, 0x39#8, 0x61#8]) ∧
      got.length < 13 + tableSize (got.getD 10 0#8) := by
  refine ⟨by decide, ?_, ?_, ?_, ?_, by decide⟩
  · exact ⟨rAt .idle (([0x47, 0x49, 0x46, 0x38, 0x39, 0x61, 1, 0, 1, 0, 0x80, 0, 0, 1, 2, 3, 4, 5, 6] : List
      Byte).map .byte ++ [.atEnd]), 0x39, 1, 0, 1, 0, 0x80, 0, 0, [1, 2, 3, 4, 5, 6], [.atEnd], rfl, by decide, rfl,
      rfl, rfl⟩
  · exact ⟨rAt .idle (([0x47, 0x49, 0x46, 0x38, 0x37, 0x61, 1, 0, 1, 0, 0x07, 0, 0] : List Byte).map .byte ++ []),
      0x37, 1, 0, 1, 0, 0x07, 0, 0, [], [], rfl, by decide, rfl, rfl, rfl⟩
  · exact ⟨rAt .idle (([0x47, 0x49, 0x46, 0x38, 0x39, 0x62] : List Byte).map .byte ++ []),
      [0x47, 0x49, 0x46, 0x38, 0x39, 0x62], [], rfl, rfl, by decide, by decide, rfl⟩
  · exact ⟨rAt .idle (([0x47, 0x49, 0x46, 0x38, 0x39] : List Byte).map .byte ++ [.atEnd]),
      [0x47, 0x49, 0x46, 0x38, 0x39], [.atEnd], [], .unexpectedEndOfData, rfl, rfl, rfl, by decide⟩

theorem witness_RNextReadsIntroducer :
    ((rAt .done []).reader.state ≠ .failed ∧ (rAt .done []).reader.state ≠ .top) ∧
    (∀ x ∈ [0x21#8, 0x2C#8, 0x3B#8, 0x00#8],
      (rAt .top [.byte x]).reader.state = .top ∧ (rAt .top [.byte x]).reader.sin = .byte x :: []) ∧
    (rAt .top []).reader.state = .top ∧
    streamEnd (rAt .top []).reader.sin = some (.unexpectedEndOfData, []) ∧
    streamEnd (rAt .top [.error, .byte 1]).reader.sin = some (.ioError, [.byte 1]) := by decide

theorem witness_RExtReadsCode :
    ((rAt .top []).reader.state ≠ .failed ∧ (rAt .top []).reader.state ≠ .extCode) ∧
    ((rAt .extCode [.byte 0xF9]).reader.state = .extCode ∧
      (rAt .extCode [.byte 0xF9]).reader.sin = .byte 0xF9 :: []) ∧
    (rAt .extCode [.atEnd]).reader.state = .extCode ∧
    streamEnd (rAt .extCode [.atEnd]).reader.sin = some (.unexpectedEndOfData, []) := by decide

theorem witness_RExtBlockReadsSubBlock :
    ((rAt .top []).reader.state ≠ .failed ∧ (rAt .top []).reader.state ≠ .extData) ∧
    ((rAt .extData [.byte 0]).reader.state = .extData ∧ (rAt .extData [.byte 0]).reader.sin = .byte 0#8 :: []) ∧
    (∃ (s : State) (l : Byte) (d : List Byte) (rest : List SrcAnswer), s.reader.state = .extData ∧ l ≠ 0#8 ∧
      d.length = l.toNat ∧ s.reader.sin = .byte l :: d.map .byte ++ rest) ∧
    (∃ (s : State) (l : Byte) (got : List Byte) (tail rest : List SrcAnswer) (e : Status),
      s.reader.state = .extData ∧ got.length < l.toNat ∧ s.reader.sin = .byte l :: got.map .byte ++ tail ∧
      streamEnd tail = some (e, rest)) ∧
    (rAt .extData []).reader.state = .extData ∧
    streamEnd (rAt .extData []).reader.sin = some (.unexpectedEndOfData, []) := by
  refine ⟨by decide, by decide, ?_, ?_, by decide, by decide⟩
  · exact ⟨rAt .extData [.byte 1, .byte 0x48], 1, [0x48], [], rfl, by decide, rfl, rfl⟩
  · exact ⟨rAt .extData [.byte 3, .byte 0x41, .byte 0x42, .error], 3, [0x41, 0x42], [.error], [], .ioError, rfl,
      by decide, rfl, rfl⟩

/-- V-R15: the smallest code size and a local table; and the largest code size without one. -/
theorem witness_RImageStarts :
    (∃ (s : State) (d0 d1 d2 d3 d4 d5 d6 d7 d8 b : Byte) (table : List Byte) (rest : List SrcAnswer),
      s.reader.state = .imgDesc ∧ table.length = tableSize d8 ∧ 2 ≤ b.toNat ∧ b.toNat ≤ 8 ∧
      (d5 ++ d4 : Half) ≠ 0#16 ∧ (d7 ++ d6 : Half) ≠ 0#16 ∧
      s.reader.sin = ([d0, d1, d2, d3, d4, d5, d6, d7, d8] ++ table ++ [b]).map .byte ++ rest) ∧
    ∃ (s : State) (d0 d1 d2 d3 d4 d5 d6 d7 d8 b : Byte) (table : List Byte) (rest : List SrcAnswer),
      s.reader.state = .imgDesc ∧ table.length = tableSize d8 ∧ 2 ≤ b.toNat ∧ b.toNat ≤ 8 ∧
      (d5 ++ d4 : Half) ≠ 0#16 ∧ (d7 ++ d6 : Half) ≠ 0#16 ∧
      s.reader.sin = ([d0, d1, d2, d3, d4, d5, d6, d7, d8] ++ table ++ [b]).map .byte ++ rest := by
  refine ⟨?_, ?_⟩
  · exact ⟨rAt .imgDesc (([1, 0, 2, 0, 2, 0, 1, 0, 0x80, 1, 2, 3, 4, 5, 6, 2] : List Byte).map .byte ++ [.byte 2]),
      1, 0, 2, 0, 2, 0, 1, 0, 0x80, 2, [1, 2, 3, 4, 5, 6], [.byte 2], rfl, rfl, by decide, by decide, by decide,
      by decide, rfl⟩
  · exact ⟨rAt .imgDesc (([0, 0, 0, 0, 0xFF, 0xFF, 0xFF, 0xFF, 0x40, 8] : List Byte).map .byte ++ []),
      0, 0, 0, 0, 0xFF, 0xFF, 0xFF, 0xFF, 0x40, 8, [], [], rfl, rfl, by decide, by decide, by decide, by decide, rfl⟩

/-- A 1 x 1 image. -/
def oneByOne : State := rAt .imgDesc (([0, 0, 0, 0, 1, 0, 1, 0, 0, 2] : List Byte).map .byte)

theorem witness_RImageLeavesFirstPixel :
    ∃ t : State, oneByOne.reader.state = .imgDesc ∧ exec .rImage oneByOne = .next t ∧ t.last = .ok ∧
      0 < t.reader.imgW.toNat * t.reader.imgH.toNat :=
  ⟨_, rfl, rfl, rfl, by decide⟩

/-- Code sizes just outside 2 to 8, and streams cut inside the descriptor and before the code size. -/
theorem witness_RImageFailures :
    (∃ (s : State) (d0 d1 d2 d3 d4 d5 d6 d7 d8 b : Byte) (table : List Byte) (rest : List SrcAnswer),
      s.reader.state = .imgDesc ∧ table.length = tableSize d8 ∧ b.toNat < 2 ∧
      s.reader.sin = ([d0, d1, d2, d3, d4, d5, d6, d7, d8] ++ table ++ [b]).map .byte ++ rest) ∧
    (∃ (s : State) (d0 d1 d2 d3 d4 d5 d6 d7 d8 b : Byte) (table : List Byte) (rest : List SrcAnswer),
      s.reader.state = .imgDesc ∧ table.length = tableSize d8 ∧ 8 < b.toNat ∧
      s.reader.sin = ([d0, d1, d2, d3, d4, d5, d6, d7, d8] ++ table ++ [b]).map .byte ++ rest) ∧
    ∀ got ∈ [[1#8, 2], [0, 0, 0, 0, 1, 0, 1, 0, 0], [0, 0, 0, 0, 1, 0, 1, 0, 0x80, 1, 2, 3, 4, 5, 6]],
      (rAt .imgDesc (got.map .byte ++ [.atEnd])).reader.sin = got.map .byte ++ [.atEnd] ∧
      streamEnd [.atEnd] = some (.unexpectedEndOfData, []) ∧ got.length ≤ 9 + tableSize (got.getD 8 0#8) := by
  refine ⟨?_, ?_, by decide⟩
  · exact ⟨rAt .imgDesc (([0, 0, 0, 0, 1, 0, 1, 0, 0, 1] : List Byte).map .byte ++ []), 0, 0, 0, 0, 1, 0, 1, 0, 0, 1,
      [], [], rfl, rfl, by decide, rfl⟩
  · exact ⟨rAt .imgDesc (([0, 0, 0, 0, 1, 0, 1, 0, 0, 9] : List Byte).map .byte ++ []), 0, 0, 0, 0, 1, 0, 1, 0, 0, 9,
      [], [], rfl, rfl, by decide, rfl⟩

/-- V-F12: the canonical empty image, one sub-block of one byte 2C with the Clear Code 4 and the EOF Code 5; an EOF Code
alone whose pad bits and further bytes are not zero (U2); three Clear Codes and the EOF Code over two sub-blocks. And for
the clauses on the epilogue: pixels pending; the EOF Code read, a byte to skip, then the terminator, another byte, or the
end of the stream in either place; a code to read, which ReadCode fails to, which is corrupt, and which is not. -/
theorem witness_RImageEmptyRaster :
    (∃ (s : State) (d0 d1 d2 d3 d4 d5 d6 d7 d8 b : Byte) (table : List Byte) (rest : List SrcAnswer),
      s.reader.state = .imgDesc ∧ table.length = tableSize d8 ∧ 2 ≤ b.toNat ∧ b.toNat ≤ 8 ∧
      (d5 ++ d4 : Half).toNat * (d7 ++ d6 : Half).toNat = 0 ∧
      s.reader.sin = ([d0, d1, d2, d3, d4, d5, d6, d7, d8] ++ table ++ [b]).map .byte ++ rest ∧ b = 2 ∧
      rest = (inSubBlocks ([] ++ [[0x2C]]) ++ [0#8]).map .byte ++ []) ∧
    (∀ x ∈ [(([] : List (List Byte)), ([0x2C] : List Byte), 1), ([], [0xED, 9], 0), ([[0x24]], [0x5B, 1], 3)],
      (∀ d ∈ x.1 ++ [x.2.1], 1 ≤ d.length ∧ d.length ≤ 255) ∧ 8 * x.1.flatten.length < (x.2.2 + 1) * (2 + 1) ∧
      (x.2.2 + 1) * (2 + 1) ≤ 8 * (x.1 ++ [x.2.1]).flatten.length ∧
      (∀ k, k < x.2.2 → codeAt (x.1 ++ [x.2.1]).flatten (2 + 1) k = 2 ^ 2) ∧
      codeAt (x.1 ++ [x.2.1]).flatten (2 + 1) x.2.2 = 2 ^ 2 + 1) ∧
    { rOpenImage [] with dPend := [1] }.dPend ≠ [] ∧
    (∀ l ∈ [0#8, 7#8], [9#8].length = (1#8).toNat ∧
      { rOpenImage [.byte 9, .byte l] with dDone := true, uLeft := 1 }.sin = ([9#8] ++ [l]).map SrcAnswer.byte ++ []) ∧
    (∀ got ∈ [([] : List Byte), [9]], got.length ≤ (1#8).toNat ∧
      { rOpenImage (got.map SrcAnswer.byte ++ [SrcAnswer.error]) with dDone := true, uLeft := 1 }.sin =
        got.map SrcAnswer.byte ++ [SrcAnswer.error] ∧
      streamEnd [SrcAnswer.error] = some (.ioError, [])) ∧
    (DecoderOk (rOpenImage []) ∧ (rOpenImage []).dPend = [] ∧ (rOpenImage []).dDone = false) ∧
    (∃ e r1, readCode 3 (rOpenImage []) = .raise e r1) ∧
    (∃ c r1, readCode 3 (rOpenImage [.byte 1, .byte 7]) = .ok c r1 ∧ ∃ e r2, applyCode c r1 = .raise e r2) ∧
    ∃ c r1, readCode 3 (rOpenImage [.byte 1, .byte 4]) = .ok c r1 ∧ ∃ r2, applyCode c r1 = .ok () r2 := by
  refine ⟨?_, by decide, by decide, by decide, by decide, ⟨((rOpenImage_inv []).2 rfl).2.2.2, rfl, rfl⟩, ⟨_, _, rfl⟩,
    ⟨_, _, rfl, _, _, rfl⟩, _, _, rfl, _, rfl⟩
  exact ⟨rAt .imgDesc (([0, 0, 0, 0, 0, 0, 5, 0, 0, 2, 1, 0x2C, 0] : List Byte).map .byte), 0, 0, 0, 0, 0, 0, 5, 0, 0,
    2, [], _, rfl, rfl, by decide, by decide, by decide, rfl, rfl, rfl⟩

theorem witness_RPixelsFromPending :
    ((rPix []).reader.state = .pixels ∧ (rPix []).reader.pixRemain.toNat < (17#24).toNat) ∧
    ∃ (s : State) (count : BitVec 24), s.reader.state = .pixels ∧ 0 < count.toNat ∧
      count.toNat ≤ s.reader.dPend.length ∧ count.toNat < s.reader.pixRemain.toNat :=
  ⟨by decide, { State.reset with reader := { rOpenImage [] with dPend := [1, 2] } }, 2#24, rfl, by decide, by decide,
    by decide⟩

/-- Clause by clause: V-D1; the EOF Code read too early; the raster full, exactly and with a pixel too many (V-D7); more
pixels needed, with a code that ReadCode fails to read (V-F4: the terminator), one that is corrupt, and one that is
neither; and for ReadCode: bits enough, the terminator read before, a terminator, a length byte, a data byte, an error. -/
theorem witness_RPixelsDelivers :
    (Inv (rPix dataE1) ∧ sourceAnswers (rPix dataE1).reader ∧ (rPix dataE1).reader.state = .pixels ∧
      (16#24).toNat ≤ (rPix dataE1).reader.pixRemain.toNat) ∧
    (∃ s : State, s.reader.state = .pixels ∧ s.reader.dDone = true ∧ s.reader.dPend.length < (16#24).toNat ∧
      (16#24).toNat ≤ s.reader.pixRemain.toNat) ∧
    (∃ s : State, s.reader.state = .pixels ∧ 0 < (1#24).toNat ∧ (1#24).toNat = s.reader.pixRemain.toNat ∧
      (1#24).toNat ≤ s.reader.dPend.length ∧ ¬((1#24).toNat < s.reader.dPend.length)) ∧
    (∃ s : State, s.reader.state = .pixels ∧ 0 < (1#24).toNat ∧ (1#24).toNat = s.reader.pixRemain.toNat ∧
      (1#24).toNat < s.reader.dPend.length) ∧
    (∀ sin : List SrcAnswer, Inv (rPix sin) ∧ (rPix sin).reader.state = .pixels ∧ (rPix sin).reader.dDone = false ∧
      (rPix sin).reader.dPend.length < (1#24).toNat ∧ (1#24).toNat ≤ (rPix sin).reader.pixRemain.toNat) ∧
    (∃ e r, readCode 3 (rPix [.byte 0]).reader = .raise e r) ∧
    (∃ c r1, readCode 3 (rPix [.byte 1, .byte 7]).reader = .ok c r1 ∧ ∃ e r, applyCode c r1 = .raise e r) ∧
    (∃ c r1, readCode 3 (rPix [.byte 1, .byte 0]).reader = .ok c r1 ∧ ∃ r, applyCode c r1 = .ok () r) ∧
    (3 ≤ { rOpenImage [] with uCnt := 3 }.uCnt) ∧
    ((rOpenImage []).uCnt < 3 ∧ (rOpenImage []).uLeft = 0#8 ∧ { rOpenImage [] with uEnd := true }.uEnd = true) ∧
    ((rOpenImage [.byte 0]).uEnd = false ∧ (rOpenImage [.byte 0]).sin = .byte 0 :: [] ∧
      (rOpenImage [.byte 255]).sin = .byte 255 :: []) ∧
    ({ rOpenImage [.byte 7] with uLeft := 1 }.uLeft ≠ 0#8 ∧ (rOpenImage [.byte 7]).sin = .byte 7 :: []) ∧
    streamEnd (rOpenImage [.error]).sin = some (.ioError, []) :=
  ⟨⟨rPix_inv _, by decide, rfl, by decide⟩,
    ⟨{ State.reset with reader := { rOpenImage [] with dDone := true, dPend := [3] } }, rfl, rfl, by decide, by decide⟩,
    ⟨{ State.reset with reader := { rOpenImage [] with pixRemain := 1, dPend := [3] } }, rfl, by decide, by decide,
      by decide, by decide⟩,
    ⟨{ State.reset with reader := { rOpenImage [] with pixRemain := 1, dPend := [3, 3] } }, rfl, by decide, by decide,
      by decide⟩,
    (fun sin => ⟨rPix_inv sin, rfl, rfl, show 0 < 1 by decide, show 1 ≤ 16 by decide⟩), ⟨_, _, rfl⟩,
    ⟨_, _, rfl, _, _, rfl⟩, ⟨_, _, rfl, _, rfl⟩, by decide, by decide, by decide, by decide, by decide⟩

theorem witness_ImageReadFrames :
    (∃ t, exec .rImage oneByOne = .next t) ∧ ∃ t, exec (.rPixels 0#24) (rPix dataE1) = .next t :=
  ⟨⟨_, rfl⟩, _, rfl⟩

theorem witness_RPixelsSplit :
    (∃ t : State, (16#24).toNat = (1#24).toNat + (15#24).toNat ∧ (rPix dataE1).reader.state = .pixels ∧
      (16#24).toNat ≤ (rPix dataE1).reader.pixRemain.toNat ∧ exec (.rPixels 1#24) (rPix dataE1) = .next t ∧
      (1#24).toNat < (rPix dataE1).reader.pixRemain.toNat ∧ t.last = .ok) ∧
    ∃ t : State, (rPix [.error]).reader.state = .pixels ∧ (16#24).toNat ≤ (rPix [.error]).reader.pixRemain.toNat ∧
      exec (.rPixels 1#24) (rPix [.error]) = .next t ∧ t.reader.state = .failed :=
  ⟨⟨_, by decide, rfl, by decide, rfl, by decide, rfl⟩, _, rfl, by decide, rfl, rfl⟩

/-- A decompressor with entries: 6 = (0, 0) and 7 = (6, 0), the previous code 7 (V-D1). -/
def decoder : Reader :=
  { rOpenImage [] with dDict := [{ pfx := 0, sfx := 0 }, { pfx := 6, sfx := 0 }], dFree := 8, dW := 4, dPrev := some 7 }

/-- That decompressor is in order. -/
theorem decoder_ok : DecoderOk decoder :=
  ⟨by decide, by decide, ⟨by decide, by decide, fun _ h => by cases h; decide⟩, by decide, by decide, by decide⟩

/-- The decompressor with a full dictionary: every entry is a root code and a pixel (V-D8). -/
def fullDecoder : Reader :=
  { rOpenImage [] with
    dDict := List.replicate 4090 { pfx := 0, sfx := 0 }, dFree := 4096, dW := 12, dPrev := some 7 }

/-- The full decompressor is in order. -/
theorem fullDecoder_ok : DecoderOk fullDecoder := by
  refine ⟨by decide, ⟨?_, by decide, ?_⟩, ⟨by decide, by decide, fun _ h => by cases h; decide⟩, by decide, by decide,
    by decide⟩
  · have e : fullDecoder.dDict.length = 4090 := List.length_replicate
    rw [e]
    decide
  · intro k h
    have e : fullDecoder.dDict[k] = { pfx := 0, sfx := 0 } := List.getElem_replicate _
    rw [e]
    exact ⟨.inl (by decide), by decide⟩

theorem witness_StringsOfCodes :
    decoderSpace decoder ∧ dictionaryOk decoder ∧ 3 < decoder.dClear.toNat ∧ 1 < decoder.dDict.length := by decide

theorem witness_KwKwKCode : DecoderOk decoder ∧ decoder.dPrev = some 7 ∧ decoder.dFree.toNat < 4096 :=
  ⟨decoder_ok, rfl, by decide⟩

theorem witness_DecodeStepCodes :
    decoderSpace decoder ∧ DecoderOk decoder ∧ codeAssigned decoder 7 ∧ codeAssigned decoder 3 ∧
    (decoder.dPrev = none → 7 < decoder.dClear.toNat) ∧ (decoder.dPrev = some 7 ∧ decoder.dFree.toNat < 4096) ∧
    (DecoderOk (rOpenImage []) ∧ (rOpenImage []).dPrev = none ∧ 3 < (rOpenImage []).dClear.toNat) ∧
    (DecoderOk fullDecoder ∧ codeAssigned fullDecoder 4095 ∧ fullDecoder.dFree.toNat = 4096) :=
  ⟨by decide, decoder_ok, by decide, by decide, (fun h => by cases h), ⟨rfl, by decide⟩,
    ⟨((rOpenImage_inv []).2 rfl).2.2.2, rfl, by decide⟩, fullDecoder_ok, by decide, by decide⟩

theorem witness_CorruptCodes :
    DecoderOk decoder ∧ 9 < 4096 ∧ (∃ e r', applyCode 9 decoder = .raise e r') ∧ DecoderOk (rOpenImage []) ∧
    ∃ e r', applyCode 6 (rOpenImage []) = .raise e r' :=
  ⟨decoder_ok, by decide, ⟨_, _, rfl⟩, ((rOpenImage_inv []).2 rfl).2.2.2, _, _, rfl⟩

theorem witness_FullDictionary :
    DecoderOk fullDecoder ∧ fullDecoder.dFree.toNat = 4096 ∧ 4095 < 4096 ∧ 4095 ≠ fullDecoder.dClear.toNat ∧
    4095 ≠ fullDecoder.dEof.toNat :=
  ⟨fullDecoder_ok, by decide, by decide, by decide, by decide⟩

theorem witness_RowTrackerFollowsRaster :
    0 < (1#16).toNat * (5#16).toNat ∧ 4 < (1#16).toNat * (5#16).toNat ∧ 0 < (65535#16).toNat * (65535#16).toNat := by
  decide

/-- A writer in a state whose sink accepts some bytes and refuses the next. -/
def wRefuse (st : WState) (din : List Byte) (accepted : Nat) : State :=
  { State.reset with writer := { Writer.reset with
    state := st, din := din, sinkAnswers := List.replicate accepted .ok ++ [.error] } }

theorem witness_WOpenWritesHeader :
    ((wAt .top []).writer.state ≠ .failed ∧ (wAt .top []).writer.state ≠ .idle) ∧
    ((wAt .idle [2, 0, 2]).writer.state = .idle ∧ (wAt .idle [2, 0, 2]).writer.din.length < 7) ∧
    (∃ (s : State) (v89a : BitVec 1) (d0 d1 d2 d3 d4 d5 d6 : Byte) (table more bytes : List Byte),
      s.writer.state = .idle ∧ table.length = tableSize d4 ∧ d4 = 0x80#8 ∧
      s.writer.din = [d0, d1, d2, d3, d4, d5, d6] ++ table ++ more ∧
      bytes = [0x47#8, 0x49#8, 0x46#8, 0x38#8, if v89a = 1#1 then 0x39#8 else 0x37#8, 0x61#8] ++
        [d0, d1, d2, d3, d4, d5, d6] ++ table ∧ acceptsFirst bytes.length s.writer ∧
      s.writer.sinkAnswers.drop bytes.length = [.error]) ∧
    ∃ (s : State) (v89a : BitVec 1) (d0 d1 d2 d3 d4 d5 d6 : Byte) (table more bytes : List Byte) (k : Nat)
      (rest : List SinkAnswer),
      s.writer.state = .idle ∧ table.length = tableSize d4 ∧
      s.writer.din = [d0, d1, d2, d3, d4, d5, d6] ++ table ++ more ∧
      bytes = [0x47#8, 0x49#8, 0x46#8, 0x38#8, if v89a = 1#1 then 0x39#8 else 0x37#8, 0x61#8] ++
        [d0, d1, d2, d3, d4, d5, d6] ++ table ∧ k < bytes.length ∧
      s.writer.sinkAnswers = List.replicate k .ok ++ .error :: rest := by
  refine ⟨by decide, by decide, ?_, ?_⟩
  · exact ⟨wRefuse .idle [4, 0, 4, 0, 0x80, 0, 0, 1, 2, 3, 4, 5, 6, 9] 19, 1, 4, 0, 4, 0, 0x80, 0, 0,
      [1, 2, 3, 4, 5, 6], [9], _, rfl, rfl, rfl, rfl, rfl, by decide, rfl⟩
  · exact ⟨{ State.reset with writer := { Writer.reset with
      din := [4, 0, 4, 0, 0, 0, 0], sinkAnswers := [.ok, .ok, .error] } }, 0, 4, 0, 4, 0, 0, 0, 0, [], [], _, 2, [],
      rfl, rfl, rfl, rfl, by decide, rfl⟩

theorem witness_WExtWritesIntroducer :
    ((wAt .idle []).writer.state ≠ .failed ∧ (wAt .idle []).writer.state ≠ .top) ∧
    ((wRefuse .top [] 2).writer.state = .top ∧ acceptsFirst 2 (wRefuse .top [] 2).writer) ∧
    ((wRefuse .top [] 1).writer.state = .top ∧ 1 < 2 ∧
      (wRefuse .top [] 1).writer.sinkAnswers = List.replicate 1 .ok ++ .error :: []) := by decide

theorem witness_WExtBlockWritesSubBlock :
    ((wAt .top []).writer.state ≠ .failed ∧ (wAt .top []).writer.state ≠ .extData) ∧
    (wAt .extData [1]).writer.state = .extData ∧
    (4#8 ≠ 0#8 ∧ (wAt .extData [1, 2, 3]).writer.din.length < (4#8).toNat) ∧
    (1#8 ≠ 0#8 ∧ [5#8].length = (1#8).toNat ∧ (wRefuse .extData [5, 6] 2).writer.din = [5] ++ [6] ∧
      acceptsFirst (1 + [5#8].length) (wRefuse .extData [5, 6] 2).writer) ∧
    ((wRefuse .extData [5, 6] 1).writer.state = .extData ∧ 1 < 1 + [5#8, 6#8].length ∧
      [5#8, 6#8].length = (2#8).toNat ∧ (wRefuse .extData [5, 6] 1).writer.din = [5, 6] ++ [] ∧
      (wRefuse .extData [5, 6] 1).writer.sinkAnswers = List.replicate 1 .ok ++ .error :: []) := by decide

theorem witness_WExtEndWritesTerminator :
    ((wAt .top []).writer.state ≠ .failed ∧ (wAt .top []).writer.state ≠ .extData) ∧
    ((wRefuse .extData [] 1).writer.state = .extData ∧ acceptsFirst 1 (wRefuse .extData [] 1).writer) ∧
    ((wRefuse .extData [] 0).writer.state = .extData ∧ (wRefuse .extData [] 0).writer.sinkAnswers = .error :: []) := by
  decide

theorem witness_WTrailerEndsFile :
    ((wAt .extData []).writer.state ≠ .failed ∧ (wAt .extData []).writer.state ≠ .top) ∧
    ((Instr.wExt 1#8).isWriter = true ∧ (wAt .done []).writer.state = .done) ∧
    ((wRefuse .top [] 1).writer.state = .top ∧ acceptsFirst 1 (wRefuse .top [] 1).writer) ∧
    ((wRefuse .top [] 0).writer.state = .top ∧ (wRefuse .top [] 0).writer.sinkAnswers = .error :: []) := by decide

/-- The machine with a writer in W_TOP with a global depth. -/
def wTop (gctBpp : BitVec 4) (din : List Byte) : State :=
  { State.reset with writer := { Writer.reset with state := .top, gctBpp := gctBpp, din := din } }

/-- The same with a sink that accepts some bytes and refuses the next. -/
def wTopRefuse (gctBpp : BitVec 4) (din : List Byte) (accepted : Nat) : State :=
  { State.reset with writer := { Writer.reset with
    state := .top, gctBpp := gctBpp, din := din, sinkAnswers := List.replicate accepted .ok ++ [.error] } }

/-- V-W14: a local table of one bit, and a sink that accepts just what is written; the greatest raster with a global table
of eight bits; and a sink that refuses the code size byte. -/
theorem witness_WImageStarts :
    (∃ (s : State) (d0 d1 d2 d3 d4 d5 d6 d7 d8 : Byte) (table more : List Byte) (bpp b : Nat),
      s.writer.state = .top ∧ s.writer.gctBpp.toNat ≤ 8 ∧ table.length = tableSize d8 ∧
      s.writer.din = [d0, d1, d2, d3, d4, d5, d6, d7, d8] ++ table ++ more ∧
      bpp = (if d8.getLsbD 7 then d8.toNat % 8 + 1 else s.writer.gctBpp.toNat) ∧ bpp ≠ 0 ∧ b = max bpp 2 ∧
      (d5 ++ d4 : Half) ≠ 0#16 ∧ (d7 ++ d6 : Half) ≠ 0#16 ∧ acceptsFirst (11 + table.length) s.writer ∧
      s.writer.sinkAnswers.drop (11 + table.length) = [.error]) ∧
    ∀ k ∈ [0, 10], ∃ (s : State) (d0 d1 d2 d3 d4 d5 d6 d7 d8 : Byte) (table more : List Byte) (bpp b : Nat),
      s.writer.state = .top ∧ s.writer.gctBpp.toNat ≤ 8 ∧ table.length = tableSize d8 ∧
      s.writer.din = [d0, d1, d2, d3, d4, d5, d6, d7, d8] ++ table ++ more ∧
      bpp = (if d8.getLsbD 7 then d8.toNat % 8 + 1 else s.writer.gctBpp.toNat) ∧ bpp ≠ 0 ∧ b = max bpp 2 ∧
      k < 11 + table.length ∧ s.writer.sinkAnswers = List.replicate k .ok ++ .error :: [] := by
  refine ⟨?_, fun k hk => ?_⟩
  · exact ⟨wTopRefuse 0 [0, 0, 0, 0, 2, 0, 2, 0, 0x80, 0, 0, 0, 0xFF, 0xFF, 0xFF] 17, 0, 0, 0, 0, 2, 0, 2, 0, 0x80,
      [0, 0, 0, 0xFF, 0xFF, 0xFF], [], 1, 2, rfl, by decide, rfl, rfl, by decide, by decide, rfl, by decide, by decide,
      by decide, rfl⟩
  · have hk : k ≤ 10 := by simp only [List.mem_cons, List.not_mem_nil, or_false] at hk; omega
    exact ⟨wTopRefuse 8 [0, 0, 0, 0, 0xFF, 0xFF, 0xFF, 0xFF, 0x47] k, 0, 0, 0, 0, 0xFF, 0xFF, 0xFF, 0xFF, 0x47, [], [],
      8, 8, rfl, show 8 ≤ 8 by decide, rfl, rfl, rfl, by decide, rfl, show k < 11 by omega, rfl⟩

/-- V-W15, with a sink that accepts just the 15 bytes written, one that refuses the sub-block's length byte and one that
refuses the terminator. -/
theorem witness_WImageEmptyRaster :
    (∃ (s : State) (d0 d1 d2 d3 d4 d5 d6 d7 d8 : Byte) (table more data : List Byte) (bpp b : Nat),
      s.writer.state = .top ∧ s.writer.gctBpp.toNat ≤ 8 ∧ table.length = tableSize d8 ∧
      s.writer.din = [d0, d1, d2, d3, d4, d5, d6, d7, d8] ++ table ++ more ∧
      bpp = (if d8.getLsbD 7 then d8.toNat % 8 + 1 else s.writer.gctBpp.toNat) ∧ bpp ≠ 0 ∧ b = max bpp 2 ∧
      (d5 ++ d4 : Half).toNat * (d7 ++ d6 : Half).toNat = 0 ∧
      data = lowBytes (byteCount (2 * (b + 1))) (2 ^ b + 2 ^ (b + 1) * (2 ^ b + 1)) ∧ data.length = 1 ∧
      acceptsFirst (13 + table.length + data.length) s.writer ∧
      s.writer.sinkAnswers.drop (13 + table.length + data.length) = [.error]) ∧
    ∀ k ∈ [11, 13], 11 ≤ k ∧ k < 14 ∧
      (wTopRefuse 2 [0, 0, 0, 0, 0, 0, 0, 0, 0] k).writer.sinkAnswers = List.replicate k .ok ++ .error :: [] := by
  refine ⟨?_, fun k hk => ?_⟩
  · exact ⟨wTopRefuse 2 [0, 0, 0, 0, 0, 0, 0, 0, 0] 14, 0, 0, 0, 0, 0, 0, 0, 0, 0, [], [], [0x2C], 2, 2, rfl, by decide,
      rfl, rfl, by decide, by decide, rfl, by decide, by decide, rfl, by decide, rfl⟩
  · simp only [List.mem_cons, List.not_mem_nil, or_false] at hk
    exact ⟨by omega, by omega, rfl⟩

/-- Entry number `k` of a dictionary of distinct pairs: the four pixels after code 0, after code 1, and so on, the codes
4 and 5 (Clear and EOF) left out. -/
def pairEntry (k : Nat) : CEntry :=
  { pfx := BitVec.ofNat 12 (if k < 16 then k / 4 else k / 4 + 2), pixel := BitVec.ofNat 8 (k % 4),
    code := BitVec.ofNat 12 (6 + k) }

/-- The first `n` of those entries, newest first. -/
def pairEntries : Nat → List CEntry
  | 0 => []
  | k + 1 => pairEntry k :: pairEntries k

theorem pairEntries_length (n : Nat) : (pairEntries n).length = n := by
  induction n with
  | zero => rfl
  | succ n ih => simp [pairEntries, ih]

theorem mem_pairEntries {n : Nat} {e : CEntry} (h : e ∈ pairEntries n) : ∃ k, k < n ∧ e = pairEntry k := by
  induction n with
  | zero => simp [pairEntries] at h
  | succ n ih =>
    rw [pairEntries, List.mem_cons] at h
    obtain rfl | h := h
    · exact ⟨n, by omega, rfl⟩
    · obtain ⟨k, hk, he⟩ := ih h
      exact ⟨k, by omega, he⟩

theorem pairEntry_toNat {k : Nat} (h : k < 4090) :
    (pairEntry k).pfx.toNat = (if k < 16 then k / 4 else k / 4 + 2) ∧ (pairEntry k).pixel.toNat = k % 4 ∧
      (pairEntry k).code.toNat = 6 + k := by
  refine ⟨?_, ?_, ?_⟩ <;> simp only [pairEntry, BitVec.toNat_ofNat]
  · exact Nat.mod_eq_of_lt (by split <;> omega)
  · omega
  · omega

theorem pairEntries_distinct {n : Nat} (h : n ≤ 4090) : (pairEntries n).Pairwise fun e f =>
    ¬(e.pfx = f.pfx ∧ e.pixel = f.pixel) ∧ f.code.toNat < e.code.toNat := by
  induction n with
  | zero => exact List.Pairwise.nil
  | succ n ih =>
    refine List.pairwise_cons.2 ⟨fun f hf => ?_, ih (by omega)⟩
    obtain ⟨k, hk, rfl⟩ := mem_pairEntries hf
    obtain ⟨a1, a2, a3⟩ := pairEntry_toNat (k := n) (by omega)
    obtain ⟨b1, b2, b3⟩ := pairEntry_toNat (k := k) (by omega)
    refine ⟨fun ⟨e1, e2⟩ => ?_, by omega⟩
    rw [← e1, a1] at b1
    rw [← e2, a2] at b2
    split at b1 <;> split at b1 <;> omega

/-- A writer amid an image with the free code `free`: as many pairs as there are codes before it, the newest code its
prefix. -/
def encoder (free : Counter) (w : BitVec 4) (din : List Byte) : Writer :=
  { wOpenImage din with
    cFree := free, cW := w, cPrefix := some (BitVec.ofNat 12 (free.toNat - 1)), cDict := pairEntries (free.toNat - 6) }

/-- The machine with that writer. -/
def wEnc (free : Counter) (w : BitVec 4) (din : List Byte) : State := { State.reset with writer := encoder free w din }

/-- The compressor of that writer is in order, with a free code from 7 to 4095 that its width holds. -/
theorem wEnc_ok (free : Counter) (w : BitVec 4) (din : List Byte) (h7 : 7 ≤ free.toNat) (h : free.toNat ≤ 4095)
    (hw3 : 3 ≤ w.toNat) (hw : w.toNat ≤ 12) (hf : free.toNat ≤ 2 ^ w.toNat) : EncoderOk (wEnc free w din).writer := by
  refine ⟨((wOpenImage_inv din).2.2.2.1 rfl).2.2.2.1.1, ⟨?_, h, hw3, hw, hf⟩, ?_, ?_, ?_,
    pairEntries_distinct (by omega)⟩
  · show 6 ≤ free.toNat
    omega
  · show 6 + (pairEntries (free.toNat - 6)).length = free.toNat
    rw [pairEntries_length]
    omega
  · intro e he
    obtain ⟨k, hk, rfl⟩ := mem_pairEntries he
    obtain ⟨a1, a2, a3⟩ := pairEntry_toNat (k := k) (by omega)
    refine ⟨?_, ?_, ?_, ?_⟩
    · show (pairEntry k).pfx.toNat < 4 ∨ (6 ≤ (pairEntry k).pfx.toNat ∧ (pairEntry k).pfx.toNat < free.toNat)
      rw [a1]
      split <;> omega
    · show (pairEntry k).pixel.toNat < 2 ^ 2
      omega
    · show 6 ≤ (pairEntry k).code.toNat
      omega
    · show (pairEntry k).code.toNat < free.toNat
      omega
  · intro q hq
    cases hq
    right
    show 6 ≤ (BitVec.ofNat 12 (free.toNat - 1)).toNat ∧ (BitVec.ofNat 12 (free.toNat - 1)).toNat < free.toNat
    rw [BitVec.toNat_ofNat, Nat.mod_eq_of_lt (by omega)]
    omega

/-- No pair of that writer has its prefix. -/
theorem wEnc_absent (free : Counter) (w : BitVec 4) (din : List Byte) (p : Byte) (h7 : 7 ≤ free.toNat)
    (h : free.toNat ≤ 4095) :
    ∀ e ∈ (wEnc free w din).writer.cDict, ¬(e.pfx = BitVec.ofNat 12 (free.toNat - 1) ∧ e.pixel = p) := by
  rintro e he ⟨h1, -⟩
  obtain ⟨k, hk, rfl⟩ := mem_pairEntries he
  obtain ⟨a1, -, -⟩ := pairEntry_toNat (k := k) (by omega)
  rw [h1, BitVec.toNat_ofNat, Nat.mod_eq_of_lt (by omega)] at a1
  split at a1 <;> omega

theorem witness_WPixelsWithoutOutput :
    (wPix [3]).writer.state = .pixels ∧ 1 < (wPix [3]).writer.pixRemain.toNat ∧ (wPix [3]).writer.din = 3 :: [] ∧
    (3#8).toNat < 2 ^ (wPix [3]).writer.bpp.toNat ∧ (wPix [3]).writer.cPrefix = none ∧
    ∃ (s : State) (q : Code) (e : CEntry), EncoderOk s.writer ∧ s.writer.state = .pixels ∧
      1 < s.writer.pixRemain.toNat ∧ s.writer.din = 3 :: [] ∧ (3#8).toNat < 2 ^ s.writer.bpp.toNat ∧
      s.writer.cPrefix = some q ∧ e ∈ s.writer.cDict ∧ e.pfx = q ∧ e.pixel = 3 :=
  ⟨by decide, by decide, rfl, by decide, rfl,
    { State.reset with writer := { wOpenImage [3] with
      cFree := 7, cPrefix := some 1, cDict := [{ pfx := 1, pixel := 3, code := 6 }] } }, 1,
      { pfx := 1, pixel := 3, code := 6 },
      ⟨by decide, by decide, by decide, by decide, (fun _ h => by cases h; decide),
        List.pairwise_singleton _ _⟩, rfl, by decide, rfl, by decide, rfl, by decide, rfl, rfl⟩

/-- What the hypotheses of WPixelsEmitsAndInserts ask of a state and its one pixel, the definitions of its numbers and
bytes apart. -/
def emits (s : State) (p : Byte) (q : Code) : Prop :=
  EncoderOk s.writer ∧ packerOk s.writer ∧ s.writer.state = .pixels ∧ 1 < s.writer.pixRemain.toNat ∧
  s.writer.din = p :: [] ∧ p.toNat < 2 ^ s.writer.bpp.toNat ∧ s.writer.cPrefix = some q ∧
  ∀ e ∈ s.writer.cDict, ¬(e.pfx = q ∧ e.pixel = p)

/-- The machine with the writer `encoder`, bytes pending in the packer and answers of the sink. -/
def wFull (free : Counter) (w : BitVec 4) (pending : Nat) (answers : List SinkAnswer) : State :=
  { State.reset with writer := { encoder free w [3] with
    pBuf := List.replicate pending 0, sinkAnswers := answers } }

theorem wFull_emits (free : Counter) (w : BitVec 4) (pending : Nat) (answers : List SinkAnswer) (h7 : 7 ≤ free.toNat)
    (h : free.toNat ≤ 4095) (hw3 : 3 ≤ w.toNat) (hw : w.toNat ≤ 12) (hf : free.toNat ≤ 2 ^ w.toNat)
    (hp : pending ≤ 254) : emits (wFull free w pending answers) 3 (BitVec.ofNat 12 (free.toNat - 1)) :=
  ⟨(wEnc_ok free w [3] h7 h hw3 hw hf :),
    ⟨show 3 ≤ 7 by decide, show (4#19).toNat < 2 ^ 3 by decide,
      le_of_eq_of_le (List.length_replicate (a := (0#8))) hp⟩,
    rfl, show 1 < 16 by decide, rfl, show 3 < 2 ^ 2 by decide, rfl, (wEnc_absent free w [3] 3 h7 h :)⟩

/-- At the growth point 8 = 2 ^ 3 (V-C1) and at the last free code 4095, with the pending sub-block short of 255 bytes and
not; a byte of it refused amid the prefix, and amid the Clear Code. -/
theorem witness_WPixelsEmitsAndInserts :
    emits (wFull 8 3 0 []) 3 7 ∧
    emits (wFull 4095 12 0 []) 3 4094 ∧
    (emits (wFull 8 8 254 []) 3 7 ∧ 255 ≤ 254 + (3 + 8) / 8 ∧ acceptsFirst 256 (wFull 8 8 254 []).writer) ∧
    (emits (wFull 8 8 254 (List.replicate 255 .ok ++ [.error])) 3 7 ∧ 255 ≤ 254 + (3 + 8) / 8) ∧
    (emits (wFull 4095 12 253 (List.replicate 0 .ok ++ [.error])) 3 4094 ∧ 253 + (3 + 12) / 8 < 255 ∧
      255 ≤ 253 + (3 + 12 + 12) / 8) := by
  refine ⟨?_, ?_, ⟨?_, by decide, ?_⟩, ⟨?_, by decide⟩, ?_, by decide, by decide⟩
  · exact wFull_emits 8 3 0 [] (by decide) (by decide) (by decide) (by decide) (by decide) (by decide)
  · exact wFull_emits 4095 12 0 [] (by decide) (by decide) (by decide) (by decide) (by decide) (by decide)
  · exact wFull_emits 8 8 254 [] (by decide) (by decide) (by decide) (by decide) (by decide) (by decide)
  · exact fun a h => nomatch h
  · exact wFull_emits 8 8 254 _ (by decide) (by decide) (by decide) (by decide) (by decide) (by decide)
  · exact wFull_emits 4095 12 253 _ (by decide) (by decide) (by decide) (by decide) (by decide) (by decide)

/-- V-W10; and the last pixel of a raster: compressed with the sink's refusal waiting, then with every answer Ok, and a
refusal amid what CompressFinish writes. -/
theorem witness_WPixelsCompletes :
    (Inv (wPix (List.replicate 16 3)) ∧ (wPix (List.replicate 16 3)).writer.state = .pixels ∧
      sinkAccepts (wPix (List.replicate 16 3)).writer ∧
      (16#24).toNat ≤ (wPix (List.replicate 16 3)).writer.pixRemain.toNat ∧
      (16#24).toNat ≤ (wPix (List.replicate 16 3)).writer.din.length ∧
      ∀ p ∈ (wPix (List.replicate 16 3)).writer.din.take (16#24).toNat,
        p.toNat < 2 ^ (wPix (List.replicate 16 3)).writer.bpp.toNat) ∧
    ∃ s : State, EncoderOk s.writer ∧ packerOk s.writer ∧ s.writer.state = .pixels ∧ s.writer.pixRemain = 1#32 ∧
      s.writer.din = 3 :: [] ∧ (3#8).toNat < 2 ^ s.writer.bpp.toNat ∧
      ∃ t, exec (.wPixels 1#24) { s with writer := { s.writer with pixRemain := 2#32 } } = .next t ∧ t.last = .ok ∧
        t.writer.cPrefix = some 3 ∧ t.writer.sinkAnswers = List.replicate 1 .ok ++ .error :: [] ∧
        1 < (framed (dataBytes (bitString [(4, 3), (3, 3), (5, 3)]))).length := by
  refine ⟨⟨wPix_inv _, rfl, by decide, by decide, by decide, by decide⟩, ?_⟩
  refine ⟨{ State.reset with writer := { wOpenImage [3] with pixRemain := 1, sinkAnswers := [.ok, .error] } },
    (((wOpenImage_inv []).2.2.2.1 rfl).2.2.2.1 :), (((wOpenImage_inv []).2.2.2.1 rfl).2.2.2.2 :), rfl, rfl, rfl,
    by decide, _, rfl, rfl, rfl, rfl, by decide⟩

set_option maxRecDepth 20000 in
/-- The failing case of the last pixel: 254 bytes pending and a code of 8 bits complete a sub-block, which is refused. -/
theorem witness_WPixelsCompletes_refused :
    ∃ s t : State, EncoderOk s.writer ∧ packerOk s.writer ∧ s.writer.state = .pixels ∧ s.writer.pixRemain = 1#32 ∧
      s.writer.din = 3 :: [] ∧ (3#8).toNat < 2 ^ s.writer.bpp.toNat ∧
      exec (.wPixels 1#24) { s with writer := { s.writer with pixRemain := 2#32 } } = .next t ∧ t.last ≠ .ok := by
  obtain ⟨h1, h2, -⟩ := wFull_emits 8 8 254 [.error] (by decide) (by decide) (by decide) (by decide) (by decide)
    (by decide)
  exact ⟨{ (wFull 8 8 254 [.error]) with writer := { (wFull 8 8 254 [.error]).writer with pixRemain := 1 } }, _, h1, h2,
    rfl, rfl, rfl, by decide, rfl, by decide⟩

theorem witness_ImageWriteFrames :
    (∃ t, exec .wImage (wTop 2 [0, 0, 0, 0, 4, 0, 4, 0, 0]) = .next t) ∧
    ∃ t, exec (.wPixels 1#24) (wPix [1]) = .next t :=
  ⟨⟨_, rfl⟩, _, rfl⟩

set_option maxRecDepth 20000 in
theorem witness_WPixelsSplit :
    (∃ t : State, (3#24).toNat = (1#24).toNat + (2#24).toNat ∧ (wPix [1, 2, 3]).writer.state = .pixels ∧
      (3#24).toNat ≤ (wPix [1, 2, 3]).writer.pixRemain.toNat ∧ (3#24).toNat ≤ (wPix [1, 2, 3]).writer.din.length ∧
      (∀ p ∈ (wPix [1, 2, 3]).writer.din.take (3#24).toNat, p.toNat < 2 ^ (wPix [1, 2, 3]).writer.bpp.toNat) ∧
      exec (.wPixels 1#24) (wPix [1, 2, 3]) = .next t ∧ (1#24).toNat < (wPix [1, 2, 3]).writer.pixRemain.toNat ∧
      t.last = .ok) ∧
    ∃ t : State, (wFull 8 8 254 [.error]).writer.state = .pixels ∧
      (1#24).toNat ≤ (wFull 8 8 254 [.error]).writer.pixRemain.toNat ∧
      (1#24).toNat ≤ (wFull 8 8 254 [.error]).writer.din.length ∧
      exec (.wPixels 1#24) (wFull 8 8 254 [.error]) = .next t ∧ t.writer.state = .failed :=
  ⟨⟨_, by decide, rfl, by decide, by decide, by decide, rfl, by decide, rfl⟩, _, rfl, by decide, by decide, rfl, rfl⟩

theorem witness_SinkErrorFails :
    (∃ t, Instr.wTrailer.isWriter = true ∧ (wRefuse .top [] 0).writer.state ≠ .failed ∧
      exec .wTrailer (wRefuse .top [] 0) = .next t ∧ t.writer.state = .failed) ∧
    (∃ t, Instr.wTrailer.isWriter = true ∧ sinkAccepts (wAt .top []).writer ∧ (wAt .top []).writer.state ≠ .failed ∧
      exec .wTrailer (wAt .top []) = .next t) ∧
    (∀ n ∈ [1, 2], ∃ t : State, (Instr.wExt 7#8).isWriter = true ∧
      exec (.wExt 7#8) { wRefuse .top [] n with
        writer := { (wRefuse .top [] n).writer with sinkAnswers := [] } } = .next t ∧
      t.writer.sout = (wRefuse .top [] n).writer.sout ++ [0x21#8, 7#8]) ∧
    acceptsFirst [0x21#8, 7#8].length (wRefuse .top [] 2).writer ∧
    (1 < [0x21#8, 7#8].length ∧ (wRefuse .top [] 1).writer.sinkAnswers = List.replicate 1 .ok ++ .error :: []) ∧
    ∃ t, wFailed.writer.state = .failed ∧ exec .wTrailer wFailed = .next t :=
  ⟨⟨_, rfl, by decide, rfl, rfl⟩, ⟨_, rfl, by decide, by decide, rfl⟩, (fun _ _ => ⟨_, rfl, rfl, rfl⟩), by decide,
    by decide, _, rfl, rfl⟩

/-- V-B1: a pending bit and a code of 12 bits; seven pending bits and a code of 12 bits. -/
theorem witness_PackerInvariant :
    (∃ w', packerOk { Writer.reset with pAcc := 1, pCnt := 1 } ∧
      writeCode 4095 12 { Writer.reset with pAcc := 1, pCnt := 1 } = .ok () w') ∧
    packerOk { Writer.reset with pAcc := 127, pCnt := 7 } ∧ 12 ≤ 12 :=
  ⟨⟨_, by decide, rfl⟩, by decide, by decide⟩

theorem witness_PutByteFillsSubBlock :
    Writer.reset.pBuf.length < 254 ∧
    (∃ w : Writer, w.pBuf.length = 254 ∧ acceptsFirst 256 w) ∧
    ∃ (w : Writer) (k : Nat) (rest : List SinkAnswer), w.pBuf.length = 254 ∧ k < 256 ∧
      w.sinkAnswers = List.replicate k .ok ++ .error :: rest :=
  ⟨by decide, ⟨{ Writer.reset with pBuf := List.replicate 254 0 }, List.length_replicate, fun _ h => nomatch h⟩,
    { Writer.reset with pBuf := List.replicate 254 0, sinkAnswers := List.replicate 255 .ok ++ [.error] }, 255, [],
    List.length_replicate, by decide, rfl⟩

/-- 15 bits are two data bytes: a length byte, the two and the terminator are accepted, and a later byte is not. -/
theorem witness_PackerWritesBitString :
    (∀ p ∈ [(4, 3), (4095, 12)], p.2 ≤ 12 ∧ p.1 < 2 ^ p.2) ∧
    packerEmpty { Writer.reset with sinkAnswers := [.ok, .ok, .ok, .ok, .error] } ∧
    acceptsFirst (framed (dataBytes (bitString [(4, 3), (4095, 12)]))).length
      { Writer.reset with sinkAnswers := [.ok, .ok, .ok, .ok, .error] } := by decide

theorem witness_BitBufferRoundTrip :
    (∀ p ∈ [(4, 3), (4095, 12)], 3 ≤ p.2 ∧ p.2 ≤ 12 ∧ p.1 < 2 ^ p.2) ∧
    packerEmpty { Writer.reset with sinkAnswers := [.ok, .ok, .ok, .ok, .error] } ∧
    acceptsFirst (framed (dataBytes (bitString [(4, 3), (4095, 12)]))).length
      { Writer.reset with sinkAnswers := [.ok, .ok, .ok, .ok, .error] } := by decide

theorem witness_CodesFitTheirWidth :
    EncoderOk (wEnc 4095 12 []).writer ∧ (wEnc 4095 12 []).writer.cPrefix = some 4094 ∧
    (wEnc 4095 12 []).writer.cFree.toNat = 4095 :=
  ⟨wEnc_ok 4095 12 [] (by decide) (by decide) (by decide) (by decide) (by decide), rfl, by decide⟩

theorem witness_StepKeepsInv :
    (∃ t, Inv (about .powerOn State.reset) ∧ step (about .powerOn State.reset) = .next t) ∧
    ∃ t, Inv (about (.write cmdOffset 0x24000000#32) (rPix dataE1)) ∧
      step (about (.write cmdOffset 0x24000000#32) (rPix dataE1)) = .next t :=
  ⟨⟨_, reset_inv, rfl⟩, _, rPix_inv dataE1, rfl⟩

theorem witness_EveryCommandCompletes :
    Inv (rPix dataE1) ∧ sourceAnswers (rPix dataE1).reader ∧ sinkAnswered (rPix dataE1).writer :=
  ⟨rPix_inv dataE1, by decide, by decide⟩

/-- A 2 x 1 image of depth 1, and a reader before any stream. -/
theorem witness_ImageRoundTrip :
    ∃ (s u : State) (d0 d1 d2 d3 d4 d5 d6 d7 d8 : Byte) (px more : List Byte) (count : BitVec 24),
      s.writer.state = .top ∧ 1 ≤ s.writer.gctBpp.toNat ∧ s.writer.gctBpp.toNat ≤ 8 ∧ sinkAccepts s.writer ∧
      d8.getLsbD 7 = false ∧ count.toNat = (d5 ++ d4 : Half).toNat * (d7 ++ d6 : Half).toNat ∧ 0 < count.toNat ∧
      px.length = count.toNat ∧ (∀ p ∈ px, p.toNat < 2 ^ s.writer.gctBpp.toNat) ∧
      s.writer.din = [d0, d1, d2, d3, d4, d5, d6, d7, d8] ++ px ++ more ∧ u.reader.state = .imgDesc :=
  ⟨wTop 1 [0, 0, 0, 0, 2, 0, 1, 0, 0x7F, 1, 0, 9], rAt .imgDesc [], 0, 0, 0, 0, 2, 0, 1, 0, 0x7F, [1, 0], [9], 2#24,
    rfl, by decide, by decide, by decide, by decide, by decide, by decide, by decide, by decide, rfl, rfl⟩

end Sys2Proof.Tests
end

section
/-!
PROOFS. The invariant of the machine (R31, R32, R45, R46, R48, R49): every command keeps it, channel by channel, then
every move of the host.
-/

namespace Sys2Proof.Machine

/-! ### Reader -/

/-- What the reader's invariant asks of a reader that has not failed: in R_PIXELS an image with pixels left is open. -/
def ReaderSettled (r : Reader) : Prop := r.state ≠ .failed ∧ (r.state = .pixels → ImageReady r)

theorem ReaderInv.err_ok {r : Reader} (h : ReaderInv r) (hs : r.state ≠ .failed) : r.err = .ok := by
  by_contra he
  exact hs (h.1.2 he)

theorem ReaderInv.imageOpen {r : Reader} (h : ReaderInv r) (hs : r.state = .pixels) :
    0 < r.pixRemain.toNat ∧ ImageOpen r.pixRemain.toNat r := by
  obtain ⟨h0, hin, hleft, hok⟩ := h.2 hs
  exact ⟨Nat.pos_of_ne_zero fun hz => h0 (BitVec.eq_of_toNat_eq hz), rfl, hin, hleft, hok⟩

theorem ReaderSettled.readerInv {r : Reader} (h : ReaderSettled r) (he : r.err = .ok) : ReaderInv r := by
  obtain ⟨hs, hp⟩ := h
  refine ⟨⟨fun hf => absurd hf hs, fun hne => absurd he hne⟩, fun hpix => ?_⟩
  obtain htop | ⟨-, hne, -, hin, hleft, hok⟩ := hp hpix
  · simp [htop] at hpix
  · exact ⟨hne, hin, hleft, hok⟩

theorem ReaderSettled.of_state {r : Reader} {st : RState} (h : r.state = st) (hf : st ≠ .failed)
    (hp : st ≠ .pixels) : ReaderSettled r :=
  ⟨by rw [h]; exact hf, fun hpix => absurd (h.symm.trans hpix) hp⟩

theorem ImageReady.settled {r : Reader} (h : ImageReady r) : ReaderSettled r :=
  ⟨by obtain hs | ⟨hs, -⟩ := h <;> simp [hs], fun _ => h⟩

theorem failReader_inv {e : Status} (r : Reader) (he : e ≠ .ok) : ReaderInv (failReader e r) :=
  ⟨⟨fun _ => he, fun _ => rfl⟩, fun hp => by simp at hp⟩

theorem resetReader_inv (r : Reader) : ReaderInv (resetReader r) :=
  ReaderSettled.readerInv (.of_state (st := .idle) rfl (by decide) (by decide)) rfl

/-- A reader command keeps the invariant where its body, if it runs, settles the reader or fails with a code. -/
theorem readerCommand_keeps_inv {need : RState} {check : Reader → Option Status} {body : Reader → Body Reader Unit}
    {fails : List Status} {P : Reader → Prop} {s t : State} (h : Inv s) (hneed : need ≠ .failed)
    (hbody : s.reader.state = need → check s.reader = none → ReaderBody fails s.reader P (body s.reader))
    (hfails : Status.ok ∉ fails) (hP : s.reader.state = need → ∀ r, P r → ReaderSettled r)
    (ht : readerCommand need check body s = .next t) : Inv t := by
  obtain ⟨hbusy, hr, hw⟩ := h
  obtain ⟨-, hx⟩ | ⟨-, -, hx⟩ | ⟨-, -, e, -, hx⟩ | ⟨-, hs, hc, hx⟩ := readerCommand_cases need check body s
  case inr.inr.inr =>
    have hb := hbody hs hc
    obtain ⟨r, hok, rfl⟩ | ⟨e, r, hraise, rfl⟩ := endReader_next (hx.symm.trans ht)
    · obtain ⟨hp, -, herr⟩ := hb.of_ok hok
      exact ⟨hbusy, (hP hs r hp).readerInv (herr.trans (hr.err_ok (hs ▸ hneed))), hw⟩
    · obtain ⟨he, -⟩ := hb.of_raise hraise
      exact ⟨hbusy, failReader_inv r fun h0 => hfails (h0 ▸ he), hw⟩
  all_goals
    obtain rfl := Host.Outcome.next.inj (hx.symm.trans ht)
    exact ⟨hbusy, hr, hw⟩

/-! ### Writer -/

/-- What the writer's invariant asks of a writer that has not failed: in W_PIXELS an image with pixels to come is open,
and in every other state the packer is empty. -/
def WriterSettled (w : Writer) : Prop :=
  w.state ≠ .failed ∧ (w.state = .pixels → RasterReady w) ∧ (w.state ≠ .pixels → packerEmpty w)

theorem WriterInv.err_ok {w : Writer} (h : WriterInv w) (hs : w.state ≠ .failed) : w.err = .ok := by
  by_contra he
  exact hs (h.1.2 he)

theorem WriterInv.registersOk {w : Writer} (h : WriterInv w) : RegistersOk w := ⟨h.2.1, h.2.2.1⟩

theorem WriterInv.packerEmpty {w : Writer} (h : WriterInv w) {st : WState} (hs : w.state = st) (hp : st ≠ .pixels)
    (hf : st ≠ .failed) : packerEmpty w := by
  subst hs
  exact h.2.2.2.2 hp hf

theorem WriterInv.rasterOpen {w : Writer} (h : WriterInv w) (hs : w.state = .pixels) :
    0 < w.pixRemain.toNat ∧ RasterOpen w.pixRemain.toNat w := by
  obtain ⟨h0, hin, hleft, hok, hp⟩ := h.2.2.2.1 hs
  exact ⟨Nat.pos_of_ne_zero fun hz => h0 (BitVec.eq_of_toNat_eq hz), rfl, hin, hleft, hok, hp⟩

theorem WriterSettled.writerInv {w : Writer} (h : WriterSettled w) (hr : RegistersOk w) (he : w.err = .ok) :
    WriterInv w := by
  obtain ⟨hs, hp, hempty⟩ := h
  refine ⟨⟨fun hf => absurd hf hs, fun hne => absurd he hne⟩, hr.1, hr.2, fun hpix => ?_, fun hpix _ => hempty hpix⟩
  obtain ⟨htop, -⟩ | ⟨-, hne, -, hin, hleft, hok, hpk⟩ := hp hpix
  · simp [htop] at hpix
  · exact ⟨hne, hin, hleft, hok, hpk⟩

theorem WriterSettled.of_state {w : Writer} {st : WState} (h : w.state = st ∧ packerEmpty w) (hf : st ≠ .failed)
    (hp : st ≠ .pixels) : WriterSettled w :=
  ⟨by rw [h.1]; exact hf, fun hpix => absurd (h.1.symm.trans hpix) hp, fun _ => h.2⟩

theorem RasterReady.settled {w : Writer} (h : RasterReady w) : WriterSettled w := by
  refine ⟨?_, fun _ => h, fun hne => ?_⟩
  · obtain ⟨hs, -⟩ | ⟨hs, -⟩ := h <;> simp [hs]
  · obtain ⟨-, hp⟩ | ⟨hs, -⟩ := h
    · exact hp
    · exact absurd hs hne

theorem failWriter_inv {e : Status} {w : Writer} (hr : RegistersOk w) (he : e ≠ .ok) : WriterInv (failWriter e w) :=
  ⟨⟨fun _ => he, fun _ => rfl⟩, hr.1, hr.2, fun hp => by simp at hp, fun _ hf => absurd rfl hf⟩

theorem resetWriter_inv (w : Writer) : WriterInv (resetWriter w) :=
  WriterSettled.writerInv (.of_state (st := .idle) ⟨rfl, rfl, rfl, rfl⟩ (by decide) (by decide))
    ⟨Nat.zero_le _, BitVec.zero_and⟩ rfl

/-- A writer command keeps the invariant where its body, if it runs, settles the writer or fails. -/
theorem writerCommand_keeps_inv {need : WState} {check : Writer → Option Status} {body : Writer → Body Writer Unit}
    {P : Writer → Prop} {s t : State} (h : Inv s) (hneed : need ≠ .failed)
    (hbody : s.writer.state = need → check s.writer = none → WriterBody s.writer P (body s.writer))
    (hP : s.writer.state = need → ∀ w, P w → WriterSettled w)
    (ht : writerCommand need check body s = .next t) : Inv t := by
  obtain ⟨hbusy, hr, hw⟩ := h
  obtain ⟨-, hx⟩ | ⟨-, -, hx⟩ | ⟨-, -, e, -, hx⟩ | ⟨-, hs, hc, hx⟩ := writerCommand_cases need check body s
  case inr.inr.inr =>
    have hb := hbody hs hc
    obtain ⟨w, hok, rfl⟩ | ⟨e, w, hraise, rfl⟩ := endWriter_next (hx.symm.trans ht)
    · obtain ⟨hp, hregs, -, herr⟩ := hb.of_ok hok
      exact ⟨hbusy, hr, (hP hs w hp).writerInv hregs (herr.trans (hw.err_ok (hs ▸ hneed)))⟩
    · obtain ⟨hregs, rfl, -⟩ := hb.of_raise hraise
      exact ⟨hbusy, hr, failWriter_inv hregs (by decide)⟩
  all_goals
    obtain rfl := Host.Outcome.next.inj (hx.symm.trans ht)
    exact ⟨hbusy, hr, hw⟩

/-! ### Commands -/

theorem rPixelsCheck_none {n : Nat} {r : Reader} (h : rPixelsCheck n r = none) : n ≤ r.pixRemain.toNat := by
  unfold rPixelsCheck at h
  split at h
  · simp at h
  · omega

theorem wImageCheck_none {w : Writer} (h : wImageCheck w = none) : imageBpp (dinAt 8 w) w ≠ 0#4 := by
  intro h0
  unfold wImageCheck at h
  rw [if_pos h0] at h
  split at h
  · simp at h
  split at h
  · simp at h
  · simp at h

theorem execReset_keeps_inv {sel : BitVec 2} {s t : State} (h : Inv s) (ht : execReset sel s = .next t) : Inv t := by
  obtain ⟨hbusy, hr, hw⟩ := h
  unfold execReset at ht
  split at ht
  · obtain rfl := Host.Outcome.next.inj ht
    exact ⟨hbusy, hr, hw⟩
  · obtain rfl := Host.Outcome.next.inj ht
    refine ⟨hbusy, ?_, ?_⟩
    · dsimp only; split
      · exact resetReader_inv _
      · exact hr
    · dsimp only; split
      · exact resetWriter_inv _
      · exact hw

/-- Every command keeps the invariant. -/
theorem exec_keeps_inv {i : Instr} {s t : State} (h : Inv s) (ht : exec i s = .next t) : Inv t := by
  have ⟨_, hr, hw⟩ := h
  have regs := hw.registersOk
  cases i with
  | reset sel => exact execReset_keeps_inv h ht
  | rOpen =>
    exact readerCommand_keeps_inv (need := .idle) (check := noCheck) h (by decide)
      (fun _ _ => rOpenBody_spec s.reader) (by decide) (fun _ _ hp => .of_state hp.1 (by decide) (by decide)) ht
  | rNext =>
    refine readerCommand_keeps_inv (need := .top) (check := noCheck) h (by decide)
      (fun _ _ => rNextBody_spec s.reader) (by decide) (fun _ r hp => ?_) ht
    obtain hs | hs | hs := hp
    all_goals exact .of_state hs (by decide) (by decide)
  | rExt =>
    exact readerCommand_keeps_inv (need := .extCode) (check := noCheck) h (by decide)
      (fun _ _ => rExtBody_spec s.reader) (by decide) (fun _ _ hp => .of_state hp (by decide) (by decide)) ht
  | rExtBlock =>
    refine readerCommand_keeps_inv (need := .extData) (check := noCheck) h (by decide)
      (fun _ _ => rExtBlockBody_spec s.reader) (by decide) (fun hneed r hp => ?_) ht
    obtain hs | hs := hp
    · exact .of_state hs (by decide) (by decide)
    · exact .of_state (hs.trans hneed) (by decide) (by decide)
  | rImage =>
    exact readerCommand_keeps_inv (need := .imgDesc) (check := noCheck) h (by decide)
      (fun _ _ => rImageBody_spec s.reader) (by decide) (fun _ _ hp => hp.settled) ht
  | rPixels count =>
    refine readerCommand_keeps_inv (fails := imageCodes) h (by decide) (fun hneed hc => ?_) (by decide)
      (fun _ _ => ImageReady.settled) ht
    obtain ⟨hpos, hopen⟩ := hr.imageOpen hneed
    exact rPixelsBody_spec hopen hneed hpos (rPixelsCheck_none hc)
  | wOpen v89a =>
    exact writerCommand_keeps_inv h (by decide)
      (fun hneed _ => wOpenBody_spec v89a regs (hw.packerEmpty hneed (by decide) (by decide)))
      (fun _ _ hp => .of_state hp (by decide) (by decide)) ht
  | wExt imm8 =>
    exact writerCommand_keeps_inv (need := .top) (check := noCheck) h (by decide)
      (fun hneed _ => wExtBody_spec imm8 regs (hw.packerEmpty hneed (by decide) (by decide)))
      (fun _ _ hp => .of_state hp (by decide) (by decide)) ht
  | wExtBlock imm8 =>
    exact writerCommand_keeps_inv h (by decide)
      (fun hneed _ => wExtBlockBody_spec imm8 regs (hw.packerEmpty hneed (by decide) (by decide)))
      (fun hneed _ hp => .of_state ⟨hp.1.trans hneed, hp.2⟩ (by decide) (by decide)) ht
  | wExtEnd =>
    exact writerCommand_keeps_inv (need := .extData) (check := noCheck) h (by decide)
      (fun hneed _ => wExtEndBody_spec regs (hw.packerEmpty hneed (by decide) (by decide)))
      (fun _ _ hp => .of_state hp (by decide) (by decide)) ht
  | wImage =>
    exact writerCommand_keeps_inv h (by decide)
      (fun _ hc => wImageBody_spec regs (wImageCheck_none hc)) (fun _ _ hp => hp.settled) ht
  | wPixels count =>
    refine writerCommand_keeps_inv h (by decide) (fun hneed hc => ?_) (fun _ _ => RasterReady.settled) ht
    obtain ⟨hpos, hopen⟩ := hw.rasterOpen hneed
    exact wPixelsBody_spec hopen hneed hpos regs hc
  | wTrailer =>
    exact writerCommand_keeps_inv (need := .top) (check := noCheck) h (by decide)
      (fun hneed _ => wTrailerBody_spec regs (hw.packerEmpty hneed (by decide) (by decide)))
      (fun _ _ hp => .of_state hp (by decide) (by decide)) ht

/-! ### The host's moves -/

theorem issueWord_keeps_inv {word : Word} {s t : State} (h : Inv s) (ht : issueWord word s = .next t) : Inv t := by
  unfold issueWord at ht
  split at ht
  · exact exec_keeps_inv h ht
  · obtain rfl := Host.Outcome.next.inj ht
    exact h

theorem writeRegister_keeps_inv {offset : BitVec 12} {value : Word} {s t : State} (h : Inv s)
    (ht : writeRegister offset value s = .next t) : Inv t := by
  unfold writeRegister at ht
  split at ht
  · simp only [writeCmd, h.1, Bool.false_eq_true, if_false] at ht
    exact issueWord_keeps_inv h ht
  split at ht
  · simp only [writeDin, h.1, Bool.false_eq_true, if_false] at ht
    obtain rfl := Host.Outcome.next.inj ht
    exact ⟨rfl, h.2⟩
  · obtain rfl := Host.Outcome.next.inj ht
    exact h

theorem readAccess_keeps_inv {offset : BitVec 12} {s t : State} (h : Inv s) (ht : readAccess offset s = .next t) :
    Inv t := by
  unfold readAccess at ht
  split at ht
  · simp only [readDout, h.1, Bool.false_eq_true, if_false] at ht
    obtain rfl := Host.Outcome.next.inj ht
    exact ⟨rfl, h.2⟩
  · obtain rfl := Host.Outcome.next.inj ht
    exact h

theorem powerOnReset_inv (s : State) : Inv (powerOnReset s) := ⟨rfl, resetReader_inv _, resetWriter_inv _⟩

/-- Every move of the host or the platform keeps the invariant: new streams and FIFO accesses do not touch what it
speaks of. -/
theorem hostMove_keeps_inv {m : HostMove} {s t : State} (h : Inv s) (ht : hostMove m s = .next t) : Inv t := by
  cases m with
  | write offset value => exact writeRegister_keeps_inv h ht
  | read offset => exact readAccess_keeps_inv h ht
  | connectSource answers => obtain rfl := Host.Outcome.next.inj ht; exact h
  | connectSink answers => obtain rfl := Host.Outcome.next.inj ht; exact h
  | powerOn => obtain rfl := Host.Outcome.next.inj ht; exact powerOnReset_inv s

end Sys2Proof.Machine

open Sys2Proof Sys2Proof.Machine

/-- Settles O58: each host move keeps the invariant, and without a move the state stays. -/
theorem stepKeepsInv : Obligations.StepKeepsInv := by
  intro s t h ht
  unfold step at ht
  split at ht
  · obtain rfl := Host.Outcome.next.inj ht
    exact h
  · rename_i m rest _
    exact hostMove_keeps_inv (s := { s with host := rest }) h ht

/-- Settles O57: the reset state is that of two reset channels. -/
theorem invAtReset : Obligations.InvAtReset :=
  ⟨rfl, resetReader_inv Reader.reset, resetWriter_inv Writer.reset⟩

end

section
/-!
PROOFS. The host's accesses and the register map (R24 to R30, R74, R76), the values after reset (R63), and the commands
out of sequence (R31, R45, R194).
-/

namespace Sys2Proof.Machine

/-! ### Moves of the host -/

/-- A step uses up the host's next move. -/
theorem step_cons {s : State} {m : HostMove} {rest : List HostMove} (h : s.host = m :: rest) :
    step s = hostMove m { s with host := rest } := by
  simp only [step, h]

/-- The four offsets of CMD (R25, R74). -/
theorem registerOffset_cmd {offset : BitVec 12} (h : offset.toNat < 4) :
    registerOffset offset = registerOffset cmdOffset := by
  have h0 : offset.toNat / 4 = 0 := by omega
  simp [registerOffset, cmdOffset, h0]

/-- A DIN write while BUSY = 0 (R27). -/
theorem hostMove_writeDin {s : State} (value : Word) (h : s.busy = false) :
    hostMove (.write 0x008#12 value) s =
      .next { s with writer := { s.writer with din := s.writer.din ++ [value.setWidth 8] } } := by
  show writeDin value s = _
  simp [writeDin, h]

/-- A DOUT read while BUSY = 0 (R28). -/
theorem hostMove_readDout {s : State} (h : s.busy = false) :
    hostMove (.read 0x00C#12) s = .next { s with
      readData := doutWord s.reader.dout
      reader := { s.reader with dout := s.reader.dout.drop 1 } } := by
  show readDout s = _
  simp [readDout, h]

/-- The low byte of a value. -/
theorem setWidth_append_byte (high : BitVec 24) (b : Byte) : (high ++ b : Word).setWidth 8 = b := by
  apply BitVec.eq_of_toNat_eq
  rw [BitVec.toNat_setWidth, BitVec.toNat_append, Nat.shiftLeft_eq, Nat.mul_comm, ← Nat.two_pow_add_eq_or_of_lt b.isLt]
  omega

/-- DOUT shows its oldest byte with VALID = 1 (R28). -/
theorem doutWord_cons (b : Byte) (more : List Byte) : doutWord (b :: more) = 0x000001#24 ++ b := by
  apply BitVec.eq_of_toNat_eq
  have hb := b.isLt
  simp only [doutWord]
  rw [BitVec.toNat_ofNat, BitVec.toNat_append, BitVec.toNat_ofNat, Nat.shiftLeft_eq, Nat.mul_comm,
    ← Nat.two_pow_add_eq_or_of_lt b.isLt]
  omega

/-! ### Registers -/

/-- A read ignores bits [1:0] of its offset (R74). -/
theorem readRegister_congr {a b : BitVec 12} (s : State) (h : a.toNat / 4 = b.toNat / 4) :
    readRegister a s = readRegister b s := by
  have hoff : registerOffset a = registerOffset b := by rw [registerOffset, registerOffset, h]
  rw [readRegister, readRegister, hoff]

/-- A property of every register holds where it holds in each of the three parts of the map. -/
theorem readRegister_of_parts {P : Word → Prop} (a : BitVec 12) (s : State)
    (hc : P (readCommonRegister s (registerOffset a))) (hr : P (readReaderRegister s.reader (registerOffset a)))
    (hw : P (readWriterRegister s.writer (registerOffset a))) : P (readRegister a s) := by
  unfold readRegister
  dsimp only
  split
  · exact hc
  split
  · exact hr
  · exact hw

theorem readCommonRegister_unlisted (s : State) {n : Nat} (h : n ∉ listedOffsets) : readCommonRegister s n = 0#32 := by
  unfold readCommonRegister
  split
  on_goal -1 => rfl
  all_goals exact absurd (by decide) h

theorem readReaderRegister_unlisted (r : Reader) {n : Nat} (h : n ∉ listedOffsets) : readReaderRegister r n = 0#32 := by
  unfold readReaderRegister
  split
  on_goal -1 => rfl
  all_goals exact absurd (by decide) h

theorem readWriterRegister_unlisted (w : Writer) {n : Nat} (h : n ∉ listedOffsets) : readWriterRegister w n = 0#32 := by
  unfold readWriterRegister
  split
  on_goal -1 => rfl
  all_goals exact absurd (by decide) h

/-- An offset outside the map reads 0 (R76). -/
theorem readRegister_unlisted {a : BitVec 12} (s : State) (h : registerOffset a ∉ listedOffsets) :
    readRegister a s = 0#32 :=
  readRegister_of_parts (P := (· = 0#32)) a s (readCommonRegister_unlisted s h)
    (readReaderRegister_unlisted s.reader h) (readWriterRegister_unlisted s.writer h)

/-- The code numbers of R191. -/
theorem statusCode_listed : ∀ p ∈ [(Status.ok, 0x0#32), (.notAGifFile, 0x1#32), (.corruptData, 0x2#32),
    (.unexpectedEndOfData, 0x3#32), (.invalidSequence, 0x4#32), (.outOfRange, 0x5#32), (.ioError, 0x6#32),
    (.outOfMemory, 0x7#32), (.rasterOverflow, 0x8#32), (.illegalCommand, 0x9#32)],
    BitVec.ofNat 32 (statusCode p.1) = p.2 := by decide

/-- STATUS shows BUSY in bit 8 (R26). -/
theorem statusWord_busy (e : Status) : statusWord e true = 0x100#32 + statusWord e false := by
  cases e <;> rfl

/-! ### Reset -/

theorem readReaderRegister_reset (r : Reader) (n : Nat) : readReaderRegister (resetReader r) n = 0#32 := by
  unfold readReaderRegister
  split <;> rfl

theorem readWriterRegister_reset (w : Writer) (n : Nat) : readWriterRegister (resetWriter w) n = 0#32 := by
  unfold readWriterRegister
  split <;> rfl

/-- Two reset channels with STATUS 0 are at the values of R63, whatever stands around the block. -/
theorem atReset_resetBoth (s : State) : atReset { resetBoth s with last := .ok, busy := false } := by
  refine ⟨fun a => readRegister_of_parts (P := (· = 0#32)) a _ ?_ (readReaderRegister_reset _ _)
    (readWriterRegister_reset _ _), ?_⟩
  · unfold readCommonRegister
    split <;> rfl
  · and_intros <;> rfl

/-- RESET with SEL not 0 (R184). -/
theorem execReset_legal {sel : BitVec 2} (s : State) (h : sel ≠ 0#2) :
    exec (.reset sel) s = .next { s with
      reader := if selectsReader sel then resetReader s.reader else s.reader
      writer := if selectsWriter sel then resetWriter s.writer else s.writer
      last := .ok } :=
  if_neg h

/-! ### Commands out of sequence -/

/-- Every reader command is a check and a body in the reader's frame (R185), in the state R31 lists for it. -/
theorem exec_eq_readerCommand {i : Instr} {need : RState} (hi : readerNeeds i = some need) :
    ∃ check body, ∀ s, exec i s = readerCommand need check body s := by
  cases i
  case rOpen => obtain rfl := Option.some.inj hi; exact ⟨noCheck, rOpenBody, fun _ => rfl⟩
  case rNext => obtain rfl := Option.some.inj hi; exact ⟨noCheck, rNextBody, fun _ => rfl⟩
  case rExt => obtain rfl := Option.some.inj hi; exact ⟨noCheck, rExtBody, fun _ => rfl⟩
  case rExtBlock => obtain rfl := Option.some.inj hi; exact ⟨noCheck, rExtBlockBody, fun _ => rfl⟩
  case rImage => obtain rfl := Option.some.inj hi; exact ⟨noCheck, rImageBody, fun _ => rfl⟩
  case rPixels count =>
    obtain rfl := Option.some.inj hi
    exact ⟨rPixelsCheck (countOperand count), rPixelsBody (countOperand count), fun _ => rfl⟩
  all_goals nomatch hi

/-- Every writer command is a check and a body in the writer's frame (R185), in the state R45 lists for it. -/
theorem exec_eq_writerCommand {i : Instr} {need : WState} (hi : writerNeeds i = some need) :
    ∃ check body, ∀ s, exec i s = writerCommand need check body s := by
  cases i
  case wOpen v89a => obtain rfl := Option.some.inj hi; exact ⟨wOpenCheck, wOpenBody v89a, fun _ => rfl⟩
  case wExt imm8 => obtain rfl := Option.some.inj hi; exact ⟨noCheck, wExtBody imm8, fun _ => rfl⟩
  case wExtBlock imm8 =>
    obtain rfl := Option.some.inj hi
    exact ⟨wExtBlockCheck (lengthOperand imm8), wExtBlockBody imm8, fun _ => rfl⟩
  case wExtEnd => obtain rfl := Option.some.inj hi; exact ⟨noCheck, wExtEndBody, fun _ => rfl⟩
  case wImage => obtain rfl := Option.some.inj hi; exact ⟨wImageCheck, wImageBody, fun _ => rfl⟩
  case wPixels count =>
    obtain rfl := Option.some.inj hi
    exact ⟨wPixelsCheck (countOperand count), wPixelsBody (countOperand count), fun _ => rfl⟩
  case wTrailer => obtain rfl := Option.some.inj hi; exact ⟨noCheck, wTrailerBody, fun _ => rfl⟩
  all_goals nomatch hi

end Sys2Proof.Machine

open Sys2Proof Sys2Proof.Machine

/-- Settles O5: the access names CMD, which is not busy, and decoding chooses the command. -/
theorem stepRunsDecodedCommand : Obligations.StepRunsDecodedCommand := by
  intro s offset w rest i hhost hoff hbusy hdec
  rw [step_cons hhost]
  show writeRegister offset w { s with host := rest } = _
  rw [writeRegister, if_pos (registerOffset_cmd hoff)]
  simp only [writeCmd, hbusy, Bool.false_eq_true, if_false, issueWord, hdec]

/-- Settles O7: the FIFO takes the low byte of the value, and the map shows 0 for DIN. -/
theorem dinWriteAppends : Obligations.DinWriteAppends := by
  refine ⟨fun s high b rest hhost hbusy => ?_, fun s rest hhost => ?_⟩
  · rw [step_cons hhost, hostMove_writeDin (s := { s with host := rest }) _ hbusy, setWidth_append_byte]
  · rw [step_cons hhost]
    rfl

/-- Settles O8: the word that DOUT shows, and the FIFO without its oldest byte. -/
theorem doutReadPops : Obligations.DoutReadPops := by
  refine ⟨fun s b more rest hhost hbusy hdout => ?_, fun s rest hhost hbusy hdout => ?_⟩
  · rw [step_cons hhost, hostMove_readDout (s := { s with host := rest }) hbusy]
    simp only [hdout, doutWord_cons, List.drop_succ_cons, List.drop_zero]
  · have hsame : ({ s.reader with dout := s.reader.dout.drop 1 } : Reader) = s.reader := by
      rw [hdout, List.drop_nil, ← hdout]
    rw [step_cons hhost, hostMove_readDout (s := { s with host := rest }) hbusy, hsame, hdout]
    rfl

/-- Settles O10: every listed register is read off the map, and the numbers are those of the code tables. -/
theorem registerMap : Obligations.RegisterMap := by
  intro s
  refine ⟨rfl, fun p hp => ?status, rfl, fun h => ?doutEmpty, fun b more h => ?dout, rfl, rfl, fun p hp h => ?rstate,
    rfl, rfl, rfl, rfl, rfl, rfl, fun p hp h => ?rectype, rfl, rfl, rfl, rfl, rfl, rfl, rfl, rfl, rfl, rfl, rfl, rfl,
    rfl, rfl, fun p hp h => ?wstate, rfl, rfl, rfl, rfl, rfl, rfl, rfl, rfl, rfl, rfl, rfl, rfl, rfl, fun h => ?pending,
    fun a b => readRegister_congr s, fun a => readRegister_unlisted s⟩
  case status =>
    have hcode := statusCode_listed p hp
    refine ⟨fun hl hb => ?_, fun hl hb => ?_, fun h => ?_, fun h => ?_⟩
    · show statusWord s.last s.busy = p.2
      rw [hl, hb, ← hcode]
      rfl
    · show statusWord s.last s.busy = 0x100#32 + p.2
      rw [hl, hb, ← hcode, statusWord_busy]
      rfl
    · rw [← hcode, ← h]; rfl
    · rw [← hcode, ← h]; rfl
  case doutEmpty =>
    show doutWord s.reader.dout = 0#32
    rw [h]; rfl
  case dout =>
    show doutWord s.reader.dout = _
    rw [h, doutWord_cons]
  case rstate =>
    have hcode : ∀ p ∈ [(RState.idle, 0#32), (.top, 1#32), (.extCode, 2#32), (.extData, 3#32), (.imgDesc, 4#32),
        (.pixels, 5#32), (.done, 6#32), (.failed, 7#32)], BitVec.ofNat 32 (rstateCode p.1) = p.2 := by decide
    rw [← hcode p hp, ← h]; rfl
  case rectype =>
    have hcode : ∀ p ∈ [(RecType.none, 0#32), (.extension, 1#32), (.image, 2#32), (.trailer, 3#32)],
        BitVec.ofNat 32 (recTypeCode p.1) = p.2 := by decide
    rw [← hcode p hp, ← h]; rfl
  case wstate =>
    have hcode : ∀ p ∈ [(WState.idle, 0#32), (.top, 1#32), (.extData, 2#32), (.pixels, 3#32), (.done, 4#32),
        (.failed, 5#32)], BitVec.ofNat 32 (wstateCode p.1) = p.2 := by decide
    rw [← hcode p hp, ← h]; rfl
  case pending =>
    show BitVec.ofNat 32 (s.writer.pBuf.length % 256) = _
    rw [Nat.mod_eq_of_lt (by omega)]

/-- Settles O11: power-on and RESET 3 reset both channels, and RESET 1 and RESET 2 one each in the same way. -/
theorem resetValues : Obligations.ResetValues := by
  refine ⟨atReset_resetBoth State.reset, fun s rest hhost => ⟨_, step_cons hhost, atReset_resetBoth _⟩,
    fun s hbusy => ⟨_, execReset_legal s (by decide), ?_⟩,
    fun s => ⟨⟨_, execReset_legal s (by decide), rfl, fun t3 h3 => ?_⟩,
      _, execReset_legal s (by decide), rfl, fun t3 h3 => ?_⟩⟩
  · obtain ⟨last, busy, reader, writer, host, readData⟩ := s
    obtain rfl : busy = false := hbusy
    exact atReset_resetBoth _
  · obtain rfl := Host.Outcome.next.inj ((execReset_legal s (by decide)).symm.trans h3)
    rfl
  · obtain rfl := Host.Outcome.next.inj ((execReset_legal s (by decide)).symm.trans h3)
    rfl

/-- Settles O13: every command is its channel's frame, which rejects it before its checks. -/
theorem outOfSequenceRejects : Obligations.OutOfSequenceRejects := by
  refine ⟨fun i s need hi hf hn => ?_, fun i s need hi hf hn => ?_,
    fun _ s hsel => ⟨_, execReset_legal s hsel, rfl⟩⟩
  · obtain ⟨check, body, hexec⟩ := exec_eq_readerCommand hi
    rw [hexec, readerCommand_sequence hf hn, rejectWith]
  · obtain ⟨check, body, hexec⟩ := exec_eq_writerCommand hi
    rw [hexec, writerCommand_sequence hf hn, rejectWith]

end

section
/-!
PROOFS. `R_IMAGE` of an image with pixels (R161, R162), step by step through its body.
-/

namespace Sys2Proof.Machine

/-- `U16(lo, hi)` puts the later byte above the earlier one (R14). -/
theorem u16_eq_append (lo hi : Byte) : u16 lo hi = hi ++ lo := by
  apply BitVec.eq_of_toNat_eq
  have hl := lo.isLt
  have hh := hi.isLt
  rw [u16, BitVec.toNat_ofNat, BitVec.toNat_append, Nat.shiftLeft_eq, Nat.mul_comm hi.toNat,
    ← Nat.two_pow_add_eq_or_of_lt lo.isLt]
  omega

/-- The bytes of the table a packed byte announces, in the terms of the statements (R95). -/
theorem tableBytes_eq_tableSize (packed : Byte) : tableBytes packed = tableSize packed := by
  have hexp : tableExp packed = packed.toNat % 8 := by simp [tableExp]
  rw [tableBytes, tableSize, hasTable, hexp]

/-- The interlace flag is bit 6 of the packed byte (R98). -/
theorem interlaceBit_eq (packed : Byte) : interlaceBit packed = BitVec.ofBool (packed.getLsbD 6) := by
  apply BitVec.eq_of_getLsbD_eq
  intro i hi
  obtain rfl : i = 0 := by omega
  simp [interlaceBit]

@[simp] theorem rowInit_w (w h : Half) (il : BitVec 1) : (rowInit w h il).w = w := by
  unfold rowInit; split <;> [rfl; (split <;> rfl)]
@[simp] theorem rowInit_h (w h : Half) (il : BitVec 1) : (rowInit w h il).h = h := by
  unfold rowInit; split <;> [rfl; (split <;> rfl)]
@[simp] theorem rowInit_il (w h : Half) (il : BitVec 1) : (rowInit w h il).il = il := by
  unfold rowInit; split <;> [rfl; (split <;> rfl)]

/-- The tracker at the first pixel of a raster that has one (R59, R163). -/
theorem rowInit_nonempty {w h : Half} (il : BitVec 1) (hw : 0 < w.toNat) (hh : 0 < h.toNat) :
    rowInit w h il = { row := 0, col := 0, pass := 0, w := w, h := h, il := il } := by
  obtain ⟨-, -, hrow, hcol, hpass⟩ := rowInit_inside il hw hh
  have hw' := rowInit_w w h il
  have hh' := rowInit_h w h il
  have hil := rowInit_il w h il
  generalize rowInit w h il = t at hrow hcol hpass hw' hh' hil
  obtain ⟨row, col, pass, tw, th, til⟩ := t
  subst hrow hcol hpass hw' hh' hil
  rfl

theorem rasterLength_ne_zero {w h : Half} (hw : 0 < w.toNat) (hh : 0 < h.toNat) : rasterLength w h ≠ 0#32 := by
  intro h0
  have hlen := rasterLength_toNat w h
  have hpos := Nat.mul_pos hw hh
  rw [h0, BitVec.toNat_ofNat] at hlen
  omega

theorem toNat_pos {n : Nat} {x : BitVec n} (h : x ≠ 0#n) : 0 < x.toNat :=
  Nat.pos_of_ne_zero fun h0 => h (BitVec.eq_of_toNat_eq (by simpa using h0))

/-- The registers of a descriptor whose nine bytes are known (R97). -/
theorem setDescriptor_bytes (d0 d1 d2 d3 d4 d5 d6 d7 d8 : Byte) (r : Reader) :
    setDescriptor [d0, d1, d2, d3, d4, d5, d6, d7, d8] r =
      { r with
        imgLeft := d1 ++ d0, imgTop := d3 ++ d2, imgW := d5 ++ d4, imgH := d7 ++ d6, imgPacked := d8 } := by
  simp only [setDescriptor, u16At, u16_eq_append]
  rfl

/-- `R_IMAGE` up to the code size byte, on a stream that holds the descriptor and the table it announces (R155, R161). -/
theorem rImageBody_table {d table : List Byte} {rest : List SrcAnswer} {r : Reader} (hd : d.length = 9)
    (ht : table.length = tableSize (byteOf d 8)) (hsin : r.sin = (d ++ table).map .byte ++ rest) :
    rImageBody r = imageDataStart { setDescriptor d r with
      dout := r.dout ++ table, sin := rest, sinRead := r.sinRead + 9 + table.length } := by
  rw [List.map_append, List.append_assoc] at hsin
  have hread := srcBytes_bytes d r _ hsin
  rw [hd] at hread
  rw [rImageBody, hread, Body.bind_ok, copyTable, tableBytes_eq_tableSize, ← ht,
    copyBytes_bytes table _ rest rfl, Body.bind_ok]
  rfl

/-- The code size byte of an image with pixels starts the image (R162). -/
theorem imageDataStart_pixels {r r1 : Reader} {b : Byte} (hb : srcByte r = .ok b r1) (h2 : 2 ≤ b.toNat)
    (h8 : b.toNat ≤ 8) (hn : rasterLength r1.imgW r1.imgH ≠ 0#32) :
    imageDataStart r = .ok () { startImage b { r1 with codeSize := b } with state := .pixels } := by
  have hn' : (startImage b { r1 with codeSize := b }).pixRemain ≠ 0#32 := hn
  rw [imageDataStart, hb, Body.bind_ok]
  dsimp only
  rw [if_neg (by omega)]
  generalize startImage b { r1 with codeSize := b } = r2 at hn' ⊢
  exact if_neg hn'

/-- The unpacker, the decompressor, the pixel count and the tracker at the start of an image with pixels (R119, R137,
R162). -/
theorem startImage_eq {r : Reader} {b : Byte} (h8 : b.toNat ≤ 8) (hw : 0 < r.imgW.toNat) (hh : 0 < r.imgH.toNat) :
    startImage b r = { r with
      pixRemain := BitVec.ofNat 32 (r.imgW.toNat * r.imgH.toNat),
      rows := { row := 0, col := 0, pass := 0, w := r.imgW, h := r.imgH, il := BitVec.ofBool (r.imgPacked.getLsbD 6) },
      dB := BitVec.ofNat 4 b.toNat, dClear := BitVec.ofNat 13 (2 ^ b.toNat),
      dEof := BitVec.ofNat 13 (2 ^ b.toNat + 1), dFirst := BitVec.ofNat 13 (2 ^ b.toNat + 2),
      dFree := BitVec.ofNat 13 (2 ^ b.toNat + 2), dW := BitVec.ofNat 4 (b.toNat + 1), dPrev := none, dDict := [],
      dPend := [], dDone := false, uAcc := 0, uCnt := 0, uLeft := 0, uEnd := false } := by
  have hb : b.setWidth 4 = BitVec.ofNat 4 b.toNat := BitVec.eq_of_toNat_eq (by simp)
  have hn : (BitVec.ofNat 4 b.toNat).toNat = b.toNat := by rw [BitVec.toNat_ofNat]; omega
  have hsucc : BitVec.ofNat 4 b.toNat + 1#4 = BitVec.ofNat 4 (b.toNat + 1) := (BitVec.ofNat_add ..).symm
  simp only [startImage, decompressStart, resetDecoder, hb, hn, hsucc, rowInit_nonempty _ hw hh, interlaceBit_eq,
    rasterLength]
  rfl

end Sys2Proof.Machine

open Sys2Proof Sys2Proof.Machine

/-- Settles O25: the descriptor and the table are read, then the code size byte starts an image that has pixels. -/
theorem rImageStarts : Obligations.RImageStarts := by
  intro s d0 d1 d2 d3 d4 d5 d6 d7 d8 b table rest hstate htable h2 h8 hw hh hsin
  rw [List.map_append, List.append_assoc] at hsin
  have hw := toNat_pos hw
  have hh := toNat_pos hh
  have hrun : exec .rImage s = endReader s (rImageBody s.reader) :=
    readerCommand_runs (need := .imgDesc) (check := noCheck) (by rw [hstate]; decide) hstate rfl
  have hread : s.reader.sinRead + 9 + table.length + 1 = s.reader.sinRead + 10 + table.length := by omega
  rw [hrun, rImageBody_table (d := [d0, d1, d2, d3, d4, d5, d6, d7, d8]) rfl htable hsin, setDescriptor_bytes,
    imageDataStart_pixels (srcByte_byte (b := b) (rest := rest) rfl) h2 h8 (rasterLength_ne_zero hw hh),
    startImage_eq h8 hw hh, endReader]
  simp only [hread]

end

section
/-!
PROOFS. The row tracker follows the raster (R58, R59): the rows a tracker still has ahead of it, as a list, and how the
list shrinks by one row at every step to the next row.
-/

namespace Sys2Proof.Machine

/-! ### The rows of a pass -/

/-- The rows of pass `pass` from `row` on, in an image of `h` rows. -/
def passRows (h pass row : Nat) : List Nat :=
  (List.range h).filter fun r => decide (row ≤ r ∧ r % interlaceStride pass = interlaceOffset pass)

/-- The rows of the passes after `pass`. -/
def laterRows (h : Nat) : Nat → List Nat
  | 0 => passRows h 1 4 ++ (passRows h 2 2 ++ passRows h 3 1)
  | 1 => passRows h 2 2 ++ passRows h 3 1
  | 2 => passRows h 3 1
  | _ => []

/-- The rows from `row` of pass `pass` on, in stream order. -/
def rowsOnward (h pass row : Nat) : List Nat := passRows h pass row ++ laterRows h pass

theorem mem_passRows {h pass row r : Nat} :
    r ∈ passRows h pass row ↔ r < h ∧ row ≤ r ∧ r % interlaceStride pass = interlaceOffset pass := by
  simp [passRows]

theorem passRows_nil {h pass row : Nat} (hr : h ≤ row) : passRows h pass row = [] :=
  List.eq_nil_iff_forall_not_mem.2 fun r hmem => by
    obtain ⟨hlt, hle, -⟩ := mem_passRows.1 hmem
    omega

/-- A row of a pass is followed by the rows one stride further on. -/
theorem passRows_cons {h pass row : Nat} (hp : pass < 4) (hr : row < h)
    (ha : row % interlaceStride pass = interlaceOffset pass) :
    passRows h pass row = row :: passRows h pass (row + interlaceStride pass) := by
  have hsorted : ∀ row', (passRows h pass row').Pairwise (· < ·) := fun _ => List.pairwise_lt_range.filter _
  have hlater : ∀ r ∈ passRows h pass (row + interlaceStride pass), row < r := by
    intro r hmem
    obtain ⟨-, hle, -⟩ := mem_passRows.1 hmem
    obtain rfl | rfl | rfl | rfl : pass = 0 ∨ pass = 1 ∨ pass = 2 ∨ pass = 3 := by omega
    all_goals simp only [interlaceStride] at hle; omega
  refine (hsorted row).eq_of_mem_iff (List.pairwise_cons.2 ⟨hlater, hsorted _⟩) fun r => ?_
  rw [List.mem_cons, mem_passRows, mem_passRows]
  obtain rfl | rfl | rfl | rfl : pass = 0 ∨ pass = 1 ∨ pass = 2 ∨ pass = 3 := by omega
  all_goals simp only [interlaceStride, interlaceOffset] at ha ⊢; omega

theorem laterRows_succ {h pass : Nat} (hp : pass < 3) :
    laterRows h pass = rowsOnward h (pass + 1) (interlaceOffset (pass + 1)) := by
  obtain rfl | rfl | rfl : pass = 0 ∨ pass = 1 ∨ pass = 2 := by omega
  all_goals simp [laterRows, rowsOnward, interlaceOffset]

/-- All rows of an interlaced image, pass by pass (R58). -/
theorem rowsOnward_start (h : Nat) : rowsOnward h 0 0 = rasterRows 1#1 h := by
  have hpass : ∀ pass row m o, interlaceStride pass = m → interlaceOffset pass = o → row ≤ o →
      passRows h pass row = (List.range h).filter fun r => r % m == o := by
    rintro pass row _ _ rfl rfl hle
    refine List.filter_congr fun r _ => ?_
    have hmod := Nat.mod_le r (interlaceStride pass)
    rw [Bool.eq_iff_iff, decide_eq_true_eq, beq_iff_eq]
    omega
  rw [rowsOnward, laterRows, hpass 0 0 8 0 rfl rfl (le_refl _), hpass 1 4 8 4 rfl rfl (le_refl _),
    hpass 2 2 4 2 rfl rfl (le_refl _), hpass 3 1 2 1 rfl rfl (le_refl _), rasterRows, if_pos rfl]
  simp only [List.append_assoc]

/-- The loop of R59 passes over the passes without a row: it ends at the first of the rows onward, or at (4, H) where
there is none. -/
theorem settleRow_rows (h n : Nat) : ∀ pass row, pass < 4 → 4 ≤ pass + n →
    row % interlaceStride pass = interlaceOffset pass →
    (settleRow h n pass row = (4, h) ∧ rowsOnward h pass row = []) ∨
    ∃ pass' row', settleRow h n pass row = (pass', row') ∧ pass' < 4 ∧ row' < h ∧
      row' % interlaceStride pass' = interlaceOffset pass' ∧ rowsOnward h pass row = rowsOnward h pass' row' := by
  induction n with
  | zero => intro pass row hp hn; omega
  | succ n ih =>
    intro pass row hp hn ha
    by_cases hr : h ≤ row
    · simp only [settleRow, hp, hr, and_self, if_true, rowsOnward, passRows_nil hr, List.nil_append]
      by_cases hp3 : pass < 3
      · rw [if_pos (by omega), laterRows_succ hp3]
        refine ih (pass + 1) _ (by omega) (by omega) ?_
        obtain rfl | rfl | rfl : pass = 0 ∨ pass = 1 ∨ pass = 2 := by omega
        all_goals rfl
      · obtain rfl : pass = 3 := by omega
        left
        cases n <;> simp [settleRow, laterRows]
    · refine .inr ⟨pass, row, ?_, hp, by omega, ha, rfl⟩
      rw [settleRow, if_neg (by omega), if_neg (by omega)]

/-! ### The rows ahead of a tracker -/

/-- The rows from the tracker's own on, in stream order. -/
def rowsAhead (t : RowTracker) : List Nat :=
  if t.il = 1#1 then rowsOnward t.h.toNat t.pass.toNat t.row.toNat
  else List.range' t.row.toNat (t.h.toNat - t.row.toNat)

/-- The tracker's row is one of its pass (R58). -/
def Aligned (t : RowTracker) : Prop :=
  t.il = 1#1 → t.row.toNat % interlaceStride t.pass.toNat = interlaceOffset t.pass.toNat

/-- The first row ahead is the tracker's own. -/
theorem rowsAhead_head? {t : RowTracker} (hin : trackerInside t) (ha : Aligned t) :
    (rowsAhead t).head? = some t.row.toNat := by
  obtain ⟨hr, -, hp, -⟩ := hin
  unfold rowsAhead
  split
  · rename_i hil
    rw [rowsOnward, passRows_cons hp hr (ha hil)]
    rfl
  · obtain ⟨m, hm⟩ : ∃ m, t.h.toNat - t.row.toNat = m + 1 := ⟨t.h.toNat - t.row.toNat - 1, by omega⟩
    rw [hm, List.range'_succ]
    rfl

/-- A step to a next row leaves the tracker's own row behind. -/
theorem rowsAhead_nextRow {t : RowTracker} (hin : trackerInside t) (ha : Aligned t)
    (hnext : (nextRow t).row.toNat < t.h.toNat) :
    Aligned (nextRow t) ∧ (rowsAhead t).tail = rowsAhead (nextRow t) := by
  obtain ⟨hr, -, hp, hpass⟩ := hin
  have hh := t.h.isLt
  by_cases hil : t.il = 1#1
  · have ha' : (t.row.toNat + interlaceStride t.pass.toNat) % interlaceStride t.pass.toNat =
        interlaceOffset t.pass.toNat := by rw [Nat.add_mod_right]; exact ha hil
    have htail : (rowsAhead t).tail =
        rowsOnward t.h.toNat t.pass.toNat (t.row.toNat + interlaceStride t.pass.toNat) := by
      rw [rowsAhead, if_pos hil, rowsOnward, passRows_cons hp hr (ha hil)]
      rfl
    obtain ⟨hset, -⟩ | ⟨pass', row', hset, hp', hr', hal, hrows⟩ := settleRow_rows t.h.toNat 4 _ _ hp (by omega) ha'
    · simp [nextRow, hil, hset] at hnext
    · have hrow : (nextRow t).row.toNat = row' := by
        simp only [nextRow, hil, if_true, hset, BitVec.toNat_ofNat]; omega
      have hpas : (nextRow t).pass.toNat = pass' := by
        simp only [nextRow, hil, if_true, hset, BitVec.toNat_ofNat]; omega
      refine ⟨fun _ => by rw [hrow, hpas]; exact hal, ?_⟩
      rw [htail, hrows, rowsAhead, if_pos (by rw [nextRow_il]; exact hil), hrow, hpas, nextRow_h]
  · refine ⟨fun h => absurd (nextRow_il t ▸ h) hil, ?_⟩
    have hne : t.row.toNat + 1 ≠ t.h.toNat := by
      intro he
      simp [nextRow, hil, he] at hnext
    have hrow : (nextRow t).row.toNat = t.row.toNat + 1 := by
      simp only [nextRow, hil, if_false, hne, BitVec.toNat_ofNat]; omega
    rw [rowsAhead, if_neg hil, rowsAhead, if_neg (by rw [nextRow_il]; exact hil), hrow, nextRow_h, List.tail_range']
    congr 1

/-! ### Pixel by pixel -/

theorem rowAdvances_succ (k : Nat) : ∀ t : RowTracker, rowAdvances (k + 1) t = rowAdvance (rowAdvances k t) := by
  induction k with
  | zero => intro t; rfl
  | succ k ih => intro t; exact ih (rowAdvance t)

/-- The tracker stands on pixel number `k` of the raster that `RowInit(w, h, il)` starts. -/
structure OnPixel (w h : Half) (il : BitVec 1) (k : Nat) (t : RowTracker) : Prop where
  shape : t.w = w ∧ t.h = h ∧ t.il = il
  inside : trackerInside t
  left : trackerLeft t (w.toNat * h.toNat - k)
  aligned : Aligned t
  col : t.col.toNat = k % w.toNat
  rows : rowsAhead t = (rasterRows il h.toNat).drop (k / w.toNat)

theorem rowInit_onPixel {w h : Half} (il : BitVec 1) (hw : 0 < w.toNat) (hh : 0 < h.toNat) :
    OnPixel w h il 0 (rowInit w h il) := by
  obtain ⟨hin, hleft, -⟩ := rowInit_inside il hw hh
  rw [rowInit_nonempty il hw hh] at hin hleft ⊢
  refine ⟨⟨rfl, rfl, rfl⟩, hin, hleft, fun _ => rfl, (Nat.zero_mod _).symm, ?_⟩
  rw [Nat.zero_div, List.drop_zero, rowsAhead]
  split
  · rename_i hil
    rw [show il = 1#1 from hil]
    exact rowsOnward_start h.toNat
  · rename_i hil
    rw [rasterRows, if_neg hil]
    exact List.range_eq_range'.symm

/-- From one pixel to the next: along the row, or to the first pixel of the next one. -/
theorem rowAdvance_onPixel {w h : Half} {il : BitVec 1} {k : Nat} {t : RowTracker} (ht : OnPixel w h il k t)
    (hk : k + 1 < w.toNat * h.toNat) : OnPixel w h il (k + 1) (rowAdvance t) := by
  obtain ⟨⟨rfl, rfl, rfl⟩, hin, hleft, ha, hcol, hrows⟩ := ht
  obtain ⟨-, -, hnext⟩ := rowAdvance_spec hin hleft
  obtain ⟨hin', hleft'⟩ := hnext (by omega)
  have hcolt := hin.2.1
  have hdiv := Nat.div_add_mod k t.w.toNat
  suffices hrest : Aligned (rowAdvance t) ∧ (rowAdvance t).col.toNat = (k + 1) % t.w.toNat ∧
      rowsAhead (rowAdvance t) = (rasterRows t.il t.h.toNat).drop ((k + 1) / t.w.toNat) by
    obtain ⟨ha', hcol', hrows'⟩ := hrest
    exact ⟨⟨rowAdvance_w t, rowAdvance_h t, rowAdvance_il t⟩, hin', by rwa [Nat.sub_sub] at hleft', ha', hcol', hrows'⟩
  by_cases hlast : t.col.toNat + 1 = t.w.toNat
  · have hadv : rowAdvance t = nextRow { t with col := 0#16 } := by rw [rowAdvance, if_pos hlast]
    have hk1 : k + 1 = t.w.toNat * (k / t.w.toNat + 1) := by rw [Nat.mul_add, Nat.mul_one]; omega
    have hin0 : trackerInside { t with col := 0#16 } := ⟨hin.1, by simp; omega, hin.2.2⟩
    obtain ⟨ha', hrows'⟩ := rowsAhead_nextRow (t := { t with col := 0#16 }) hin0 ha
      (by rw [← hadv]; simpa using hin'.1)
    refine ⟨hadv ▸ ha', ?_, ?_⟩
    · rw [hk1, Nat.mul_mod_right, hadv, nextRow_col]; rfl
    · rw [hk1, Nat.mul_div_cancel_left _ (by omega), hadv, ← hrows', ← List.drop_drop, ← hrows, List.drop_one]
      rfl
  · have hadv : rowAdvance t = { t with col := BitVec.ofNat 16 (t.col.toNat + 1) } := by rw [rowAdvance, if_neg hlast]
    have hk1 : k + 1 = t.w.toNat * (k / t.w.toNat) + (t.col.toNat + 1) := by omega
    have hw := t.w.isLt
    refine ⟨hadv ▸ ha, ?_, ?_⟩
    · rw [hk1, Nat.mul_add_mod, Nat.mod_eq_of_lt (by omega), hadv, BitVec.toNat_ofNat, Nat.mod_eq_of_lt (by omega)]
    · rw [hk1, Nat.mul_add_div (by omega), Nat.div_eq_of_lt (by omega : t.col.toNat + 1 < t.w.toNat), Nat.add_zero,
        ← hrows, hadv]
      rfl

theorem rowAdvances_onPixel {w h : Half} (il : BitVec 1) (k : Nat) (hk : k < w.toNat * h.toNat) :
    OnPixel w h il k (rowAdvances k (rowInit w h il)) := by
  induction k with
  | zero => exact rowInit_onPixel il (Nat.pos_of_mul_pos_right hk) (Nat.pos_of_mul_pos_left hk)
  | succ k ih =>
    rw [rowAdvances_succ]
    exact rowAdvance_onPixel (ih (by omega)) hk

/-- The pass of a row is the one whose offset and stride it has (R58). -/
theorem passOfRow_eq {pass row : Nat} (hp : pass < 4) (ha : row % interlaceStride pass = interlaceOffset pass) :
    passOfRow row = pass := by
  obtain rfl | rfl | rfl | rfl : pass = 0 ∨ pass = 1 ∨ pass = 2 ∨ pass = 3 := by omega
  all_goals
    simp only [interlaceStride, interlaceOffset] at ha
    unfold passOfRow
    split_ifs <;> omega

/-- What pixel number `k` says of row, column and pass. -/
theorem OnPixel.place {w h : Half} {il : BitVec 1} {k : Nat} {t : RowTracker} (ht : OnPixel w h il k t) :
    (rasterRows il h.toNat)[k / w.toNat]? = some t.row.toNat ∧
      t.pass.toNat = if il = 1#1 then passOfRow t.row.toNat else 0 := by
  obtain ⟨⟨rfl, rfl, rfl⟩, hin, -, ha, -, hrows⟩ := ht
  refine ⟨?_, ?_⟩
  · rw [← List.head?_drop, ← hrows, rowsAhead_head? hin ha]
  · split
    · rename_i hil
      exact (passOfRow_eq hin.2.2.1 (ha hil)).symm
    · rename_i hil
      rw [hin.2.2.2 hil]
      rfl

end Sys2Proof.Machine

open Sys2Proof Sys2Proof.Machine

/-- Settles O38, by induction on the pixel number. -/
theorem rowTrackerFollowsRaster : Obligations.RowTrackerFollowsRaster := by
  intro w h il
  refine ⟨fun k hk => ?_, fun hpos => ?_⟩
  · have ht := rowAdvances_onPixel il k hk
    obtain ⟨hrow, hpass⟩ := ht.place
    exact ⟨_, hrow, rfl, ht.col, hpass⟩
  · obtain ⟨k, hk⟩ : ∃ k, w.toNat * h.toNat = k + 1 := ⟨w.toNat * h.toNat - 1, by omega⟩
    have ht := rowAdvances_onPixel (w := w) (h := h) il k (by omega)
    rw [hk, rowAdvances_succ]
    exact (rowAdvance_spec ht.inside ht.left).2.1 (by omega)

end

section
/-!
PROOFS. What the packer writes, to the bit and to the byte (R67, R113 to R115): sub-blocks that the sink takes or refuses,
and the exact state after WriteCode in both cases.
-/

namespace Sys2Proof.Machine

/-! ### Bytes of a number -/

theorem lowBytes_length (k v : Nat) : (lowBytes k v).length = k := by simp [lowBytes]

theorem lowBytes_succ (k v : Nat) : lowBytes (k + 1) v = BitVec.ofNat 8 v :: lowBytes k (v / 256) := by
  simp only [lowBytes, List.range_succ_eq_map, List.map_cons, List.map_map, Nat.pow_zero, Nat.div_one, List.cons.injEq,
    true_and]
  refine List.map_congr_left fun j _ => ?_
  rw [Function.comp_apply, Nat.succ_eq_add_one, Nat.pow_succ', Nat.div_div_eq_div_mul]

theorem lowBytes_add (j k : Nat) : ∀ v : Nat, lowBytes (j + k) v = lowBytes j v ++ lowBytes k (v / 256 ^ j) := by
  induction j with
  | zero => intro v; simp [lowBytes]
  | succ j ih =>
    intro v
    rw [Nat.add_right_comm, lowBytes_succ, lowBytes_succ, ih, Nat.div_div_eq_div_mul, ← Nat.pow_succ', List.cons_append]

/-- What stands above the low `k` bytes does not show in them. -/
theorem lowBytes_add_mul (k : Nat) : ∀ v u : Nat, lowBytes k (v + u * 256 ^ k) = lowBytes k v := by
  induction k with
  | zero => intro v u; rfl
  | succ k ih =>
    intro v u
    have hbyte : BitVec.ofNat 8 (v + u * 256 ^ (k + 1)) = BitVec.ofNat 8 v := by
      apply BitVec.eq_of_toNat_eq
      rw [BitVec.toNat_ofNat, BitVec.toNat_ofNat, Nat.pow_succ, ← Nat.mul_assoc]
      omega
    have hdiv : (v + u * 256 ^ (k + 1)) / 256 = v / 256 + u * 256 ^ k := by
      rw [Nat.pow_succ, ← Nat.mul_assoc, Nat.add_mul_div_right _ _ (by decide)]
    rw [lowBytes_succ, lowBytes_succ, hbyte, hdiv, ih]

/-! ### Sub-blocks at the sink -/

/-- A sub-block is its length byte and its data bytes, in order (R100). -/
theorem sinkSubBlock_eq (d : List Byte) (w : Writer) : sinkSubBlock d w = sinkBytes (BitVec.ofNat 8 d.length :: d) w := rfl

/-- Bytes that the sink accepts, whatever it answers later. -/
theorem sinkBytes_acceptsFirst (bs : List Byte) : ∀ w : Writer, acceptsFirst bs.length w →
    sinkBytes bs w = .ok () { w with sout := w.sout ++ bs, sinkAnswers := w.sinkAnswers.drop bs.length } := by
  induction bs with
  | nil => intro w _; simp [sinkBytes]
  | cons b bs ih =>
    intro w h
    have hstep : sinkByte b w = .ok () { w with sout := w.sout ++ [b], sinkAnswers := w.sinkAnswers.drop 1 } ∧
        acceptsFirst bs.length { w with sout := w.sout ++ [b], sinkAnswers := w.sinkAnswers.drop 1 } := by
      cases ha : w.sinkAnswers with
      | nil => simp [acceptsFirst, sinkByte, sinkTake, ha]
      | cons a rest =>
        simp only [acceptsFirst, ha, List.length_cons, List.take_succ_cons, List.mem_cons, forall_eq_or_imp] at h
        obtain ⟨rfl, hrest⟩ := h
        exact ⟨by simp [sinkByte, sinkTake, ha], hrest⟩
    rw [sinkBytes, hstep.1, Body.bind_ok, ih _ hstep.2]
    simp [Nat.add_comm]

/-- How many of a refused byte reach the sink: one or none (R67, U3). -/
def landedCount (w : Writer) : Nat := if Config.refusedByteLanded w.draws then 1 else 0

theorem landedCount_le (w : Writer) : landedCount w ≤ 1 := by unfold landedCount; split <;> decide

/-- Bytes of which the sink accepts the first `k` and refuses the next. -/
theorem sinkBytes_refused (bs : List Byte) : ∀ (k : Nat) (w : Writer) (rest : List SinkAnswer), k < bs.length →
    w.sinkAnswers = List.replicate k .ok ++ .error :: rest →
    sinkBytes bs w = .raise .ioError { w with
      sout := w.sout ++ bs.take (k + landedCount w), sinkAnswers := rest, draws := w.draws + 1 } := by
  induction bs with
  | nil => intro k w rest hk; simp at hk
  | cons b bs ih =>
    intro k w rest hk ha
    cases k with
    | zero =>
      rw [List.replicate_zero, List.nil_append] at ha
      cases hl : Config.refusedByteLanded w.draws <;>
        simp [sinkBytes, sinkByte, ha, sinkRefuse, landedCount, hl]
    | succ k =>
      rw [List.replicate_succ, List.cons_append] at ha
      have hstep : sinkByte b w =
          .ok () (sinkTake b { w with sinkAnswers := List.replicate k .ok ++ .error :: rest }) := by
        simp only [sinkByte, ha]
      have hl : landedCount (sinkTake b { w with sinkAnswers := List.replicate k .ok ++ .error :: rest }) =
          landedCount w := rfl
      rw [sinkBytes, hstep, Body.bind_ok, ih k _ rest (by simpa using hk) rfl, hl, Nat.add_right_comm,
        List.take_succ_cons]
      simp only [sinkTake, List.append_assoc, List.singleton_append]

/-! ### PutByte and the loop of WriteCode -/

/-- `PutByte` where the pending sub-block is not filled. -/
theorem putByte_pending {w : Writer} (x : Byte) (h : w.pBuf.length < 254) :
    putByte x w = .ok () { w with pBuf := w.pBuf ++ [x] } := by
  have hne : (w.pBuf ++ [x]).length ≠ Config.subBlockMax := by
    rw [List.length_append, List.length_singleton, Config.subBlockMax]; omega
  exact if_neg hne

/-- `PutByte` where it fills the pending sub-block. -/
theorem putByte_full {w : Writer} (x : Byte) (h : w.pBuf.length = 254) :
    putByte x w = (sinkBytes (255#8 :: (w.pBuf ++ [x])) { w with pBuf := w.pBuf ++ [x] }).bind fun _ w =>
      .ok () { w with pBuf := [] } := by
  have hlen : (w.pBuf ++ [x]).length = 255 := by rw [List.length_append, List.length_singleton, h]
  refine (if_pos hlen).trans ?_
  rw [sinkSubBlock_eq, hlen]

/-- `w` after `j` data bytes of the number `v` have joined the pending sub-block. -/
def pushed (j v : Nat) (w : Writer) : Writer :=
  { w with
    pBuf := w.pBuf ++ lowBytes j v, pAcc := BitVec.ofNat 19 (v / 256 ^ j), pCnt := w.pCnt - 8 * j }

@[simp] theorem pushed_pAcc (j v : Nat) (w : Writer) : (pushed j v w).pAcc = BitVec.ofNat 19 (v / 256 ^ j) := rfl
@[simp] theorem pushed_pCnt (j v : Nat) (w : Writer) : (pushed j v w).pCnt = w.pCnt - 8 * j := rfl
@[simp] theorem pushed_pBuf (j v : Nat) (w : Writer) : (pushed j v w).pBuf = w.pBuf ++ lowBytes j v := rfl

theorem lowBytes_one (v : Nat) : lowBytes 1 v = [BitVec.ofNat 8 v] := by rw [lowBytes_succ]; rfl

theorem accByte_ofNat {a : Acc} {v : Nat} (h : a.toNat = v) : accByte a = BitVec.ofNat 8 v := by
  apply BitVec.eq_of_toNat_eq
  rw [accByte_toNat, h, BitVec.toNat_ofNat]

theorem acc_shift_ofNat {a : Acc} {v : Nat} (h : a.toNat = v) : a >>> 8 = BitVec.ofNat 19 (v / 256) := by
  apply BitVec.eq_of_toNat_eq
  have hv := a.isLt
  rw [BitVec.toNat_ushiftRight, Nat.shiftRight_eq_div_pow, h, BitVec.toNat_ofNat, Nat.mod_eq_of_lt (by omega)]

theorem pushed_zero {v : Nat} {w : Writer} (h : w.pAcc.toNat = v) : pushed 0 v w = w := by
  have hacc : BitVec.ofNat 19 (v / 256 ^ 0) = w.pAcc := by
    apply BitVec.eq_of_toNat_eq
    have := w.pAcc.isLt
    rw [BitVec.toNat_ofNat, Nat.pow_zero, Nat.div_one, ← h]; omega
  rw [pushed, hacc, Nat.mul_zero, Nat.sub_zero, lowBytes, List.range_zero, List.map_nil, List.append_nil]

theorem pushed_pushed (j k v : Nat) (w : Writer) : pushed k (v / 256 ^ j) (pushed j v w) = pushed (j + k) v w := by
  simp only [pushed, lowBytes_add, List.append_assoc, Nat.div_div_eq_div_mul, ← Nat.pow_add, Nat.sub_sub, Nat.mul_add]

/-- The first turns of the loop of WriteCode, as long as they fill no sub-block. -/
theorem packBytes_push (j : Nat) : ∀ {n v : Nat} {w : Writer}, w.pAcc.toNat = v → 8 * j ≤ w.pCnt →
    w.pBuf.length + j ≤ 254 → packBytes (j + n) w = packBytes n (pushed j v w) := by
  induction j with
  | zero => intro n v w hv _ _; rw [pushed_zero hv, Nat.zero_add]
  | succ j ih =>
    intro n v w hv hc hb
    have hacc := w.pAcc.isLt
    have hstep : packBytes (j + 1 + n) w = packBytes (j + n) (pushed 1 v w) := by
      rw [Nat.add_right_comm, packBytes, if_pos (by omega), putByte_pending _ (by omega), Body.bind_ok, accByte_ofNat hv,
        acc_shift_ofNat hv, pushed, lowBytes_one, Nat.pow_one]
    have hv1 : (pushed 1 v w).pAcc.toNat = v / 256 := by
      rw [pushed_pAcc, BitVec.toNat_ofNat]; omega
    rw [hstep, ih hv1 (by rw [pushed_pCnt]; omega) (by simp [lowBytes_length]; omega), Nat.add_comm j 1,
      ← pushed_pushed, Nat.pow_one]

/-- The loop of WriteCode where it fills no sub-block. -/
theorem packBytes_pending {n v : Nat} {w : Writer} (hv : w.pAcc.toNat = v) (hn : w.pCnt / 8 ≤ n)
    (hb : w.pBuf.length + w.pCnt / 8 ≤ 254) : packBytes n w = .ok () (pushed (w.pCnt / 8) v w) := by
  obtain ⟨m, rfl⟩ := Nat.exists_eq_add_of_le hn
  rw [packBytes_push _ hv (by omega) hb]
  cases m with
  | zero => rfl
  | succ m => exact if_neg (by rw [pushed_pCnt]; omega)

/-- The turn of the loop of WriteCode that fills a sub-block. -/
theorem packBytes_full {n v : Nat} {w : Writer} (hv : w.pAcc.toNat = v) (hc : 8 ≤ w.pCnt) (hb : w.pBuf.length = 254) :
    packBytes (n + 1) w =
      (sinkBytes (255#8 :: (w.pBuf ++ lowBytes 1 v)) { w with pBuf := w.pBuf ++ lowBytes 1 v }).bind fun _ w =>
        packBytes n { w with pBuf := [], pAcc := w.pAcc >>> 8, pCnt := w.pCnt - 8 } := by
  have hbyte : lowBytes 1 v = [accByte w.pAcc] := by rw [accByte_ofNat hv, lowBytes_one]
  rw [packBytes, if_pos hc, putByte_full _ hb, hbyte, Body.bind_assoc]
  rfl

/-! ### WriteCode -/

/-- The pending bits of the packer with `width` bits of `c` above them (R113). -/
theorem acc_append_toNat {a : Acc} {k width c : Nat} (ha : a.toNat < 2 ^ k) (hc : c < 2 ^ width) (h : k + width ≤ 19) :
    (a ||| (BitVec.ofNat 19 (c % 2 ^ width) <<< k)).toNat = a.toNat + c * 2 ^ k := by
  have hpow : 2 ^ (k + width) ≤ 2 ^ 19 := Nat.pow_le_pow_right (by decide) h
  have hshift : c * 2 ^ k < 2 ^ (k + width) := by
    rw [Nat.add_comm, Nat.pow_add]
    exact Nat.mul_lt_mul_of_pos_right hc (Nat.two_pow_pos k)
  have hc19 : c < 2 ^ 19 := lt_of_lt_of_le hc (Nat.pow_le_pow_right (by decide) (by omega))
  rw [BitVec.toNat_or, BitVec.toNat_shiftLeft, BitVec.toNat_ofNat, Nat.mod_eq_of_lt hc, Nat.mod_eq_of_lt hc19,
    Nat.shiftLeft_eq, Nat.mod_eq_of_lt (lt_of_lt_of_le hshift hpow), Nat.or_comm, Nat.mul_comm c,
    ← Nat.two_pow_add_eq_or_of_lt ha, Nat.add_comm]

/-- `w` with `bits` pending bits, the number `v`. -/
def loaded (v bits : Nat) (w : Writer) : Writer := { w with pAcc := BitVec.ofNat 19 v, pCnt := bits }

/-- The data bytes of the current sub-block once every full byte of `v` has joined it, those above the 255th being of the
next one. -/
def blockBytes (v bits : Nat) (w : Writer) : List Byte := w.pBuf ++ lowBytes (bits / 8) v

/-- `w` after every full byte of the `bits` pending bits `v` has been put, a sub-block that fills having been accepted. -/
def packed (v bits : Nat) (w : Writer) : Writer :=
  { w with
    pAcc := BitVec.ofNat 19 (v / 256 ^ (bits / 8))
    pCnt := bits % 8
    pBuf := if 255 ≤ (blockBytes v bits w).length then (blockBytes v bits w).drop 255 else blockBytes v bits w
    sout := if 255 ≤ (blockBytes v bits w).length then w.sout ++ 255#8 :: (blockBytes v bits w).take 255 else w.sout
    sinkAnswers := if 255 ≤ (blockBytes v bits w).length then w.sinkAnswers.drop 256 else w.sinkAnswers }

/-- `w` where the sink has accepted `k` of the 256 bytes of the sub-block that fills, and refused the next one. -/
def refusedBlock (v bits k : Nat) (rest : List SinkAnswer) (w : Writer) : Writer :=
  { w with
    pAcc := BitVec.ofNat 19 (v / 256 ^ (254 - w.pBuf.length))
    pCnt := bits - 8 * (254 - w.pBuf.length)
    pBuf := (blockBytes v bits w).take 255
    sout := w.sout ++ (255#8 :: (blockBytes v bits w).take 255).take (k + landedCount w)
    sinkAnswers := rest
    draws := w.draws + 1 }

/-- `w` at the byte that fills the sub-block, before any of it is offered to the sink. -/
def filling (v bits : Nat) (w : Writer) : Writer :=
  { pushed (254 - w.pBuf.length) v (loaded v bits w) with pBuf := (blockBytes v bits w).take 255 }

theorem blockBytes_length (v bits : Nat) (w : Writer) : (blockBytes v bits w).length = w.pBuf.length + bits / 8 := by
  rw [blockBytes, List.length_append, lowBytes_length]

theorem loaded_pAcc {v bits : Nat} (w : Writer) (hv : v < 2 ^ bits) (hb : bits ≤ 19) :
    (loaded v bits w).pAcc.toNat = v := by
  have : 2 ^ bits ≤ 2 ^ 19 := Nat.pow_le_pow_right (by decide) hb
  rw [loaded, BitVec.toNat_ofNat, Nat.mod_eq_of_lt (by omega)]

/-- The loop of WriteCode where no sub-block fills. -/
theorem packBytes_loaded {v bits : Nat} {w : Writer} (hv : v < 2 ^ bits) (hb : bits ≤ 19)
    (hlen : (blockBytes v bits w).length < 255) : packBytes bits (loaded v bits w) = .ok () (packed v bits w) := by
  have hlen' := blockBytes_length v bits w
  have hmod : bits - 8 * (bits / 8) = bits % 8 := by omega
  have hpend : packBytes bits (loaded v bits w) = .ok () (pushed (bits / 8) v (loaded v bits w)) :=
    packBytes_pending (w := loaded v bits w) (loaded_pAcc w hv hb) (Nat.div_le_self ..)
      (by show w.pBuf.length + bits / 8 ≤ 254; omega)
  rw [hpend, packed, if_neg (by omega), if_neg (by omega), if_neg (by omega), ← hmod]
  rfl

theorem filling_pAcc {v bits : Nat} (w : Writer) (hv : v < 2 ^ bits) (hb : bits ≤ 19) :
    (filling v bits w).pAcc.toNat = v / 256 ^ (254 - w.pBuf.length) := by
  have hload := loaded_pAcc w hv hb
  have := (loaded v bits w).pAcc.isLt
  have := Nat.div_le_self v (256 ^ (254 - w.pBuf.length))
  show (BitVec.ofNat 19 (v / 256 ^ (254 - w.pBuf.length))).toNat = _
  rw [BitVec.toNat_ofNat, Nat.mod_eq_of_lt (by omega)]

section Filling

variable {v bits : Nat} {w : Writer} (hv : v < 2 ^ bits) (hb : bits ≤ 19) (hw : w.pBuf.length ≤ 254)
  (hlen : 255 ≤ (blockBytes v bits w).length)

include hw hlen

/-- The bytes of a sub-block that fills are the pending ones and those up to the 255th. -/
theorem blockBytes_take : (blockBytes v bits w).take 255 = w.pBuf ++ lowBytes (254 - w.pBuf.length + 1) v := by
  have hlen' := blockBytes_length v bits w
  have hsplit : bits / 8 = (254 - w.pBuf.length + 1) + (bits / 8 - (255 - w.pBuf.length)) := by omega
  rw [blockBytes, hsplit, lowBytes_add, ← List.append_assoc]
  exact List.take_left' (by rw [List.length_append, lowBytes_length]; omega)

/-- The bytes of the next sub-block are those above. -/
theorem blockBytes_drop : (blockBytes v bits w).drop 255 =
    lowBytes (bits / 8 - (255 - w.pBuf.length)) (v / 256 ^ (254 - w.pBuf.length + 1)) := by
  have hlen' := blockBytes_length v bits w
  have hsplit : bits / 8 = (254 - w.pBuf.length + 1) + (bits / 8 - (255 - w.pBuf.length)) := by omega
  rw [blockBytes]
  conv_lhs => rw [hsplit, lowBytes_add, ← List.append_assoc]
  exact List.drop_left' (by rw [List.length_append, lowBytes_length]; omega)

include hv hb

/-- The loop of WriteCode up to the byte that fills the sub-block. -/
theorem packBytes_filling : packBytes bits (loaded v bits w) =
    (sinkBytes (255#8 :: (blockBytes v bits w).take 255) (filling v bits w)).bind fun _ w' =>
      packBytes (bits - (255 - w.pBuf.length)) { w' with pBuf := [], pAcc := w'.pAcc >>> 8, pCnt := w'.pCnt - 8 } := by
  have hlen' := blockBytes_length v bits w
  have hbits : bits = (254 - w.pBuf.length) + ((bits - (255 - w.pBuf.length)) + 1) := by omega
  have hpend : (pushed (254 - w.pBuf.length) v (loaded v bits w)).pBuf =
      w.pBuf ++ lowBytes (254 - w.pBuf.length) v := rfl
  have hcnt : (loaded v bits w).pCnt = bits := rfl
  have hskip := packBytes_push (254 - w.pBuf.length) (n := bits - (255 - w.pBuf.length) + 1) (loaded_pAcc w hv hb)
    (by rw [hcnt]; omega) (by show w.pBuf.length + _ ≤ 254; omega)
  rw [← hbits] at hskip
  rw [hskip, packBytes_full (w := pushed (254 - w.pBuf.length) v (loaded v bits w)) (filling_pAcc w hv hb)
    (by rw [pushed_pCnt, hcnt]; omega)
    (by rw [hpend, List.length_append, lowBytes_length]; omega), hpend, List.append_assoc, ← lowBytes_add, filling,
    blockBytes_take hw hlen]

/-- The loop of WriteCode where a sub-block fills and is accepted. -/
theorem packBytes_accepted (ha : acceptsFirst 256 w) : packBytes bits (loaded v bits w) = .ok () (packed v bits w) := by
  have hlen' := blockBytes_length v bits w
  have hblock : (255#8 :: (blockBytes v bits w).take 255).length = 256 := by
    rw [List.length_cons, List.length_take]; omega
  have hsink := sinkBytes_acceptsFirst (255#8 :: (blockBytes v bits w).take 255) (filling v bits w)
    (by rw [hblock]; exact ha)
  have hacc : (filling v bits w).pAcc >>> 8 = BitVec.ofNat 19 (v / 256 ^ (254 - w.pBuf.length + 1)) := by
    rw [acc_shift_ofNat (filling_pAcc w hv hb), Nat.div_div_eq_div_mul, ← Nat.pow_succ]
  have hcnt : (filling v bits w).pCnt - 8 = bits - 8 * (255 - w.pBuf.length) := by
    show bits - 8 * (254 - w.pBuf.length) - 8 = _
    omega
  have hacc' : (BitVec.ofNat 19 (v / 256 ^ (254 - w.pBuf.length + 1))).toNat =
      v / 256 ^ (254 - w.pBuf.length + 1) := by
    rw [← hacc, BitVec.toNat_ushiftRight, filling_pAcc w hv hb, Nat.shiftRight_eq_div_pow, Nat.div_div_eq_div_mul,
      ← Nat.pow_succ]
  have hk : (bits - 8 * (255 - w.pBuf.length)) / 8 = bits / 8 - (255 - w.pBuf.length) := by omega
  rw [packBytes_filling hv hb hw hlen, hsink, hblock, Body.bind_ok]
  dsimp only
  rw [hacc, hcnt, packBytes_pending hacc' (by dsimp only; omega) (by dsimp only [List.length_nil]; omega)]
  dsimp only
  have hcount : bits - 8 * (255 - w.pBuf.length) - 8 * (bits / 8 - (255 - w.pBuf.length)) = bits % 8 := by omega
  have hexp : 254 - w.pBuf.length + 1 + (bits / 8 - (255 - w.pBuf.length)) = bits / 8 := by omega
  rw [hk, pushed, packed, if_pos hlen, if_pos hlen, if_pos hlen, blockBytes_drop hw hlen]
  dsimp only
  rw [hcount, List.nil_append, Nat.div_div_eq_div_mul, ← Nat.pow_add, hexp]
  rfl

/-- The loop of WriteCode where a sub-block fills and one of its bytes is refused. -/
theorem packBytes_refused {k : Nat} {rest : List SinkAnswer} (hk : k < 256)
    (ha : w.sinkAnswers = List.replicate k .ok ++ .error :: rest) :
    packBytes bits (loaded v bits w) = .raise .ioError (refusedBlock v bits k rest w) := by
  have hblock : (255#8 :: (blockBytes v bits w).take 255).length = 256 := by
    rw [List.length_cons, List.length_take]; omega
  rw [packBytes_filling hv hb hw hlen, sinkBytes_refused _ k (filling v bits w) rest (by omega) ha]
  rfl

end Filling

/-- WriteCode puts the code above the pending bits and then packs every full byte (R113). -/
theorem writeCode_loaded {c width : Nat} {w : Writer} (hp : packerOk w) (hc : c < 2 ^ width) (hw : width ≤ 12) :
    writeCode c width w =
      packBytes (w.pCnt + width) (loaded (w.pAcc.toNat + c * 2 ^ w.pCnt) (w.pCnt + width) w) := by
  obtain ⟨hcnt, hacc, -⟩ := hp
  have happ := acc_append_toNat (k := w.pCnt) hacc hc (by omega)
  have hsame : w.pAcc ||| (BitVec.ofNat 19 (c % 2 ^ width) <<< w.pCnt) =
      BitVec.ofNat 19 (w.pAcc.toNat + c * 2 ^ w.pCnt) := by
    rw [← happ, BitVec.ofNat_toNat, BitVec.setWidth_eq]
  rw [writeCode, hsame]
  rfl

theorem add_shifted_lt {a k c width : Nat} (ha : a < 2 ^ k) (hc : c < 2 ^ width) : a + c * 2 ^ k < 2 ^ (k + width) := by
  have : (c + 1) * 2 ^ k ≤ 2 ^ width * 2 ^ k := Nat.mul_le_mul_right _ hc
  rw [Nat.pow_add, Nat.mul_comm (2 ^ k)]
  rw [Nat.add_mul] at this
  omega

section WriteCode

variable {c width v bits : Nat} {w : Writer} (hp : packerOk w) (hc : c < 2 ^ width) (hw : width ≤ 12)
  (hbits : bits = w.pCnt + width) (hv : v = w.pAcc.toNat + c * 2 ^ w.pCnt)

include hp hc hw hbits hv

/-- The pending bits with a code above them fit the accumulator. -/
theorem pending_fit : bits ≤ 19 ∧ v < 2 ^ bits := by
  obtain ⟨hcnt, hacc, -⟩ := hp
  refine ⟨by omega, ?_⟩
  rw [hv, hbits]
  exact add_shifted_lt hacc hc

/-- WriteCode where the sink accepts the sub-block, if one fills (R113, R115). -/
theorem writeCode_packed (ha : 255 ≤ (blockBytes v bits w).length → acceptsFirst 256 w) :
    writeCode c width w = .ok () (packed v bits w) := by
  obtain ⟨hb, hlt⟩ := pending_fit hp hc hw hbits hv
  rw [writeCode_loaded hp hc hw, ← hbits, ← hv]
  by_cases hlen : 255 ≤ (blockBytes v bits w).length
  · exact packBytes_accepted hlt hb hp.2.2 hlen (ha hlen)
  · exact packBytes_loaded hlt hb (by omega)

/-- WriteCode where a sub-block fills and the sink refuses one of its bytes (R113, R115, R182). -/
theorem writeCode_refused {k : Nat} {rest : List SinkAnswer} (hlen : 255 ≤ (blockBytes v bits w).length)
    (hk : k < 256) (ha : w.sinkAnswers = List.replicate k .ok ++ .error :: rest) :
    writeCode c width w = .raise .ioError (refusedBlock v bits k rest w) := by
  obtain ⟨hb, hlt⟩ := pending_fit hp hc hw hbits hv
  rw [writeCode_loaded hp hc hw, ← hbits, ← hv]
  exact packBytes_refused hlt hb hp.2.2 hlen hk ha

end WriteCode

/-! ### Two codes in a row -/

theorem two_pow_bytes (b : Nat) : 2 ^ b = 2 ^ (b % 8) * 256 ^ (b / 8) := by
  rw [show 256 = 2 ^ 8 from rfl, ← Nat.pow_mul, ← Nat.pow_add, Nat.mod_add_div]

/-- The packer after a code is in order again. -/
theorem packed_packerOk {v bits : Nat} {w : Writer} (hw : w.pBuf.length ≤ 254) (hv : v < 2 ^ bits) (hb : bits ≤ 19) :
    packerOk (packed v bits w) ∧ (packed v bits w).pAcc.toNat = v / 256 ^ (bits / 8) := by
  have hlen := blockBytes_length v bits w
  have hdiv : v / 256 ^ (bits / 8) < 2 ^ (bits % 8) := by
    rw [Nat.div_lt_iff_lt_mul (Nat.pow_pos (by decide)), ← two_pow_bytes]
    exact hv
  have h7 : 2 ^ (bits % 8) ≤ 2 ^ 7 := Nat.pow_le_pow_right (by decide) (by omega)
  have hacc : (packed v bits w).pAcc.toNat = v / 256 ^ (bits / 8) := by
    rw [packed, BitVec.toNat_ofNat, Nat.mod_eq_of_lt (by omega)]
  refine ⟨⟨?_, by rw [hacc]; exact hdiv, ?_⟩, hacc⟩
  · show bits % 8 ≤ 7
    omega
  · rw [packed]
    dsimp only
    split
    · rw [List.length_drop]; omega
    · omega

/-- A code above `b1` bits, once the full bytes of those are gone. -/
theorem append_div (v1 b1 c : Nat) :
    (v1 + c * 2 ^ b1) / 256 ^ (b1 / 8) = v1 / 256 ^ (b1 / 8) + c * 2 ^ (b1 % 8) := by
  rw [two_pow_bytes b1, ← Nat.mul_assoc, Nat.add_mul_div_right _ _ (Nat.pow_pos (by decide))]

theorem lowBytes_append (v1 b1 c width : Nat) :
    lowBytes ((b1 + width) / 8) (v1 + c * 2 ^ b1) = lowBytes (b1 / 8) v1 ++
      lowBytes ((b1 % 8 + width) / 8) (v1 / 256 ^ (b1 / 8) + c * 2 ^ (b1 % 8)) := by
  have hsplit : (b1 + width) / 8 = b1 / 8 + (b1 % 8 + width) / 8 := by omega
  have hlow : lowBytes (b1 / 8) (v1 + c * 2 ^ b1) = lowBytes (b1 / 8) v1 := by
    rw [two_pow_bytes b1, ← Nat.mul_assoc, lowBytes_add_mul]
  rw [hsplit, lowBytes_add, append_div, hlow]

theorem blockBytes_append (v1 b1 c width : Nat) (w : Writer) :
    blockBytes (v1 + c * 2 ^ b1) (b1 + width) w = blockBytes v1 b1 w ++
      lowBytes ((b1 % 8 + width) / 8) (v1 / 256 ^ (b1 / 8) + c * 2 ^ (b1 % 8)) := by
  rw [blockBytes, lowBytes_append, ← List.append_assoc]
  rfl

section TwoCodes

variable {v1 b1 c width : Nat} {w : Writer}

/-- Where the first code fills no sub-block, the second goes on with the same one. -/
theorem blockBytes_packed_pending (hlen : (blockBytes v1 b1 w).length < 255) :
    blockBytes (v1 / 256 ^ (b1 / 8) + c * 2 ^ (b1 % 8)) (b1 % 8 + width) (packed v1 b1 w) =
      blockBytes (v1 + c * 2 ^ b1) (b1 + width) w := by
  have hbuf : (packed v1 b1 w).pBuf = blockBytes v1 b1 w := if_neg (by omega)
  rw [blockBytes_append v1 b1 c width w, blockBytes, hbuf]

/-- Where the first code fills a sub-block, the second goes on with the next one. -/
theorem blockBytes_packed_full (hlen : 255 ≤ (blockBytes v1 b1 w).length) :
    blockBytes (v1 / 256 ^ (b1 / 8) + c * 2 ^ (b1 % 8)) (b1 % 8 + width) (packed v1 b1 w) =
      (blockBytes (v1 + c * 2 ^ b1) (b1 + width) w).drop 255 := by
  have hbuf : (packed v1 b1 w).pBuf = (blockBytes v1 b1 w).drop 255 := if_pos hlen
  rw [blockBytes_append v1 b1 c width w, List.drop_append_of_le_length hlen, blockBytes, hbuf]

/-- Two codes in a row are packed as one bit string. -/
theorem packed_packed (hw : w.pBuf.length ≤ 254) (hb1 : b1 ≤ 19) (hwidth : width ≤ 12) :
    packed (v1 / 256 ^ (b1 / 8) + c * 2 ^ (b1 % 8)) (b1 % 8 + width) (packed v1 b1 w) =
      packed (v1 + c * 2 ^ b1) (b1 + width) w := by
  have hacc : (v1 / 256 ^ (b1 / 8) + c * 2 ^ (b1 % 8)) / 256 ^ ((b1 % 8 + width) / 8) =
      (v1 + c * 2 ^ b1) / 256 ^ ((b1 + width) / 8) := by
    rw [← append_div, Nat.div_div_eq_div_mul, ← Nat.pow_add]
    congr 2; omega
  have hcnt : (b1 % 8 + width) % 8 = (b1 + width) % 8 := by omega
  have hlen' := blockBytes_length (v1 + c * 2 ^ b1) (b1 + width) w
  by_cases hlen : 255 ≤ (blockBytes v1 b1 w).length
  · have hmore : 255 ≤ (blockBytes (v1 + c * 2 ^ b1) (b1 + width) w).length := by
      rw [blockBytes_append, List.length_append]; omega
    have htake : (blockBytes v1 b1 w).take 255 = (blockBytes (v1 + c * 2 ^ b1) (b1 + width) w).take 255 := by
      rw [blockBytes_append, List.take_append_of_le_length hlen]
    have hnext : ¬ 255 ≤ ((blockBytes (v1 + c * 2 ^ b1) (b1 + width) w).drop 255).length := by
      rw [List.length_drop]; omega
    rw [packed, blockBytes_packed_full hlen, hacc, hcnt, if_neg hnext, if_neg hnext, if_neg hnext]
    simp only [packed, if_pos hlen, if_pos hmore, htake]
  · rw [packed, blockBytes_packed_pending (by omega), hacc, hcnt]
    simp only [packed, if_neg hlen]

/-- A sub-block refused amid the second of two codes. -/
theorem refusedBlock_packed {k : Nat} {rest : List SinkAnswer} (hlen : (blockBytes v1 b1 w).length < 255) :
    refusedBlock (v1 / 256 ^ (b1 / 8) + c * 2 ^ (b1 % 8)) (b1 % 8 + width) k rest (packed v1 b1 w) =
      refusedBlock (v1 + c * 2 ^ b1) (b1 + width) k rest w := by
  have hbuf : (packed v1 b1 w).pBuf.length = w.pBuf.length + b1 / 8 := by
    rw [← blockBytes_length v1 b1 w]
    exact congrArg List.length (if_neg (by omega))
  have hlen' := blockBytes_length v1 b1 w
  have hacc : (v1 / 256 ^ (b1 / 8) + c * 2 ^ (b1 % 8)) / 256 ^ (254 - (w.pBuf.length + b1 / 8)) =
      (v1 + c * 2 ^ b1) / 256 ^ (254 - w.pBuf.length) := by
    rw [← append_div, Nat.div_div_eq_div_mul, ← Nat.pow_add]
    congr 2; omega
  have hcnt : b1 % 8 + width - 8 * (254 - (w.pBuf.length + b1 / 8)) = b1 + width - 8 * (254 - w.pBuf.length) := by
    omega
  have hland : landedCount (packed v1 b1 w) = landedCount w := rfl
  rw [refusedBlock, hbuf, hacc, hcnt, blockBytes_packed_pending hlen, hland]
  simp only [refusedBlock, packed, if_neg (show ¬ 255 ≤ (blockBytes v1 b1 w).length by omega)]

end TwoCodes

end Sys2Proof.Machine
end

section
/-!
PROOFS. `W_PIXELS 1` (R179): a pixel that writes nothing, and a pixel whose pair is new, with the `C_prefix` it sends
out, the entry it adds and the Clear Code that follows the last free code (R127 to R130).
-/

namespace Sys2Proof.Machine

/-! ### One pixel -/

theorem decode_wPixels (count : BitVec 24) : decode (0x25#8 ++ count) = .instr (.wPixels count) := by
  have hop : fieldOp (0x25#8 ++ count) = 0x25 := by
    rw [fieldOp, BitVec.extractLsb'_append_eq_left]; rfl
  have hcount : fieldCount (0x25#8 ++ count) = count := BitVec.extractLsb'_append_eq_right
  simp only [decode, hop, formatC, hcount]

/-- A compressed pixel is counted, and the tracker goes on (R179). -/
def countPixel (w : Writer) : Writer := { w with pixRemain := w.pixRemain - 1#32, rows := rowAdvance w.rows }

theorem wPixelsCheck_one {w : Writer} {p : Byte} {more : List Byte} (hrem : 1 < w.pixRemain.toNat)
    (hdin : w.din = p :: more) (hp : p.toNat < 2 ^ w.bpp.toNat) : wPixelsCheck 1 w = none := by
  have hrange : (dinTake 1 w).any (pixelOutOfRange w) = false := by
    simp only [dinTake, hdin, List.take_succ_cons, List.take_zero, List.any_cons, List.any_nil, Bool.or_false,
      pixelOutOfRange, decide_eq_false_iff_not]
    omega
  rw [wPixelsCheck, if_neg (by omega), if_neg (by rw [hdin, List.length_cons]; omega), hrange]
  rfl

theorem wPixelsBody_one {w : Writer} {p : Byte} {more : List Byte} (hrem : 1 < w.pixRemain.toNat)
    (hdin : w.din = p :: more) :
    wPixelsBody 1 w = (compressPixel p { w with din := more }).bind fun _ w => .ok () (countPixel w) := by
  have hdrop : dinDrop 1 w = { w with din := more } := by rw [dinDrop, hdin]; rfl
  have htake : dinTake 1 w = [p] := by rw [dinTake, hdin]; rfl
  rw [wPixelsBody, if_neg (by decide), htake, compressPixels, hdrop, Body.bind_assoc]
  refine (compressPixel_part p { w with din := more }).bind_congr fun _ w1 hw1 => ?_
  have hrem1 : w1.pixRemain = w.pixRemain :=
    offEncoder_pixRemain (w := { w with din := more }) (offEncoder_of_offCompressor hw1.1)
  have hmore : (countPixel w1).pixRemain ≠ 0#32 := by
    intro h0
    have hpred := pixRemain_pred (v := w1.pixRemain) rfl (by rw [hrem1]; omega)
    rw [show w1.pixRemain - 1#32 = 0#32 from h0, hrem1, BitVec.toNat_ofNat] at hpred
    omega
  exact if_neg hmore

/-- `W_PIXELS 1` with a pixel in range that is not the last: the pixel leaves DIN, is compressed and counted. -/
theorem exec_wPixels_one {s : State} {p : Byte} {more : List Byte} (hs : s.writer.state = .pixels)
    (hrem : 1 < s.writer.pixRemain.toNat) (hdin : s.writer.din = p :: more)
    (hp : p.toNat < 2 ^ s.writer.bpp.toNat) :
    exec (.wPixels 1#24) s =
      endWriter s ((compressPixel p { s.writer with din := more }).bind fun _ w => .ok () (countPixel w)) := by
  rw [← wPixelsBody_one hrem hdin]
  exact writerCommand_runs (need := .pixels) (body := wPixelsBody 1) (by rw [hs]; decide) hs
    (wPixelsCheck_one hrem hdin hp)

/-- The pixel that starts a string becomes `C_prefix` (R127). -/
theorem compressPixel_first {w : Writer} (p : Byte) (hq : w.cPrefix = none) :
    compressPixel p w = .ok () { w with cPrefix := some (p.setWidth 12) } := by
  rw [compressPixel, hq]

/-- A pair that an entry has moves `C_prefix` on to the entry's code (R127). -/
theorem compressPixel_known {w : Writer} {e : CEntry} (hd : pairsDistinct w) (he : e ∈ w.cDict)
    (hq : w.cPrefix = some e.pfx) : compressPixel e.pixel w = .ok () { w with cPrefix := some e.code } := by
  rw [compressPixel, hq]
  dsimp only
  rw [dictLookup_of_mem hd he]

/-- A pair that no entry has sends `C_prefix` out (R127). -/
theorem compressPixel_new {w : Writer} {p : Byte} {q : Code} (hq : w.cPrefix = some q)
    (hl : ∀ e ∈ w.cDict, ¬(e.pfx = q ∧ e.pixel = p)) : compressPixel p w = emitAndInsert q p w := by
  rw [compressPixel, hq]
  dsimp only
  rw [dictLookup_eq_none.2 hl]

/-! ### A new pair -/

theorem code_of_counter (c : Counter) : c.setWidth 12 = BitVec.ofNat 12 c.toNat :=
  BitVec.eq_of_toNat_eq (by rw [BitVec.toNat_setWidth, BitVec.toNat_ofNat])

theorem EncoderOk.width_le {w : Writer} (hok : EncoderOk w) : w.cW.toNat ≤ 12 := hok.2.1.2.2.2.1

theorem EncoderOk.free_le {w : Writer} (hok : EncoderOk w) : w.cFree.toNat ≤ 4095 := hok.2.1.2.1

/-- `C_prefix` fits the code width (R133). -/
theorem cPrefix_lt_width {w : Writer} {q : Code} (hok : EncoderOk w) (hq : w.cPrefix = some q) :
    q.toNat < 2 ^ w.cW.toNat := by
  obtain ⟨⟨-, -, -, hclear, -, -⟩, ⟨-, -, hcW, -, hfree⟩, -, -, hknown, -⟩ := hok
  have hpow : 2 ^ w.cB.toNat ≤ 2 ^ w.cW.toNat := Nat.pow_le_pow_right (by decide) (by omega)
  obtain hroot | ⟨-, hlt⟩ := hknown q hq <;> omega

/-- At the last code the width is 12 bits (R129). -/
theorem width_of_lastCode {w : Writer} (hok : EncoderOk w) (hlast : w.cFree.toNat = 4095) : w.cW.toNat = 12 := by
  obtain ⟨-, -, -, hle, hfit⟩ := hok.2.1
  by_contra hne
  have : 2 ^ w.cW.toNat ≤ 2 ^ 11 := Nat.pow_le_pow_right (by decide) (by omega)
  omega

/-- A pair inserted with the last code: the width stays and the counter reaches 4096 (R129, R130). -/
theorem insertPair_lastCode {w : Writer} (q : Code) (p : Byte) (hok : EncoderOk w) (hlast : w.cFree.toNat = 4095) :
    (insertPair q p w).cW = w.cW ∧ (insertPair q p w).cFree = 4096#13 := by
  have h12 := width_of_lastCode hok hlast
  refine ⟨if_neg fun h => absurd h.2 (by rw [h12]; decide), BitVec.eq_of_toNat_eq ?_⟩
  rw [insertPair_cFree, toNat_succ13 (by omega), hlast]
  rfl

theorem insertPair_lastCode_eq {w : Writer} (q : Code) (p : Byte) (hok : EncoderOk w) (hlast : w.cFree.toNat = 4095) :
    insertPair q p w = { w with
      cDict := { pfx := q, pixel := p, code := w.cFree.setWidth 12 } :: w.cDict, cFree := 4096#13,
      cPrefix := some (p.setWidth 12) } := by
  obtain ⟨hwidth, hcount⟩ := insertPair_lastCode q p hok hlast
  rw [insertPair_cW] at hwidth
  rw [insertPair_cFree] at hcount
  rw [insertPair, hwidth, hcount]

theorem clear_lt {w : Writer} (hok : EncoderOk w) : w.cClear.toNat < 2 ^ 12 := by
  obtain ⟨⟨-, hbpp, hcB, hclear, -, -⟩, -, -⟩ := hok
  rw [hclear]
  exact Nat.pow_lt_pow_right (by decide) (by omega)

/-- With the last code inserted, the Clear Code is written in 12 bits, and then the dictionary is fresh (R130). -/
theorem checkExhausted_lastCode {w : Writer} (q : Code) (p : Byte) (hok : EncoderOk w) (hlast : w.cFree.toNat = 4095) :
    checkExhausted (insertPair q p w) =
      (writeCode w.cClear.toNat 12 (insertPair q p w)).bind fun _ w => .ok () (resetDict w) := by
  obtain ⟨hwidth, hcount⟩ := insertPair_lastCode q p hok hlast
  rw [checkExhausted, if_pos (by rw [hcount]; rfl), hwidth, width_of_lastCode hok hlast, insertPair_cClear]

/-- Inserting a pair and packing codes do not touch the same fields. -/
theorem insertPair_packed (q : Code) (p : Byte) (v bits : Nat) (w : Writer) :
    insertPair q p (packed v bits w) = packed v bits (insertPair q p w) := rfl

theorem packed_cClear (v bits : Nat) (w : Writer) : (packed v bits w).cClear = w.cClear := rfl

/-- A fresh dictionary forgets the pair, not `C_prefix` (R128, R130). -/
theorem resetDict_insertPair (q : Code) (p : Byte) (w : Writer) :
    resetDict (insertPair q p w) = { w with
      cDict := [], cFree := w.cFirst, cW := w.cB + 1#4, cPrefix := some (p.setWidth 12) } := rfl

section NewPair

variable {w : Writer} {p : Byte} {q : Code} {v1 b1 : Nat} (hok : EncoderOk w) (hp : packerOk w)
  (hq : w.cPrefix = some q) (hb1 : b1 = w.pCnt + w.cW.toNat) (hv1 : v1 = w.pAcc.toNat + q.toNat * 2 ^ w.pCnt)

include hok hp hq hb1 hv1

/-- `C_prefix` goes out where the sink accepts the sub-block, if one fills (R129). -/
theorem writeCode_cPrefix (ha : 255 ≤ (blockBytes v1 b1 w).length → acceptsFirst 256 w) :
    writeCode q.toNat w.cW.toNat w = .ok () (packed v1 b1 w) :=
  writeCode_packed hp (cPrefix_lt_width hok hq) hok.width_le hb1 hv1 ha

/-- The packer that `C_prefix` leaves is in order, and these are its bits with a code `c` above them. -/
theorem packed_cPrefix : b1 ≤ 19 ∧ packerOk (packed v1 b1 w) ∧ ∀ c : Nat,
    v1 / 256 ^ (b1 / 8) + c * 2 ^ (b1 % 8) = (packed v1 b1 w).pAcc.toNat + c * 2 ^ (packed v1 b1 w).pCnt := by
  obtain ⟨hb, hlt⟩ := pending_fit hp (cPrefix_lt_width hok hq) hok.width_le hb1 hv1
  obtain ⟨hpk, hacc⟩ := packed_packerOk hp.2.2 hlt hb
  exact ⟨hb, hpk, fun c => by rw [hacc]; rfl⟩

/-- A sub-block is refused amid `C_prefix`: nothing has been inserted. -/
theorem emitAndInsert_refused {k : Nat} {rest : List SinkAnswer} (hlen : 255 ≤ (blockBytes v1 b1 w).length)
    (hk : k < 256) (ha : w.sinkAnswers = List.replicate k .ok ++ .error :: rest) :
    emitAndInsert q p w = .raise .ioError (refusedBlock v1 b1 k rest w) := by
  rw [emitAndInsert, writeCode_refused hp (cPrefix_lt_width hok hq) hok.width_le hb1 hv1 hlen hk ha,
    Body.bind_raise]

/-- A pair inserted below the last code (R129). -/
theorem emitAndInsert_free (hfree : w.cFree.toNat ≠ 4095)
    (ha : 255 ≤ (blockBytes v1 b1 w).length → acceptsFirst 256 w) :
    emitAndInsert q p w = .ok () (insertPair q p (packed v1 b1 w)) := by
  have hcount : (insertPair q p (packed v1 b1 w)).cFree.toNat = w.cFree.toNat + 1 :=
    toNat_succ13 (c := w.cFree) (by have := hok.free_le; omega)
  rw [emitAndInsert, writeCode_cPrefix hok hp hq hb1 hv1 ha, Body.bind_ok, checkExhausted,
    if_neg (by rw [hcount, Config.dictCodes]; omega)]

section LastCode

variable {v b : Nat} (hlast : w.cFree.toNat = 4095) (hb : b = b1 + 12) (hv : v = v1 + w.cClear.toNat * 2 ^ b1)

include hlast hb hv

/-- A pair inserted with the last code, and the Clear Code after it: the two codes are packed as one bit string, and the
dictionary is fresh (R130). -/
theorem emitAndInsert_lastCode (ha : 255 ≤ (blockBytes v b w).length → acceptsFirst 256 w) :
    emitAndInsert q p w = .ok () (resetDict (insertPair q p (packed v b w))) := by
  subst hb hv
  obtain ⟨h19, hpk, hbits⟩ := packed_cPrefix hok hp hq hb1 hv1
  have hlen1 := blockBytes_length v1 b1 w
  have hlen := blockBytes_length (v1 + w.cClear.toNat * 2 ^ b1) (b1 + 12) w
  have hclear : writeCode w.cClear.toNat 12 (insertPair q p (packed v1 b1 w)) = .ok () (packed
      (v1 / 256 ^ (b1 / 8) + w.cClear.toNat * 2 ^ (b1 % 8)) (b1 % 8 + 12) (insertPair q p (packed v1 b1 w))) := by
    refine writeCode_packed hpk (clear_lt hok) (le_refl _) rfl (hbits _) fun hfull => ?_
    by_cases hfirst : 255 ≤ (blockBytes v1 b1 w).length
    · have hnext := (congrArg List.length (blockBytes_packed_full (c := w.cClear.toNat) (width := 12) hfirst)).trans
        (List.length_drop ..)
      have := hfull.trans_eq hnext
      have := hp.2.2
      omega
    · have hsame : (packed v1 b1 w).sinkAnswers = w.sinkAnswers := if_neg hfirst
      have := hfull.trans_eq (congrArg List.length (blockBytes_packed_pending (by omega)))
      intro a hmem
      exact ha this a (hsame ▸ hmem)
  rw [emitAndInsert, writeCode_cPrefix hok hp hq hb1 hv1 fun h => ha (by omega), Body.bind_ok,
    checkExhausted_lastCode (w := packed v1 b1 w) q p hok hlast, packed_cClear, hclear, Body.bind_ok,
    insertPair_packed, insertPair_packed, packed_packed (w := insertPair q p w) hp.2.2 h19 (le_refl _)]

/-- A sub-block is refused amid the Clear Code: the pair has been inserted. -/
theorem emitAndInsert_clearRefused {k : Nat} {rest : List SinkAnswer} (hfirst : (blockBytes v1 b1 w).length < 255)
    (hfull : 255 ≤ (blockBytes v b w).length) (hk : k < 256)
    (ha : w.sinkAnswers = List.replicate k .ok ++ .error :: rest) :
    emitAndInsert q p w = .raise .ioError (refusedBlock v b k rest (insertPair q p w)) := by
  subst hb hv
  obtain ⟨-, hpk, hbits⟩ := packed_cPrefix hok hp hq hb1 hv1
  have hsame : (packed v1 b1 w).sinkAnswers = w.sinkAnswers := if_neg (by omega)
  have hclear : writeCode w.cClear.toNat 12 (insertPair q p (packed v1 b1 w)) = .raise .ioError (refusedBlock
      (v1 / 256 ^ (b1 / 8) + w.cClear.toNat * 2 ^ (b1 % 8)) (b1 % 8 + 12) k rest
      (insertPair q p (packed v1 b1 w))) := by
    refine writeCode_refused (w := insertPair q p (packed v1 b1 w)) hpk (clear_lt hok) (le_refl _) rfl (hbits _) ?_ hk
      (hsame.trans ha)
    exact hfull.trans_eq (congrArg List.length (blockBytes_packed_pending hfirst).symm)
  rw [emitAndInsert, writeCode_cPrefix hok hp hq hb1 hv1 fun h => absurd hfirst (by omega), Body.bind_ok,
    checkExhausted_lastCode (w := packed v1 b1 w) q p hok hlast, packed_cClear, hclear, Body.bind_raise, insertPair_packed,
    refusedBlock_packed (w := insertPair q p w) hfirst]

end LastCode

end NewPair

end Sys2Proof.Machine

open Sys2Proof Sys2Proof.Machine

/-- Settles O46: a pixel that starts a string, or whose pair an entry has, only sets `C_prefix`. -/
theorem wPixelsWithoutOutput : Obligations.WPixelsWithoutOutput := by
  refine ⟨decode_wPixels, fun s hs => ?_, fun s p more hs hrem hdin hp hq => ?_,
    fun s p more q e hok hs hrem hdin hp hq he hpfx hpix => ?_⟩
  · have hcheck : wPixelsCheck 0 s.writer = none := by
      rw [wPixelsCheck, if_neg (by omega), if_neg (by omega)]; rfl
    exact writerCommand_runs (need := .pixels) (body := wPixelsBody 0) (by rw [hs]; decide) hs hcheck
  · rw [exec_wPixels_one hs hrem hdin hp, compressPixel_first (w := { s.writer with din := more }) p hq]
    rfl
  · subst hpfx hpix
    obtain ⟨-, -, -, -, -, hd⟩ := hok
    rw [exec_wPixels_one hs hrem hdin hp, compressPixel_known (w := { s.writer with din := more }) hd he hq]
    rfl

/-- Settles O47: what `EmitAndInsert` ends with in each case, counted or recorded as a failure. -/
theorem wPixelsEmitsAndInserts : Obligations.WPixelsEmitsAndInserts := by
  intro s p more q bits1 bits v1 v data1 data hok hp hs hrem hdin hpix hq hnew hbits1 hv1 hbits hv hdata1 hdata
  have hrun := exec_wPixels_one hs hrem hdin hpix
  rw [compressPixel_new (w := { s.writer with din := more }) hq hnew] at hrun
  have hdata1 : data1 = blockBytes v1 bits1 s.writer := hdata1
  have hdata : data = blockBytes v bits s.writer := hdata
  refine ⟨fun ha => ?_, fun k rest hk ha => ⟨fun hlen => ?_, fun hfirst hlen => ?_⟩⟩
  · by_cases hlast : s.writer.cFree.toNat = 4095
    · rw [if_pos hlast] at hbits hv
      rw [hrun, emitAndInsert_lastCode (w := { s.writer with din := more }) hok hp hq hbits1 hv1 hlast hbits hv
        (hdata ▸ ha), hdata, resetDict_insertPair, Body.bind_ok, endWriter]
      simp only [if_pos hlast]
      rfl
    · rw [if_neg hlast] at hbits hv
      subst hbits hv
      rw [hrun, emitAndInsert_free (w := { s.writer with din := more }) hok hp hq hbits1 hv1 hlast (hdata ▸ ha), hdata]
      simp only [if_neg hlast, ← code_of_counter]
      rfl
  · rw [hrun, emitAndInsert_refused (w := { s.writer with din := more }) hok hp hq hbits1 hv1 (hdata1 ▸ hlen) hk ha,
      hdata1]
    exact ⟨landedCount s.writer, landedCount_le _, rfl⟩
  · have hlast : s.writer.cFree.toNat = 4095 := by
      by_contra hne
      rw [if_neg hne] at hbits hv
      subst hbits hv
      rw [hdata1] at hfirst
      rw [hdata] at hlen
      omega
    rw [if_pos hlast] at hbits hv
    rw [hrun, emitAndInsert_clearRefused (w := { s.writer with din := more }) hok hp hq hbits1 hv1 hlast hbits hv
      (hdata1 ▸ hfirst) (hdata ▸ hlen) hk ha,
      insertPair_lastCode_eq (w := { s.writer with din := more }) q p hok hlast, hdata, ← code_of_counter]
    exact ⟨landedCount s.writer, landedCount_le _, rfl⟩

end

section
/-!
PROOFS. Where a command may end (R185, R192, R193), said once for every command: it is rejected, or resets, or its channel
completes or fails with the streams moved forward only; from this, what a failure leaves (R193) and that no port goes back
(R66 to R69).
-/

namespace Sys2Proof.Machine

/-! ### Bodies end outside the failed state -/

/-- What holds wherever the second part completes holds wherever the whole body does. -/
theorem Body.spec_bind_ok {σ α β : Type} {P : σ → Prop} (x : Body σ α) {f : α → σ → Body σ β}
    (h : ∀ a c, Body.Spec (fun _ c => P c) (fun _ _ => True) (fun _ => True) (f a c)) :
    Body.Spec (fun _ c => P c) (fun _ _ => True) (fun _ => True) (x.bind f) := by
  cases x with
  | ok a c => exact h a c
  | raise e c => exact trivial
  | stuck r => exact trivial

/-- The reader has not failed where the body completes. -/
abbrev ReaderStands (x : Body Reader Unit) : Prop :=
  Body.Spec (fun _ r => r.state ≠ .failed) (fun _ _ => True) (fun _ => True) x

/-- The writer has not failed where the body completes. -/
abbrev WriterStands (x : Body Writer Unit) : Prop :=
  Body.Spec (fun _ w => w.state ≠ .failed) (fun _ _ => True) (fun _ => True) x

theorem rOpenBody_stands (r : Reader) : ReaderStands (rOpenBody r) := by
  refine Body.spec_bind_ok _ fun sig r => ?_
  split
  · exact trivial
  · refine Body.spec_bind_ok _ fun d r => ?_
    exact Body.spec_bind_ok _ fun _ r => by simp

theorem rNextBody_stands (r : Reader) : ReaderStands (rNextBody r) := by
  refine Body.spec_bind_ok _ fun x r => ?_
  split_ifs <;> simp

theorem rExtBody_stands (r : Reader) : ReaderStands (rExtBody r) :=
  Body.spec_bind_ok _ fun _ _ => by simp

theorem rExtBlockBody_stands {r : Reader} (h : r.state ≠ .failed) : ReaderStands (rExtBlockBody r) := by
  refine (rExtBlockBody_spec r).mono (fun _ r' hp => ?_) (fun _ _ _ => trivial) fun _ _ => trivial
  obtain ⟨htop | hsame, -⟩ := hp
  · simp [htop]
  · rwa [hsame]

theorem imageDataStart_stands (r : Reader) : ReaderStands (imageDataStart r) := by
  refine Body.spec_bind_ok _ fun b r => ?_
  dsimp only
  split_ifs
  · exact trivial
  · exact Body.spec_bind_ok _ fun _ r => by simp
  · simp

theorem rImageBody_stands (r : Reader) : ReaderStands (rImageBody r) :=
  Body.spec_bind_ok _ fun _ _ => Body.spec_bind_ok _ fun _ r => imageDataStart_stands r

theorem rPixelsBody_stands {r : Reader} (n : Nat) (h : r.state ≠ .failed) : ReaderStands (rPixelsBody n r) := by
  unfold rPixelsBody
  split
  · exact h
  · refine Body.Spec.bind ((deliverPixels_part n r).mono (fun _ _ h => h) (fun _ _ _ => trivial) fun _ h => h)
      fun _ r1 h1 => ?_
    have hs : r1.state = r.state := offPixels_state (congrArg Prod.fst h1.1)
    split
    · simp
    · show r1.state ≠ .failed
      rwa [hs]

theorem wOpenBody_stands (v89a : BitVec 1) (w : Writer) : WriterStands (wOpenBody v89a w) :=
  Body.spec_bind_ok _ fun _ _ => Body.spec_bind_ok _ fun _ _ => by simp

theorem wExtBody_stands (imm8 : Byte) (w : Writer) : WriterStands (wExtBody imm8 w) :=
  Body.spec_bind_ok _ fun _ _ => Body.spec_bind_ok _ fun _ _ => by simp

theorem wExtBlockBody_stands {w : Writer} (imm8 : Byte) (h : w.state ≠ .failed) :
    WriterStands (wExtBlockBody imm8 w) := by
  have hx : WriterPart offSink (dinDrop (lengthOperand imm8) w) (wExtBlockBody imm8 w) :=
    (sinkByte_part _ _).bind fun w' _ _ => sinkBytes_part _ w'
  refine hx.mono (fun _ w' hw => ?_) (fun _ _ _ => trivial) fun _ _ => trivial
  rwa [offEncoder_state (offEncoder_of_offSink hw.1)]

theorem wExtEndBody_stands (w : Writer) : WriterStands (wExtEndBody w) :=
  Body.spec_bind_ok _ fun _ _ => by simp

theorem wTrailerBody_stands (w : Writer) : WriterStands (wTrailerBody w) :=
  Body.spec_bind_ok _ fun _ _ => by simp

theorem wImageBody_stands (w : Writer) : WriterStands (wImageBody w) := by
  refine Body.spec_bind_ok _ fun _ w => Body.spec_bind_ok _ fun _ w => ?_
  dsimp only
  split
  · exact Body.spec_bind_ok _ fun _ _ => by simp
  · simp

theorem wPixelsBody_stands {w : Writer} (n : Nat) (h : w.state ≠ .failed) : WriterStands (wPixelsBody n w) := by
  unfold wPixelsBody
  split
  · exact h
  · refine Body.Spec.bind ((compressPixels_part _ w).mono (fun _ _ h => h) (fun _ _ _ => trivial) fun _ _ => trivial)
      fun _ w1 h1 => ?_
    have hs : w1.state = w.state := (offRaster_facts (congrArg Prod.fst h1.1)).1
    split
    · exact Body.spec_bind_ok _ fun _ _ => by simp
    · show w1.state ≠ .failed
      rwa [hs]

theorem resetReader_stands {r : Reader} (b : Bool) (h : r.state ≠ .failed) :
    (if b then resetReader r else r).state ≠ .failed := by
  cases b
  · exact h
  · exact nofun

theorem resetWriter_stands {w : Writer} (b : Bool) (h : w.state ≠ .failed) :
    (if b then resetWriter w else w).state ≠ .failed := by
  cases b
  · exact h
  · exact nofun

/-! ### Where a command ends -/

/-- The ends of a command `i` in state `s`: rejected (R192), a reset (R184), or its channel's body completed or failed
(R193), with the ports moved forward only. -/
inductive ExecEnd (i : Instr) (s : State) : State → Prop where
  | rejected (e : Status) : ExecEnd i s { s with last := e }
  | reset (sel : BitVec 2) : i = .reset sel → ExecEnd i s { s with
      reader := if selectsReader sel then resetReader s.reader else s.reader
      writer := if selectsWriter sel then resetWriter s.writer else s.writer
      last := .ok }
  | readerDone (r : Reader) : i.isReader = true → s.reader.state ≠ .failed → r.state ≠ .failed →
      ReaderMoves s.reader r → ExecEnd i s { s with reader := r, last := .ok }
  | readerFails (e : Status) (r : Reader) : i.isReader = true → s.reader.state ≠ .failed → e ∈ failuresOf i →
      ReaderMoves s.reader r → ExecEnd i s { s with reader := failReader e r, last := e }
  | writerDone (w : Writer) : i.isWriter = true → s.writer.state ≠ .failed → w.state ≠ .failed →
      SinkGrows s.writer w → ExecEnd i s { s with writer := w, last := .ok }
  | writerFails (w : Writer) : i.isWriter = true → s.writer.state ≠ .failed → Status.ioError ∈ failuresOf i →
      SinkFails s.writer .ioError w →
      ExecEnd i s { s with writer := failWriter .ioError w, last := .ioError }

/-- A reader command ends so where its body moves the streams forward only and fails with the codes of its row. -/
theorem readerCommand_ends {β : Type} {off : Reader → β} {codes : List Status} {i : Instr} {need : RState}
    {check : Reader → Option Status} {body : Reader → Body Reader Unit} {s t : State} (hi : i.isReader = true)
    (hpart : ReaderPart off codes s.reader (body s.reader)) (hcodes : codes = failuresOf i)
    (hstands : s.reader.state ≠ .failed → ReaderStands (body s.reader))
    (ht : readerCommand need check body s = .next t) : ExecEnd i s t := by
  obtain ⟨-, hx⟩ | ⟨-, -, hx⟩ | ⟨-, -, e, -, hx⟩ | ⟨hf, -, -, hx⟩ := readerCommand_cases need check body s
  case inr.inr.inr =>
    obtain ⟨r, hok, rfl⟩ | ⟨e, r, hraise, rfl⟩ := endReader_next (hx.symm.trans ht)
    · exact .readerDone r hi hf ((hstands hf).of_ok hok) (hpart.of_ok hok).2
    · obtain ⟨he, -, hm⟩ := hpart.of_raise hraise
      exact .readerFails e r hi hf (hcodes ▸ he) hm
  all_goals
    obtain rfl := Host.Outcome.next.inj (hx.symm.trans ht)
    exact .rejected _

/-- IoError stands in the row of every writer command (R182, R197). -/
theorem ioError_mem_failuresOf {i : Instr} (hi : i.isWriter = true) : Status.ioError ∈ failuresOf i := by
  cases i <;> simp [Instr.isWriter] at hi <;> simp [failuresOf]

/-- A writer command ends so where its body moves the FIFO and the sink forward only. -/
theorem writerCommand_ends {β : Type} {off : Writer → β} {i : Instr} {need : WState}
    {check : Writer → Option Status} {body : Writer → Body Writer Unit} {s t : State} (hi : i.isWriter = true)
    (hpart : WriterPart off s.writer (body s.writer))
    (hstands : s.writer.state ≠ .failed → WriterStands (body s.writer))
    (ht : writerCommand need check body s = .next t) : ExecEnd i s t := by
  obtain ⟨-, hx⟩ | ⟨-, -, hx⟩ | ⟨-, -, e, -, hx⟩ | ⟨hf, -, -, hx⟩ := writerCommand_cases need check body s
  case inr.inr.inr =>
    obtain ⟨w, hok, rfl⟩ | ⟨e, w, hraise, rfl⟩ := endWriter_next (hx.symm.trans ht)
    · exact .writerDone w hi hf ((hstands hf).of_ok hok) (hpart.of_ok hok).2
    · obtain ⟨-, hfails⟩ := hpart.of_raise hraise
      obtain rfl := hfails.1
      exact .writerFails w hi hf (ioError_mem_failuresOf hi) hfails
  all_goals
    obtain rfl := Host.Outcome.next.inj (hx.symm.trans ht)
    exact .rejected _

theorem execReset_ends {sel : BitVec 2} {s t : State} (ht : execReset sel s = .next t) :
    ExecEnd (.reset sel) s t := by
  unfold execReset at ht
  split at ht
  · obtain rfl := Host.Outcome.next.inj ht
    exact .rejected _
  · obtain rfl := Host.Outcome.next.inj ht
    exact .reset sel rfl

/-- Every command that answers ends so. -/
theorem exec_ends {i : Instr} {s t : State} (ht : exec i s = .next t) : ExecEnd i s t := by
  cases i with
  | reset sel => exact execReset_ends ht
  | rOpen =>
    exact readerCommand_ends (need := .idle) (check := noCheck) rfl
      (rOpenBody_part _) rfl (fun _ => rOpenBody_stands _) ht
  | rNext =>
    exact readerCommand_ends (need := .top) (check := noCheck) rfl
      (rNextBody_part _) rfl (fun _ => rNextBody_stands _) ht
  | rExt =>
    exact readerCommand_ends (need := .extCode) (check := noCheck) rfl
      (rExtBody_part _) rfl (fun _ => rExtBody_stands _) ht
  | rExtBlock =>
    exact readerCommand_ends (need := .extData) (check := noCheck) rfl
      (rExtBlockBody_part _) rfl rExtBlockBody_stands ht
  | rImage =>
    exact readerCommand_ends (need := .imgDesc) (check := noCheck) rfl
      (rImageBody_part _) rfl (fun _ => rImageBody_stands _) ht
  | rPixels count =>
    exact readerCommand_ends rfl (rPixelsBody_part _ _) rfl (rPixelsBody_stands _) ht
  | wOpen v89a =>
    exact writerCommand_ends rfl (wOpenBody_part v89a _) (fun _ => wOpenBody_stands _ _) ht
  | wExt imm8 =>
    exact writerCommand_ends (need := .top) (check := noCheck) rfl
      (wExtBody_part imm8 _) (fun _ => wExtBody_stands _ _) ht
  | wExtBlock imm8 =>
    exact writerCommand_ends rfl (wExtBlockBody_part imm8 _) (wExtBlockBody_stands _) ht
  | wExtEnd =>
    exact writerCommand_ends (need := .extData) (check := noCheck) rfl
      (wExtEndBody_part _) (fun _ => wExtEndBody_stands _) ht
  | wImage =>
    exact writerCommand_ends rfl (wImageBody_part _) (fun _ => wImageBody_stands _) ht
  | wPixels count =>
    exact writerCommand_ends rfl (wPixelsBody_part _ _) (wPixelsBody_stands _) ht
  | wTrailer =>
    exact writerCommand_ends (need := .top) (check := noCheck) rfl
      (wTrailerBody_part _) (fun _ => wTrailerBody_stands _) ht

end Sys2Proof.Machine

open Sys2Proof Sys2Proof.Machine

/-- Settles O17: a channel comes into its failed state only where its own command fails, and a failed one runs no body. -/
theorem failureIsRecordedAndSticky : Obligations.FailureIsRecordedAndSticky := by
  refine ⟨fun i s t ht hs hfail => ?_, fun i s t ht hs hfail => ?_, fun i s t ht hs hsel => ?_,
    fun i s t ht hs hsel => ?_⟩
  · cases exec_ends ht with
    | readerFails e r hi _ he hm => exact ⟨hi, rfl, he, rfl, hm.1, hm.2.2⟩
    | readerDone r _ _ hr _ => exact absurd hfail hr
    | reset sel => exact absurd hfail (resetReader_stands _ hs)
    | rejected | writerDone | writerFails => exact absurd hfail hs
  · cases exec_ends ht with
    | writerFails w hi _ he hm =>
      obtain ⟨-, hsout, -, -, -, hdin⟩ := hm
      exact ⟨hi, rfl, he, rfl, hdin, hsout⟩
    | writerDone w _ _ hw _ => exact absurd hfail hw
    | reset sel => exact absurd hfail (resetWriter_stands _ hs)
    | rejected | readerDone | readerFails => exact absurd hfail hs
  · cases exec_ends ht with
    | reset sel hi => exact if_neg (by rw [selectsReader, hsel sel hi]; decide)
    | readerDone _ _ hf | readerFails _ _ _ hf => exact absurd hs hf
    | rejected | writerDone | writerFails => rfl
  · cases exec_ends ht with
    | reset sel hi => exact if_neg (by rw [selectsWriter, hsel sel hi]; decide)
    | writerDone _ _ hf | writerFails _ _ hf => exact absurd hs hf
    | rejected | readerDone | readerFails => rfl

/-- Settles O19, end by end: the ports are the environment's for RESET too. -/
theorem streamsMoveForward : Obligations.StreamsMoveForward := by
  intro i s t ht
  cases exec_ends ht with
  | rejected e => simp
  | reset sel hi =>
    subst hi
    refine ⟨?_, ?_, ?_, ?_, fun sel' _ => ⟨?_, ?_⟩, fun h => absurd rfl (h sel)⟩ <;> dsimp only <;> split <;> simp
  | readerDone r hi _ _ hm =>
    obtain ⟨hsin, hread, hdout⟩ := hm
    exact ⟨hsin, hread, List.prefix_refl _, List.suffix_refl _, fun sel h => absurd hi (by simp [h, Instr.isReader]),
      fun _ => ⟨hdout, List.suffix_refl _⟩⟩
  | readerFails e r hi _ _ hm =>
    obtain ⟨hsin, hread, hdout⟩ := hm
    exact ⟨hsin, hread, List.prefix_refl _, List.suffix_refl _, fun sel h => absurd hi (by simp [h, Instr.isReader]),
      fun _ => ⟨hdout, List.suffix_refl _⟩⟩
  | writerDone w hi _ _ hm =>
    obtain ⟨hsout, -, hans, hdin⟩ := hm
    exact ⟨List.suffix_refl _, le_refl _, hsout, hans, fun sel h => absurd hi (by simp [h, Instr.isWriter]),
      fun _ => ⟨List.prefix_refl _, hdin⟩⟩
  | writerFails w hi _ _ hm =>
    obtain ⟨-, hsout, -, -, hans, hdin⟩ := hm
    exact ⟨List.suffix_refl _, le_refl _, hsout, hans, fun sel h => absurd hi (by simp [h, Instr.isWriter]),
      fun _ => ⟨List.prefix_refl _, hdin⟩⟩

end

section
/-!
PROOFS. The accesses without effect (R75, R212), and the writer's commands that only write bytes: W_OPEN, W_EXT,
W_EXT_BLOCK, W_EXT_END and W_TRAILER (R169 to R174, R181), each a run of SinkByte and then registers set.
-/

namespace Sys2Proof.Machine

/-! ### Accesses without effect -/

theorem registerOffset_ne {a b : BitVec 12} (h : a.toNat / 4 ≠ b.toNat / 4) : registerOffset a ≠ registerOffset b := by
  unfold registerOffset
  omega

/-- A read of a register that is not DOUT (R75). -/
theorem readAccess_other {offset : BitVec 12} (s : State) (h : offset.toNat / 4 ≠ 0x00C / 4) :
    readAccess offset s = .next { s with readData := readRegister offset s } :=
  if_neg (registerOffset_ne (b := doutOffset) h)

/-- A write of a register that is neither CMD, unless BUSY = 1, nor DIN (R75, R212). -/
theorem writeRegister_other {offset : BitVec 12} (value : Word) {s : State}
    (hcmd : offset.toNat / 4 ≠ 0 ∨ s.busy = true) (hdin : offset.toNat / 4 ≠ 0x008 / 4) :
    writeRegister offset value s = .next s := by
  unfold writeRegister
  split
  · rename_i hoff
    have hbusy : s.busy = true := hcmd.resolve_left fun h => registerOffset_ne (b := cmdOffset) h hoff
    exact if_pos hbusy
  · exact if_neg (registerOffset_ne (b := dinOffset) hdin)

/-! ### A run of bytes at the sink -/

theorem sinkBytes_singleton (b : Byte) (w : Writer) : sinkBytes [b] w = sinkByte b w := by
  rw [sinkBytes]
  cases sinkByte b w <;> rfl

theorem sinkBytes_append (bs : List Byte) : ∀ (cs : List Byte) (w : Writer),
    sinkBytes (bs ++ cs) w = (sinkBytes bs w).bind fun _ w => sinkBytes cs w := by
  induction bs with
  | nil => intro cs w; rfl
  | cons b bs ih =>
    intro cs w
    simp only [List.cons_append, sinkBytes, Body.bind_assoc, ih]

/-- A sink that accepts `k` bytes and then refuses one accepts any `n ≤ k` bytes. -/
theorem acceptsFirst_of_replicate {n k : Nat} {w : Writer} {rest : List SinkAnswer}
    (ha : w.sinkAnswers = List.replicate k .ok ++ rest) (hn : n ≤ k) : acceptsFirst n w := by
  intro a hm
  rw [ha, List.take_append_of_le_length (by simpa using hn), List.take_replicate] at hm
  exact List.eq_of_mem_replicate hm

/-- The answers left after the first `n` of `k` accepted bytes. -/
theorem drop_replicate_append {n k : Nat} (rest : List SinkAnswer) (hn : n ≤ k) :
    (List.replicate k SinkAnswer.ok ++ rest).drop n = List.replicate (k - n) .ok ++ rest := by
  rw [List.drop_append_of_le_length (by simpa using hn), List.drop_replicate]

/-- A sink that accepts `m + n` bytes accepts `m` and then `n` more. -/
theorem acceptsFirst_add {m n : Nat} {w : Writer} (ha : acceptsFirst (m + n) w) :
    acceptsFirst m w ∧ ∀ a ∈ (w.sinkAnswers.drop m).take n, a = SinkAnswer.ok := by
  rw [acceptsFirst, List.take_add] at ha
  exact ⟨fun a hm => ha a (List.mem_append_left _ hm), fun a hm => ha a (List.mem_append_right _ hm)⟩

section ThenByte

variable {bytes : List Byte} {b : Byte} {w : Writer} {upd : Writer → Writer} {f : Unit → Writer → Body Writer Unit}
  (hset : ∀ answers out, upd { w with sinkAnswers := answers, sout := out } =
    { upd w with sinkAnswers := answers, sout := out })

include hset

/-- Bytes and one byte more, fields being set between them that are not the sink's: all accepted. -/
theorem sinkBytes_sinkByte_accepted (ha : acceptsFirst (bytes.length + 1) w) :
    ((sinkBytes bytes w).bind fun _ w => (sinkByte b (upd w)).bind f) = f () { upd w with
      sout := w.sout ++ (bytes ++ [b]), sinkAnswers := w.sinkAnswers.drop (bytes.length + 1) } := by
  obtain ⟨hbytes, hbyte⟩ := acceptsFirst_add ha
  rw [sinkBytes_acceptsFirst bytes w hbytes, Body.bind_ok, hset, ← sinkBytes_singleton,
    sinkBytes_acceptsFirst [b] _ hbyte, Body.bind_ok, ← List.append_assoc, ← List.drop_drop]
  rfl

/-- Bytes and one byte more, fields being set between them that are not the sink's: one refused. -/
theorem sinkBytes_sinkByte_refused {k : Nat} {rest : List SinkAnswer} (hdraws : (upd w).draws = w.draws)
    (hk : k < bytes.length + 1) (ha : w.sinkAnswers = List.replicate k .ok ++ .error :: rest) :
    ((sinkBytes bytes w).bind fun _ w => (sinkByte b (upd w)).bind f) =
      .raise .ioError { if k < bytes.length then w else upd w with
        sout := w.sout ++ (bytes ++ [b]).take (k + landedCount w), sinkAnswers := rest, draws := w.draws + 1 } := by
  have hland := landedCount_le w
  by_cases hlt : k < bytes.length
  · rw [sinkBytes_refused bytes k w rest hlt ha, Body.bind_raise, if_pos hlt,
      List.take_append_of_le_length (by omega)]
  · obtain rfl : k = bytes.length := by omega
    have hdrop : w.sinkAnswers.drop bytes.length = .error :: rest := by
      rw [ha, drop_replicate_append _ (le_refl _), Nat.sub_self]; rfl
    have hcount : landedCount { upd w with sinkAnswers := .error :: rest, sout := w.sout ++ bytes } = landedCount w := by
      simp only [landedCount, hdraws]
    rw [sinkBytes_acceptsFirst bytes w (acceptsFirst_of_replicate ha (le_refl _)), Body.bind_ok, hset, hdrop,
      ← sinkBytes_singleton, sinkBytes_refused [b] 0 _ rest (by simp) rfl, Body.bind_raise, if_neg hlt, hcount, hdraws,
      List.take_length_add_append, Nat.zero_add, ← List.append_assoc]

end ThenByte

/-- The end of a writer command that writes `bytes` and then sets registers: all accepted, or one refused (R67, R193). -/
theorem endWriter_sinkBytes (s : State) (bytes : List Byte) (w : Writer) (upd : Writer → Writer) :
    (acceptsFirst bytes.length w →
      endWriter s ((sinkBytes bytes w).bind fun _ w => .ok () (upd w)) = .next { s with
        last := .ok
        writer := upd { w with sout := w.sout ++ bytes, sinkAnswers := w.sinkAnswers.drop bytes.length } }) ∧
    ∀ (k : Nat) (rest : List SinkAnswer), k < bytes.length →
      w.sinkAnswers = List.replicate k .ok ++ .error :: rest →
      ∃ landed : Nat, landed ≤ 1 ∧
        endWriter s ((sinkBytes bytes w).bind fun _ w => .ok () (upd w)) = .next { s with
          last := .ioError
          writer := { w with
            state := .failed, err := .ioError, sout := w.sout ++ bytes.take (k + landed), sinkAnswers := rest,
            draws := w.draws + 1 } } := by
  refine ⟨fun ha => ?_, fun k rest hk ha => ⟨landedCount w, landedCount_le w, ?_⟩⟩
  · rw [sinkBytes_acceptsFirst bytes w ha]; rfl
  · rw [sinkBytes_refused bytes k w rest hk ha]; rfl

/-- The same for a single byte. -/
theorem endWriter_sinkByte (s : State) (b : Byte) (w : Writer) (upd : Writer → Writer) :
    (acceptsFirst 1 w →
      endWriter s ((sinkByte b w).bind fun _ w => .ok () (upd w)) = .next { s with
        last := .ok, writer := upd { w with sout := w.sout ++ [b], sinkAnswers := w.sinkAnswers.drop 1 } }) ∧
    ∀ rest : List SinkAnswer, w.sinkAnswers = .error :: rest →
      ∃ landed : Nat, landed ≤ 1 ∧
        endWriter s ((sinkByte b w).bind fun _ w => .ok () (upd w)) = .next { s with
          last := .ioError
          writer := { w with
            state := .failed, err := .ioError, sout := w.sout ++ [b].take landed, sinkAnswers := rest,
            draws := w.draws + 1 } } := by
  obtain ⟨hok, hfail⟩ := endWriter_sinkBytes s [b] w upd
  rw [sinkBytes_singleton] at hok hfail
  exact ⟨hok, fun rest ha => by simpa only [Nat.zero_add] using hfail 0 rest Nat.one_pos ha⟩

/-! ### The words and the states of the commands -/

theorem decode_wOpen (v89a : BitVec 1) : decode (0x100000#23 ++ 0#8 ++ v89a) = .instr (.wOpen v89a) := by
  revert v89a; decide

theorem fieldOp_append (high : BitVec 24) (imm8 : Byte) : fieldOp (high ++ imm8) = (high.extractLsb' 16 8).toNat := by
  rw [fieldOp, BitVec.extractLsb'_append_eq_of_le (by decide)]

/-- A word of format B: its operand is the low byte (R85, R86). -/
theorem formatB_append {high : BitVec 24} (imm8 : Byte) (i : Byte → Instr) (h : high.extractLsb' 0 16 = 0#16) :
    formatB (high ++ imm8) i = .instr (i imm8) := by
  have himm : fieldImm8 (high ++ imm8) = imm8 := BitVec.extractLsb'_append_eq_right
  rw [formatB, BitVec.extractLsb'_append_eq_of_le (by decide), himm]
  exact if_pos h

theorem decode_wExt (imm8 : Byte) : decode (0x210000#24 ++ imm8) = .instr (.wExt imm8) := by
  have hop : fieldOp (0x210000#24 ++ imm8) = 0x21 := fieldOp_append 0x210000#24 imm8
  simp only [decode, hop]
  exact formatB_append imm8 .wExt rfl

theorem decode_wExtBlock (imm8 : Byte) : decode (0x220000#24 ++ imm8) = .instr (.wExtBlock imm8) := by
  have hop : fieldOp (0x220000#24 ++ imm8) = 0x22 := fieldOp_append 0x220000#24 imm8
  simp only [decode, hop]
  exact formatB_append imm8 .wExtBlock rfl

/-- No writer command is legal in W_DONE (R45). -/
theorem writerNeeds_not_done {i : Instr} (hi : i.isWriter = true) :
    ∃ need, writerNeeds i = some need ∧ need ≠ .done := by
  cases i <;> simp [Instr.isWriter] at hi <;> exact ⟨_, rfl, by decide⟩

/-- A writer command outside the state it is legal in, and outside W_FAILED (R45, R194). -/
theorem exec_writer_sequence {i : Instr} {need : WState} (s : State) (hi : writerNeeds i = some need)
    (hf : s.writer.state ≠ .failed) (hn : s.writer.state ≠ need) :
    exec i s = .next { s with last := .invalidSequence } := by
  obtain ⟨-, hwriter, -⟩ := outOfSequenceRejects
  exact hwriter i s need hi hf hn

/-! ### The bodies as runs of bytes -/

theorem wExtBody_eq (imm8 : Byte) (w : Writer) :
    wExtBody imm8 w = (sinkBytes [0x21#8, imm8] w).bind fun _ w => .ok () { w with state := .extData } := by
  rw [wExtBody, sinkBytes, Body.bind_assoc]
  simp only [sinkBytes_singleton]

theorem wExtBlockBody_eq (imm8 : Byte) (w : Writer) :
    wExtBlockBody imm8 w = (sinkBytes (imm8 :: dinTake imm8.toNat w) (dinDrop imm8.toNat w)).bind fun _ w => .ok () w := by
  have hid : ∀ x : Body Writer Unit, (x.bind fun _ w => .ok () w) = x := fun x => by cases x <;> rfl
  rw [hid]
  rfl

theorem wOpenBody_eq (v89a : BitVec 1) (w : Writer) :
    wOpenBody v89a w = (sinkBytes (signatureOf v89a ++ dinTake (wOpenLength w) w) (dinDrop (wOpenLength w) w)).bind
      fun _ w' => .ok () { w' with
        version := v89a, gctBpp := tableBpp (byteOf (dinTake (wOpenLength w) w) 4), state := .top } := by
  rw [sinkBytes_append, Body.bind_assoc]
  rfl

theorem signatureOf_eq (v89a : BitVec 1) :
    signatureOf v89a = [0x47#8, 0x49#8, 0x46#8, 0x38#8, if v89a = 1#1 then 0x39#8 else 0x37#8, 0x61#8] := by
  unfold signatureOf
  split <;> rfl

/-- The depth of the table that a packed byte announces, in the terms of the statements (R48, R95). -/
theorem tableBpp_eq (packed : Byte) :
    tableBpp packed = if packed.getLsbD 7 then BitVec.ofNat 4 (packed.toNat % 8 + 1) else 0#4 := by
  have hexp : tableExp packed = packed.toNat % 8 := by simp [tableExp]
  rw [tableBpp, hasTable, hexp]

/-! ### DIN -/

theorem dinTake_append {w : Writer} {n : Nat} {d more : List Byte} (hdin : w.din = d ++ more) (hd : d.length = n) :
    dinTake n w = d := by rw [dinTake, hdin, List.take_left' hd]

theorem dinDrop_append {w : Writer} {n : Nat} {d more : List Byte} (hdin : w.din = d ++ more) (hd : d.length = n) :
    dinDrop n w = { w with din := more } := by rw [dinDrop, hdin, List.drop_left' hd]

end Sys2Proof.Machine

open Sys2Proof Sys2Proof.Machine

/-- Settles O9: the access is none of those the block answers. -/
theorem otherAccessesHaveNoEffect : Obligations.OtherAccessesHaveNoEffect := by
  refine ⟨fun s offset rest hhost hoff => ?_, fun s offset value rest hhost hcmd hdin => ?_⟩
  · rw [step_cons hhost]
    exact readAccess_other { s with host := rest } hoff
  · rw [step_cons hhost]
    exact writeRegister_other (s := { s with host := rest }) value hcmd hdin

/-- Settles O39: in W_IDLE, with its bytes in DIN, W_OPEN is one run of bytes and the header's registers. -/
theorem wOpenWritesHeader : Obligations.WOpenWritesHeader := by
  refine ⟨decode_wOpen, fun s v89a hf hn => exec_writer_sequence s rfl hf hn,
    fun s v89a hs hdin => ?short,
    fun s v89a d0 d1 d2 d3 d4 d5 d6 table more bytes hs htable hdin hbytes => ?runs⟩
  case short =>
    rw [← tableBytes_eq_tableSize] at hdin
    have hcheck : wOpenCheck s.writer = some .invalidSequence := by
      unfold wOpenCheck
      split_ifs with h7 hn
      · rfl
      · rfl
      · exact absurd (hdin.resolve_left h7) hn
    exact writerCommand_rejected (need := .idle) (by rw [hs]; decide) hs hcheck
  case runs =>
    have h4 : dinAt 4 s.writer = d4 := by rw [dinAt, hdin]; rfl
    have hlen : ([d0, d1, d2, d3, d4, d5, d6] ++ table).length = wOpenLength s.writer := by
      rw [wOpenLength, h4, tableBytes_eq_tableSize, ← htable, List.length_append]; rfl
    have htotal : s.writer.din.length = wOpenLength s.writer + more.length := by
      rw [hdin, List.length_append, hlen]
    have hcheck : wOpenCheck s.writer = none := by
      rw [wOpenCheck, if_neg (by rw [htotal, wOpenLength]; omega), if_neg (by omega)]
    have hrun : exec (.wOpen v89a) s = endWriter s (wOpenBody v89a s.writer) :=
      writerCommand_runs (need := .idle) (by rw [hs]; decide) hs hcheck
    have hwritten : signatureOf v89a ++ ([d0, d1, d2, d3, d4, d5, d6] ++ table) = bytes := by
      rw [hbytes, signatureOf_eq, List.append_assoc]
    have hpacked : byteOf ([d0, d1, d2, d3, d4, d5, d6] ++ table) 4 = d4 := rfl
    rw [hrun, wOpenBody_eq, dinTake_append hdin hlen, dinDrop_append hdin hlen, hwritten, hpacked, tableBpp_eq]
    exact endWriter_sinkBytes s bytes { s.writer with din := more } _

/-- Settles O40: two bytes, then W_EXT_DATA. -/
theorem wExtWritesIntroducer : Obligations.WExtWritesIntroducer := by
  refine ⟨decode_wExt, fun s imm8 hf hn => exec_writer_sequence s rfl hf hn,
    fun s imm8 hs => ?_⟩
  have hrun : exec (.wExt imm8) s = endWriter s (wExtBody imm8 s.writer) :=
    writerCommand_runs (need := .top) (check := noCheck) (by rw [hs]; decide) hs rfl
  rw [hrun, wExtBody_eq]
  exact endWriter_sinkBytes s [0x21#8, imm8] s.writer _

/-- Settles O41: the length is checked first, then DIN; then it is one run of bytes. -/
theorem wExtBlockWritesSubBlock : Obligations.WExtBlockWritesSubBlock := by
  refine ⟨decode_wExtBlock, fun s imm8 hf hn => exec_writer_sequence s rfl hf hn,
    fun s hs => writerCommand_rejected (need := .extData) (check := wExtBlockCheck 0) (body := wExtBlockBody 0#8)
      (by rw [hs]; decide) hs (if_pos rfl),
    fun s imm8 hs h0 hdin => ?short, fun s imm8 d more hs h0 hd hdin => ?runs⟩
  case short =>
    have hcheck : wExtBlockCheck (lengthOperand imm8) s.writer = some .invalidSequence := by
      rw [wExtBlockCheck, lengthOperand, if_neg (toNat_pos h0).ne', if_pos hdin]
    exact writerCommand_rejected (need := .extData) (by rw [hs]; decide) hs hcheck
  case runs =>
    have hcheck : wExtBlockCheck (lengthOperand imm8) s.writer = none := by
      have hlen : ¬ s.writer.din.length < imm8.toNat := by rw [hdin, List.length_append]; omega
      rw [wExtBlockCheck, lengthOperand, if_neg (toNat_pos h0).ne', if_neg hlen]
    have hrun : exec (.wExtBlock imm8) s = endWriter s (wExtBlockBody imm8 s.writer) :=
      writerCommand_runs (need := .extData) (by rw [hs]; decide) hs hcheck
    rw [hrun, wExtBlockBody_eq, dinTake_append hdin hd, dinDrop_append hdin hd, Nat.add_comm 1]
    exact endWriter_sinkBytes s (imm8 :: d) { s.writer with din := more } _

/-- Settles O42: one byte, then W_TOP. -/
theorem wExtEndWritesTerminator : Obligations.WExtEndWritesTerminator := by
  refine ⟨by decide, fun s hf hn => exec_writer_sequence s rfl hf hn, fun s hs => ?_⟩
  have hrun : exec .wExtEnd s = endWriter s (wExtEndBody s.writer) :=
    writerCommand_runs (need := .extData) (check := noCheck) (by rw [hs]; decide) hs rfl
  rw [hrun]
  exact endWriter_sinkByte s 0x00#8 s.writer _

/-- Settles O43: one byte, then W_DONE, in which no writer command is legal (R45). -/
theorem wTrailerEndsFile : Obligations.WTrailerEndsFile := by
  refine ⟨by decide, fun s hf hn => exec_writer_sequence s rfl hf hn, fun i s hi hs => ?_,
    fun s hs => ?_⟩
  · obtain ⟨need, hneed, hdone⟩ := writerNeeds_not_done hi
    exact exec_writer_sequence s hneed (by rw [hs]; decide) (by rw [hs]; exact hdone.symm)
  · have hrun : exec .wTrailer s = endWriter s (wTrailerBody s.writer) :=
      writerCommand_runs (need := .top) (check := noCheck) (by rw [hs]; decide) hs rfl
    rw [hrun]
    exact endWriter_sinkByte s 0x3B#8 s.writer _

end

section
/-!
PROOFS. `W_IMAGE` (R175 to R177): the bytes and registers of its descriptor, the compressor and the packer it starts (R117,
R126), and for an empty raster the whole image data (R131, R132).
-/

namespace Sys2Proof.Machine

/-! ### The descriptor -/

theorem imageBytes_append (d0 d1 d2 d3 d4 d5 d6 d7 d8 : Byte) (table : List Byte) :
    imageBytes ([d0, d1, d2, d3, d4, d5, d6, d7, d8] ++ table) =
      [0x2C#8, d0, d1, d2, d3, d4, d5, d6, d7, d8 &&& 0xE7#8] ++ table := rfl

/-- The image registers of a descriptor whose nine bytes are known (R175, R176). -/
theorem setImage_append (d0 d1 d2 d3 d4 d5 d6 d7 d8 : Byte) (table : List Byte) (bpp : BitVec 4) (w : Writer) :
    setImage ([d0, d1, d2, d3, d4, d5, d6, d7, d8] ++ table) bpp w =
      { w with imgW := d5 ++ d4, imgH := d7 ++ d6, imgPacked := d8 &&& 0xE7#8, bpp := bpp } := by
  simp only [setImage, u16At, u16_eq_append]
  rfl

/-- Clearing the reserved bits leaves the interlace flag (R176). -/
theorem interlaceBit_clearReserved (packed : Byte) :
    interlaceBit (packed &&& 0xE7#8) = BitVec.ofBool (packed.getLsbD 6) := by
  rw [interlaceBit_eq, BitVec.getLsbD_and]
  simp

/-- The depth that applies, in the terms of the statements (R175, R178). -/
theorem imageBpp_eq (packed : Byte) (w : Writer) :
    imageBpp packed w = BitVec.ofNat 4 (if packed.getLsbD 7 then packed.toNat % 8 + 1 else w.gctBpp.toNat) := by
  rw [imageBpp, tableBpp_eq, hasTable]
  split
  · rfl
  · simp

/-- The code size of a depth of 1 to 8 (R126). -/
theorem codeSizeOf_ofNat {bpp : Nat} (h : bpp ≤ 8) : codeSizeOf (BitVec.ofNat 4 bpp) = BitVec.ofNat 4 (max bpp 2) := by
  apply BitVec.eq_of_toNat_eq
  rw [codeSizeOf_spec, BitVec.toNat_ofNat, BitVec.toNat_ofNat, Nat.mod_eq_of_lt (by omega), Nat.mod_eq_of_lt (by omega)]

/-- The tracker at the start of any raster (R59). -/
theorem rowInit_eq (w h : Half) (il : BitVec 1) :
    rowInit w h il = { row := 0, col := 0, pass := if h = 0#16 then 4#3 else 0#3, w := w, h := h, il := il } := by
  by_cases h0 : h = 0#16
  · subst h0
    rw [if_pos rfl]
    unfold rowInit
    split <;> rfl
  · have hpos := toNat_pos h0
    rw [if_neg h0]
    have hs : settleRow h.toNat 4 0 (interlaceOffset 0) = (0, 0) := by
      rw [settleRow, if_neg (fun hle => absurd hle.2 (by rw [interlaceOffset]; omega))]
      rfl
    unfold rowInit
    rw [hs, if_neg h0]
    split <;> rfl

/-! ### The compressor starts -/

/-- `w` with the compressor and the packer as CompressStart sets them for code size `b`, before it writes a code (R117,
R126, R128). -/
def compressorStarted (b : Nat) (w : Writer) : Writer :=
  { w with
    cB := BitVec.ofNat 4 b, cClear := BitVec.ofNat 13 (2 ^ b), cEof := BitVec.ofNat 13 (2 ^ b + 1),
    cFirst := BitVec.ofNat 13 (2 ^ b + 2), cFree := BitVec.ofNat 13 (2 ^ b + 2), cW := BitVec.ofNat 4 (b + 1),
    cPrefix := none, cDict := [], pAcc := 0, pCnt := 0, pBuf := [] }

/-- `w` with every register of the image as ImageStart writes it for code size `b`, the packer empty (R126, R177). -/
def imageRegisters (b : Nat) (w : Writer) : Writer :=
  { compressorStarted b w with
    codeSize := BitVec.ofNat 8 b, pixRemain := rasterLength w.imgW w.imgH
    rows := rowInit w.imgW w.imgH (interlaceBit w.imgPacked) }

/-- `w` as ImageStart leaves it for code size `b` but for W_STATE: the Clear Code in the packer (R126, R177). -/
def imageStarted (b : Nat) (w : Writer) : Writer := packed (2 ^ b) (b + 1) (imageRegisters b w)

/-- `C_b` is written before the code size byte goes out (R126). -/
def setCodeSize (b : Nat) (w : Writer) : Writer := { w with cB := BitVec.ofNat 4 b }

/-- ImageStart after its code size byte: the image is open, or done where it has no pixels (R177). -/
def imageOpened (b : Nat) (w : Writer) : Body Writer Unit :=
  if rasterLength w.imgW w.imgH = 0#32 then
    (compressFinish (imageStarted b w)).bind fun _ w => .ok () { w with state := .top }
  else .ok () { imageStarted b w with state := .pixels }

/-- Codes that leave the sub-block short of its 255 bytes do not touch the sink. -/
theorem packed_pending {v bits : Nat} {w : Writer} (h : w.pBuf.length + bits / 8 < 255) :
    packed v bits w = { w with
      pAcc := BitVec.ofNat 19 (v / 256 ^ (bits / 8)), pCnt := bits % 8, pBuf := w.pBuf ++ lowBytes (bits / 8) v } := by
  have hlen := blockBytes_length v bits w
  rw [packed, if_neg (by omega), if_neg (by omega), if_neg (by omega)]
  rfl

theorem started_packerOk (b : Nat) (w : Writer) : packerOk (compressorStarted b w) :=
  ⟨Nat.zero_le _, (by decide : (0#19).toNat < 2 ^ 0), Nat.zero_le _⟩

/-- The Clear Code stays in the packer, as the bits of the number `2 ^ b` (R103, R113, R117). -/
theorem imageStarted_eq {b : Nat} (w : Writer) (h8 : b ≤ 8) :
    imageStarted b w = { imageRegisters b w with
      pAcc := BitVec.ofNat 19 (2 ^ b / 256 ^ ((b + 1) / 8)), pCnt := (b + 1) % 8
      pBuf := lowBytes ((b + 1) / 8) (2 ^ b) } :=
  packed_pending (w := imageRegisters b w) (by show 0 + (b + 1) / 8 < 255; omega)

section CodeSize

variable {b : Nat} (h2 : 2 ≤ b) (h8 : b ≤ 8)

include h2 h8

theorem toNat_codeSize : (BitVec.ofNat 4 b).toNat = b := by rw [BitVec.toNat_ofNat]; omega

theorem setWidth_codeSize : (BitVec.ofNat 4 b).setWidth 8 = BitVec.ofNat 8 b :=
  BitVec.eq_of_toNat_eq (by rw [BitVec.toNat_setWidth, BitVec.toNat_ofNat, BitVec.toNat_ofNat]; omega)

/-- CompressStart after its code size byte, before it writes the Clear Code. -/
theorem resetDict_started {w : Writer} (hb : w.cB = BitVec.ofNat 4 b) :
    { resetDict (startPacker (setCodeSpace w)) with cPrefix := none } = compressorStarted b w := by
  have hn := toNat_codeSize h2 h8
  have hsucc : BitVec.ofNat 4 b + 1#4 = BitVec.ofNat 4 (b + 1) := (BitVec.ofNat_add ..).symm
  obtain ⟨⟩ := w
  subst hb
  simp only [resetDict, startPacker, setCodeSpace, compressorStarted, hn, hsucc]
  rfl

theorem started_clear (w : Writer) : (compressorStarted b w).cClear.toNat = 2 ^ b := by
  obtain ⟨-, hpow, -⟩ := codeSize_bounds h2 h8
  rw [compressorStarted, BitVec.toNat_ofNat, Nat.mod_eq_of_lt (by omega)]

theorem started_eof (w : Writer) : (compressorStarted b w).cEof.toNat = 2 ^ b + 1 := by
  obtain ⟨-, hpow, -⟩ := codeSize_bounds h2 h8
  rw [compressorStarted, BitVec.toNat_ofNat, Nat.mod_eq_of_lt (by omega)]

theorem started_width (w : Writer) : (compressorStarted b w).cW.toNat = b + 1 := by
  rw [compressorStarted, BitVec.toNat_ofNat]; omega

/-- CompressStart: the code size byte, then the Clear Code in the packer (R126). -/
theorem compressStart_eq {bpp : BitVec 4} (w : Writer) (hb : codeSizeOf bpp = BitVec.ofNat 4 b) :
    compressStart bpp w = (sinkByte (BitVec.ofNat 8 b) { w with bpp := bpp, cB := BitVec.ofNat 4 b }).bind fun _ w =>
      .ok () (packed (2 ^ b) (b + 1) (compressorStarted b w)) := by
  unfold compressStart
  dsimp only
  rw [hb, setWidth_codeSize h2 h8]
  refine (sinkByte_spec _ _).bind_congr fun _ w1 hw1 => ?_
  have hcB : w1.cB = BitVec.ofNat 4 b := (congrArg (·.cB) hw1.1 :)
  obtain ⟨-, hpow, hdouble⟩ := codeSize_bounds h2 h8
  have hlen : (blockBytes (2 ^ b) (b + 1) (compressorStarted b w1)).length < 255 := by
    rw [blockBytes_length]
    show 0 + (b + 1) / 8 < 255
    omega
  show (fun w2 : Writer => writeCode w2.cClear.toNat w2.cW.toNat w2)
    { resetDict (startPacker (setCodeSpace w1)) with cPrefix := none } = _
  rw [resetDict_started h2 h8 hcB]
  dsimp only
  rw [started_clear h2 h8, started_width h2 h8]
  exact writeCode_packed (started_packerOk b w1) (Nat.pow_lt_pow_right (by decide) (Nat.lt_succ_self b))
    (by omega) (by simp [compressorStarted])
    (by simp [compressorStarted]) fun h => absurd h (Nat.not_le.2 hlen)

/-- ImageStart up to its code size byte (R177). -/
theorem imageStart_eq {w : Writer} (hb : codeSizeOf w.bpp = BitVec.ofNat 4 b) :
    imageStart w = (sinkByte (BitVec.ofNat 8 b) (setCodeSize b w)).bind fun _ w => imageOpened b w := by
  unfold imageStart
  rw [compressStart_eq h2 h8 w hb, Body.bind_assoc]
  dsimp only [Body.bind_ok]
  have hsize : ∀ w : Writer, (packed (2 ^ b) (b + 1) (compressorStarted b w)).cB.setWidth 8 = BitVec.ofNat 8 b :=
    fun w => setWidth_codeSize h2 h8
  simp only [hsize]
  rfl

end CodeSize

/-! ### The image data of an empty raster -/

/-- The pending bits of Flush, where they do not fill the sub-block (R116). -/
theorem flushBits_eq {w : Writer} (hp : packerOk w) (hlen : w.pBuf.length < 254) :
    flushBits w = .ok () { w with
      pAcc := 0, pCnt := 0, pBuf := w.pBuf ++ lowBytes (byteCount w.pCnt) w.pAcc.toNat } := by
  obtain ⟨hcnt, hacc, -⟩ := hp
  unfold flushBits
  split
  · have hone : byteCount w.pCnt = 1 := by unfold byteCount; omega
    rw [putByte_pending _ hlen, Body.bind_ok, hone, lowBytes_one, accByte_ofNat rfl]
    rfl
  · have hcnt0 : w.pCnt = 0 := by omega
    have hacc0 : w.pAcc = 0 := BitVec.eq_of_toNat_eq (by rw [hcnt0] at hacc; simpa using hacc)
    have hnone : lowBytes (byteCount w.pCnt) w.pAcc.toNat = [] := by rw [hcnt0]; rfl
    rw [hnone, List.append_nil, ← hacc0, ← hcnt0]

/-- Flush of a sub-block that is neither empty nor full: the sub-block and the terminator (R116). -/
theorem flushPacker_eq {w : Writer} {data : List Byte} (hp : packerOk w) (hlen : w.pBuf.length < 254)
    (hdata : w.pBuf ++ lowBytes (byteCount w.pCnt) w.pAcc.toNat = data) (hne : 0 < data.length) :
    flushPacker w = (sinkBytes (BitVec.ofNat 8 data.length :: data) { w with pAcc := 0, pCnt := 0, pBuf := data }).bind
      fun _ w => sinkByte 0x00#8 { w with pBuf := [] } := by
  rw [flushPacker, flushBits_eq hp hlen, Body.bind_ok, hdata, flushSubBlock, if_pos hne, Body.bind_assoc]
  rfl

/-- Pending bytes and pending bits are the bytes of one bit string (R71). -/
theorem lowBytes_byteCount (bits v : Nat) :
    lowBytes (bits / 8) v ++ lowBytes (byteCount (bits % 8)) (v / 256 ^ (bits / 8)) = lowBytes (byteCount bits) v := by
  rw [← lowBytes_add]
  congr 1
  unfold byteCount
  omega

/-- The pending sub-block is forgotten once it is out (R116). -/
def dropBlock (w : Writer) : Writer := { w with pBuf := [] }

section EmptyRaster

variable {b : Nat} (w : Writer) (h2 : 2 ≤ b) (h8 : b ≤ 8)

include h2 h8

/-- The EOF Code of an image without pixels joins the Clear Code in the packer (R131, R132). -/
theorem writeCode_eof : writeCode (imageStarted b w).cEof.toNat (imageStarted b w).cW.toNat (imageStarted b w) =
    .ok () (packed (2 ^ b + (2 ^ b + 1) * 2 ^ (b + 1)) (b + 1 + (b + 1)) (imageRegisters b w)) := by
  obtain ⟨hpow, -, hdouble⟩ := codeSize_bounds h2 h8
  have hbuf : (imageRegisters b w).pBuf.length ≤ 254 := Nat.zero_le _
  obtain ⟨hpk, hacc⟩ : packerOk (imageStarted b w) ∧ (imageStarted b w).pAcc.toNat = 2 ^ b / 256 ^ ((b + 1) / 8) :=
    packed_packerOk hbuf (by omega) (by omega)
  have hcode : (imageStarted b w).cEof.toNat = 2 ^ b + 1 := started_eof h2 h8 w
  have hwidth : (imageStarted b w).cW.toNat = b + 1 := started_width h2 h8 w
  have hlen : (imageStarted b w).pBuf.length = (b + 1) / 8 := by rw [imageStarted_eq _ h8, lowBytes_length]
  rw [hcode, hwidth, ← packed_packed hbuf (by omega) (by omega)]
  refine writeCode_packed hpk (by omega) (by omega) rfl (by rw [hacc]; rfl) fun hfull => ?_
  have hblock := hfull.trans_eq (blockBytes_length _ _ (imageStarted b w))
  omega

/-- CompressFinish of an image without pixels: the Clear Code and the EOF Code in one sub-block, and the terminator
(R131, R132). -/
theorem compressFinish_empty {data : List Byte}
    (hdata : data = lowBytes (byteCount (2 * (b + 1))) (2 ^ b + 2 ^ (b + 1) * (2 ^ b + 1))) :
    compressFinish (imageStarted b w) =
      (sinkBytes (BitVec.ofNat 8 data.length :: data) { imageRegisters b w with pBuf := data }).bind fun _ w =>
        (sinkByte 0x00#8 (dropBlock w)).bind fun _ w => .ok () { w with cPrefix := none } := by
  obtain ⟨hpow, -, hdouble⟩ := codeSize_bounds h2 h8
  have hlast : emitLast (imageStarted b w) = .ok () (imageStarted b w) := rfl
  have hfit : 2 ^ b + (2 ^ b + 1) * 2 ^ (b + 1) < 2 ^ (b + 1 + (b + 1)) := add_shifted_lt (by omega) (by omega)
  obtain ⟨hpk, hacc⟩ := packed_packerOk (w := imageRegisters b w) (Nat.zero_le _) hfit (by omega)
  have hpend := packed_pending (w := imageRegisters b w) (v := 2 ^ b + (2 ^ b + 1) * 2 ^ (b + 1))
    (bits := b + 1 + (b + 1)) (by show 0 + (b + 1 + (b + 1)) / 8 < 255; omega)
  have hbuf := congrArg Writer.pBuf hpend
  have hlen : 0 < data.length := by rw [hdata, lowBytes_length, byteCount]; omega
  have hpending : (packed (2 ^ b + (2 ^ b + 1) * 2 ^ (b + 1)) (b + 1 + (b + 1)) (imageRegisters b w)).pBuf.length < 254 := by
    rw [hbuf]
    show (lowBytes ((b + 1 + (b + 1)) / 8) _).length < 254
    rw [lowBytes_length]
    omega
  rw [compressFinish, hlast, Body.bind_ok, writeCode_eof w h2 h8, Body.bind_ok,
    flushPacker_eq (data := data) hpk hpending ?_ hlen, Body.bind_assoc, hpend]
  · rfl
  · rw [hacc, hbuf, hdata, Nat.two_mul, Nat.mul_comm (2 ^ (b + 1))]
    exact lowBytes_byteCount (b + 1 + (b + 1)) _

/-- An image without pixels is written whole when it is opened (R132, R177). -/
theorem imageOpened_empty {data : List Byte} (hraster : rasterLength w.imgW w.imgH = 0#32)
    (hdata : data = lowBytes (byteCount (2 * (b + 1))) (2 ^ b + 2 ^ (b + 1) * (2 ^ b + 1))) :
    imageOpened b w =
      (sinkBytes (BitVec.ofNat 8 data.length :: data) { imageRegisters b w with pBuf := data }).bind fun _ w =>
        (sinkByte 0x00#8 (dropBlock w)).bind fun _ w => .ok () { w with cPrefix := none, state := .top } := by
  rw [imageOpened, if_pos hraster, compressFinish_empty w h2 h8 hdata, Body.bind_assoc]
  simp only [Body.bind_assoc, Body.bind_ok]

end EmptyRaster

/-! ### The command -/

/-- `w` with the registers of the image described by `d4` to `d8` and the DIN bytes `more` left (R175, R176). -/
def described (d4 d5 d6 d7 d8 : Byte) (bpp : Nat) (more : List Byte) (w : Writer) : Writer :=
  { w with imgW := d5 ++ d4, imgH := d7 ++ d6, imgPacked := d8 &&& 0xE7#8, bpp := BitVec.ofNat 4 bpp, din := more }

/-- W_IMAGE with its bytes in DIN and a table that applies: the bytes of the descriptor and the table, then ImageStart
(R175, R177). -/
theorem exec_wImage {s : State} {d0 d1 d2 d3 d4 d5 d6 d7 d8 : Byte} {table more : List Byte} {bpp : Nat}
    (hs : s.writer.state = .top) (hgct : s.writer.gctBpp.toNat ≤ 8) (htable : table.length = tableSize d8)
    (hdin : s.writer.din = [d0, d1, d2, d3, d4, d5, d6, d7, d8] ++ table ++ more)
    (hbpp : bpp = if d8.getLsbD 7 then d8.toNat % 8 + 1 else s.writer.gctBpp.toNat) (h0 : bpp ≠ 0) :
    bpp ≤ 8 ∧ codeSizeOf (described d4 d5 d6 d7 d8 bpp more s.writer).bpp = BitVec.ofNat 4 (max bpp 2) ∧
    exec .wImage s = endWriter s
      ((sinkBytes ([0x2C#8, d0, d1, d2, d3, d4, d5, d6, d7, d8 &&& 0xE7#8] ++ table)
        (described d4 d5 d6 d7 d8 bpp more s.writer)).bind fun _ w => imageStart w) := by
  have hle : bpp ≤ 8 := by rw [hbpp]; split <;> omega
  have h8 : dinAt 8 s.writer = d8 := by rw [dinAt, hdin]; rfl
  have hlen : ([d0, d1, d2, d3, d4, d5, d6, d7, d8] ++ table).length = wImageLength s.writer := by
    rw [wImageLength, h8, tableBytes_eq_tableSize, ← htable, List.length_append]; rfl
  have htotal : s.writer.din.length = wImageLength s.writer + more.length := by
    rw [hdin, List.length_append, hlen]
  have hdepth : imageBpp d8 s.writer = BitVec.ofNat 4 bpp := by rw [imageBpp_eq, hbpp]
  have hne : BitVec.ofNat 4 bpp ≠ 0#4 := fun h => by
    have := congrArg BitVec.toNat h
    rw [BitVec.toNat_ofNat, BitVec.toNat_ofNat] at this
    omega
  have hcheck : wImageCheck s.writer = none := by
    rw [wImageCheck, if_neg (by rw [htotal, wImageLength]; omega), if_neg (by omega), h8, hdepth, if_neg hne]
  have hrun : exec .wImage s = endWriter s (wImageBody s.writer) :=
    writerCommand_runs (need := .top) (by rw [hs]; decide) hs hcheck
  rw [hrun, wImageBody, h8, hdepth, dinTake_append hdin hlen, dinDrop_append hdin hlen, setImage_append, imageBytes_append]
  exact ⟨hle, codeSizeOf_ofNat hle, rfl⟩

section ImageStart

variable {b : Nat} {w : Writer} (bytes : List Byte) (h2 : 2 ≤ b) (h8 : b ≤ 8)
  (hb : codeSizeOf w.bpp = BitVec.ofNat 4 b)

include h2 h8 hb

/-- ImageStart after bytes of which none sets the depth (R177). -/
theorem sinkBytes_imageStart : ((sinkBytes bytes w).bind fun _ w => imageStart w) =
    (sinkBytes bytes w).bind fun _ w =>
      (sinkByte (BitVec.ofNat 8 b) (setCodeSize b w)).bind fun _ w => imageOpened b w :=
  (sinkBytes_spec bytes w).bind_congr fun _ _ h =>
    imageStart_eq h2 h8 ((congrArg (codeSizeOf ·.bpp) h.1).trans hb)

/-- ImageStart after bytes that the sink accepts, the code size byte among them. -/
theorem imageStart_accepted (ha : acceptsFirst (bytes.length + 1) w) :
    ((sinkBytes bytes w).bind fun _ w => imageStart w) = imageOpened b { setCodeSize b w with
      sout := w.sout ++ (bytes ++ [BitVec.ofNat 8 b]), sinkAnswers := w.sinkAnswers.drop (bytes.length + 1) } := by
  rw [sinkBytes_imageStart bytes h2 h8 hb,
    sinkBytes_sinkByte_accepted (upd := setCodeSize b) (fun _ _ => rfl) ha]

/-- ImageStart after bytes of which the sink refuses one, the code size byte among them (R126, R177). -/
theorem imageStart_refused {k : Nat} {rest : List SinkAnswer} (hk : k < bytes.length + 1)
    (ha : w.sinkAnswers = List.replicate k .ok ++ .error :: rest) :
    ((sinkBytes bytes w).bind fun _ w => imageStart w) =
      .raise .ioError { if k < bytes.length then w else setCodeSize b w with
        sout := w.sout ++ (bytes ++ [BitVec.ofNat 8 b]).take (k + landedCount w)
        sinkAnswers := rest, draws := w.draws + 1 } := by
  rw [sinkBytes_imageStart bytes h2 h8 hb,
    sinkBytes_sinkByte_refused (upd := setCodeSize b) (fun _ _ => rfl) rfl hk ha]

end ImageStart

end Sys2Proof.Machine

open Sys2Proof Sys2Proof.Machine

/-- Settles O44: the descriptor, the table and the code size go out, and CompressStart fills no sub-block. -/
theorem wImageStarts : Obligations.WImageStarts := by
  intro s d0 d1 d2 d3 d4 d5 d6 d7 d8 table more bytes bpp b hs hgct htable hdin hbpp h0 hb hbytes
  obtain ⟨hle, hsize, hrun⟩ := exec_wImage hs hgct htable hdin hbpp h0
  rw [← hb] at hsize
  have h2 : 2 ≤ b := by omega
  have h8 : b ≤ 8 := by omega
  refine ⟨fun hw hh ha => ?_, fun k rest hk ha => ?_⟩
  · have hlen : ([0x2C#8, d0, d1, d2, d3, d4, d5, d6, d7, d8 &&& 0xE7#8] ++ table).length + 1 = 11 + table.length := by
      rw [List.length_append]; simp; omega
    have hne : rasterLength (d5 ++ d4) (d7 ++ d6) ≠ 0#32 := rasterLength_ne_zero (toNat_pos hw) (toNat_pos hh)
    rw [hrun, (imageStart_accepted _ h2 h8 hsize (hlen ▸ ha)).trans (if_neg hne), imageStarted_eq _ h8, hlen, ← hbytes]
    simp only [imageRegisters, setCodeSize, described, rowInit_eq, if_neg hh, interlaceBit_clearReserved]
    rfl
  · refine ⟨landedCount s.writer, landedCount_le _, ?_⟩
    have hlen : ([0x2C#8, d0, d1, d2, d3, d4, d5, d6, d7, d8 &&& 0xE7#8] ++ table).length = 10 + table.length := by
      rw [List.length_append]; rfl
    rw [hrun, imageStart_refused _ h2 h8 hsize (by omega) ha, hbytes, hlen]
    split <;> rfl

/-- Settles O45: the descriptor, the table and the code size go out, and CompressFinish ends the image at once. -/
theorem wImageEmptyRaster : Obligations.WImageEmptyRaster := by
  refine ⟨fun s d0 d1 d2 d3 d4 d5 d6 d7 d8 table more data bytes bpp b written hs hgct htable hdin hbpp h0 hb hempty
    hdata hbytes hwritten => ?_, by decide⟩
  obtain ⟨hle, hsize, hrun⟩ := exec_wImage hs hgct htable hdin hbpp h0
  rw [← hb] at hsize
  have h2 : 2 ≤ b := by omega
  have h8 : b ≤ 8 := by omega
  have hraster : rasterLength (d5 ++ d4) (d7 ++ d6) = 0#32 := by rw [rasterLength, hempty]
  generalize hhead : [0x2C#8, d0, d1, d2, d3, d4, d5, d6, d7, d8 &&& 0xE7#8] ++ table = head at hrun hbytes
  have hlen : head.length + 1 = 11 + table.length := by rw [← hhead, List.length_append]; simp; omega
  have hsplit : bytes = (head ++ [BitVec.ofNat 8 b]) ++ ((BitVec.ofNat 8 data.length :: data) ++ [0x00#8]) := by
    rw [hbytes]; simp
  have hstarts : acceptsFirst (head.length + 1) s.writer → exec .wImage s = endWriter s
      ((sinkBytes (BitVec.ofNat 8 data.length :: data) { written with
        state := s.writer.state, pBuf := data, sout := s.writer.sout ++ (head ++ [BitVec.ofNat 8 b])
        sinkAnswers := s.writer.sinkAnswers.drop (head.length + 1) }).bind fun _ w =>
          (sinkByte 0x00#8 (dropBlock w)).bind fun _ w => .ok () { w with cPrefix := none, state := .top }) := by
    intro ha
    rw [hrun, imageStart_accepted head h2 h8 hsize ha, imageOpened_empty _ h2 h8 hraster hdata, hwritten]
    simp only [imageRegisters, setCodeSize, described, rowInit_eq, interlaceBit_clearReserved, hraster]
    rfl
  have hlength : bytes.length = head.length + 1 + (data.length + 1 + 1) := by rw [hsplit]; simp; omega
  refine ⟨fun ha => ?_, fun k rest hlow hk ha => ?_⟩
  · rw [hlength] at ha ⊢
    obtain ⟨hfirst, hmore⟩ := acceptsFirst_add ha
    have hdrop := (List.drop_drop (i := data.length + 1 + 1) (j := head.length + 1) (l := s.writer.sinkAnswers)).symm
    rw [hstarts hfirst, sinkBytes_sinkByte_accepted (upd := dropBlock) (fun _ _ => rfl) (by exact hmore)]
    simp only [hdrop, hsplit, hwritten, ← List.append_assoc]
    rfl
  · obtain ⟨j, rfl⟩ := Nat.exists_eq_add_of_le (hlen ▸ hlow)
    have hrest : s.writer.sinkAnswers.drop (head.length + 1) = List.replicate j .ok ++ .error :: rest := by
      rw [ha, drop_replicate_append _ (Nat.le_add_right ..), Nat.add_sub_cancel_left]
    have htake : bytes.take (head.length + 1 + j + landedCount s.writer) = (head ++ [BitVec.ofNat 8 b]) ++
        ((BitVec.ofNat 8 data.length :: data) ++ [0x00#8]).take (j + landedCount s.writer) := by
      rw [hsplit, Nat.add_assoc, show head.length + 1 = (head ++ [BitVec.ofNat 8 b]).length by simp,
        List.take_length_add_append]
    rw [hstarts (acceptsFirst_of_replicate ha (Nat.le_add_right ..)), hrest,
      sinkBytes_sinkByte_refused (upd := dropBlock) (fun _ _ => rfl) rfl (k := j) (by simp; omega) rfl]
    refine ⟨landedCount s.writer, landedCount_le _, ?_⟩
    have hblock : head.length + 1 + j + 1 < bytes.length ↔ j < data.length + 1 := by omega
    simp only [htake, hwritten, hblock, List.length_cons, ← List.append_assoc]
    split <;> rfl

end

section
/-!
PROOFS. The sink's refusals (R67, R182, R193): every part of the writer does with a sink that accepts what it writes the
same as with one that accepts everything, and with a sink that refuses a byte it fails there, with the bytes before it
written. The law is proved once per way of composing parts, and then part by part.
-/

namespace Sys2Proof.Machine

/-! ### The law -/

/-- The image registers are those of `u`, and DIN has only been popped from since, or not at all where `whole` holds. -/
def ImageKept (whole : Prop) (u w : Writer) : Prop :=
  w.imgW = u.imgW ∧ w.imgH = u.imgH ∧ w.imgPacked = u.imgPacked ∧ w.bpp = u.bpp ∧ w.din <:+ u.din ∧
  (whole → w.din = u.din)

theorem ImageKept.refl {whole : Prop} (w : Writer) : ImageKept whole w w :=
  ⟨rfl, rfl, rfl, rfl, List.suffix_refl _, fun _ => rfl⟩

theorem ImageKept.trans {whole : Prop} {u v w : Writer} (h : ImageKept whole u v) (h' : ImageKept whole v w) :
    ImageKept whole u w := by
  obtain ⟨hw, hh, hpacked, hbpp, hdin, hsame⟩ := h
  obtain ⟨hw', hh', hpacked', hbpp', hdin', hsame'⟩ := h'
  exact ⟨hw'.trans hw, hh'.trans hh, hpacked'.trans hpacked, hbpp'.trans hbpp, hdin'.trans hdin,
    fun h => (hsame' h).trans (hsame h)⟩

/-- `w` with a sink that accepts everything. -/
def unrefused (w : Writer) : Writer := { w with sinkAnswers := [] }

/-- With a sink that accepts everything, `f` completes from `w` in `w'` and writes `d`; with a sink that accepts as many
bytes it does the same; and where the sink refuses byte `k` of `d` it fails with IoError, `d` written up to there, in a
state from which `w'` differs only by what comes later (R67, R182, R193). -/
structure SinkRun (whole : Prop) (f : Writer → Body Writer Unit) (w : Writer) (d : List Byte) (w' : Writer) : Prop where
  completes : f (unrefused w) = .ok () w'
  answers : w'.sinkAnswers = []
  out : w'.sout = w.sout ++ d
  draws : w'.draws = w.draws
  accepted : acceptsFirst d.length w → f w = .ok () { w' with sinkAnswers := w.sinkAnswers.drop d.length }
  refused : ∀ (k : Nat) (rest : List SinkAnswer), k < d.length →
    w.sinkAnswers = List.replicate k .ok ++ .error :: rest →
    ∃ (landed : Nat) (u : Writer), landed ≤ 1 ∧ f w = .raise .ioError u ∧ u.sout = w.sout ++ d.take (k + landed) ∧
      u.sinkAnswers = rest ∧ u.draws = w.draws + 1 ∧ ImageKept whole u w'

/-- A part of the writer that obeys the law and leaves the image registers alone. -/
def SinkLaw (whole : Prop) (f : Writer → Body Writer Unit) (w : Writer) : Prop :=
  ∃ d w', SinkRun whole f w d w' ∧ ImageKept whole w w'

/-- An update of fields that are not the sink's. -/
def LeavesSink (upd : Writer → Writer) (w : Writer) : Prop :=
  (∀ a, upd { w with sinkAnswers := a } = { upd w with sinkAnswers := a }) ∧ (upd w).sout = w.sout ∧
  (upd w).draws = w.draws

section Rules

variable {whole : Prop} {f g : Writer → Body Writer Unit} {upd : Writer → Writer} {w w' : Writer} {d : List Byte}

/-- The law looks at a part only from `w`, whatever its sink answers. -/
theorem SinkRun.congr (h : SinkRun whole f w d w')
    (hfg : ∀ a, g { w with sinkAnswers := a } = f { w with sinkAnswers := a }) : SinkRun whole g w d w' := by
  have hw : g w = f w := hfg w.sinkAnswers
  exact ⟨(hfg []).trans h.completes, h.answers, h.out, h.draws, fun ha => hw.trans (h.accepted ha),
    fun k rest hk ha => by rw [hw]; exact h.refused k rest hk ha⟩

theorem SinkLaw.congr (h : SinkLaw whole f w)
    (hfg : ∀ a, g { w with sinkAnswers := a } = f { w with sinkAnswers := a }) : SinkLaw whole g w := by
  obtain ⟨d, w', hrun, hkept⟩ := h
  exact ⟨d, w', hrun.congr hfg, hkept⟩

/-- Fields that are not the sink's may be set before. -/
theorem SinkRun.after (h : SinkRun whole f (upd w) d w')
    (hupd : LeavesSink upd w) :
    SinkRun whole (fun w => f (upd w)) w d w' := by
  obtain ⟨hset, hout, hdraws⟩ := hupd
  have hsame : upd w = { upd w with sinkAnswers := w.sinkAnswers } := hset w.sinkAnswers
  have hans : (upd w).sinkAnswers = w.sinkAnswers := by
    have := congrArg Writer.sinkAnswers hsame
    exact this
  refine ⟨?_, h.answers, by rw [h.out, hout], by rw [h.draws, hdraws], fun ha => ?_, fun k rest hk ha => ?_⟩
  · exact (congrArg f (hset [])).trans h.completes
  · rw [h.accepted (by rw [acceptsFirst, hans]; exact ha), hans]
  · have := h.refused k rest hk (hans.trans ha)
    rwa [hout, hdraws] at this

theorem SinkLaw.after (h : SinkLaw whole f (upd w))
    (hupd : LeavesSink upd w) (hkept : ImageKept whole w (upd w)) :
    SinkLaw whole (fun w => f (upd w)) w := by
  obtain ⟨d, w', hrun, hkept'⟩ := h
  exact ⟨d, w', hrun.after hupd, hkept.trans hkept'⟩

/-- A part that only sets such fields writes nothing. -/
theorem SinkLaw.sets (hupd : LeavesSink upd w) (hkept : ImageKept whole w (upd w)) :
    SinkLaw whole (fun w => .ok () (upd w)) w := by
  obtain ⟨hset, hout, hdraws⟩ := hupd
  refine ⟨[], unrefused (upd w), ⟨congrArg _ (hset []), rfl, by simp [unrefused, hout], hdraws, fun _ => ?_,
    fun k rest hk => absurd hk (Nat.not_lt_zero k)⟩, hkept⟩
  exact congrArg _ (hset w.sinkAnswers)

/-- Parts compose. -/
theorem SinkLaw.bind (hf : SinkLaw whole f w) (hg : ∀ w, SinkLaw whole g w) :
    SinkLaw whole (fun w => (f w).bind fun _ w => g w) w := by
  obtain ⟨d1, w1, h1, k1⟩ := hf
  obtain ⟨d2, w2, h2, k2⟩ := hg { w1 with sinkAnswers := w.sinkAnswers.drop d1.length }
  have hw1 : unrefused { w1 with sinkAnswers := w.sinkAnswers.drop d1.length } = w1 := by
    rw [unrefused, ← h1.answers]
  refine ⟨d1 ++ d2, w2, ⟨?_, h2.answers, ?_, h2.draws.trans h1.draws, fun ha => ?_, fun k rest hk ha => ?_⟩, k1.trans k2⟩
  · rw [h1.completes, Body.bind_ok, ← hw1, h2.completes]
  · rw [h2.out, ← List.append_assoc, ← h1.out]
  · rw [List.length_append] at ha ⊢
    obtain ⟨ha1, ha2⟩ := acceptsFirst_add ha
    rw [h1.accepted ha1, Body.bind_ok, h2.accepted ha2, List.drop_drop]
  · rw [List.length_append] at hk
    by_cases hlt : k < d1.length
    · obtain ⟨landed, u, hl, hu, hout, hans, hdraws, hkept⟩ := h1.refused k rest hlt ha
      refine ⟨landed, u, hl, by rw [hu, Body.bind_raise], ?_, hans, hdraws, hkept.trans k2⟩
      rw [hout, List.take_append_of_le_length (by omega)]
    · obtain ⟨j, rfl⟩ := Nat.exists_eq_add_of_le (Nat.le_of_not_lt hlt)
      have hrest : w.sinkAnswers.drop d1.length = List.replicate j .ok ++ .error :: rest := by
        rw [ha, drop_replicate_append _ (Nat.le_add_right ..), Nat.add_sub_cancel_left]
      obtain ⟨landed, u, hl, hu, hout, hans, hdraws, hkept⟩ := h2.refused j rest (by omega) hrest
      refine ⟨landed, u, hl, ?_, ?_, hans, ?_, hkept⟩
      · rw [h1.accepted (acceptsFirst_of_replicate ha (Nat.le_add_right ..)), Body.bind_ok, hu]
      · rw [hout, Nat.add_assoc, List.take_length_add_append, ← List.append_assoc, ← h1.out]
      · rw [hdraws, ← h1.draws]

end Rules

end Sys2Proof.Machine

end

section
/-!
PROOFS. The law of the sink's refusals, part by part of the writer and command by command, and what it says of a whole
command (R182, R193).
-/

namespace Sys2Proof.Machine

/-! ### The packer -/

section Parts

variable {whole : Prop}

theorem sinkBytes_law (bs : List Byte) (w : Writer) : SinkLaw whole (sinkBytes bs) w := by
  refine ⟨bs, { w with sout := w.sout ++ bs, sinkAnswers := [] }, ⟨?_, rfl, rfl, rfl, fun ha => ?_,
    fun k rest hk ha => ?_⟩, ImageKept.refl w⟩
  · rw [sinkBytes_acceptsFirst bs (unrefused w) (by simp [acceptsFirst, unrefused]), unrefused, List.drop_nil]
  · rw [sinkBytes_acceptsFirst bs w ha]
  · exact ⟨landedCount w, _, landedCount_le w, sinkBytes_refused bs k w rest hk ha, rfl, rfl, rfl, ImageKept.refl w⟩

theorem sinkByte_law (b : Byte) (w : Writer) : SinkLaw whole (sinkByte b) w :=
  (sinkBytes_law [b] w).congr fun _ => (sinkBytes_singleton b _).symm

theorem sinkSubBlock_law (bs : List Byte) (w : Writer) : SinkLaw whole (sinkSubBlock bs) w :=
  sinkBytes_law (BitVec.ofNat 8 bs.length :: bs) w

/-- The pending sub-block goes out and is forgotten (R115, R116). -/
theorem sinkPending_law (w : Writer) :
    SinkLaw whole (fun w => (sinkSubBlock w.pBuf w).bind fun _ w => .ok () (dropBlock w)) w :=
  SinkLaw.bind ((sinkSubBlock_law w.pBuf w).congr (g := fun w => sinkSubBlock w.pBuf w) fun _ => rfl) fun w =>
    .sets ⟨fun _ => rfl, rfl, rfl⟩ (ImageKept.refl w)

theorem putByte_law (x : Byte) (w : Writer) : SinkLaw whole (putByte x) w := by
  by_cases hfull : (w.pBuf ++ [x]).length = Config.subBlockMax
  · have h := (sinkPending_law (whole := whole) { w with pBuf := w.pBuf ++ [x] }).after
      (upd := fun w => { w with pBuf := w.pBuf ++ [x] }) ⟨fun _ => rfl, rfl, rfl⟩ (ImageKept.refl w)
    exact h.congr fun _ => if_pos hfull
  · have h : SinkLaw whole (fun w => .ok () { w with pBuf := w.pBuf ++ [x] }) w :=
      .sets ⟨fun _ => rfl, rfl, rfl⟩ (ImageKept.refl w)
    exact h.congr fun _ => if_neg hfull

theorem packBytes_law (n : Nat) : ∀ w : Writer, SinkLaw whole (packBytes n) w := by
  induction n with
  | zero => exact fun w => .sets (upd := id) ⟨fun _ => rfl, rfl, rfl⟩ (ImageKept.refl w)
  | succ n ih =>
    intro w
    by_cases h8 : 8 ≤ w.pCnt
    · have hput := (putByte_law (whole := whole) (accByte w.pAcc) w).congr (g := fun w => putByte (accByte w.pAcc) w)
        fun _ => rfl
      refine (hput.bind fun w => ?_).congr fun _ => if_pos h8
      exact (ih _).after (upd := fun w => { w with pAcc := w.pAcc >>> 8, pCnt := w.pCnt - 8 })
        ⟨fun _ => rfl, rfl, rfl⟩ (ImageKept.refl w)
    · exact (SinkLaw.sets (upd := id) ⟨fun _ => rfl, rfl, rfl⟩ (ImageKept.refl w)).congr fun _ => if_neg h8

theorem writeCode_law (c width : Nat) (w : Writer) : SinkLaw whole (writeCode c width) w := by
  have h := (packBytes_law (whole := whole) (w.pCnt + width) _).after (w := w)
    (upd := fun w => { w with
      pAcc := w.pAcc ||| (BitVec.ofNat 19 (c % 2 ^ width) <<< w.pCnt), pCnt := w.pCnt + width })
    ⟨fun _ => rfl, rfl, rfl⟩ (ImageKept.refl w)
  exact h.congr fun _ => rfl

theorem flushBits_law (w : Writer) : SinkLaw whole flushBits w := by
  by_cases h0 : 0 < w.pCnt
  · have hput := (putByte_law (whole := whole) (accByte w.pAcc) w).congr (g := fun w => putByte (accByte w.pAcc) w)
      fun _ => rfl
    refine (hput.bind fun w => ?_).congr fun _ => if_pos h0
    exact .sets (upd := fun w => { w with pAcc := 0#19, pCnt := 0 }) ⟨fun _ => rfl, rfl, rfl⟩ (ImageKept.refl w)
  · exact (SinkLaw.sets (upd := id) ⟨fun _ => rfl, rfl, rfl⟩ (ImageKept.refl w)).congr fun _ => if_neg h0

theorem flushSubBlock_law (w : Writer) : SinkLaw whole flushSubBlock w := by
  by_cases h0 : 0 < w.pBuf.length
  · exact (sinkPending_law w).congr fun _ => if_pos h0
  · exact (SinkLaw.sets (upd := id) ⟨fun _ => rfl, rfl, rfl⟩ (ImageKept.refl w)).congr fun _ => if_neg h0

theorem flushPacker_law (w : Writer) : SinkLaw whole flushPacker w :=
  (flushBits_law w).bind fun w => (flushSubBlock_law w).bind fun w => sinkByte_law 0x00#8 w

/-! ### The compressor -/

/-- WriteCode of a code and a width that the writer holds. -/
theorem writeCode_held_law (code width : Writer → Nat) (w : Writer)
    (hcode : ∀ a, code { w with sinkAnswers := a } = code w)
    (hwidth : ∀ a, width { w with sinkAnswers := a } = width w) :
    SinkLaw whole (fun w => writeCode (code w) (width w) w) w :=
  (writeCode_law (code w) (width w) w).congr fun a => by rw [hcode, hwidth]

theorem checkExhausted_law (w : Writer) : SinkLaw whole checkExhausted w := by
  by_cases hfull : w.cFree.toNat = Config.dictCodes
  · refine ((writeCode_held_law (·.cClear.toNat) (·.cW.toNat) w (fun _ => rfl) fun _ => rfl).bind fun w => ?_).congr
      fun _ => if_pos hfull
    exact .sets (upd := resetDict) ⟨fun _ => rfl, rfl, rfl⟩ (ImageKept.refl w)
  · exact (SinkLaw.sets (upd := id) ⟨fun _ => rfl, rfl, rfl⟩ (ImageKept.refl w)).congr fun _ => if_neg hfull

theorem emitAndInsert_law (q : Code) (p : Byte) (w : Writer) : SinkLaw whole (emitAndInsert q p) w :=
  (writeCode_held_law (fun _ => q.toNat) (·.cW.toNat) w (fun _ => rfl) fun _ => rfl).bind fun w =>
    (checkExhausted_law _).after (upd := insertPair q p) ⟨fun _ => rfl, rfl, rfl⟩ (ImageKept.refl w)

theorem compressPixel_law (p : Byte) (w : Writer) : SinkLaw whole (compressPixel p) w := by
  cases hq : w.cPrefix with
  | none =>
    exact (SinkLaw.sets (upd := fun w => { w with cPrefix := some (p.setWidth 12) }) ⟨fun _ => rfl, rfl, rfl⟩
      (ImageKept.refl w)).congr fun _ => by rw [compressPixel]; simp only [hq]
  | some q =>
    cases hl : dictLookup w.cDict q p with
    | none => exact (emitAndInsert_law q p w).congr fun _ => by rw [compressPixel]; simp only [hq, hl]
    | some c =>
      exact (SinkLaw.sets (upd := fun w => { w with cPrefix := some c }) ⟨fun _ => rfl, rfl, rfl⟩
        (ImageKept.refl w)).congr fun _ => by rw [compressPixel]; simp only [hq, hl]

theorem emitLast_law (w : Writer) : SinkLaw whole emitLast w := by
  cases hq : w.cPrefix with
  | none =>
    exact (SinkLaw.sets (upd := id) ⟨fun _ => rfl, rfl, rfl⟩ (ImageKept.refl w)).congr fun _ => by
      rw [emitLast]; simp only [hq]; rfl
  | some q =>
    refine ((writeCode_held_law (fun _ => q.toNat) (·.cW.toNat) w (fun _ => rfl) fun _ => rfl).bind fun w => ?_).congr
      (f := fun w => (writeCode q.toNat w.cW.toNat w).bind fun _ w => .ok () { w with cW := grownWidth w.cFree w.cW })
      fun _ => by rw [emitLast]; simp only [hq]
    exact .sets ⟨fun _ => rfl, rfl, rfl⟩ (ImageKept.refl w)

theorem compressFinish_law (w : Writer) : SinkLaw whole compressFinish w :=
  (emitLast_law w).bind fun w =>
    (writeCode_held_law (·.cEof.toNat) (·.cW.toNat) w (fun _ => rfl) fun _ => rfl).bind fun w =>
      (flushPacker_law w).bind fun w =>
        .sets (upd := fun w => { w with cPrefix := none }) ⟨fun _ => rfl, rfl, rfl⟩ (ImageKept.refl w)

/-- The end of a body that finishes the image once no pixel is left (R177, R179). -/
theorem finishIf_law {upd : Writer → Writer} (hupd : ∀ w, LeavesSink upd w)
    (hkept : ∀ w, ImageKept whole w (upd w)) (w : Writer) :
    SinkLaw whole (fun w => if w.pixRemain = 0#32 then
      (compressFinish w).bind fun _ w => .ok () { w with state := .top } else .ok () (upd w)) w := by
  by_cases h0 : w.pixRemain = 0#32
  · refine SinkLaw.congr ((compressFinish_law w).bind fun w => ?_) fun _ => if_pos h0
    exact .sets ⟨fun _ => rfl, rfl, rfl⟩ (ImageKept.refl w)
  · exact (SinkLaw.sets (hupd w) (hkept w)).congr fun _ => if_neg h0

theorem compressStart_law (w : Writer) : SinkLaw whole (fun w => compressStart w.bpp w) w := by
  have hbyte := ((sinkByte_law (whole := whole) ((codeSizeOf w.bpp).setWidth 8)
    { w with bpp := w.bpp, cB := codeSizeOf w.bpp }).after
    (upd := fun w => { w with bpp := w.bpp, cB := codeSizeOf w.bpp })
    ⟨fun _ => rfl, rfl, rfl⟩ (ImageKept.refl w)).congr
    (g := fun w => sinkByte ((codeSizeOf w.bpp).setWidth 8) { w with bpp := w.bpp, cB := codeSizeOf w.bpp })
    fun _ => rfl
  exact hbyte.bind fun w =>
    (writeCode_held_law (·.cClear.toNat) (·.cW.toNat) _ (fun _ => rfl) fun _ => rfl).after (w := w)
      (upd := fun w => { resetDict (startPacker (setCodeSpace w)) with cPrefix := none })
      ⟨fun _ => rfl, rfl, rfl⟩ (ImageKept.refl w)

/-! ### The bodies -/

theorem imageStart_law (w : Writer) : SinkLaw whole imageStart w := by
  refine (compressStart_law w).bind fun w => ?_
  refine SinkLaw.after (upd := fun w => { w with
      codeSize := w.cB.setWidth 8, pixRemain := rasterLength w.imgW w.imgH
      rows := rowInit w.imgW w.imgH (interlaceBit w.imgPacked) })
    (f := fun w => if w.pixRemain = 0#32 then (compressFinish w).bind fun _ w => .ok () { w with state := .top }
      else .ok () { w with state := .pixels }) ?_ ⟨fun _ => rfl, rfl, rfl⟩ (ImageKept.refl w)
  exact finishIf_law (upd := fun w => { w with state := .pixels }) (fun _ => ⟨fun _ => rfl, rfl, rfl⟩) ImageKept.refl _

/-- Pixels that leave DIN one by one (R179). -/
theorem compressPixels_law (hpops : ¬ whole) (ps : List Byte) : ∀ w : Writer, SinkLaw whole (compressPixels ps) w := by
  induction ps with
  | nil => exact fun w => .sets (upd := id) ⟨fun _ => rfl, rfl, rfl⟩ (ImageKept.refl w)
  | cons p ps ih =>
    intro w
    have hpop : SinkLaw whole (fun w => compressPixel p (dinDrop 1 w)) w :=
      (compressPixel_law p _).after ⟨fun _ => rfl, rfl, rfl⟩
        ⟨rfl, rfl, rfl, rfl, List.drop_suffix 1 w.din, fun h => absurd h hpops⟩
    exact hpop.bind fun w => (ih _).after (upd := countPixel) ⟨fun _ => rfl, rfl, rfl⟩ (ImageKept.refl w)

theorem wPixelsBody_law (hpops : ¬ whole) (n : Nat) (w : Writer) : SinkLaw whole (wPixelsBody n) w := by
  by_cases h0 : n = 0
  · exact (SinkLaw.sets (upd := id) ⟨fun _ => rfl, rfl, rfl⟩ (ImageKept.refl w)).congr fun _ => if_pos h0
  · refine (((compressPixels_law hpops (dinTake n w) w).congr (g := fun w => compressPixels (dinTake n w) w)
      fun _ => rfl).bind fun w => ?_).congr fun _ => if_neg h0
    exact finishIf_law (upd := id) (fun _ => ⟨fun _ => rfl, rfl, rfl⟩) ImageKept.refl w

theorem wExtBody_law (imm8 : Byte) (w : Writer) : SinkLaw whole (wExtBody imm8) w :=
  (sinkByte_law 0x21#8 w).bind fun w => (sinkByte_law imm8 w).bind fun w =>
    .sets (upd := fun w => { w with state := .extData }) ⟨fun _ => rfl, rfl, rfl⟩ (ImageKept.refl w)

theorem wExtEndBody_law (w : Writer) : SinkLaw whole wExtEndBody w :=
  (sinkByte_law 0x00#8 w).bind fun w =>
    .sets (upd := fun w => { w with state := .top }) ⟨fun _ => rfl, rfl, rfl⟩ (ImageKept.refl w)

theorem wTrailerBody_law (w : Writer) : SinkLaw whole wTrailerBody w :=
  (sinkByte_law 0x3B#8 w).bind fun w =>
    .sets (upd := fun w => { w with state := .done }) ⟨fun _ => rfl, rfl, rfl⟩ (ImageKept.refl w)

/-- A body obeys the law; the fields it sets before its first byte need not be those of `w`. -/
def BodyLaw (whole : Prop) (body : Writer → Body Writer Unit) (w : Writer) : Prop := ∃ d w', SinkRun whole body w d w'

theorem SinkLaw.body {f : Writer → Body Writer Unit} {w : Writer} (h : SinkLaw whole f w) : BodyLaw whole f w := by
  obtain ⟨d, w', hrun, -⟩ := h
  exact ⟨d, w', hrun⟩

/-- A body that first pops its bytes from DIN and sets registers. -/
theorem SinkLaw.body_after {f g : Writer → Body Writer Unit} {upd : Writer → Writer} {w : Writer}
    (h : SinkLaw whole f (upd w)) (hupd : LeavesSink upd w)
    (hfg : ∀ a, g { w with sinkAnswers := a } = f (upd { w with sinkAnswers := a })) : BodyLaw whole g w := by
  obtain ⟨d, w', hrun, -⟩ := h
  exact ⟨d, w', (hrun.after hupd).congr hfg⟩

theorem wOpenBody_law (v89a : BitVec 1) (w : Writer) : BodyLaw whole (wOpenBody v89a) w := by
  refine SinkLaw.body_after (upd := dinDrop (wOpenLength w)) (f := fun w' => (sinkBytes (signatureOf v89a) w').bind
    fun _ w' => (sinkBytes (dinTake (wOpenLength w) w) w').bind fun _ w' => .ok () { w' with
      version := v89a, gctBpp := tableBpp (byteOf (dinTake (wOpenLength w) w) 4), state := .top })
    ?_ ⟨fun _ => rfl, rfl, rfl⟩ fun _ => rfl
  exact (sinkBytes_law _ _).bind fun w' => (sinkBytes_law _ w').bind fun w' =>
    .sets ⟨fun _ => rfl, rfl, rfl⟩ (ImageKept.refl w')

theorem wExtBlockBody_law (imm8 : Byte) (w : Writer) : BodyLaw whole (wExtBlockBody imm8) w :=
  SinkLaw.body_after (upd := dinDrop imm8.toNat) (sinkBytes_law (imm8 :: dinTake imm8.toNat w) _)
    ⟨fun _ => rfl, rfl, rfl⟩ fun _ => rfl

theorem wImageBody_law (w : Writer) : BodyLaw whole wImageBody w := by
  refine SinkLaw.body_after
    (upd := fun w => setImage (dinTake (wImageLength w) w) (imageBpp (dinAt 8 w) w) (dinDrop (wImageLength w) w))
    (f := fun w' => (sinkBytes (imageBytes (dinTake (wImageLength w) w)) w').bind fun _ w' => imageStart w')
    ?_ ⟨fun _ => rfl, rfl, rfl⟩ fun _ => rfl
  exact (sinkBytes_law _ _).bind fun w' => imageStart_law w'

end Parts

/-! ### The commands -/

/-- Every writer command is checks that do not look at the sink and a body that obeys the law, in the writer's frame; only
W_PIXELS pops bytes from DIN between bytes that go out (R179). -/
theorem exec_sinkLaw {i : Instr} (hi : i.isWriter = true) :
    ∃ need check body, (∀ s, exec i s = writerCommand need check body s) ∧
      (∀ w a, check { w with sinkAnswers := a } = check w) ∧ ∀ w, BodyLaw (∀ count, i ≠ .wPixels count) body w := by
  cases i
  case wOpen v89a => exact ⟨.idle, wOpenCheck, wOpenBody v89a, fun _ => rfl, fun _ _ => rfl, wOpenBody_law v89a⟩
  case wExt imm8 =>
    exact ⟨.top, noCheck, wExtBody imm8, fun _ => rfl, fun _ _ => rfl, fun w => (wExtBody_law imm8 w).body⟩
  case wExtBlock imm8 =>
    exact ⟨.extData, wExtBlockCheck imm8.toNat, wExtBlockBody imm8, fun _ => rfl, fun _ _ => rfl, wExtBlockBody_law imm8⟩
  case wExtEnd =>
    exact ⟨.extData, noCheck, wExtEndBody, fun _ => rfl, fun _ _ => rfl, fun w => (wExtEndBody_law w).body⟩
  case wImage => exact ⟨.top, wImageCheck, wImageBody, fun _ => rfl, fun _ _ => rfl, wImageBody_law⟩
  case wPixels count =>
    exact ⟨.pixels, wPixelsCheck count.toNat, wPixelsBody count.toNat, fun _ => rfl, fun _ _ => rfl,
      fun w => (wPixelsBody_law (fun h => h count rfl) count.toNat w).body⟩
  case wTrailer =>
    exact ⟨.top, noCheck, wTrailerBody, fun _ => rfl, fun _ _ => rfl, fun w => (wTrailerBody_law w).body⟩
  all_goals nomatch hi

/-- What a command does with its own sink, compared with its end `t` with a sink that accepts everything, where it writes
`d`: the same as far as `d` is accepted, and a failure at the byte of `d` that is refused (R67, R182, R193). -/
def FollowsSink (whole : Prop) (run : State → Host.Outcome State Fault Refusal) (s t : State) (d : List Byte) : Prop :=
  (acceptsFirst d.length s.writer →
    run s = .next { t with writer := { t.writer with sinkAnswers := s.writer.sinkAnswers.drop d.length } }) ∧
  ∀ (k : Nat) (rest : List SinkAnswer), k < d.length →
    s.writer.sinkAnswers = List.replicate k .ok ++ .error :: rest →
    ∃ (landed : Nat) (u : Writer), landed ≤ 1 ∧
      run s = .next { s with last := .ioError, writer := failWriter .ioError u } ∧
      u.sout = s.writer.sout ++ d.take (k + landed) ∧ u.sinkAnswers = rest ∧ u.draws = s.writer.draws + 1 ∧
      ImageKept whole u t.writer

/-- A writer command that takes the writer into W_FAILED has had a byte refused (R193). -/
theorem failed_of_exec_writer {i : Instr} {s t : State} (hs : s.writer.state ≠ .failed) (ht : exec i s = .next t)
    (hfail : t.writer.state = .failed) :
    ∃ w, t = { s with writer := failWriter .ioError w, last := .ioError } ∧ SinkFails s.writer .ioError w := by
  cases exec_ends ht with
  | writerFails w _ _ _ h => exact ⟨w, rfl, h⟩
  | writerDone w _ _ hw => exact absurd hfail hw
  | reset sel => exact absurd hfail (resetWriter_stands _ hs)
  | rejected | readerDone | readerFails => exact absurd hfail hs

/-- RESET leaves SOUT to the environment (R184). -/
theorem resetWriter_out (b : Bool) (w : Writer) : (if b then resetWriter w else w).sout = w.sout := by
  cases b <;> rfl

section Command

variable {whole : Prop} {need : WState} {check : Writer → Option Status} {body : Writer → Body Writer Unit} {s t : State}
  {d : List Byte}

/-- A rejection writes nothing, whatever the sink answers (R192). -/
theorem followsSink_rejected {run : State → Host.Outcome State Fault Refusal} (e : Status)
    (ht : t = rejectWith e { s with writer := unrefused s.writer }) (hd : t.writer.sout = s.writer.sout ++ d)
    (hrun : run s = .next (rejectWith e s)) : FollowsSink whole run s t d := by
  subst ht
  obtain rfl : d = [] := List.self_eq_append_right.1 hd
  exact ⟨fun _ => hrun, fun k rest hk => absurd hk (Nat.not_lt_zero k)⟩

/-- A writer command follows its sink where its body obeys the law. -/
theorem writerCommand_followsSink (hcheck : ∀ w a, check { w with sinkAnswers := a } = check w)
    (hbody : BodyLaw whole body s.writer)
    (ht : writerCommand need check body { s with writer := unrefused s.writer } = .next t)
    (hd : t.writer.sout = s.writer.sout ++ d) : FollowsSink whole (writerCommand need check body) s t d := by
  have hcheck0 : check (unrefused s.writer) = check s.writer := hcheck s.writer []
  obtain ⟨hf, hx⟩ | ⟨hf, hn, hx⟩ | ⟨hf, hn, e, hc, hx⟩ | ⟨hf, hn, hc, hx⟩ :=
    writerCommand_cases need check body { s with writer := unrefused s.writer }
  · exact followsSink_rejected _ (Host.Outcome.next.inj (ht.symm.trans hx)) hd (writerCommand_failed hf)
  · exact followsSink_rejected _ (Host.Outcome.next.inj (ht.symm.trans hx)) hd (writerCommand_sequence hf hn)
  · exact followsSink_rejected _ (Host.Outcome.next.inj (ht.symm.trans hx)) hd
      (writerCommand_rejected hf hn (hcheck0.symm.trans hc))
  · have hrun : writerCommand need check body s = endWriter s (body s.writer) :=
      writerCommand_runs hf hn (hcheck0.symm.trans hc)
    obtain ⟨d', w', hlaw⟩ := hbody
    rw [hx, hlaw.completes] at ht
    obtain rfl := Host.Outcome.next.inj ht
    obtain rfl : d' = d := List.append_cancel_left (hlaw.out.symm.trans hd)
    refine ⟨fun ha => ?_, fun k rest hk ha => ?_⟩
    · rw [hrun, hlaw.accepted ha]
      rfl
    · obtain ⟨landed, u, hl, hu, h⟩ := hlaw.refused k rest hk ha
      exact ⟨landed, u, hl, by rw [hrun, hu]; rfl, h⟩

end Command

end Sys2Proof.Machine

open Sys2Proof Sys2Proof.Machine

/-- Settles O51: a writer command fails only where its body does, and every body obeys the law of the sink's refusals. -/
theorem sinkErrorFails : Obligations.SinkErrorFails := by
  refine ⟨fun i s t hi hs ht hfail => ?_, fun i s t hi ha hs ht hfail => ?_, fun i s t d hi ht hd => ?_,
    fun i s t hs ht => ?_⟩
  · obtain ⟨w, rfl, hrefused⟩ := failed_of_exec_writer hs ht hfail
    obtain ⟨-, hout, hdraws, herror, -, -⟩ := hrefused
    exact ⟨rfl, rfl, herror, hout, hdraws⟩
  · obtain ⟨w, rfl, hrefused⟩ := failed_of_exec_writer hs ht hfail
    obtain ⟨-, -, -, herror, -, -⟩ := hrefused
    exact absurd (ha _ herror) (by decide)
  · obtain ⟨need, check, body, hexec, hcheck, hbody⟩ := exec_sinkLaw hi
    rw [hexec] at ht ⊢
    obtain ⟨hok, hfail⟩ := writerCommand_followsSink hcheck (hbody s.writer) ht hd
    refine ⟨hok, fun k rest hk ha => ?_⟩
    obtain ⟨landed, u, hl, hrun, hout, hans, hdraws, hw, hh, hpacked, hbpp, hdin, hsame⟩ := hfail k rest hk ha
    exact ⟨landed, _, hl, hrun, rfl, rfl, rfl, hout, hans, hdraws, hw.symm, hh.symm, hpacked.symm, hbpp.symm, hdin,
      fun h => (hsame h).symm⟩
  · cases exec_ends ht with
    | reset sel => exact resetWriter_out _ _
    | writerDone _ _ hf | writerFails _ _ hf => exact absurd hs hf
    | rejected | readerDone | readerFails => rfl

end

section
/-!
PROOFS. The decoder and the encoder against each other (R84 to R89, R109): a word is its opcode and its operand, each
format admits the operands that fit its field, and a word decodes to a command exactly where opcode and operand are that
command's.
-/

namespace Sys2Proof

open Machine

/-! ### A word as opcode and operand -/

theorem fieldOp_eq (w : Word) : fieldOp w = w.toNat / 2 ^ 24 := by
  rw [fieldOp, BitVec.extractLsb'_toNat, Nat.shiftRight_eq_div_pow]
  exact Nat.mod_eq_of_lt (by have := w.isLt; omega)

theorem fieldCount_toNat (w : Word) : (fieldCount w).toNat = w.toNat % 2 ^ 24 := by
  rw [fieldCount, BitVec.extractLsb'_toNat, Nat.shiftRight_zero]

theorem encode_toNat (i : Instr) : (encode i).toNat = opcode i * 2 ^ 24 + operand i := by
  cases i
  case reset sel => exact Laws.EncodeOpcode.reset sel
  case rPixels count => exact Laws.EncodeOpcode.rPixels count
  case wOpen v89a => exact Laws.EncodeOpcode.wOpen v89a
  case wExt imm8 => exact Laws.EncodeOpcode.wExt imm8
  case wExtBlock imm8 => exact Laws.EncodeOpcode.wExtBlock imm8
  case wPixels count => exact Laws.EncodeOpcode.wPixels count
  all_goals rfl

theorem operand_lt (i : Instr) : operand i < 2 ^ 24 := by
  cases i <;> simp only [operand] <;> omega

/-- A command's word is the one with its opcode and its operand (R84). -/
theorem encode_eq_iff {i : Instr} {w : Word} :
    encode i = w ↔ opcode i = fieldOp w ∧ operand i = (fieldCount w).toNat := by
  have henc := encode_toNat i
  have hlt := operand_lt i
  have hw : encode i = w ↔ (encode i).toNat = w.toNat := BitVec.toNat_inj.symm
  rw [hw, fieldOp_eq, fieldCount_toNat]
  omega

/-! ### The operands of each format -/

/-- The must-be-zero bits above a field of `k` bits are 0, and the field is `v`, exactly where the operand is `v`. -/
theorem operand_eq_iff {k : Nat} (hk : k ≤ 24) (w : Word) (v : BitVec k) :
    (w.extractLsb' k (24 - k) = 0#(24 - k) ∧ w.extractLsb' 0 k = v) ↔ (fieldCount w).toNat = v.toNat := by
  have hsplit : w.toNat / 2 ^ k % 2 ^ (24 - k) = w.toNat % 2 ^ 24 / 2 ^ k := by
    rw [← Nat.mod_mul_right_div_self, ← Nat.pow_add, Nat.add_sub_cancel' hk]
  have hlow : w.toNat % 2 ^ 24 % 2 ^ k = w.toNat % 2 ^ k := Nat.mod_mod_of_dvd _ (Nat.pow_dvd_pow 2 hk)
  rw [← BitVec.toNat_inj, ← BitVec.toNat_inj, BitVec.extractLsb'_toNat, BitVec.extractLsb'_toNat, fieldCount_toNat,
    Nat.shiftRight_eq_div_pow, Nat.shiftRight_zero, hsplit, BitVec.toNat_ofNat, Nat.zero_mod, ← hlow,
    Nat.div_eq_zero_iff_lt (Nat.two_pow_pos k)]
  constructor
  · rintro ⟨hfit, hv⟩
    rw [← hv, Nat.mod_eq_of_lt hfit]
  · intro hv
    rw [hv]
    exact ⟨v.isLt, Nat.mod_eq_of_lt v.isLt⟩

section Formats

variable {w : Word} {j : Instr}

theorem formatN_eq_instr {i : Instr} : formatN w i = .instr j ↔ (fieldCount w).toNat = 0 ∧ i = j := by
  have hzero : w.extractLsb' 0 24 = 0#24 ↔ (fieldCount w).toNat = 0 := BitVec.toNat_inj.symm
  unfold formatN
  simp only [hzero]
  split <;> simp [*]

theorem formatB_eq_instr {i : Byte → Instr} :
    formatB w i = .instr j ↔ ∃ v : Byte, (fieldCount w).toNat = v.toNat ∧ i v = j := by
  simp only [← operand_eq_iff (k := 8) (by decide)]
  unfold formatB
  split <;> simp [*, fieldImm8]

theorem formatC_eq_instr {i : BitVec 24 → Instr} :
    formatC w i = .instr j ↔ ∃ v : BitVec 24, (fieldCount w).toNat = v.toNat ∧ i v = j := by
  simp [formatC, BitVec.toNat_inj]

theorem formatV_eq_instr {i : BitVec 1 → Instr} :
    formatV w i = .instr j ↔ ∃ v : BitVec 1, (fieldCount w).toNat = v.toNat ∧ i v = j := by
  simp only [← operand_eq_iff (k := 1) (by decide)]
  unfold formatV
  split <;> simp [*, fieldV89a]

theorem formatS_eq_instr {i : BitVec 2 → Instr} :
    formatS w i = .instr j ↔ ∃ v : BitVec 2, (fieldCount w).toNat = v.toNat ∧ v ≠ 0#2 ∧ i v = j := by
  simp only [← and_assoc, ← operand_eq_iff (k := 2) (by decide)]
  unfold formatS
  split
  · split <;> simp_all [fieldSel]
  · simp [*]

end Formats

/-- A word decodes to a command exactly where the command is well-formed and the word is its encoding (R88). -/
theorem decode_eq_instr_iff {w : Word} {i : Instr} : decode w = .instr i ↔ i.wf = true ∧ encode i = w := by
  rw [encode_eq_iff]
  constructor
  · intro h
    unfold decode at h
    split at h
    case h_1 hop =>
      obtain ⟨v, hv, hne, rfl⟩ := formatS_eq_instr.1 h
      exact ⟨by simpa [Instr.wf] using hne, hop.symm, hv.symm⟩
    case h_7 hop | h_13 hop =>
      obtain ⟨v, hv, rfl⟩ := formatC_eq_instr.1 h
      exact ⟨rfl, hop.symm, hv.symm⟩
    case h_8 hop =>
      obtain ⟨v, hv, rfl⟩ := formatV_eq_instr.1 h
      exact ⟨rfl, hop.symm, hv.symm⟩
    case h_9 hop | h_10 hop =>
      obtain ⟨v, hv, rfl⟩ := formatB_eq_instr.1 h
      exact ⟨rfl, hop.symm, hv.symm⟩
    case h_15 => exact Decoded.noConfusion h
    all_goals
      rename_i hop
      obtain ⟨hv, rfl⟩ := formatN_eq_instr.1 h
      exact ⟨rfl, hop.symm, hv.symm⟩
  · rintro ⟨hwf, hop, hv⟩
    rw [decode, ← hop]
    cases i
    case reset sel => exact formatS_eq_instr.2 ⟨sel, hv.symm, by simpa [Instr.wf] using hwf, rfl⟩
    case rPixels count | wPixels count => exact formatC_eq_instr.2 ⟨count, hv.symm, rfl⟩
    case wOpen v89a => exact formatV_eq_instr.2 ⟨v89a, hv.symm, rfl⟩
    case wExt imm8 | wExtBlock imm8 => exact formatB_eq_instr.2 ⟨imm8, hv.symm, rfl⟩
    all_goals exact formatN_eq_instr.2 ⟨hv.symm, rfl⟩

/-! ### The must-be-zero masks -/

/-- The mask of bits [23:k]. -/
def maskAbove (k : Nat) : Word := (BitVec.allOnes (24 - k)).setWidth 32 <<< k

theorem maskAbove_getLsbD {k i : Nat} (hk : k ≤ 24) (hi : i < 32) :
    (maskAbove k).getLsbD i = decide (k ≤ i ∧ i < 24) := by
  rw [maskAbove, BitVec.getLsbD_shiftLeft, BitVec.getLsbD_setWidth, BitVec.getLsbD_allOnes, Bool.eq_iff_iff]
  simp only [Bool.and_eq_true, Bool.not_eq_true', decide_eq_true_eq, decide_eq_false_iff_not]
  omega

/-- A word under the mask of bits [23:k] is 0 where those bits are. -/
theorem and_maskAbove_eq_zero {k : Nat} (hk : k ≤ 24) (w : Word) :
    w &&& maskAbove k = 0#32 ↔ w.extractLsb' k (24 - k) = 0#(24 - k) := by
  constructor
  · intro h
    apply BitVec.eq_of_getLsbD_eq
    intro i hi
    have hbit := congrArg (BitVec.getLsbD · (k + i)) h
    rw [BitVec.getLsbD_and, maskAbove_getLsbD hk (by omega), decide_eq_true (by omega), Bool.and_true,
      BitVec.getLsbD_zero] at hbit
    rw [BitVec.getLsbD_extractLsb', hbit, Bool.and_false, BitVec.getLsbD_zero]
  · intro h
    apply BitVec.eq_of_getLsbD_eq
    intro i hi
    rw [BitVec.getLsbD_and, maskAbove_getLsbD hk hi, BitVec.getLsbD_zero, Bool.and_eq_false_iff, or_iff_not_imp_right,
      decide_eq_false_iff_not, not_not]
    rintro ⟨hlo, hhi⟩
    have hbit := congrArg (BitVec.getLsbD · (i - k)) h
    rwa [BitVec.getLsbD_extractLsb', Nat.add_sub_cancel' hlo, decide_eq_true (by omega), Bool.true_and,
      BitVec.getLsbD_zero] at hbit

section Legal

variable {w : Word}

/-- SEL is 0 where bits [1:0] are. -/
theorem fieldSel_eq_zero : fieldSel w = 0#2 ↔ w &&& 0x3#32 = 0#32 := by
  rw [← BitVec.toNat_inj, ← BitVec.toNat_inj, fieldSel, BitVec.extractLsb'_toNat, Nat.shiftRight_zero,
    BitVec.toNat_and]
  exact (Nat.and_two_pow_sub_one_eq_mod w.toNat 2).symm ▸ Iff.rfl

theorem formatN_legal (i : Instr) : (∃ j, formatN w i = .instr j) ↔ w &&& (0x00FFFFFF : Word) = 0#32 := by
  have hmask : w &&& (0x00FFFFFF : Word) = 0#32 ↔ w.extractLsb' 0 24 = 0#24 :=
    and_maskAbove_eq_zero (k := 0) (by decide) w
  rw [hmask]
  unfold formatN
  split <;> simp [*]

theorem formatB_legal (i : Byte → Instr) : (∃ j, formatB w i = .instr j) ↔ w &&& (0x00FFFF00 : Word) = 0#32 := by
  have hmask : w &&& (0x00FFFF00 : Word) = 0#32 ↔ w.extractLsb' 8 16 = 0#16 :=
    and_maskAbove_eq_zero (k := 8) (by decide) w
  rw [hmask]
  unfold formatB
  split <;> simp [*]

theorem formatC_legal (i : BitVec 24 → Instr) : (∃ j, formatC w i = .instr j) ↔ w &&& (0x00000000 : Word) = 0#32 :=
  ⟨fun _ => BitVec.and_zero, fun _ => ⟨_, rfl⟩⟩

theorem formatV_legal (i : BitVec 1 → Instr) : (∃ j, formatV w i = .instr j) ↔ w &&& (0x00FFFFFE : Word) = 0#32 := by
  have hmask : w &&& (0x00FFFFFE : Word) = 0#32 ↔ w.extractLsb' 1 23 = 0#23 :=
    and_maskAbove_eq_zero (k := 1) (by decide) w
  rw [hmask]
  unfold formatV
  split <;> simp [*]

theorem formatS_legal (i : BitVec 2 → Instr) :
    (∃ j, formatS w i = .instr j) ↔ w &&& (0x00FFFFFC : Word) = 0#32 ∧ w &&& 0x3#32 ≠ 0#32 := by
  have hmask : w &&& (0x00FFFFFC : Word) = 0#32 ↔ w.extractLsb' 2 22 = 0#22 :=
    and_maskAbove_eq_zero (k := 2) (by decide) w
  rw [hmask, ne_eq, ← fieldSel_eq_zero]
  unfold formatS
  split
  · split <;> simp [*]
  · simp [*]

/-- An opcode of the map is legal where its must-be-zero bits are 0 and it is not RESET with SEL = 0 (R85, R88). -/
theorem legalWord_of_mask {mask : Word} (hmask : mustBeZero (fieldOp w) = some mask) :
    legalWord w = true ↔ w &&& mask = 0#32 ∧ ¬(fieldOp w = 0x01 ∧ w &&& 0x3#32 = 0#32) := by
  rw [fieldOp_eq] at hmask ⊢
  simp only [legalWord, hmask, Bool.and_eq_true, Bool.not_eq_true', Bool.and_eq_false_iff, beq_iff_eq,
    beq_eq_false_iff_ne, not_and_or, ne_eq]

/-- The same for an opcode other than RESET. -/
theorem legalWord_of_mask_only {op : Nat} {mask : Word} (hop : fieldOp w = op) (hmask : mustBeZero op = some mask)
    (hreset : op ≠ 0x01) : legalWord w = true ↔ w &&& mask = 0#32 := by
  subst hop
  rw [legalWord_of_mask hmask]
  exact and_iff_left fun h => hreset h.1

/-- The words that decode are the legal words of R89. -/
theorem decode_legal (w : Word) : (∃ i, decode w = .instr i) ↔ legalWord w = true := by
  unfold decode
  split
  case h_1 hop =>
    rw [legalWord_of_mask (by rw [hop]; rfl), hop, formatS_legal]
    simp
  case h_7 hop | h_13 hop => exact (formatC_legal _).trans (legalWord_of_mask_only hop rfl (by decide)).symm
  case h_8 hop => exact (formatV_legal _).trans (legalWord_of_mask_only hop rfl (by decide)).symm
  case h_9 hop | h_10 hop => exact (formatB_legal _).trans (legalWord_of_mask_only hop rfl (by decide)).symm
  case h_15 =>
    have hnone : mustBeZero (fieldOp w) = none := by rw [mustBeZero.eq_15] <;> assumption
    rw [fieldOp_eq] at hnone
    simp only [legalWord, hnone, reduceCtorEq, exists_false, Bool.false_eq_true]
  all_goals
    rename_i hop
    exact (formatN_legal _).trans (legalWord_of_mask_only hop rfl (by decide)).symm

theorem issueWord_illegal (s : State) (h : legalWord w = false) :
    issueWord w s = .next { s with last := .illegalCommand } := by
  unfold issueWord
  split
  · rename_i i hi
    rw [(decode_legal w).1 ⟨i, hi⟩] at h
    exact Bool.noConfusion h
  · rfl

end Legal

end Sys2Proof

open Sys2Proof Sys2Proof.Machine

/-- Settles O2: the word of a well-formed command has its opcode and an operand its format admits. -/
theorem decodeOfEncode : Obligations.DecodeOfEncode :=
  fun _ hwf => decode_eq_instr_iff.2 ⟨hwf, rfl⟩

/-- Settles O3: opcode and operand of a word that decodes are those of its command. -/
theorem encodeOfDecode : Obligations.EncodeOfDecode :=
  fun _ _ h => decode_eq_instr_iff.1 h

/-- Settles O4: each format's must-be-zero bits are its mask, and an opcode outside the map has no mask. -/
theorem illegalWordsAreThese : Obligations.IllegalWordsAreThese :=
  ⟨by decide +kernel, decode_legal, fun _ s h => issueWord_illegal s h⟩

/-- Settles O1: each command's word is its encoding, and the illegal words are decoded one by one. -/
theorem commandWordsDecode : Obligations.CommandWordsDecode := by
  refine ⟨decodeOfEncode (.reset 1#2) rfl, decodeOfEncode (.reset 3#2) rfl, decodeOfEncode .rOpen rfl,
    decodeOfEncode .rExtBlock rfl, decodeOfEncode (.rPixels 0xFFFFFF#24) rfl, decodeOfEncode (.wOpen 1#1) rfl,
    decodeOfEncode (.wExt 0xFE#8) rfl, decodeOfEncode (.wExtBlock 0x00#8) rfl, decodeOfEncode .wImage rfl,
    decodeOfEncode (.wPixels 16#24) rfl, decodeOfEncode .wTrailer rfl, ?_⟩
  decide

end

section
/-!
PROOFS. `R_PIXELS` on pending pixels (R145, R164): each goes to DOUT without a byte of SIN, as long as it is not the last of
the raster.
-/

namespace Sys2Proof.Machine

theorem decode_rPixels (count : BitVec 24) : decode (0x15#8 ++ count) = .instr (.rPixels count) := by
  have hop : fieldOp (0x15#8 ++ count) = 0x15 := by
    rw [fieldOp, BitVec.extractLsb'_append_eq_left]; rfl
  have hcount : fieldCount (0x15#8 ++ count) = count := BitVec.extractLsb'_append_eq_right
  exact decode_eq_instr_iff.2 ⟨rfl, encode_eq_iff.2 ⟨hop.symm, congrArg BitVec.toNat hcount.symm⟩⟩

theorem exec_rPixels_rejected {s : State} {count : BitVec 24} (hs : s.reader.state = .pixels)
    (hlt : s.reader.pixRemain.toNat < count.toNat) : exec (.rPixels count) s = .next (rejectWith .invalidSequence s) :=
  readerCommand_rejected (by rw [hs]; decide) hs (if_pos hlt)

theorem exec_rPixels_runs {s : State} {count : BitVec 24} (hs : s.reader.state = .pixels)
    (hle : count.toNat ≤ s.reader.pixRemain.toNat) :
    exec (.rPixels count) s = endReader s (rPixelsBody count.toNat s.reader) :=
  readerCommand_runs (by rw [hs]; decide) hs (if_neg (Nat.not_lt.2 hle))

/-- A pending pixel that is not the last of the raster (R145). -/
theorem deliverPixel_pending {r : Reader} {x : Byte} {rest : List Byte} (hpend : r.dPend = x :: rest)
    (hrem : 1 < r.pixRemain.toNat) : deliverPixel r = .ok () (pushPixel x { r with dPend := rest }) := by
  have hnext : nextPixel (decodeTurns r) r = .ok x { r with dPend := rest } := by
    simp only [decodeTurns, nextPixel, hpend]
  have hmore : (pushPixel x { r with dPend := rest }).pixRemain ≠ 0#32 := by
    intro h0
    have hpred := pixRemain_pred (v := r.pixRemain) rfl (by omega)
    rw [show r.pixRemain - 1#32 = 0#32 from h0, BitVec.toNat_ofNat] at hpred
    omega
  rw [deliverPixel, hnext, Body.bind_ok]
  exact if_neg hmore

/-- Pending pixels that leave one of the raster to come (R145). -/
theorem deliverPixels_pending (n : Nat) : ∀ r : Reader, n ≤ r.dPend.length → n < r.pixRemain.toNat →
    deliverPixels n r = .ok () { r with
      dout := r.dout ++ r.dPend.take n, dPend := r.dPend.drop n, pixRemain := r.pixRemain - BitVec.ofNat 32 n,
      rows := rowAdvances n r.rows } := by
  induction n with
  | zero => intro r _ _; simp [deliverPixels, rowAdvances]
  | succ n ih =>
    intro r hlen hrem
    obtain ⟨x, rest, hpend⟩ := List.exists_cons_of_length_pos (by omega : 0 < r.dPend.length)
    have hpred : (r.pixRemain - 1#32).toNat = r.pixRemain.toNat - 1 := pixRemain_pred rfl (by omega)
    rw [hpend, List.length_cons] at hlen
    have hrest := ih (pushPixel x { r with dPend := rest }) (Nat.le_of_succ_le_succ hlen)
      (show n < (r.pixRemain - 1#32).toNat by omega)
    have hcount : r.pixRemain - 1#32 - BitVec.ofNat 32 n = r.pixRemain - BitVec.ofNat 32 (n + 1) := by
      rw [BitVec.sub_sub, ← BitVec.ofNat_add, Nat.add_comm]
    rw [deliverPixels, deliverPixel_pending hpend (by omega), Body.bind_ok, hrest]
    simp only [pushPixel, doutPush, hcount, hpend, List.take_succ_cons, List.drop_succ_cons, List.append_assoc,
      List.singleton_append, rowAdvances]

theorem rPixelsBody_pending {r : Reader} {n : Nat} (hlen : n ≤ r.dPend.length) (hrem : n < r.pixRemain.toNat) :
    rPixelsBody n r = deliverPixels n r := by
  unfold rPixelsBody
  split
  · subst n; rfl
  · have hmore : r.pixRemain - BitVec.ofNat 32 n ≠ 0#32 := by
      have hlt := r.pixRemain.isLt
      intro h0
      have hsub := congrArg BitVec.toNat h0
      rw [BitVec.toNat_sub, BitVec.toNat_ofNat, BitVec.toNat_ofNat] at hsub
      omega
    rw [deliverPixels_pending n r hlen hrem, Body.bind_ok]
    exact if_neg hmore

end Sys2Proof.Machine

open Sys2Proof Sys2Proof.Machine

/-- Settles O29: the count is checked first, and the pixels it takes are pending. -/
theorem rPixelsFromPending : Obligations.RPixelsFromPending := by
  refine ⟨decode_rPixels, fun s count hs hlt => exec_rPixels_rejected hs hlt, fun s hs => ?_,
    fun s count hs hlen hrem => ?_⟩
  · exact exec_rPixels_runs (count := 0#24) hs (Nat.zero_le _)
  · rw [exec_rPixels_runs hs hrem.le, rPixelsBody_pending hlen hrem, deliverPixels_pending _ _ hlen hrem]
    rfl

end

section
/-!
PROOFS. `R_IMAGE` on a stream that ends or errs before the codes, and with a code size outside 2 to 8 (R112, R161, R162):
where a run of bytes meets the end of the stream, and what the body has recorded by then.
-/

namespace Sys2Proof.Machine

/-! ### The end of the stream -/

section StreamEnd

variable {e : Status} {tail rest : List SrcAnswer}

theorem srcByte_streamEnd {r : Reader} (h : streamEnd r.sin = some (e, rest)) :
    srcByte r = .raise e { r with sin := rest } := by
  unfold streamEnd at h
  split at h
  case h_1 hsin => cases h; rw [srcByte_nil hsin, ← hsin]
  case h_2 hsin => cases h; exact srcByte_atEnd hsin
  case h_3 hsin => cases h; exact srcByte_error hsin
  all_goals exact nomatch h

/-- A stream that ends after `got` cuts a read of more bytes short. -/
theorem srcBytes_short (hend : streamEnd tail = some (e, rest)) (got : List Byte) : ∀ (n : Nat) (r : Reader),
    got.length < n → r.sin = got.map .byte ++ tail →
    srcBytes n r = .raise e { r with sin := rest, sinRead := r.sinRead + got.length } := by
  induction got with
  | nil =>
    intro n r hn hsin
    obtain ⟨n, rfl⟩ := Nat.exists_eq_succ_of_ne_zero hn.ne'
    rw [srcBytes, srcByte_streamEnd (by rw [hsin]; exact hend)]
    rfl
  | cons b got ih =>
    intro n r hn hsin
    obtain ⟨n, rfl⟩ := Nat.exists_eq_succ_of_ne_zero (Nat.ne_zero_of_lt hn)
    rw [srcBytes, srcByte_byte hsin, Body.bind_ok, ih n _ (Nat.lt_of_succ_lt_succ hn) rfl, Body.bind_raise]
    simp only [List.length_cons, Nat.add_assoc, Nat.add_comm 1]

/-- A stream that ends after `got` cuts a copy of more bytes short, with `got` in DOUT. -/
theorem copyBytes_short (hend : streamEnd tail = some (e, rest)) (got : List Byte) : ∀ (n : Nat) (r : Reader),
    got.length < n → r.sin = got.map .byte ++ tail →
    copyBytes n r = .raise e { r with sin := rest, sinRead := r.sinRead + got.length, dout := r.dout ++ got } := by
  induction got with
  | nil =>
    intro n r hn hsin
    obtain ⟨n, rfl⟩ := Nat.exists_eq_succ_of_ne_zero hn.ne'
    rw [copyBytes, srcByte_streamEnd (by rw [hsin]; exact hend), List.append_nil]
    rfl
  | cons b got ih =>
    intro n r hn hsin
    obtain ⟨n, rfl⟩ := Nat.exists_eq_succ_of_ne_zero (Nat.ne_zero_of_lt hn)
    rw [copyBytes, srcByte_byte hsin, Body.bind_ok, ih n _ (Nat.lt_of_succ_lt_succ hn) rfl]
    simp only [doutPush, List.length_cons, Nat.add_assoc, Nat.add_comm 1, List.append_assoc, List.singleton_append]

/-- A stream that ends after `got` cuts a skip of more bytes short. -/
theorem skipBytes_short (hend : streamEnd tail = some (e, rest)) (got : List Byte) : ∀ (n : Nat) (r : Reader),
    got.length < n → r.sin = got.map .byte ++ tail →
    skipBytes n r = .raise e { r with sin := rest, sinRead := r.sinRead + got.length } := by
  induction got with
  | nil =>
    intro n r hn hsin
    obtain ⟨n, rfl⟩ := Nat.exists_eq_succ_of_ne_zero hn.ne'
    rw [skipBytes, srcByte_streamEnd (by rw [hsin]; exact hend)]
    rfl
  | cons b got ih =>
    intro n r hn hsin
    obtain ⟨n, rfl⟩ := Nat.exists_eq_succ_of_ne_zero (Nat.ne_zero_of_lt hn)
    rw [skipBytes, srcByte_byte hsin, Body.bind_ok, ih n _ (Nat.lt_of_succ_lt_succ hn) rfl]
    simp only [List.length_cons, Nat.add_assoc, Nat.add_comm 1]

/-! ### The body of `R_IMAGE` -/

theorem exec_rImage_runs {s : State} (hs : s.reader.state = .imgDesc) :
    exec .rImage s = endReader s (rImageBody s.reader) :=
  readerCommand_runs (need := .imgDesc) (check := noCheck) (by rw [hs]; decide) hs rfl

/-- A code size byte outside 2 to 8 is recorded, and fails (R162). -/
theorem imageDataStart_badSize {r r1 : Reader} {b : Byte} (hb : srcByte r = .ok b r1) (hbad : b.toNat < 2 ∨ 8 < b.toNat) :
    imageDataStart r = .raise .corruptData { r1 with codeSize := b } := by
  rw [imageDataStart, hb, Body.bind_ok]
  exact if_pos hbad

/-- The registers of a descriptor that the stream's bytes start with (R97). -/
theorem setDescriptor_take (got : List Byte) (r : Reader) :
    setDescriptor (got.take 9) r = { r with
      imgLeft := got.getD 1 0#8 ++ got.getD 0 0#8, imgTop := got.getD 3 0#8 ++ got.getD 2 0#8,
      imgW := got.getD 5 0#8 ++ got.getD 4 0#8, imgH := got.getD 7 0#8 ++ got.getD 6 0#8,
      imgPacked := got.getD 8 0#8 } := by
  have hbyte : ∀ i < 9, byteOf (got.take 9) i = got.getD i 0#8 := by
    intro i hi
    rw [byteOf, List.getD_eq_getElem?_getD, List.getElem?_take_of_lt hi, ← List.getD_eq_getElem?_getD]
    rfl
  simp only [setDescriptor, u16At, u16_eq_append, hbyte, Nat.reduceAdd, Nat.reduceLT]

/-- A stream that ends in the table or before the code size: the descriptor is recorded, the table's bytes are in DOUT
(R155, R161). -/
theorem rImageBody_cut (hend : streamEnd tail = some (e, rest)) {got : List Byte} {r : Reader} (h9 : 9 ≤ got.length)
    (hlen : got.length ≤ 9 + tableSize (got.getD 8 0#8)) (hsin : r.sin = got.map .byte ++ tail) :
    rImageBody r = .raise e { setDescriptor (got.take 9) r with
      dout := r.dout ++ got.drop 9, sin := rest, sinRead := r.sinRead + got.length } := by
  have htake : (got.take 9).length = 9 := by rw [List.length_take]; omega
  have hdrop : (got.drop 9).length = got.length - 9 := List.length_drop
  have hread : r.sinRead + 9 + (got.length - 9) = r.sinRead + got.length := by omega
  have hpacked : byteOf (got.take 9) 8 = got.getD 8 0#8 := congrArg Reader.imgPacked (setDescriptor_take got r)
  rw [← List.take_append_drop 9 got] at hsin
  obtain hfull | hshort : (got.drop 9).length = tableSize (byteOf (got.take 9) 8) ∨
      (got.drop 9).length < tableSize (byteOf (got.take 9) 8) := by
    rw [hpacked, hdrop]; omega
  · rw [rImageBody_table htake hfull hsin, imageDataStart, srcByte_streamEnd hend, hdrop, hread]
    rfl
  · rw [List.map_append, List.append_assoc] at hsin
    have hdesc := srcBytes_bytes (got.take 9) r _ hsin
    rw [htake] at hdesc
    rw [rImageBody, hdesc, Body.bind_ok, copyTable, tableBytes_eq_tableSize,
      copyBytes_short hend (got.drop 9) _ _ hshort rfl, hdrop]
    simp only [setDescriptor, hread, Body.bind_raise]

end StreamEnd

end Sys2Proof.Machine

open Sys2Proof Sys2Proof.Machine

/-- Settles O27: the code size is checked once the table is through; a stream that ends does so in the descriptor, in the
table or right after it. -/
theorem rImageFailures : Obligations.RImageFailures := by
  constructor
  · intro s d0 d1 d2 d3 d4 d5 d6 d7 d8 b table rest hs htable hbad hsin
    rw [List.map_append, List.append_assoc] at hsin
    have hread : s.reader.sinRead + 9 + table.length + 1 = s.reader.sinRead + 10 + table.length := by omega
    rw [exec_rImage_runs hs, rImageBody_table (d := [d0, d1, d2, d3, d4, d5, d6, d7, d8]) rfl htable hsin,
      setDescriptor_bytes, imageDataStart_badSize (srcByte_byte (b := b) (rest := rest) rfl) hbad, endReader]
    simp only [failReader, hread]
  · intro s got tail rest e hs hsin hend hlen
    rw [exec_rImage_runs hs]
    by_cases h9 : got.length < 9
    · rw [rImageBody, srcBytes_short hend got 9 _ h9 hsin, Body.bind_raise, endReader]
      simp only [failReader, h9, if_true, List.drop_eq_nil_of_le h9.le, List.append_nil]
    · rw [rImageBody_cut hend (Nat.not_lt.1 h9) hlen hsin, setDescriptor_take, endReader]
      simp only [failReader, h9, if_false]

end

section
/-!
PROOFS. The epilogue (R147) code by code, the unpacker on image data that is there (R118), and `R_IMAGE` with W x H = 0
(R132, R162): Clear Codes leave the started decompressor as it is, and behind the EOF Code only its own sub-block is
left.
-/

namespace Sys2Proof.Machine

/-! ### The epilogue -/

theorem epilogue_pending {r : Reader} (hpend : r.dPend ≠ []) : epilogue r = .raise .rasterOverflow r := by
  rw [epilogue, decodeTurns, readToEof, if_pos hpend, Body.bind_raise]

theorem epilogue_eofRead {r : Reader} (hpend : r.dPend = []) (hdone : r.dDone = true) :
    epilogue r = skipToTerminator r := by
  rw [epilogue, decodeTurns, readToEof, if_neg (not_not.2 hpend), if_pos hdone, Body.bind_ok]

/-- Before the EOF Code the epilogue reads one code, and goes on as the epilogue of the reader that code leaves. -/
theorem epilogue_code {r : Reader} (hok : DecoderOk r) (hpend : r.dPend = []) (hdone : r.dDone = false) :
    epilogue r = (decodeStep r).bind fun _ r' => epilogue r' := by
  rw [epilogue, decodeTurns, readToEof, if_neg (not_not.2 hpend), if_neg (by rw [hdone]; decide), Body.bind_assoc]
  refine (decodeStep_spec hok).bind_congr fun _ r1 ⟨_, _, hbits, hok1⟩ => ?_
  rw [epilogue, readToEof_bound (r.uCnt + 8 * r.sin.length) (decodeTurns r1) hok1 hbits (Nat.lt_succ_self _)]

/-! ### The rest of the sub-block and the terminator -/

/-- The bytes of the sub-block are skipped, and the byte behind them is taken for the terminator (R120). -/
theorem skipToTerminator_bytes {r : Reader} {skipped : List Byte} {l : Byte} {more : List SrcAnswer}
    (hlen : skipped.length = r.uLeft.toNat) (hsin : r.sin = (skipped ++ [l]).map .byte ++ more) :
    skipToTerminator r =
      if l ≠ 0#8 then
        .raise .unexpectedEndOfData { r with uLeft := 0, sin := more, sinRead := r.sinRead + skipped.length + 1 }
      else .ok () { r with
        uLeft := 0, uEnd := true, uAcc := 0, uCnt := 0, sin := more, sinRead := r.sinRead + skipped.length + 1 } := by
  rw [List.map_append, List.append_assoc] at hsin
  rw [skipToTerminator, ← hlen, skipBytes_bytes skipped r _ hsin, Body.bind_ok, srcByte_byte (b := l) (rest := more) rfl,
    Body.bind_ok]
  rfl

/-- The stream ends inside the sub-block, or right before the terminator (R120). -/
theorem skipToTerminator_short {r : Reader} {got : List Byte} {tail more : List SrcAnswer} {e : Status}
    (hlen : got.length ≤ r.uLeft.toNat) (hsin : r.sin = got.map .byte ++ tail) (hend : streamEnd tail = some (e, more)) :
    skipToTerminator r = .raise e { r with
      uLeft := if got.length < r.uLeft.toNat then r.uLeft else 0#8, sin := more, sinRead := r.sinRead + got.length } := by
  obtain hshort | hfull := hlen.lt_or_eq
  · rw [skipToTerminator, skipBytes_short hend got _ r hshort hsin, Body.bind_raise, if_pos hshort]
  · rw [skipToTerminator, ← hfull, skipBytes_bytes got r tail hsin, Body.bind_ok, srcByte_streamEnd hend,
      Body.bind_raise, if_neg (lt_irrefl _)]

/-! ### Image data ahead of the unpacker -/

/-- The unpacker has `bits` bits of image data ahead, together the number `v` (R71): those it holds, the bytes `cur` of
the current sub-block and the sub-blocks `later`, the last of `blocks`. Then come the terminator and `more`; once
the data is read, `total` bytes of SIN have been. -/
structure DataAhead (blocks : List (List Byte)) (more : List SrcAnswer) (total v bits : Nat) (cur : List Byte)
    (later : List (List Byte)) (r : Reader) : Prop where
  blocks_end : later <:+ blocks
  left : cur.length = r.uLeft.toNat
  notEnded : r.uEnd = false
  stream : r.sin = (cur ++ inSubBlocks later ++ [0#8]).map .byte ++ more
  read : r.sinRead + (cur ++ inSubBlocks later).length = total
  held : r.uAcc.toNat < 2 ^ r.uCnt
  number : r.uAcc.toNat + 2 ^ r.uCnt * bytesNumber (cur ++ later.flatten) = v
  count : r.uCnt + 8 * (cur ++ later.flatten).length = bits

section Unpacking

variable {blocks later : List (List Byte)} {more : List SrcAnswer} {total v bits width : Nat} {cur : List Byte}
  {r : Reader}

/-- A started unpacker has all of the image data ahead (R119). -/
theorem dataAhead_start (hacc : r.uAcc = 0#19) (hcnt : r.uCnt = 0) (hleft : r.uLeft = 0#8) (hend : r.uEnd = false)
    (hsin : r.sin = (inSubBlocks blocks ++ [0#8]).map .byte ++ more) :
    DataAhead blocks more (r.sinRead + (inSubBlocks blocks).length) (bytesNumber blocks.flatten)
      (8 * blocks.flatten.length) [] blocks r := by
  have hnone : r.uAcc.toNat = 0 := by rw [hacc]; rfl
  refine ⟨List.suffix_refl _, by rw [hleft]; rfl, hend, hsin, rfl, ?_, ?_, ?_⟩
  · rw [hnone, hcnt]; exact Nat.one_pos
  · rw [hnone, hcnt, List.nil_append, Nat.zero_add, Nat.pow_zero, Nat.one_mul]
  · rw [hcnt, List.nil_append, Nat.zero_add]

/-- A data byte of the current sub-block (R118). -/
theorem loadDataByte_ahead {x : Byte} (h : DataAhead blocks more total v bits (x :: cur) later r)
    (hroom : r.uCnt + 8 ≤ 19) :
    ∃ r', loadDataByte r = .ok () r' ∧ r'.uCnt = r.uCnt + 8 ∧ DataAhead blocks more total v bits cur later r' := by
  have hleft := h.left
  have hread := h.read
  have hnumber := h.number
  have hcount := h.count
  have hacc : (r.uAcc ||| (x.setWidth 19 <<< r.uCnt)).toNat = r.uAcc.toNat + x.toNat * 2 ^ r.uCnt := by
    have hx : x.setWidth 19 = BitVec.ofNat 19 (x.toNat % 2 ^ 8) :=
      BitVec.eq_of_toNat_eq (by rw [BitVec.toNat_setWidth, BitVec.toNat_ofNat, Nat.mod_eq_of_lt x.isLt])
    rw [hx, acc_append_toNat h.held x.isLt hroom]
  rw [loadDataByte, srcByte_byte h.stream, Body.bind_ok]
  refine ⟨_, rfl, rfl, h.blocks_end, ?_, h.notEnded, rfl, ?_, acc_load x h.held, ?_, ?_⟩
  · rw [List.length_cons] at hleft
    show cur.length = (r.uLeft - 1#8).toNat
    rw [BitVec.toNat_sub, BitVec.toNat_ofNat]
    omega
  · rw [List.cons_append, List.length_cons] at hread
    show r.sinRead + 1 + (cur ++ inSubBlocks later).length = total
    omega
  · rw [List.cons_append, bytesNumber] at hnumber
    show (r.uAcc ||| (x.setWidth 19 <<< r.uCnt)).toNat + 2 ^ (r.uCnt + 8) * bytesNumber (cur ++ later.flatten) = v
    rw [hacc, ← hnumber, Nat.pow_add]
    ring
  · rw [List.cons_append, List.length_cons] at hcount
    show r.uCnt + 8 + 8 * (cur ++ later.flatten).length = bits
    omega

/-- The length byte of the next sub-block (R118). -/
theorem DataAhead.nextBlock {d : List Byte} (h : DataAhead blocks more total v bits [] (d :: later) r)
    (hd : d.length ≤ 255) : ∃ rest, r.sin = .byte (BitVec.ofNat 8 d.length) :: rest ∧
      DataAhead blocks more total v bits d later
        { r with sin := rest, sinRead := r.sinRead + 1, uLeft := BitVec.ofNat 8 d.length } := by
  have hstream := h.stream
  have hread := h.read
  have hsplit : inSubBlocks (d :: later) = BitVec.ofNat 8 d.length :: d ++ inSubBlocks later := rfl
  rw [List.nil_append, hsplit] at hstream hread
  refine ⟨_, hstream, (List.suffix_cons ..).trans h.blocks_end, ?_, h.notEnded, rfl, ?_, h.held, h.number, h.count⟩
  · rw [BitVec.toNat_ofNat]
    omega
  · rw [List.cons_append, List.length_cons] at hread
    simp only
    omega

/-- With fewer bits ahead than the last sub-block has, no further sub-block is. -/
theorem DataAhead.later_nil {last : List Byte} (h : DataAhead (blocks ++ [last]) more total v bits cur later r)
    (hbits : bits < 8 * last.length) : later = [] := by
  obtain rfl | ⟨init, d, rfl⟩ := List.eq_nil_or_concat later
  · rfl
  · obtain ⟨front, hfront⟩ := h.blocks_end
    rw [List.concat_eq_append, ← List.append_assoc] at hfront
    obtain ⟨-, hd⟩ := List.append_inj' hfront rfl
    obtain rfl := List.singleton_inj.1 hd
    have hcount := h.count
    rw [List.concat_eq_append, List.flatten_append, List.flatten_singleton, List.length_append, List.length_append]
      at hcount
    omega

variable (hsizes : ∀ d ∈ blocks, 1 ≤ d.length ∧ d.length ≤ 255)

include hsizes

/-- One turn of the loop of ReadCode while there is data (R118). -/
theorem loadBits_ahead (h : DataAhead blocks more total v bits cur later r) (hroom : r.uCnt + 8 ≤ 19)
    (hdata : r.uCnt < bits) :
    ∃ r' cur' later', loadBits r = .ok () r' ∧ r'.uCnt = r.uCnt + 8 ∧
      DataAhead blocks more total v bits cur' later' r' := by
  cases cur with
  | cons x cur =>
    have hleft : r.uLeft ≠ 0#8 := by
      intro h0
      have := h.left
      rw [h0] at this
      exact Nat.succ_ne_zero _ this
    obtain ⟨r', hload, hcnt, h'⟩ := loadDataByte_ahead h hroom
    exact ⟨r', cur, later, by rw [loadBits, if_neg hleft, hload], hcnt, h'⟩
  | nil =>
    have hleft : r.uLeft = 0#8 := BitVec.eq_of_toNat_eq h.left.symm
    cases later with
    | nil => exact absurd h.count hdata.ne
    | cons d later =>
      obtain ⟨hpos, hle⟩ := hsizes d (h.blocks_end.subset List.mem_cons_self)
      obtain ⟨rest, hsin, hnext⟩ := h.nextBlock hle
      obtain ⟨x, cur, rfl⟩ := List.exists_cons_of_length_pos hpos
      have hne : BitVec.ofNat 8 (x :: cur).length ≠ 0#8 := by
        intro h0
        have := congrArg BitVec.toNat h0
        rw [BitVec.toNat_ofNat, BitVec.toNat_ofNat] at this
        omega
      obtain ⟨r', hload, hcnt, h'⟩ := loadDataByte_ahead hnext hroom
      refine ⟨r', cur, later, ?_, hcnt, h'⟩
      rw [loadBits, if_pos hleft, if_neg (by rw [h.notEnded]; decide), srcByte_byte hsin, Body.bind_ok, if_neg hne]
      exact hload

theorem fillBits_ahead (hwidth : width ≤ 12) (hbits : width ≤ bits) (n : Nat) : ∀ {r cur later},
    DataAhead blocks more total v bits cur later r → width ≤ r.uCnt + 8 * n →
    ∃ r' cur' later', fillBits width n r = .ok () r' ∧ width ≤ r'.uCnt ∧
      DataAhead blocks more total v bits cur' later' r' := by
  induction n with
  | zero => intro r cur later h hn; exact ⟨r, cur, later, rfl, hn, h⟩
  | succ n ih =>
    intro r cur later h hn
    rw [fillBits]
    split
    · obtain ⟨r1, cur1, later1, hload, hcnt, h1⟩ := loadBits_ahead hsizes h (by omega) (by omega)
      rw [hload, Body.bind_ok]
      exact ih h1 (by omega)
    · exact ⟨r, cur, later, rfl, by omega, h⟩

/-- ReadCode gives the low bits of the data ahead, and leaves the rest (R71, R118). -/
theorem readCode_ahead (h : DataAhead blocks more total v bits cur later r) (hwidth : width ≤ 12)
    (hbits : width ≤ bits) :
    ∃ r' cur' later', readCode width r = .ok (v % 2 ^ width) r' ∧
      DataAhead blocks more total (v / 2 ^ width) (bits - width) cur' later' r' := by
  obtain ⟨r1, cur1, later1, hfill, hcnt, h1⟩ := fillBits_ahead hsizes hwidth hbits width h (by omega)
  obtain ⟨k, hk⟩ := Nat.exists_eq_add_of_le hcnt
  have hsplit : v = r1.uAcc.toNat + 2 ^ width * (2 ^ k * bytesNumber (cur1 ++ later1.flatten)) := by
    rw [← h1.number, hk, Nat.pow_add, Nat.mul_assoc]
  have hcount := h1.count
  have hheld := h1.held
  have hrest : r1.uCnt - width = k := by omega
  rw [hk, Nat.pow_add] at hheld
  have hshift : (r1.uAcc >>> width).toNat = r1.uAcc.toNat / 2 ^ width := by
    rw [BitVec.toNat_ushiftRight, Nat.shiftRight_eq_div_pow]
  refine ⟨{ r1 with uAcc := r1.uAcc >>> width, uCnt := r1.uCnt - width }, cur1, later1, ?_, h1.blocks_end, h1.left,
    h1.notEnded, h1.stream, h1.read, ?_, ?_, ?_⟩
  · rw [readCode, hfill, Body.bind_ok, hsplit, Nat.add_mul_mod_self_left]
  · show (r1.uAcc >>> width).toNat < 2 ^ (r1.uCnt - width)
    rw [hshift, hrest]
    exact Nat.div_lt_of_lt_mul hheld
  · show (r1.uAcc >>> width).toNat + 2 ^ (r1.uCnt - width) * bytesNumber (cur1 ++ later1.flatten) = v / 2 ^ width
    rw [hshift, hrest, hsplit, Nat.add_mul_div_left _ _ (Nat.two_pow_pos width)]
  · show r1.uCnt - width + 8 * (cur1 ++ later1.flatten).length = bits - width
    omega

end Unpacking

/-! ### Clear Codes and the EOF Code -/

/-- The decompressors a Clear Code leaves as they are (R144). -/
theorem resetDecoder_eq_self {r : Reader} : resetDecoder r = r ↔
    r.dFirst = r.dFree ∧ r.dB + 1#4 = r.dW ∧ none = r.dPrev ∧ [] = r.dDict := by
  constructor
  · intro h
    exact ⟨congrArg Reader.dFree h, congrArg Reader.dW h, congrArg Reader.dPrev h, congrArg Reader.dDict h⟩
  · rintro ⟨hfree, hwidth, hprev, hdict⟩
    rw [resetDecoder, hwidth, hprev, hdict]
    exact congrArg (fun free : Counter => ({ r with dFree := free } : Reader)) hfree

/-- A decompressor of code size `b` as R137 starts it: a Clear Code would change nothing. -/
structure FreshDecoder (b : Nat) (r : Reader) : Prop where
  inOrder : DecoderOk r
  codeSize : r.dB.toNat = b
  width : r.dW.toNat = b + 1
  cleared : resetDecoder r = r
  nothingPending : r.dPend = []
  notDone : r.dDone = false

section Codes

variable {b : Nat} {r : Reader}

theorem FreshDecoder.clear (h : FreshDecoder b r) : r.dClear.toNat = 2 ^ b := by
  obtain ⟨-, -, hclear, -⟩ := h.inOrder.1
  rw [hclear, h.codeSize]

theorem FreshDecoder.eof (h : FreshDecoder b r) : r.dEof.toNat = 2 ^ b + 1 := by
  obtain ⟨-, -, -, heof, -⟩ := h.inOrder.1
  rw [heof, h.codeSize]

theorem FreshDecoder.le (h : FreshDecoder b r) : b ≤ 8 := by
  obtain ⟨-, hle, -⟩ := h.inOrder.1
  rwa [h.codeSize] at hle

/-- Reading a code leaves the decompressor fresh. -/
theorem FreshDecoder.of_readCode {c : Nat} {r' : Reader} (h : FreshDecoder b r)
    (hread : readCode (b + 1) r = .ok c r') : FreshDecoder b r' := by
  obtain ⟨hoff, -, -, -, hunpack⟩ := (readCode_spec (b + 1) r).of_ok hread
  have hsame := sameDecoder_of_offUnpacker hoff
  have hle := h.le
  have hok := h.inOrder.of_same hsame (hunpack (by omega) h.inOrder.2.2.2.1)
  obtain ⟨hB, -, -, hfirst, hW, hfree, hprev, hdict, hpend, hdone⟩ := hsame
  have hcleared := resetDecoder_eq_self.1 h.cleared
  rw [← hB, ← hfirst, ← hW, ← hfree, ← hprev, ← hdict] at hcleared
  exact ⟨hok, by rw [hB, h.codeSize], by rw [hW, h.width], resetDecoder_eq_self.2 hcleared,
    by rw [hpend, h.nothingPending], by rw [hdone, h.notDone]⟩

theorem decodeStep_clear (h : FreshDecoder b r) {r' : Reader} (hread : readCode (b + 1) r = .ok (2 ^ b) r') :
    decodeStep r = .ok () r' := by
  have h' := h.of_readCode hread
  rw [decodeStep, h.width, hread, Body.bind_ok, applyCode, if_pos h'.clear.symm, h'.cleared]

theorem decodeStep_eof (h : FreshDecoder b r) {r' : Reader} (hread : readCode (b + 1) r = .ok (2 ^ b + 1) r') :
    decodeStep r = .ok () { r' with dDone := true } := by
  have h' := h.of_readCode hread
  rw [decodeStep, h.width, hread, Body.bind_ok, applyCode, if_neg (by rw [h'.clear]; omega), if_pos h'.eof.symm]

variable {blocks : List (List Byte)} {more : List SrcAnswer} {total bits : Nat}

/-- `n` Clear Codes and the EOF Code are read whole, and change nothing but the unpacker and `D_done`. -/
theorem epilogue_clearCodes (hsizes : ∀ d ∈ blocks, 1 ≤ d.length ∧ d.length ≤ 255) (n : Nat) :
    ∀ {v bits r cur later}, FreshDecoder b r → DataAhead blocks more total v bits cur later r →
    (n + 1) * (b + 1) ≤ bits → (∀ k, k < n → v / 2 ^ (k * (b + 1)) % 2 ^ (b + 1) = 2 ^ b) →
    v / 2 ^ (n * (b + 1)) % 2 ^ (b + 1) = 2 ^ b + 1 →
    ∃ r' cur' later', epilogue r = epilogue r' ∧ offUnpacker r' = offUnpacker { r with dDone := true } ∧
      DataAhead blocks more total (v / 2 ^ ((n + 1) * (b + 1))) (bits - (n + 1) * (b + 1)) cur' later' r' := by
  induction n with
  | zero =>
    intro v bits r cur later hfresh hahead hbits _ heof
    rw [Nat.zero_add, Nat.one_mul] at hbits ⊢
    rw [Nat.zero_mul, Nat.pow_zero, Nat.div_one] at heof
    have hle := hfresh.le
    obtain ⟨r1, cur1, later1, hread, h1⟩ := readCode_ahead hsizes hahead (by omega) hbits
    rw [heof] at hread
    obtain ⟨hoff, -⟩ := (readCode_spec (b + 1) r).of_ok hread
    refine ⟨{ r1 with dDone := true }, cur1, later1, ?_, congrArg (fun r : Reader => { r with dDone := true }) hoff,
      h1.blocks_end, h1.left, h1.notEnded, h1.stream, h1.read, h1.held, h1.number, h1.count⟩
    rw [epilogue_code hfresh.inOrder hfresh.nothingPending hfresh.notDone, decodeStep_eof hfresh hread, Body.bind_ok]
  | succ n ih =>
    intro v bits r cur later hfresh hahead hbits hclear heof
    have hle := hfresh.le
    have hstep : ∀ k, v / 2 ^ (b + 1) / 2 ^ (k * (b + 1)) = v / 2 ^ ((k + 1) * (b + 1)) := fun k => by
      rw [Nat.div_div_eq_div_mul, ← Nat.pow_add, Nat.succ_mul, Nat.add_comm]
    rw [Nat.succ_mul] at hbits
    obtain ⟨r1, cur1, later1, hread, h1⟩ := readCode_ahead hsizes hahead (width := b + 1) (by omega) (by omega)
    have hfirst := hclear 0 (Nat.succ_pos n)
    rw [Nat.zero_mul, Nat.pow_zero, Nat.div_one] at hfirst
    rw [hfirst] at hread
    obtain ⟨hoff, -⟩ := (readCode_spec (b + 1) r).of_ok hread
    obtain ⟨r', cur', later', hepilogue, hoff', h'⟩ := ih (hfresh.of_readCode hread) h1 (by omega)
      (fun k hk => by rw [hstep]; exact hclear (k + 1) (by omega)) (by rw [hstep]; exact heof)
    refine ⟨r', cur', later', ?_, hoff'.trans (congrArg (fun r : Reader => { r with dDone := true }) hoff), ?_⟩
    · rw [epilogue_code hfresh.inOrder hfresh.nothingPending hfresh.notDone, decodeStep_clear hfresh hread, Body.bind_ok,
        hepilogue]
    · rw [hstep, Nat.sub_sub, show b + 1 + (n + 1) * (b + 1) = (n + 1 + 1) * (b + 1) by ring] at h'
      exact h'

end Codes

/-! ### `R_IMAGE` of an empty raster -/

/-- The unpacker, the decompressor, the pixel count and the tracker at the start of any image (R119, R137, R162). -/
theorem startImage_fields {r : Reader} {b : Byte} (h8 : b.toNat ≤ 8) :
    startImage b r = { r with
      pixRemain := rasterLength r.imgW r.imgH,
      rows := { row := 0, col := 0, pass := if r.imgH = 0#16 then 4#3 else 0#3, w := r.imgW, h := r.imgH,
                il := BitVec.ofBool (r.imgPacked.getLsbD 6) },
      dB := BitVec.ofNat 4 b.toNat, dClear := BitVec.ofNat 13 (2 ^ b.toNat),
      dEof := BitVec.ofNat 13 (2 ^ b.toNat + 1), dFirst := BitVec.ofNat 13 (2 ^ b.toNat + 2),
      dFree := BitVec.ofNat 13 (2 ^ b.toNat + 2), dW := BitVec.ofNat 4 (b.toNat + 1), dPrev := none, dDict := [],
      dPend := [], dDone := false, uAcc := 0, uCnt := 0, uLeft := 0, uEnd := false } := by
  have hb : b.setWidth 4 = BitVec.ofNat 4 b.toNat := BitVec.eq_of_toNat_eq (by simp)
  have hn : (BitVec.ofNat 4 b.toNat).toNat = b.toNat := by rw [BitVec.toNat_ofNat]; omega
  have hsucc : BitVec.ofNat 4 b.toNat + 1#4 = BitVec.ofNat 4 (b.toNat + 1) := (BitVec.ofNat_add ..).symm
  simp only [startImage, decompressStart, resetDecoder, hb, hn, hsucc, rowInit_eq, interlaceBit_eq]
  rfl

theorem startImage_sinRead (b : Byte) (r : Reader) : (startImage b r).sinRead = r.sinRead := by
  simp only [startImage, decompressStart, resetDecoder, startUnpacker]

section Started

variable {b : Byte} {r : Reader} (h2 : 2 ≤ b.toNat) (h8 : b.toNat ≤ 8)

include h2 h8

theorem startImage_fresh : FreshDecoder b.toNat (startImage b r) := by
  have hB : (startImage b r).dB.toNat = b.toNat := by
    rw [startImage_fields h8]
    exact (BitVec.toNat_ofNat ..).trans (Nat.mod_eq_of_lt (by omega))
  have hW : (startImage b r).dW.toNat = b.toNat + 1 := by
    rw [startImage_fields h8]
    exact (BitVec.toNat_ofNat ..).trans (Nat.mod_eq_of_lt (by omega))
  exact ⟨startImage_ok h2 h8, hB, hW, rfl, rfl, rfl⟩

/-- Image data of Clear Codes and the EOF Code, whole (R120, R132). -/
theorem epilogue_startImage {blocks : List (List Byte)} {last : List Byte} {n : Nat} {more : List SrcAnswer}
    (hsizes : ∀ d ∈ blocks ++ [last], 1 ≤ d.length ∧ d.length ≤ 255)
    (hlast : 8 * blocks.flatten.length < (n + 1) * (b.toNat + 1))
    (hfits : (n + 1) * (b.toNat + 1) ≤ 8 * (blocks ++ [last]).flatten.length)
    (hclear : ∀ k, k < n → codeAt (blocks ++ [last]).flatten (b.toNat + 1) k = 2 ^ b.toNat)
    (heof : codeAt (blocks ++ [last]).flatten (b.toNat + 1) n = 2 ^ b.toNat + 1)
    (hsin : r.sin = (inSubBlocks (blocks ++ [last]) ++ [0#8]).map .byte ++ more) :
    epilogue (startImage b r) = .ok () { startImage b r with
      dDone := true, uEnd := true, sin := more,
      sinRead := r.sinRead + (inSubBlocks (blocks ++ [last])).length + 1 } := by
  have hfresh := startImage_fresh (r := r) h2 h8
  have hahead := dataAhead_start (r := startImage b r) rfl rfl rfl rfl ((startImage_sin b r).trans hsin)
  obtain ⟨r', cur, later, hepilogue, hoff, hrest⟩ := epilogue_clearCodes hsizes n hfresh hahead hfits hclear heof
  have hlen : (blocks ++ [last]).flatten.length = blocks.flatten.length + last.length := by
    rw [List.flatten_append, List.flatten_singleton, List.length_append]
  obtain rfl : later = [] := hrest.later_nil (by omega)
  obtain ⟨-, -, -, -, -, -, -, -, hpend, hdone⟩ := sameDecoder_of_offUnpacker hoff
  have hsin' : r'.sin = (cur ++ [0#8]).map .byte ++ more := by
    rw [hrest.stream, inSubBlocks, List.flatMap_nil, List.append_nil]
  have hread : r'.sinRead + cur.length = r.sinRead + (inSubBlocks (blocks ++ [last])).length := by
    rw [← startImage_sinRead b r, ← hrest.read, inSubBlocks, List.flatMap_nil, List.append_nil]
  rw [hepilogue, epilogue_eofRead (hpend.trans hfresh.nothingPending) hdone, skipToTerminator_bytes hrest.left hsin',
    if_neg (not_not.2 rfl), hread]
  exact congrArg (fun q : Reader => (Body.ok () { q with
    uLeft := 0#8, uEnd := true, uAcc := 0#19, uCnt := 0, sin := more,
    sinRead := r.sinRead + (inSubBlocks (blocks ++ [last])).length + 1 } : Body Reader Unit)) hoff

/-- The code size byte of an image without pixels: the epilogue reads the image data at once (R162). -/
theorem imageDataStart_empty {r1 : Reader} (hb : srcByte r = .ok b r1) (hempty : rasterLength r1.imgW r1.imgH = 0#32) :
    imageDataStart r =
      (epilogue (startImage b { r1 with codeSize := b })).bind fun _ r => .ok () { r with state := .top } := by
  have hzero : (startImage b { r1 with codeSize := b }).pixRemain = 0#32 := hempty
  rw [imageDataStart, hb, Body.bind_ok]
  dsimp only
  rw [if_neg (by omega)]
  generalize startImage b { r1 with codeSize := b } = r2 at hzero ⊢
  exact if_pos hzero

end Started

/-- The reader behind the descriptor, its table and the code size byte (R161, R162). -/
def headerRead (d0 d1 d2 d3 d4 d5 d6 d7 d8 b : Byte) (table : List Byte) (rest : List SrcAnswer) (r : Reader) : Reader :=
  { r with
    imgLeft := d1 ++ d0, imgTop := d3 ++ d2, imgW := d5 ++ d4, imgH := d7 ++ d6, imgPacked := d8, codeSize := b,
    dout := r.dout ++ table, sin := rest, sinRead := r.sinRead + 10 + table.length }

/-- `R_IMAGE` of an image without pixels ends as the epilogue of the reader it starts does (R162). -/
theorem exec_rImage_empty {s : State} {d0 d1 d2 d3 d4 d5 d6 d7 d8 b : Byte} {table : List Byte} {rest : List SrcAnswer}
    (hs : s.reader.state = .imgDesc) (htable : table.length = tableSize d8) (h2 : 2 ≤ b.toNat) (h8 : b.toNat ≤ 8)
    (hempty : rasterLength (d5 ++ d4) (d7 ++ d6) = 0#32)
    (hsin : s.reader.sin = ([d0, d1, d2, d3, d4, d5, d6, d7, d8] ++ table ++ [b]).map .byte ++ rest) :
    exec .rImage s = endReader s
      ((epilogue (startImage b (headerRead d0 d1 d2 d3 d4 d5 d6 d7 d8 b table rest s.reader))).bind fun _ r =>
        .ok () { r with state := .top }) := by
  rw [List.map_append, List.append_assoc] at hsin
  have hread : s.reader.sinRead + 9 + table.length + 1 = s.reader.sinRead + 10 + table.length := by omega
  rw [exec_rImage_runs hs, rImageBody_table (d := [d0, d1, d2, d3, d4, d5, d6, d7, d8]) rfl htable hsin,
    setDescriptor_bytes, imageDataStart_empty h2 h8 (srcByte_byte (b := b) (rest := rest) rfl) hempty, headerRead]
  simp only [hread]

end Sys2Proof.Machine

open Sys2Proof Sys2Proof.Machine

/-- Settles O28: an image without pixels is read to its end by the epilogue of the reader started, code by code. -/
theorem rImageEmptyRaster : Obligations.RImageEmptyRaster := by
  refine ⟨?_, fun r hpend => epilogue_pending hpend, fun r hpend hdone => ⟨?_, ?_, ?_⟩,
    fun r hok hpend hdone => ⟨?_, ?_⟩⟩
  · intro s d0 d1 d2 d3 d4 d5 d6 d7 d8 b table rest started hs htable h2 h8 harea hsin hstarted
    have hempty : rasterLength (d5 ++ d4) (d7 ++ d6) = 0#32 := by rw [rasterLength, harea]
    have hrun := exec_rImage_empty hs htable h2 h8 hempty hsin
    have hstart : started = startImage b (headerRead d0 d1 d2 d3 d4 d5 d6 d7 d8 b table rest s.reader) := by
      rw [startImage_fields h8, hstarted, ← hempty]
      rfl
    refine ⟨fun r hend => ?_, fun e r hend => ?_, fun blocks last n more hsizes hlast hfits hclear heof hrest => ?_⟩
    · rw [hrun, ← hstart, hend]
      rfl
    · rw [hrun, ← hstart, hend]
      rfl
    · rw [hrun, epilogue_startImage h2 h8 hsizes hlast hfits hclear heof hrest, ← hstart]
      rfl
  · intro skipped more hlen hsin
    rw [epilogue_eofRead hpend hdone, skipToTerminator_bytes hlen hsin, if_neg (not_not.2 rfl)]
  · intro skipped l more hlen hl hsin
    rw [epilogue_eofRead hpend hdone, skipToTerminator_bytes hlen hsin, if_pos hl]
  · intro got tail more e hlen hsin hend
    rw [epilogue_eofRead hpend hdone, skipToTerminator_short hlen hsin hend]
  · intro e r1 hread
    rw [epilogue_code hok hpend hdone, decodeStep, hread, Body.bind_raise, Body.bind_raise]
  · intro c r1 hread
    have hstep : decodeStep r = applyCode c r1 := by rw [decodeStep, hread, Body.bind_ok]
    refine ⟨fun e r2 happly => ?_, fun r2 happly => ?_⟩
    · rw [epilogue_code hok hpend hdone, hstep, happly, Body.bind_raise]
    · rw [epilogue_code hok hpend hdone, hstep, happly, Body.bind_ok]

end

section
/-!
PROOFS. Codes as one number (R71): its bytes are the data bytes of their bit string. And data bytes in sub-blocks (R106,
R124): the first 255 of them and then the rest.
-/

namespace Sys2Proof.Machine

/-! ### Codes as one number -/

/-- The number of bits of a code sequence. -/
def codesBits (codes : List (Nat × Nat)) : Nat := (codes.map Prod.snd).sum

/-- A code sequence as one number, the first code lowest. -/
def codesNumber : List (Nat × Nat) → Nat
  | [] => 0
  | p :: ps => p.1 + codesNumber ps * 2 ^ p.2

/-- Every code is below 2 to its width. -/
def CodesFit (codes : List (Nat × Nat)) : Prop := ∀ p ∈ codes, p.1 < 2 ^ p.2

theorem codesBits_cons (c width : Nat) (codes : List (Nat × Nat)) :
    codesBits ((c, width) :: codes) = width + codesBits codes := List.sum_cons

theorem codesFit_cons {c width : Nat} {codes : List (Nat × Nat)} :
    CodesFit ((c, width) :: codes) ↔ c < 2 ^ width ∧ CodesFit codes := List.forall_mem_cons

theorem bitString_cons (c width : Nat) (codes : List (Nat × Nat)) :
    bitString ((c, width) :: codes) = (List.range width).map c.testBit ++ bitString codes := rfl

theorem bitString_length (codes : List (Nat × Nat)) : (bitString codes).length = codesBits codes := by
  induction codes with
  | nil => rfl
  | cons p codes ih => rw [bitString_cons, List.length_append, List.length_map, List.length_range, ih, codesBits_cons]

theorem codesNumber_lt {codes : List (Nat × Nat)} (h : CodesFit codes) : codesNumber codes < 2 ^ codesBits codes := by
  induction codes with
  | nil => exact Nat.one_pos
  | cons p codes ih =>
    obtain ⟨hc, hrest⟩ := codesFit_cons.1 h
    rw [codesBits_cons, codesNumber]
    exact add_shifted_lt hc (ih hrest)

/-- Bit `i` of the number is bit `i` of the bit string. -/
theorem testBit_codesNumber {codes : List (Nat × Nat)} (h : CodesFit codes) :
    ∀ i, (codesNumber codes).testBit i = (bitString codes).getD i false := by
  induction codes with
  | nil => exact Nat.zero_testBit
  | cons p codes ih =>
    intro i
    obtain ⟨hc, hrest⟩ := codesFit_cons.1 h
    rw [codesNumber, Nat.add_comm, Nat.mul_comm, Nat.testBit_two_pow_mul_add _ hc, bitString_cons]
    split
    · rename_i hi
      rw [List.getD_append _ _ _ _ (by simpa using hi)]
      simp [hi]
    · rename_i hi
      rw [List.getD_append_right _ _ _ _ (by simpa using hi), ih hrest, List.length_map, List.length_range]

/-- The low `k` bits of a number, summed up one by one. -/
theorem sum_testBit (m k : Nat) : ((List.range k).map fun i => (m.testBit i).toNat * 2 ^ i).sum = m % 2 ^ k := by
  induction k with
  | zero => rw [Nat.pow_zero, Nat.mod_one]; rfl
  | succ k ih =>
    rw [List.range_succ, List.map_append, List.sum_append, ih, List.map_singleton, List.sum_singleton,
      Nat.mod_pow_succ, Nat.toNat_testBit, Nat.mul_comm]

/-- The data bytes of codes are the bytes of their number (R71). -/
theorem dataBytes_bitString {codes : List (Nat × Nat)} (h : CodesFit codes) :
    dataBytes (bitString codes) = lowBytes (byteCount (codesBits codes)) (codesNumber codes) := by
  rw [dataBytes, bitString_length]
  refine List.map_congr_left fun j _ => BitVec.eq_of_toNat_eq ?_
  have hbit : ∀ i, (bitString codes).getD (8 * j + i) false = (codesNumber codes / 256 ^ j).testBit i := fun i => by
    rw [← testBit_codesNumber h, show 256 = 2 ^ 8 from rfl, ← Nat.pow_mul, Nat.testBit_div_two_pow, Nat.add_comm]
  simp only [hbit]
  rw [sum_testBit, BitVec.toNat_ofNat, BitVec.toNat_ofNat, Nat.mod_mod]

theorem bytesNumber_lowBytes (k : Nat) : ∀ v : Nat, bytesNumber (lowBytes k v) = v % 256 ^ k := by
  induction k with
  | zero => intro v; rw [Nat.pow_zero, Nat.mod_one]; rfl
  | succ k ih =>
    intro v
    have hpow : 256 ^ (k + 1) = 2 ^ 8 * 256 ^ k := Nat.pow_succ'
    rw [lowBytes_succ, bytesNumber, ih, BitVec.toNat_ofNat, hpow, Nat.mod_mul]
    rfl

/-- The data bytes of codes hold the codes' number. -/
theorem bytesNumber_dataBytes {codes : List (Nat × Nat)} (h : CodesFit codes) :
    bytesNumber (dataBytes (bitString codes)) = codesNumber codes := by
  have hroom : 2 ^ codesBits codes ≤ 256 ^ byteCount (codesBits codes) := by
    rw [show 256 = 2 ^ 8 from rfl, ← Nat.pow_mul]
    exact Nat.pow_le_pow_right (by decide) (by unfold byteCount; omega)
  rw [dataBytes_bitString h, bytesNumber_lowBytes, Nat.mod_eq_of_lt (lt_of_lt_of_le (codesNumber_lt h) hroom)]

theorem dataBytes_length (codes : List (Nat × Nat)) :
    (dataBytes (bitString codes)).length = byteCount (codesBits codes) := by
  rw [dataBytes, List.length_map, List.length_range, bitString_length, byteCount]

/-! ### Data bytes in sub-blocks -/

/-- The sub-blocks of data bytes: 255 bytes each, the last one shorter where it must be (R106). -/
def dataBlocks (d : List Byte) : List (List Byte) :=
  (List.range ((d.length + 254) / 255)).map fun k => (d.drop (255 * k)).take 255

theorem framed_eq (d : List Byte) : framed d = inSubBlocks (dataBlocks d) ++ [0x00#8] := by
  rw [inSubBlocks, dataBlocks, List.flatMap_map]; rfl

theorem dataBlocks_ne_nil {d : List Byte} (h : d ≠ []) : dataBlocks d = d.take 255 :: dataBlocks (d.drop 255) := by
  have hpos := List.length_pos_iff.2 h
  have hcount : (d.length + 254) / 255 = ((d.drop 255).length + 254) / 255 + 1 := by rw [List.length_drop]; omega
  rw [dataBlocks, hcount, List.range_succ_eq_map, List.map_cons, List.map_map, Nat.mul_zero, List.drop_zero, dataBlocks]
  congr 2
  funext k
  rw [Function.comp_apply, List.drop_drop, Nat.mul_succ, Nat.add_comm]

/-- What holds of no data, and of data wherever it holds behind the first sub-block, holds of all data. -/
theorem block_induction {P : List Byte → Prop} (nil : P []) (block : ∀ d, d ≠ [] → P (d.drop 255) → P d)
    (d : List Byte) : P d := by
  induction hn : d.length using Nat.strong_induction_on generalizing d with
  | _ n ih =>
    by_cases h : d = []
    · exact h ▸ nil
    · have hpos := List.length_pos_iff.2 h
      exact block d h (ih _ (by rw [List.length_drop]; omega) _ rfl)

theorem dataBlocks_flatten (d : List Byte) : (dataBlocks d).flatten = d := by
  induction d using block_induction with
  | nil => rfl
  | block d h ih => rw [dataBlocks_ne_nil h, List.flatten_cons, ih, List.take_append_drop]

theorem dataBlocks_sizes (d : List Byte) : ∀ b ∈ dataBlocks d, 1 ≤ b.length ∧ b.length ≤ 255 := by
  induction d using block_induction with
  | nil => exact fun b hb => nomatch hb
  | block d h ih =>
    have hpos := List.length_pos_iff.2 h
    rw [dataBlocks_ne_nil h, List.forall_mem_cons, List.length_take]
    exact ⟨by omega, ih⟩

theorem inSubBlocks_length (blocks : List (List Byte)) :
    (inSubBlocks blocks).length = blocks.flatten.length + blocks.length := by
  induction blocks with
  | nil => rfl
  | cons b blocks ih =>
    have hsplit : inSubBlocks (b :: blocks) = BitVec.ofNat 8 b.length :: b ++ inSubBlocks blocks := rfl
    rw [hsplit, List.length_append, ih, List.flatten_cons, List.length_append, List.length_cons, List.length_cons]
    omega

theorem framed_length (d : List Byte) : (framed d).length = d.length + (d.length + 254) / 255 + 1 := by
  rw [framed_eq, List.length_append, inSubBlocks_length, dataBlocks_flatten, dataBlocks, List.length_map,
    List.length_range, List.length_singleton]

/-- Data that is not empty: its first sub-block, then the rest framed. -/
theorem framed_ne_nil {d : List Byte} (h : d ≠ []) :
    framed d = BitVec.ofNat 8 (d.take 255).length :: d.take 255 ++ framed (d.drop 255) := by
  rw [framed_eq, dataBlocks_ne_nil h, framed_eq, ← List.append_assoc]
  rfl

/-- Data that fills a sub-block. -/
theorem framed_full {d : List Byte} (h : 255 ≤ d.length) :
    framed d = 255#8 :: d.take 255 ++ framed (d.drop 255) := by
  rw [framed_ne_nil (List.length_pos_iff.1 (by omega)), List.length_take, Nat.min_eq_left h]

end Sys2Proof.Machine
end

section
/-!
PROOFS. The packer to its Flush (R113 to R117, R124): a run of codes and the Flush behind them put into SOUT what was
pending and the codes' bit string, framed.
-/

namespace Sys2Proof.Machine

/-! ### PutByte -/

/-- A sink that accepts everything takes every byte. -/
theorem sinkBytes_unrefused (bs : List Byte) {w : Writer} (ha : w.sinkAnswers = []) :
    sinkBytes bs w = .ok () { w with sout := w.sout ++ bs } := by
  rw [sinkBytes_acceptsFirst bs w (by simp [acceptsFirst, ha]), ha, List.drop_nil, ← ha]

/-- `PutByte` where it fills the sub-block and the sink accepts it (R115). -/
theorem putByte_accepted {w : Writer} (x : Byte) (hlen : w.pBuf.length = 254) (ha : acceptsFirst 256 w) :
    putByte x w = .ok () { w with
      pBuf := [], sout := w.sout ++ 255#8 :: (w.pBuf ++ [x]), sinkAnswers := w.sinkAnswers.drop 256 } := by
  have hblock : (255#8 :: (w.pBuf ++ [x])).length = 256 := by simp [hlen]
  rw [putByte_full x hlen, sinkBytes_acceptsFirst _ { w with pBuf := w.pBuf ++ [x] } (by rw [hblock]; exact ha), hblock]
  rfl

/-- `PutByte` where it fills the sub-block and the sink refuses a byte of it (R115). -/
theorem putByte_refused {w : Writer} (x : Byte) {k : Nat} {rest : List SinkAnswer} (hlen : w.pBuf.length = 254)
    (hk : k < 256) (ha : w.sinkAnswers = List.replicate k .ok ++ .error :: rest) :
    putByte x w = .raise .ioError { w with
      pBuf := w.pBuf ++ [x], sout := w.sout ++ (255#8 :: (w.pBuf ++ [x])).take (k + landedCount w), sinkAnswers := rest,
      draws := w.draws + 1 } := by
  have hblock : (255#8 :: (w.pBuf ++ [x])).length = 256 := by simp [hlen]
  rw [putByte_full x hlen, sinkBytes_refused _ k { w with pBuf := w.pBuf ++ [x] } rest (by omega) ha]
  rfl

/-! ### Flush -/

/-- What comes behind the full bytes of `v` goes on where the packer stands after them. -/
theorem packed_framed (v bits : Nat) (w : Writer) (more : List Byte) :
    (packed v bits w).sout ++ framed ((packed v bits w).pBuf ++ more) =
      w.sout ++ framed (blockBytes v bits w ++ more) := by
  by_cases hlen : 255 ≤ (blockBytes v bits w).length
  · have hmore : 255 ≤ (blockBytes v bits w ++ more).length := by rw [List.length_append]; omega
    rw [framed_full hmore, List.take_append_of_le_length hlen, List.drop_append_of_le_length hlen]
    simp only [packed, if_pos hlen, List.append_assoc]
  · simp only [packed, if_neg hlen]

/-- `w` with no bits pending (R116). -/
def padded (w : Writer) : Writer := { w with pAcc := 0, pCnt := 0 }

/-- `w` with an empty packer, SOUT holding `out` (R116, R117). -/
def flushed (out : List Byte) (w : Writer) : Writer := { w with pAcc := 0, pCnt := 0, pBuf := [], sout := out }

theorem packed_unrefused (v bits : Nat) {w : Writer} (ha : w.sinkAnswers = []) : (packed v bits w).sinkAnswers = [] := by
  rw [packed, ha, List.drop_nil, ite_self]

/-- But for the packer and SOUT, a writer whose sink accepts everything is what it was before it packed. -/
theorem flushed_packed (v bits : Nat) {w : Writer} (ha : w.sinkAnswers = []) (out : List Byte) :
    flushed out (packed v bits w) = flushed out w := by
  simp only [flushed, packed_unrefused v bits ha, ha]
  rfl

/-- The pending bits go into the sub-block, padded with zeros to a byte (R116). -/
theorem flushBits_packed {w : Writer} (hp : packerOk w) (ha : w.sinkAnswers = []) :
    flushBits w = .ok () (padded (packed w.pAcc.toNat (8 * byteCount w.pCnt) w)) := by
  obtain ⟨hcnt, hacc, hbuf⟩ := hp
  by_cases h0 : 0 < w.pCnt
  · have hone : 8 * byteCount w.pCnt = 8 := by unfold byteCount; omega
    have hblock : blockBytes w.pAcc.toNat 8 w = w.pBuf ++ [accByte w.pAcc] := by
      rw [blockBytes, accByte_ofNat rfl, ← lowBytes_one]
    rw [flushBits, if_pos h0, hone, packed, hblock]
    obtain hlen | hlen := hbuf.lt_or_eq
    · have hshort : ¬ 255 ≤ (w.pBuf ++ [accByte w.pAcc]).length := by simp; omega
      rw [putByte_pending _ hlen, if_neg hshort, if_neg hshort, if_neg hshort]
      rfl
    · have hfull : (w.pBuf ++ [accByte w.pAcc]).length = 255 := by simp [hlen]
      rw [putByte_accepted _ hlen (by simp [acceptsFirst, ha]), if_pos hfull.ge, if_pos hfull.ge, if_pos hfull.ge,
        List.drop_eq_nil_of_le hfull.le, List.take_of_length_le hfull.le]
      rfl
  · have hcnt0 : w.pCnt = 0 := by omega
    have hacc0 : w.pAcc = 0 := BitVec.eq_of_toNat_eq (by rw [hcnt0] at hacc; simpa using hacc)
    have hnone : w.pBuf ++ lowBytes (byteCount 0) w.pAcc.toNat = w.pBuf := List.append_nil _
    rw [flushBits, if_neg h0, hcnt0, packed_pending (by show _ + 0 < 255; omega)]
    have hself : w = padded w := by rw [padded, ← hcnt0, ← hacc0]
    conv_lhs => rw [hself]
    exact congrArg (fun l => Body.ok () { padded w with pBuf := l }) hnone.symm

/-- The pending sub-block, if there is one, and the terminator (R116). -/
theorem flushSubBlock_framed {w : Writer} (hlen : w.pBuf.length ≤ 254) (ha : w.sinkAnswers = []) :
    ((flushSubBlock w).bind fun _ w => sinkByte 0x00#8 w) =
      .ok () (dropBlock { w with sout := w.sout ++ framed w.pBuf }) := by
  by_cases h0 : w.pBuf = []
  · rw [flushSubBlock, if_neg (by simp [h0]), Body.bind_ok, ← sinkBytes_singleton, sinkBytes_unrefused _ ha, dropBlock, h0]
    rfl
  · have hframed : framed w.pBuf = BitVec.ofNat 8 w.pBuf.length :: w.pBuf ++ [0x00#8] := by
      rw [framed_ne_nil h0, List.take_of_length_le (by omega), List.drop_eq_nil_of_le (by omega)]
      rfl
    rw [flushSubBlock, if_pos (List.length_pos_iff.2 h0), Body.bind_assoc, sinkSubBlock_eq, sinkBytes_unrefused _ ha,
      Body.bind_ok, Body.bind_ok, ← sinkBytes_singleton, sinkBytes_unrefused [0x00#8] (by exact ha), hframed,
      ← List.append_assoc]
    rfl

/-- Flush puts the pending bytes and bits into SOUT, framed (R116, R124). -/
theorem flushPacker_framed {w : Writer} (hp : packerOk w) (ha : w.sinkAnswers = []) :
    flushPacker w =
      .ok () (flushed (w.sout ++ framed (w.pBuf ++ lowBytes (byteCount w.pCnt) w.pAcc.toNat)) w) := by
  have hfits : w.pAcc.toNat < 2 ^ (8 * byteCount w.pCnt) :=
    lt_of_lt_of_le hp.2.1 (Nat.pow_le_pow_right (by decide) (by unfold byteCount; omega))
  obtain ⟨⟨-, -, hlen⟩, -⟩ := packed_packerOk hp.2.2 hfits (by unfold byteCount; omega)
  have hout := packed_framed w.pAcc.toNat (8 * byteCount w.pCnt) w []
  rw [List.append_nil, List.append_nil, blockBytes, Nat.mul_div_cancel_left _ (by decide)] at hout
  rw [flushPacker, flushBits_packed hp ha, Body.bind_ok,
    flushSubBlock_framed (by exact hlen) (by exact packed_unrefused _ _ ha), ← hout, ← flushed_packed _ _ ha]
  rfl

/-- The full bytes of `b1` bits, and the data bytes of the bits above and more codes: the data bytes of all. -/
theorem dataBytes_packed {a k c width : Nat} {codes : List (Nat × Nat)} (ha : a < 2 ^ k) (hc : c < 2 ^ width)
    (hcodes : CodesFit codes) :
    dataBytes (bitString ((a, k) :: (c, width) :: codes)) = lowBytes ((k + width) / 8) (a + c * 2 ^ k) ++
      dataBytes (bitString (((a + c * 2 ^ k) / 256 ^ ((k + width) / 8), (k + width) % 8) :: codes)) := by
  have hhigh : (a + c * 2 ^ k) / 256 ^ ((k + width) / 8) < 2 ^ ((k + width) % 8) := by
    rw [Nat.div_lt_iff_lt_mul (Nat.pow_pos (by decide)), ← two_pow_bytes]
    exact add_shifted_lt ha hc
  have happend := lowBytes_append (a + c * 2 ^ k) (k + width) (codesNumber codes) (codesBits codes + 7)
  rw [dataBytes_bitString (codesFit_cons.2 ⟨ha, codesFit_cons.2 ⟨hc, hcodes⟩⟩),
    dataBytes_bitString (codesFit_cons.2 ⟨hhigh, hcodes⟩)]
  simp only [codesBits_cons, codesNumber, byteCount, Nat.add_mul, Nat.mul_assoc, ← Nat.pow_add, ← Nat.add_assoc,
    Nat.add_comm width k] at happend ⊢
  exact happend

/-- Codes and a Flush put the pending bytes and bits and the codes above them into SOUT, framed (R113, R116, R124). -/
theorem writeCodes_flush (codes : List (Nat × Nat)) : ∀ w : Writer, (∀ p ∈ codes, p.2 ≤ 12) → CodesFit codes →
    packerOk w → w.sinkAnswers = [] →
    ((writeCodes codes w).bind fun _ w => flushPacker w) = .ok () (flushed
      (w.sout ++ framed (w.pBuf ++ dataBytes (bitString ((w.pAcc.toNat, w.pCnt) :: codes)))) w) := by
  induction codes with
  | nil =>
    intro w _ hfit hp ha
    rw [writeCodes, Body.bind_ok, flushPacker_framed hp ha, dataBytes_bitString (codesFit_cons.2 ⟨hp.2.1, hfit⟩),
      codesBits_cons, codesNumber, codesNumber, Nat.zero_mul]
    rfl
  | cons p codes ih =>
    intro w hwidths hfit hp ha
    obtain ⟨hw, hwidths⟩ := List.forall_mem_cons.1 hwidths
    obtain ⟨hc, hfit⟩ := codesFit_cons.1 hfit
    obtain ⟨hb, hv⟩ := pending_fit hp hc hw rfl rfl
    obtain ⟨hok, hacc⟩ := packed_packerOk hp.2.2 hv hb
    rw [writeCodes, writeCode_packed hp hc hw rfl rfl fun _ => by simp [acceptsFirst, ha], Body.bind_ok,
      ih _ hwidths hfit hok (packed_unrefused _ _ ha), hacc, packed_framed, flushed_packed _ _ ha, blockBytes,
      List.append_assoc, dataBytes_packed hp.2.1 hc hfit]
    rfl

/-! ### Whatever the sink answers -/

theorem writeCodes_law {whole : Prop} (codes : List (Nat × Nat)) : ∀ w : Writer, SinkLaw whole (writeCodes codes) w := by
  induction codes with
  | nil => exact fun w => .sets (upd := id) ⟨fun _ => rfl, rfl, rfl⟩ (ImageKept.refl w)
  | cons p codes ih => exact fun w => (writeCode_law p.1 p.2 w).bind ih

/-- What a part does with a sink that accepts everything fixes what it does with any other. -/
theorem SinkLaw.run {whole : Prop} {f : Writer → Body Writer Unit} {w w' : Writer} {d : List Byte}
    (h : SinkLaw whole f w) (hok : f (unrefused w) = .ok () w') (hout : w'.sout = w.sout ++ d) :
    SinkRun whole f w d w' := by
  obtain ⟨d1, w1, hrun, -⟩ := h
  obtain ⟨-, rfl⟩ : () = () ∧ w1 = w' := by simpa using hrun.completes.symm.trans hok
  obtain rfl : d1 = d := List.append_cancel_left (hrun.out.symm.trans hout)
  exact hrun

/-- The data bytes that a Flush behind `codes` completes: those pending, and those of the pending bits and the codes. -/
def dataThrough (codes : List (Nat × Nat)) (w : Writer) : List Byte :=
  w.pBuf ++ dataBytes (bitString ((w.pAcc.toNat, w.pCnt) :: codes))

/-- Codes and a Flush write the data they complete, framed. -/
theorem writeCodes_flush_run {codes : List (Nat × Nat)} {w : Writer} (hwidths : ∀ p ∈ codes, p.2 ≤ 12)
    (hfit : CodesFit codes) (hp : packerOk w) :
    SinkRun True (fun w => (writeCodes codes w).bind fun _ w => flushPacker w) w (framed (dataThrough codes w))
      (flushed (w.sout ++ framed (dataThrough codes w)) (unrefused w)) :=
  ((writeCodes_law codes w).bind flushPacker_law).run (writeCodes_flush codes (unrefused w) hwidths hfit hp rfl) rfl

/-- From an empty packer that is the codes' own bit string. -/
theorem dataThrough_empty (codes : List (Nat × Nat)) {w : Writer} (h : packerEmpty w) :
    dataThrough codes w = dataBytes (bitString codes) := by
  obtain ⟨hcnt, -, hbuf⟩ := h
  rw [dataThrough, hbuf, hcnt]
  rfl

theorem packerEmpty.ok {w : Writer} (h : packerEmpty w) : packerOk w := by
  obtain ⟨hcnt, hacc, hbuf⟩ := h
  exact ⟨by omega, by rw [hcnt, hacc]; decide, by rw [hbuf]; exact Nat.zero_le _⟩

/-- From an empty packer, codes and a Flush that the sink accepts change nothing but SOUT (R124). -/
theorem writeCodes_flush_empty {codes : List (Nat × Nat)} {w : Writer} (hwidths : ∀ p ∈ codes, p.2 ≤ 12)
    (hfit : CodesFit codes) (h : packerEmpty w)
    (ha : acceptsFirst (framed (dataBytes (bitString codes))).length w) :
    ((writeCodes codes w).bind fun _ w => flushPacker w) = .ok () { w with
      sout := w.sout ++ framed (dataBytes (bitString codes)),
      sinkAnswers := w.sinkAnswers.drop (framed (dataBytes (bitString codes))).length } := by
  have hrun := writeCodes_flush_run hwidths hfit h.ok
  rw [dataThrough_empty codes h] at hrun
  rw [hrun.accepted ha]
  obtain ⟨hcnt, hacc, hbuf⟩ := h
  simp only [flushed, unrefused, hcnt, hacc, hbuf]
  rfl

end Sys2Proof.Machine

open Sys2Proof Sys2Proof.Machine

/-- Settles O52: the code stands above the pending bits, and the loop of WriteCode leaves fewer than 8. -/
theorem packerInvariant : Obligations.PackerInvariant := by
  refine ⟨fun w w' c width hp _ hw' => ((writeCode_spec c width w).of_ok hw').2.2 hp, fun w c width hp hw => ?_⟩
  have hc : c % 2 ^ width < 2 ^ width := Nat.mod_lt _ (Nat.two_pow_pos width)
  obtain ⟨hbits, hlt⟩ := pending_fit hp hc hw rfl rfl
  have hacc := acc_append_toNat hp.2.1 hc hbits
  rw [Nat.mod_mod] at hacc
  exact ⟨hbits, lt_of_lt_of_le hlt (Nat.pow_le_pow_right (by decide) hbits), hacc⟩

/-- Settles O53: the byte is appended, and the sub-block it fills is one run of 256 bytes. -/
theorem putByteFillsSubBlock : Obligations.PutByteFillsSubBlock := fun w x =>
  ⟨putByte_pending x, putByte_accepted x, fun hlen _ _ hk ha =>
    ⟨_, putByte_refused x hlen hk ha, landedCount w, landedCount_le w, rfl⟩⟩

/-- Settles O54, by induction on the codes for any packer in order, and the length sub-block by sub-block. -/
theorem packerWritesBitString : Obligations.PackerWritesBitString :=
  ⟨fun _ _ hcodes h ha => writeCodes_flush_empty (fun p hp => (hcodes p hp).1) (fun p hp => (hcodes p hp).2) h ha,
    dataBytes_length, framed_length⟩

end

section
/-!
PROOFS. The bit buffer round trip (R123): ReadCode takes the codes off the number that the data bytes hold, and behind the
last code only pad bits and the terminator are left.
-/

namespace Sys2Proof.Machine

section RoundTrip

variable {blocks : List (List Byte)} {more : List SrcAnswer} {total : Nat}
  (hsizes : ∀ d ∈ blocks, 1 ≤ d.length ∧ d.length ≤ 255)

include hsizes

/-- The codes' number ahead is read as the codes, in order; the bits above them are left. -/
theorem readCodes_ahead (codes : List (Nat × Nat)) : ∀ {bits r cur later}, (∀ p ∈ codes, p.2 ≤ 12) → CodesFit codes →
    DataAhead blocks more total (codesNumber codes) bits cur later r → codesBits codes ≤ bits →
    ∃ r' cur' later', readCodes (codes.map Prod.snd) r = .ok (codes.map Prod.fst) r' ∧
      DataAhead blocks more total 0 (bits - codesBits codes) cur' later' r' := by
  induction codes with
  | nil => exact fun _ _ h _ => ⟨_, _, _, rfl, h⟩
  | cons p codes ih =>
    intro bits r cur later hwidths hfit h hbits
    obtain ⟨hw, hwidths⟩ := List.forall_mem_cons.1 hwidths
    obtain ⟨hc, hfit⟩ := codesFit_cons.1 hfit
    rw [codesBits_cons] at hbits ⊢
    obtain ⟨r1, cur1, later1, hread, h1⟩ := readCode_ahead hsizes h hw (by omega)
    have hcode : codesNumber (p :: codes) % 2 ^ p.2 = p.1 := by
      rw [codesNumber, Nat.add_mul_mod_self_right, Nat.mod_eq_of_lt hc]
    have hrest : codesNumber (p :: codes) / 2 ^ p.2 = codesNumber codes := by
      rw [codesNumber, Nat.add_mul_div_right _ _ (Nat.two_pow_pos _), Nat.div_eq_of_lt hc, Nat.zero_add]
    rw [hcode] at hread
    rw [hrest] at h1
    obtain ⟨r', cur', later', hreads, h'⟩ := ih hwidths hfit h1 (by omega)
    refine ⟨r', cur', later', ?_, by rwa [Nat.sub_sub] at h'⟩
    rw [List.map_cons, readCodes, hread, Body.bind_ok, hreads, Body.bind_ok, List.map_cons]

/-- With less than a byte ahead, only the terminator is left. -/
theorem skipToTerminator_padding {v bits : Nat} {cur later} {r : Reader} (h : DataAhead blocks more total v bits cur later r)
    (hbits : bits < 8) : ∃ r', skipToTerminator r = .ok () r' ∧ r'.sin = more := by
  have hcount := h.count
  obtain ⟨rfl, hflat⟩ : cur = [] ∧ later.flatten = [] := by
    rw [← List.append_eq_nil_iff, ← List.length_eq_zero_iff]; omega
  have hlater : later = [] := List.eq_nil_iff_forall_not_mem.2 fun d hd => by
    have hlen := (hsizes d (h.blocks_end.subset hd)).1
    rw [List.flatten_eq_nil_iff.1 hflat d hd] at hlen
    exact absurd hlen (by decide)
  subst hlater
  exact ⟨_, (skipToTerminator_bytes h.left h.stream).trans (if_neg (not_not.2 rfl)), rfl⟩

end RoundTrip

/-- What the packer wrote is read back, code by code (R123). -/
theorem readCodes_framed {codes : List (Nat × Nat)} (hwidths : ∀ p ∈ codes, p.2 ≤ 12) (hfit : CodesFit codes) (r : Reader)
    (rest : List SrcAnswer) :
    ∃ r1 r2, readCodes (codes.map Prod.snd)
        (startUnpacker { r with sin := (framed (dataBytes (bitString codes))).map .byte ++ rest }) =
          .ok (codes.map Prod.fst) r1 ∧ skipToTerminator r1 = .ok () r2 ∧ r2.sin = rest := by
  have hsizes := dataBlocks_sizes (dataBytes (bitString codes))
  have hahead := dataAhead_start (blocks := dataBlocks (dataBytes (bitString codes))) (more := rest)
    (r := startUnpacker { r with sin := (framed (dataBytes (bitString codes))).map .byte ++ rest }) rfl rfl rfl rfl
    (by rw [← framed_eq]; rfl)
  rw [dataBlocks_flatten, bytesNumber_dataBytes hfit, dataBytes_length] at hahead
  obtain ⟨r1, cur, later, hread, h1⟩ := readCodes_ahead hsizes codes hwidths hfit hahead (by unfold byteCount; omega)
  obtain ⟨r2, hskip, hsin⟩ := skipToTerminator_padding hsizes h1 (by unfold byteCount; omega)
  exact ⟨r1, r2, hread, hskip, hsin⟩

end Sys2Proof.Machine

open Sys2Proof Sys2Proof.Machine

/-- Settles O55: the codes and the Flush write the codes' bit string, framed, and it is read back by induction on the
codes. -/
theorem bitBufferRoundTrip : Obligations.BitBufferRoundTrip := by
  intro codes w r rest hcodes hempty ha
  have hwidths : ∀ p ∈ codes, p.2 ≤ 12 := fun p hp => (hcodes p hp).2.1
  have hfit : CodesFit codes := fun p hp => (hcodes p hp).2.2
  exact ⟨_, _, writeCodes_flush_empty hwidths hfit hempty ha, rfl, readCodes_framed hwidths hfit r rest⟩

end

section
/-!
PROOFS. Parts that go on the same whatever some fields hold: an update of those fields may come before or after, whichever
way the part ends.
-/

namespace Sys2Proof.Machine

/-- A body with its channel updated at the end, where it has one. -/
def Body.updated {σ α : Type} (g : σ → σ) : Body σ α → Body σ α
  | .ok a c => .ok a (g c)
  | .raise e c => .raise e (g c)
  | .stuck f => .stuck f

variable {σ α β : Type} {g : σ → σ}

/-- An update that the second part lets through from wherever the first part may end. -/
theorem Body.Spec.updated_bind {x : Body σ α} {f : α → σ → Body σ β} {P : α → σ → Prop} {Q : Status → σ → Prop}
    {S : Fault → Prop} (hx : Body.Spec P Q S x) (hf : ∀ a c, P a c → f a (g c) = (f a c).updated g) :
    (x.updated g).bind f = (x.bind f).updated g := by
  cases x with
  | ok a c => exact hf a c hx
  | raise e c => rfl
  | stuck r => rfl

theorem Body.updated_bind {x : Body σ α} {f : α → σ → Body σ β} (hf : ∀ a c, f a (g c) = (f a c).updated g) :
    (x.updated g).bind f = (x.bind f).updated g := by
  cases x with
  | ok a c => exact hf a c
  | raise e c => rfl
  | stuck r => rfl

end Sys2Proof.Machine
end

section
/-!
PROOFS. `R_PIXELS` in full (R145, R146, R164): pending pixels, then code by code; the end of the raster and of the image
data; and ReadCode byte by byte (R118).
-/

namespace Sys2Proof.Machine

/-! ### ReadCode, byte by byte -/

section ReadCode

variable {r : Reader} {width : Nat}

theorem readCode_held (h : width ≤ r.uCnt) :
    readCode width r =
      .ok (r.uAcc.toNat % 2 ^ width) { r with uAcc := r.uAcc >>> width, uCnt := r.uCnt - width } := by
  rw [readCode, fillBits_bound width width 0 r (by omega) (by omega)]
  rfl

/-- ReadCode that needs more bits is a turn of its loop and ReadCode again (R118). -/
theorem readCode_turn (h : r.uCnt < width) : readCode width r = (loadBits r).bind fun _ r => readCode width r := by
  obtain ⟨n, rfl⟩ := Nat.exists_eq_succ_of_ne_zero (Nat.ne_of_gt (Nat.zero_lt_of_lt h))
  rw [readCode, fillBits, if_pos h, Body.bind_assoc]
  refine (loadBits_spec r).bind_congr fun _ r1 ⟨_, _, hcnt, _⟩ => ?_
  rw [readCode, fillBits_bound (n + 1) n (n + 1) r1 (by omega) (by omega)]

theorem loadBits_ended (hleft : r.uLeft = 0#8) (hend : r.uEnd = true) : loadBits r = .raise .unexpectedEndOfData r := by
  rw [loadBits, if_pos hleft, if_pos hend]

theorem loadBits_terminator {rest : List SrcAnswer} (hleft : r.uLeft = 0#8) (hend : r.uEnd = false)
    (hsin : r.sin = .byte 0#8 :: rest) :
    loadBits r = .raise .unexpectedEndOfData { r with uEnd := true, sin := rest, sinRead := r.sinRead + 1 } := by
  rw [loadBits, if_pos hleft, hend, if_neg (by decide), srcByte_byte hsin, Body.bind_ok]
  exact if_pos rfl

/-- A length byte only starts the sub-block. -/
theorem loadBits_length {l : Byte} {rest : List SrcAnswer} (hleft : r.uLeft = 0#8) (hend : r.uEnd = false)
    (hsin : r.sin = .byte l :: rest) (hl : l ≠ 0#8) :
    loadBits r = loadBits { r with uLeft := l, sin := rest, sinRead := r.sinRead + 1 } := by
  conv_lhs => rw [loadBits, if_pos hleft, hend, if_neg (by decide), srcByte_byte hsin, Body.bind_ok, if_neg hl]
  exact (if_neg hl).symm

theorem loadBits_data {x : Byte} {rest : List SrcAnswer} (hleft : r.uLeft ≠ 0#8) (hsin : r.sin = .byte x :: rest) :
    loadBits r = .ok () { r with
      uLeft := r.uLeft - 1#8, uAcc := r.uAcc ||| (x.setWidth 19 <<< r.uCnt), uCnt := r.uCnt + 8, sin := rest,
      sinRead := r.sinRead + 1 } := by
  rw [loadBits, if_neg hleft, loadDataByte, srcByte_byte hsin, Body.bind_ok]

theorem loadBits_streamEnd {e : Status} {rest : List SrcAnswer} (hend : r.uLeft = 0#8 → r.uEnd = false)
    (hsin : streamEnd r.sin = some (e, rest)) : loadBits r = .raise e { r with sin := rest } := by
  by_cases hleft : r.uLeft = 0#8
  · rw [loadBits, if_pos hleft, if_neg (by rw [hend hleft]; decide), srcByte_streamEnd hsin, Body.bind_raise]
  · rw [loadBits, if_neg hleft, loadDataByte, srcByte_streamEnd hsin, Body.bind_raise]

end ReadCode

/-! ### Pending pixels may be delivered before or after a code -/

/-- `r` after its first `k` pending pixels have been delivered, the raster not being full (R145). -/
def delivered (k : Nat) (r : Reader) : Reader :=
  { r with
    dout := r.dout ++ r.dPend.take k, dPend := r.dPend.drop k, pixRemain := r.pixRemain - BitVec.ofNat 32 k
    rows := rowAdvances k r.rows }

theorem srcByte_delivered (k : Nat) (r : Reader) : srcByte (delivered k r) = (srcByte r).updated (delivered k) := by
  have hsin : (delivered k r).sin = r.sin := rfl
  unfold srcByte
  rw [hsin]
  split <;> rfl

theorem loadDataByte_delivered (k : Nat) (r : Reader) :
    loadDataByte (delivered k r) = (loadDataByte r).updated (delivered k) := by
  rw [loadDataByte, srcByte_delivered]
  exact Body.updated_bind fun _ _ => rfl

theorem loadBits_delivered (k : Nat) (r : Reader) : loadBits (delivered k r) = (loadBits r).updated (delivered k) := by
  have hleft : (delivered k r).uLeft = r.uLeft := rfl
  have hend : (delivered k r).uEnd = r.uEnd := rfl
  unfold loadBits
  rw [hleft, hend]
  split
  · split
    · rfl
    · rw [srcByte_delivered]
      refine Body.updated_bind fun l c => ?_
      split
      · rfl
      · exact loadDataByte_delivered k { c with uLeft := l }
  · exact loadDataByte_delivered k r

theorem fillBits_delivered (k width n : Nat) : ∀ r : Reader,
    fillBits width n (delivered k r) = (fillBits width n r).updated (delivered k) := by
  induction n with
  | zero => exact fun r => rfl
  | succ n ih =>
    intro r
    have hcnt : (delivered k r).uCnt = r.uCnt := rfl
    rw [fillBits, fillBits, hcnt]
    split
    · rw [loadBits_delivered]
      exact Body.updated_bind fun _ => ih
    · rfl

theorem readCode_delivered (k width : Nat) (r : Reader) :
    readCode width (delivered k r) = (readCode width r).updated (delivered k) := by
  rw [readCode, fillBits_delivered]
  exact Body.updated_bind fun _ _ => rfl

theorem addEntry_delivered (k : Nat) (q : Code) (x : Byte) (r : Reader) :
    addEntry q x (delivered k r) = delivered k (addEntry q x r) := by
  have hfree : (delivered k r).dFree = r.dFree := rfl
  unfold addEntry
  rw [hfree]
  split <;> rfl

/-- A string joins the pending pixels behind those that are delivered first. -/
theorem acceptString_delivered {k : Nat} (c : Nat) (s : List Byte) {r : Reader} (hk : k ≤ r.dPend.length) :
    acceptString c s (delivered k r) = delivered k (acceptString c s r) := by
  simp only [acceptString, delivered, List.take_append_of_le_length hk, List.drop_append_of_le_length hk]

theorem addEntry_dPend (q : Code) (x : Byte) (r : Reader) : (addEntry q x r).dPend = r.dPend := by
  unfold addEntry
  split <;> rfl

theorem applyCode_delivered {k : Nat} (c : Nat) {r : Reader} (hk : k ≤ r.dPend.length) :
    applyCode c (delivered k r) = (applyCode c r).updated (delivered k) := by
  have hstring : ∀ c, stringOf c (delivered k r) = stringOf c r := fun _ => rfl
  have haccept : ∀ (s : List Byte) (q : Code) (x : Byte), acceptString c s (addEntry q x (delivered k r)) =
      delivered k (acceptString c s (addEntry q x r)) := fun s q x => by
    rw [addEntry_delivered, acceptString_delivered c s (by rw [addEntry_dPend]; exact hk)]
  have hclear : (delivered k r).dClear = r.dClear := rfl
  have heof : (delivered k r).dEof = r.dEof := rfl
  have hfirst : (delivered k r).dFirst = r.dFirst := rfl
  have hfree : (delivered k r).dFree = r.dFree := rfl
  have hprev : (delivered k r).dPrev = r.dPrev := rfl
  unfold applyCode
  simp only [hclear, heof, hfirst, hfree, hprev, hstring, haccept, acceptString_delivered c _ hk]
  split
  · rfl
  split
  · rfl
  split
  · split <;> rfl
  split
  · split <;> rfl
  split
  · split <;> rfl
  · rfl

theorem decodeStep_delivered {k : Nat} {r : Reader} (hk : k ≤ r.dPend.length) :
    decodeStep (delivered k r) = (decodeStep r).updated (delivered k) := by
  have hw : (delivered k r).dW = r.dW := rfl
  rw [decodeStep, hw, readCode_delivered]
  refine (readCode_part _ r).updated_bind fun c r1 ⟨hoff, _⟩ => applyCode_delivered c ?_
  rw [(sameDecoder_of_offUnpacker hoff).2.2.2.2.2.2.2.2.1]
  exact hk

/-! ### One pixel or code more -/

theorem deliverPixels_add (m n : Nat) : ∀ r : Reader,
    deliverPixels (m + n) r = (deliverPixels m r).bind fun _ r => deliverPixels n r := by
  induction m with
  | zero => intro r; rw [Nat.zero_add]; rfl
  | succ m ih => intro r; rw [Nat.add_right_comm, deliverPixels, deliverPixels, Body.bind_assoc]; simp only [ih]

/-- After the EOF Code no pixel comes (R146). -/
theorem deliverPixel_eofRead {r : Reader} (hpend : r.dPend = []) (hdone : r.dDone = true) :
    deliverPixel r = .raise .unexpectedEndOfData r := by
  have hnext : nextPixel (decodeTurns r) r = .raise .unexpectedEndOfData r := by
    simp only [decodeTurns, nextPixel, hpend, hdone, if_true]
  rw [deliverPixel, hnext, Body.bind_raise]

/-- Without a pending pixel a code is read first (R145). -/
theorem deliverPixel_code {r : Reader} (hok : DecoderOk r) (hpend : r.dPend = []) (hdone : r.dDone = false) :
    deliverPixel r = (decodeStep r).bind fun _ r => deliverPixel r := by
  have hnext : nextPixel (decodeTurns r) r =
      (decodeStep r).bind fun _ r1 => nextPixel (r.uCnt + 8 * r.sin.length) r1 := by
    simp only [decodeTurns, nextPixel, hpend, hdone, Bool.false_eq_true, if_false]
  rw [deliverPixel, hnext, Body.bind_assoc]
  refine (decodeStep_spec hok).bind_congr fun _ r1 ⟨_, _, hbits, hok1⟩ => ?_
  rw [deliverPixel, nextPixel_bound (r.uCnt + 8 * r.sin.length) (decodeTurns r1) hok1 hbits (Nat.lt_succ_self _)]

/-- The last pixel of the raster, pending: the epilogue follows (R145, R147). -/
theorem deliverPixel_last {r : Reader} {x : Byte} {rest : List Byte} (hpend : r.dPend = x :: rest)
    (hrem : r.pixRemain.toNat = 1) : deliverPixel r = epilogue (pushPixel x { r with dPend := rest }) := by
  have hnext : nextPixel (decodeTurns r) r = .ok x { r with dPend := rest } := by
    simp only [decodeTurns, nextPixel, hpend]
  have hzero : (pushPixel x { r with dPend := rest }).pixRemain = 0#32 :=
    BitVec.eq_of_toNat_eq (pixRemain_pred (v := r.pixRemain) hrem Nat.one_pos)
  rw [deliverPixel, hnext, Body.bind_ok]
  exact if_pos hzero

theorem delivered_zero (r : Reader) : delivered 0 r = r := by simp [delivered, rowAdvances]

theorem delivered_succ {r : Reader} {x : Byte} {rest : List Byte} (n : Nat) (hpend : r.dPend = x :: rest) :
    delivered n (pushPixel x { r with dPend := rest }) = delivered (n + 1) r := by
  have hcount : r.pixRemain - 1#32 - BitVec.ofNat 32 n = r.pixRemain - BitVec.ofNat 32 (n + 1) := by
    rw [BitVec.sub_sub, ← BitVec.ofNat_add, Nat.add_comm]
  simp only [delivered, pushPixel, doutPush, hcount, hpend, List.take_succ_cons, List.drop_succ_cons, List.append_assoc,
    List.singleton_append, rowAdvances]

/-- Pending pixels that fill the raster: the epilogue follows (R147). -/
theorem deliverPixels_full (n : Nat) : ∀ r : Reader, n + 1 ≤ r.dPend.length → r.pixRemain.toNat = n + 1 →
    deliverPixels (n + 1) r = epilogue (delivered (n + 1) r) := by
  induction n with
  | zero =>
    intro r hlen hrem
    obtain ⟨x, rest, hpend⟩ := List.exists_cons_of_length_pos hlen
    rw [deliverPixels, deliverPixel_last hpend hrem, ← delivered_succ 0 hpend, delivered_zero]
    cases epilogue (pushPixel x { r with dPend := rest }) <;> rfl
  | succ n ih =>
    intro r hlen hrem
    obtain ⟨x, rest, hpend⟩ := List.exists_cons_of_length_pos (by omega : 0 < r.dPend.length)
    have hpred : (r.pixRemain - 1#32).toNat = r.pixRemain.toNat - 1 := pixRemain_pred rfl (by omega)
    rw [hpend, List.length_cons] at hlen
    rw [deliverPixels, deliverPixel_pending hpend (by omega), Body.bind_ok, ← delivered_succ (n + 1) hpend]
    exact ih _ (Nat.le_of_succ_le_succ hlen) (show (r.pixRemain - 1#32).toNat = n + 1 by omega)

/-- Once the EOF Code has been read and too few pixels are pending, those are delivered first (R146). -/
theorem deliverPixels_eofRead {r : Reader} {n : Nat} (hdone : r.dDone = true) (hlen : r.dPend.length < n)
    (hrem : n ≤ r.pixRemain.toNat) :
    deliverPixels n r = .raise .unexpectedEndOfData (delivered r.dPend.length r) := by
  obtain ⟨m, rfl⟩ := Nat.exists_eq_add_of_lt hlen
  have hnone : (delivered r.dPend.length r).dPend = [] := List.drop_length
  rw [Nat.add_assoc, deliverPixels_add, deliverPixels_pending _ _ le_rfl (by omega), Body.bind_ok, deliverPixels]
  show (deliverPixel (delivered r.dPend.length r)).bind _ = _
  rw [deliverPixel_eofRead hnone hdone, Body.bind_raise]

/-- While too few pixels are pending, one code is read, whether the pending ones are delivered before it or after (R145). -/
theorem deliverPixels_code {r : Reader} {n : Nat} (hok : DecoderOk r) (hdone : r.dDone = false)
    (hlen : r.dPend.length < n) (hrem : n ≤ r.pixRemain.toNat) :
    deliverPixels n r = ((decodeStep r).updated (delivered r.dPend.length)).bind fun _ r' =>
      deliverPixels (n - r.dPend.length) r' := by
  obtain ⟨m, rfl⟩ := Nat.exists_eq_add_of_lt hlen
  have hnone : (delivered r.dPend.length r).dPend = [] := List.drop_length
  have hok' : DecoderOk (delivered r.dPend.length r) := by
    obtain ⟨hspace, hdict, hwidth, hunpack, hpend, hpace⟩ := hok
    exact ⟨hspace, hdict, hwidth, hunpack, fun x hx => hpend x (List.drop_subset _ _ hx), hpace⟩
  rw [Nat.add_assoc, deliverPixels_add, deliverPixels_pending _ _ le_rfl (by omega), Body.bind_ok,
    Nat.add_sub_cancel_left, ← decodeStep_delivered le_rfl]
  show deliverPixels (m + 1) (delivered r.dPend.length r) = _
  rw [deliverPixels, deliverPixel_code hok' hnone hdone, Body.bind_assoc]
  rfl

/-- A code that is no failure may be read before the command. -/
theorem deliverPixels_afterCode {r r' : Reader} {n : Nat} (hok : DecoderOk r) (hdone : r.dDone = false)
    (hlen : r.dPend.length < n) (hrem : n ≤ r.pixRemain.toNat) (hstep : decodeStep r = .ok () r')
    (hlen' : r.dPend.length ≤ r'.dPend.length) : deliverPixels n r = deliverPixels n r' := by
  have hrem' : r'.pixRemain = r.pixRemain := offDecompressor_pixRemain ((decodeStep_part r).of_ok hstep).1
  obtain ⟨m, hm⟩ := Nat.exists_eq_add_of_le hlen.le
  have hsplit := deliverPixels_add r.dPend.length m r'
  rw [← hm, deliverPixels_pending _ r' hlen' (by rw [hrem']; omega), Body.bind_ok] at hsplit
  rw [deliverPixels_code hok hdone hlen hrem, hstep, hsplit, hm, Nat.add_sub_cancel_left]
  rfl

/-! ### The tracker and the pending pixels -/

theorem deliverPixel_rows (r : Reader) :
    Body.Spec (fun _ r' => r'.rows = rowAdvance r.rows) (fun _ _ => True) (fun _ => True) (deliverPixel r) := by
  refine Body.Spec.bind (P := fun _ r' => r'.rows = r.rows)
    ((nextPixel_part _ r).mono (fun _ _ h => offDecompressor_rows h.1) (fun _ _ _ => trivial) fun _ h => h) ?_
  intro x r1 h1
  have hpush : (pushPixel x r1).rows = rowAdvance r.rows := congrArg rowAdvance h1
  dsimp only
  split
  · exact (epilogue_part _).mono (fun _ _ h => (offDecompressor_rows h.1).trans hpush) (fun _ _ _ => trivial) fun _ h => h
  · exact hpush

theorem deliverPixels_rows (n : Nat) : ∀ r : Reader,
    Body.Spec (fun _ r' => r'.rows = rowAdvances n r.rows) (fun _ _ => True) (fun _ => True) (deliverPixels n r) := by
  induction n with
  | zero => exact fun r => rfl
  | succ n ih =>
    intro r
    refine (deliverPixel_rows r).bind fun _ r1 h1 => ?_
    rw [rowAdvances, ← h1]
    exact ih r1

theorem acceptString_longer (c : Nat) (s : List Byte) (r : Reader) :
    r.dPend.length ≤ (acceptString c s r).dPend.length :=
  List.length_append ▸ Nat.le_add_right ..

theorem acceptString_addEntry_longer (c : Nat) (s : List Byte) (q : Code) (x : Byte) (r : Reader) :
    r.dPend.length ≤ (acceptString c s (addEntry q x r)).dPend.length := by
  have := acceptString_longer c s (addEntry q x r)
  rwa [addEntry_dPend] at this

/-- A code takes no pending pixel away, and a corrupt one changes nothing (R149). -/
theorem applyCode_pending (c : Nat) (r : Reader) :
    Body.Spec (fun _ r' => r.dPend.length ≤ r'.dPend.length) (fun _ r' => r' = r) (fun _ => True) (applyCode c r) := by
  unfold applyCode
  split
  · exact le_rfl
  split
  · exact le_rfl
  split
  · split
    · rfl
    · exact acceptString_longer ..
  split
  · split
    · exact acceptString_addEntry_longer ..
    · trivial
  split
  · split
    · exact acceptString_addEntry_longer ..
    · trivial
  · rfl

theorem decodeStep_longer {r r' : Reader} (h : decodeStep r = .ok () r') : r.dPend.length ≤ r'.dPend.length := by
  obtain ⟨c, r1, hread, happly⟩ := Body.bind_eq_ok.1 h
  obtain ⟨-, -, -, -, -, -, -, -, hpend, -⟩ := sameDecoder_of_offUnpacker ((readCode_part _ r).of_ok hread).1
  rw [← hpend]
  exact (applyCode_pending c r1).of_ok happly

/-- Where a code is not read or is corrupt, only SIN and the unpacker have changed (R118, R149). -/
theorem decodeStep_fails {r r' : Reader} {e : Status} (h : readCode r.dW.toNat r = .raise e r' ∨
    ∃ c r1, readCode r.dW.toNat r = .ok c r1 ∧ applyCode c r1 = .raise e r') :
    decodeStep r = .raise e r' ∧ offUnpacker r' = offUnpacker r := by
  obtain hread | ⟨c, r1, hread, happly⟩ := h
  · exact ⟨by rw [decodeStep, hread, Body.bind_raise], ((readCode_part _ r).of_raise hread).2.1⟩
  · obtain rfl := (applyCode_pending c r1).of_raise happly
    exact ⟨by rw [decodeStep, hread, Body.bind_ok, happly], ((readCode_part _ r).of_ok hread).1⟩

/-- Delivery looks at nothing that SIN and the unpacker change. -/
theorem delivered_of_offUnpacker {r r' : Reader} (k : Nat) (h : offUnpacker r' = offUnpacker r) :
    delivered k r' = { r' with
      dout := r.dout ++ r.dPend.take k, dPend := r.dPend.drop k, pixRemain := r.pixRemain - BitVec.ofNat 32 k
      rows := rowAdvances k r.rows } := by
  have hdout : r'.dout = r.dout := congrArg (·.dout) h
  have hpend : r'.dPend = r.dPend := congrArg (·.dPend) h
  have hrem : r'.pixRemain = r.pixRemain := congrArg (·.pixRemain) h
  have hrows : r'.rows = r.rows := congrArg (·.rows) h
  rw [delivered, hdout, hpend, hrem, hrows]

/-! ### The command -/

/-- The end of R_PIXELS: after the last pixel the reader is back in R_TOP (R164). -/
def closeImage (r : Reader) : Body Reader Unit := if r.pixRemain = 0#32 then .ok () { r with state := .top } else .ok () r

theorem rPixelsBody_eq {r : Reader} (n : Nat) (h : r.pixRemain ≠ 0#32) :
    rPixelsBody n r = (deliverPixels n r).bind fun _ r => closeImage r := by
  unfold rPixelsBody
  split
  · subst n; exact (if_neg h).symm
  · rfl

theorem pixRemain_ne_zero {v : Word} {n : Nat} (hn : 0 < n) (h : n ≤ v.toNat) : v ≠ 0#32 := by
  rintro rfl
  exact absurd h (Nat.not_le.2 hn)

/-- `R_PIXELS` with a count within the raster (R164). -/
theorem exec_rPixels_delivers {s : State} {count : BitVec 24} (hs : s.reader.state = .pixels)
    (hle : count.toNat ≤ s.reader.pixRemain.toNat) (h0 : s.reader.pixRemain ≠ 0#32) :
    exec (.rPixels count) s =
      endReader s ((deliverPixels count.toNat s.reader).bind fun _ r => closeImage r) := by
  rw [exec_rPixels_runs hs hle, rPixelsBody_eq _ h0]

/-- In an open image R_PIXELS delivers the pixels or fails (R145, R164). -/
theorem exec_rPixels_open {s : State} {count : BitVec 24} (h : Inv s) (hsrc : sourceAnswers s.reader)
    (hs : s.reader.state = .pixels) (hle : count.toNat ≤ s.reader.pixRemain.toNat) :
    (∃ r d, exec (.rPixels count) s = endReader s (closeImage r) ∧ offPixels r = offPixels s.reader ∧
        ImageAt (s.reader.pixRemain.toNat - count.toNat) r ∧ r.rows = rowAdvances count.toNat s.reader.rows ∧
        r.dout = s.reader.dout ++ d ∧ d.length = count.toNat ∧ ∀ p ∈ d, p.toNat < 2 ^ s.reader.dB.toNat) ∨
      ∃ e r, exec (.rPixels count) s = endReader s (.raise e r) ∧ e ∈ failuresOf (.rPixels count) ∧
        Delivered count.toNat s.reader r := by
  obtain ⟨hpos, hopen⟩ := h.2.1.imageOpen hs
  have hat : ImageAt s.reader.pixRemain.toNat s.reader := ⟨fun h0 => absurd h0 hpos.ne', fun _ => hopen⟩
  have hspec := (deliverPixels_spec count.toNat hat hle).and (deliverPixels_rows count.toNat s.reader)
  rw [exec_rPixels_delivers hs hle (pixRemain_ne_zero hpos le_rfl)]
  cases hrun : deliverPixels count.toNat s.reader with
  | ok _ r =>
    obtain ⟨⟨hoff, -, ⟨d, hdout, hlen, hrange⟩, hat'⟩, hrows⟩ := hspec.of_ok hrun
    exact .inl ⟨r, d, rfl, hoff, hat', hrows, hdout, hlen, hrange⟩
  | raise e r =>
    obtain ⟨⟨⟨he, -⟩, hdelivered⟩, -⟩ := hspec.of_raise hrun
    refine .inr ⟨e, r, rfl, ?_, hdelivered⟩
    simpa [failuresOf] using he
  | stuck f => exact absurd (hspec.of_stuck hrun).1.2 hsrc

theorem ImageAt.count {n : Nat} {r : Reader} (h : ImageAt n r) : r.pixRemain.toNat = n := by
  obtain rfl | hpos := n.eq_zero_or_pos
  · rw [(h.1 rfl).1]; rfl
  · exact (h.2 hpos).1

/-- R_PIXELS of the rest of the raster, all of it pending, is the epilogue (R147, R164). -/
theorem exec_rPixels_full {s : State} {count : BitVec 24} (hs : s.reader.state = .pixels) (hpos : 0 < count.toNat)
    (hcount : count.toNat = s.reader.pixRemain.toNat) (hlen : count.toNat ≤ s.reader.dPend.length) :
    exec (.rPixels count) s = endReader s ((epilogue (delivered count.toNat s.reader)).bind fun _ r => closeImage r) := by
  obtain ⟨n, hn⟩ := Nat.exists_eq_succ_of_ne_zero hpos.ne'
  rw [exec_rPixels_delivers hs hcount.le (pixRemain_ne_zero hpos hcount.le), hn,
    deliverPixels_full n s.reader (by omega) (by omega)]

theorem delivered_full {r : Reader} {n : Nat} (h : n = r.pixRemain.toNat) : delivered n r = { r with
    dout := r.dout ++ r.dPend.take n, dPend := r.dPend.drop n, pixRemain := 0#32, rows := rowAdvances n r.rows } := by
  have hzero : r.pixRemain - BitVec.ofNat 32 n = 0#32 := by
    rw [h, BitVec.ofNat_toNat, BitVec.setWidth_eq, BitVec.sub_self]
  rw [delivered, hzero]

end Sys2Proof.Machine

open Sys2Proof Sys2Proof.Machine

/-- Settles O30: pending pixels may be delivered before or after the code that follows them is read, so the command goes
code by code; where it ends is the epilogue's matter. -/
theorem rPixelsDelivers : Obligations.RPixelsDelivers := by
  refine ⟨fun s count h hsrc hs hle => ?_, fun s count hs hdone hlen hle => ?_,
    fun s count full hs hpos hcount hlen hfull => ?_, fun s count h hs hdone hlen hle => ⟨fun e r hfail => ?_,
      fun c r1 r hread happly => ?_⟩, fun r width => ⟨readCode_held, fun h hleft hend => ?_,
      fun h hleft hend l rest hsin => ⟨fun hl => ?_, fun hl => ?_⟩, fun h hleft x rest hsin => ?_,
      fun h hend e rest hsin => ?_⟩⟩
  · have herr := h.2.1.err_ok (by rw [hs]; decide)
    obtain ⟨r, d, hrun, hoff, hat, hrows, hdout, hlen, hrange⟩ | ⟨e, r, hrun, he, hdelivered⟩ :=
      exec_rPixels_open h hsrc hs hle
    · have hcount := hat.count
      have hdelivered : ∃ d, r.dout = s.reader.dout ++ d ∧ d.length = count.toNat ∧
          ∀ p ∈ d, p.toNat < 2 ^ s.reader.dB.toNat := ⟨d, hdout, hlen, hrange⟩
      have herr' := (offPixels_err hoff).trans herr
      by_cases h0 : r.pixRemain = 0#32
      · rw [h0] at hcount
        obtain ⟨-, hdone, hpend, heof, hend⟩ := hat.1 hcount.symm
        refine ⟨_, hrun.trans (congrArg (endReader s) (if_pos h0)), .inl ⟨rfl, herr', hat.count, hdelivered, hrows,
          fun hne => absurd h0 hne, fun _ => ⟨rfl, hdone, hpend, heof, hend⟩⟩⟩
      · exact ⟨_, hrun.trans (congrArg (endReader s) (if_neg h0)), .inl ⟨rfl, herr', hcount, hdelivered, hrows,
          fun _ => (offPixels_state hoff).trans hs, fun h => absurd h h0⟩⟩
    · exact ⟨_, hrun, .inr ⟨he, rfl, rfl, hdelivered⟩⟩
  · rw [exec_rPixels_delivers hs hle (pixRemain_ne_zero (by omega) hle), deliverPixels_eofRead hdone hlen hle]
    simp only [delivered, List.take_length, List.drop_length]
    rfl
  · rw [exec_rPixels_full hs hpos hcount hlen, delivered_full hcount, ← hfull]
    refine ⟨fun hmore => ?_, fun r hend => ?_, fun e r hend => ?_⟩
    · have hleft : full.dPend ≠ [] := by
        rw [hfull]; exact List.drop_eq_nil_iff.not.2 (Nat.not_le.2 hmore)
      rw [epilogue_pending hleft]
      rfl
    · have hzero : r.pixRemain = 0#32 := by
        rw [offDecompressor_pixRemain ((epilogue_part full).of_ok hend).1, hfull]
      rw [hend, Body.bind_ok, closeImage, if_pos hzero]
      rfl
    · rw [hend]
      rfl
  · obtain ⟨hstep, hoff⟩ := decodeStep_fails hfail
    have hok := (h.2.1.imageOpen hs).2.2.2.2
    rw [exec_rPixels_delivers hs hle (pixRemain_ne_zero (by omega) hle), deliverPixels_code hok hdone hlen hle, hstep,
      Body.updated, delivered_of_offUnpacker _ hoff, List.take_length, List.drop_length]
    rfl
  · have hok := (h.2.1.imageOpen hs).2.2.2.2
    have hstep : decodeStep s.reader = .ok () r := by rw [decodeStep, hread, Body.bind_ok, happly]
    have hoff := ((decodeStep_part s.reader).of_ok hstep).1
    have hrem : r.pixRemain = s.reader.pixRemain := offDecompressor_pixRemain hoff
    have h0 := pixRemain_ne_zero (by omega) hle
    rw [exec_rPixels_delivers hs hle h0, deliverPixels_afterCode hok hdone hlen hle hstep (decodeStep_longer hstep),
      exec_rPixels_delivers (s := { s with reader := r }) ((offDecompressor_state hoff).trans hs) (hrem ▸ hle)
        (hrem ▸ h0)]
    cases (deliverPixels count.toNat r).bind fun _ r => closeImage r <;> rfl
  · rw [readCode_turn h, loadBits_ended hleft hend, Body.bind_raise]
  · rw [readCode_turn h, loadBits_terminator hleft hend (hl ▸ hsin), Body.bind_raise]
  · rw [readCode_turn h, loadBits_length hleft hend hsin hl]
    exact (readCode_turn (r := { r with uLeft := l, sin := rest, sinRead := r.sinRead + 1 }) h).symm
  · rw [readCode_turn h, loadBits_data hleft hsin, Body.bind_ok]
  · rw [readCode_turn h, loadBits_streamEnd hend hsin, Body.bind_raise]

end

section
/-!
PROOFS. `W_PIXELS` to the end of the image (R131, R179, R182): any pixels that the sink accepts the codes of, and the last
pixel, which is compressed as any other before CompressFinish writes the rest.
-/

namespace Sys2Proof.Machine

/-! ### The pixel count is not looked at -/

/-- `w` with another count of pixels to come. -/
def setRemain (v : Word) (w : Writer) : Writer := { w with pixRemain := v }

section Remain

variable (v : Word)

theorem sinkByte_setRemain (b : Byte) (w : Writer) :
    sinkByte b (setRemain v w) = (sinkByte b w).updated (setRemain v) := by
  have hanswers : (setRemain v w).sinkAnswers = w.sinkAnswers := rfl
  unfold sinkByte
  rw [hanswers]
  split <;> rfl

theorem sinkBytes_setRemain (bs : List Byte) : ∀ w : Writer,
    sinkBytes bs (setRemain v w) = (sinkBytes bs w).updated (setRemain v) := by
  induction bs with
  | nil => exact fun w => rfl
  | cons b bs ih =>
    intro w
    rw [sinkBytes, sinkByte_setRemain]
    exact Body.updated_bind fun _ => ih

theorem putByte_setRemain (x : Byte) (w : Writer) :
    putByte x (setRemain v w) = (putByte x w).updated (setRemain v) := by
  by_cases hfull : (w.pBuf ++ [x]).length = Config.subBlockMax
  · have hsink := sinkBytes_setRemain v (BitVec.ofNat 8 (w.pBuf ++ [x]).length :: (w.pBuf ++ [x]))
      { w with pBuf := w.pBuf ++ [x] }
    refine (if_pos hfull).trans (Eq.trans ?_ (congrArg _ (if_pos hfull).symm))
    refine (congrArg (Body.bind · _) hsink).trans ?_
    exact Body.updated_bind fun _ _ => rfl
  · refine (if_neg hfull).trans (Eq.trans ?_ (congrArg _ (if_neg hfull).symm))
    rfl

theorem packBytes_setRemain (n : Nat) : ∀ w : Writer,
    packBytes n (setRemain v w) = (packBytes n w).updated (setRemain v) := by
  induction n with
  | zero => exact fun w => rfl
  | succ n ih =>
    intro w
    have hcnt : (setRemain v w).pCnt = w.pCnt := rfl
    have hacc : (setRemain v w).pAcc = w.pAcc := rfl
    rw [packBytes, packBytes, hcnt, hacc]
    split
    · rw [putByte_setRemain]
      exact Body.updated_bind fun _ w => ih { w with pAcc := w.pAcc >>> 8, pCnt := w.pCnt - 8 }
    · rfl

theorem writeCode_setRemain (c width : Nat) (w : Writer) :
    writeCode c width (setRemain v w) = (writeCode c width w).updated (setRemain v) :=
  packBytes_setRemain v (w.pCnt + width) { w with
    pAcc := w.pAcc ||| (BitVec.ofNat 19 (c % 2 ^ width) <<< w.pCnt), pCnt := w.pCnt + width }

theorem checkExhausted_setRemain (w : Writer) :
    checkExhausted (setRemain v w) = (checkExhausted w).updated (setRemain v) := by
  by_cases hfull : w.cFree.toNat = Config.dictCodes
  · refine (if_pos hfull).trans (Eq.trans ?_ (congrArg _ (if_pos hfull).symm))
    refine (congrArg (Body.bind · _) (writeCode_setRemain v w.cClear.toNat w.cW.toNat w)).trans ?_
    exact Body.updated_bind fun _ _ => rfl
  · refine (if_neg hfull).trans (Eq.trans ?_ (congrArg _ (if_neg hfull).symm))
    rfl

/-- A pixel is compressed the same however many are to come. -/
theorem compressPixel_setRemain (p : Byte) (w : Writer) :
    compressPixel p (setRemain v w) = (compressPixel p w).updated (setRemain v) := by
  have hprefix : (setRemain v w).cPrefix = w.cPrefix := rfl
  have hdict : (setRemain v w).cDict = w.cDict := rfl
  unfold compressPixel
  rw [hprefix, hdict]
  split
  · rfl
  · rename_i q _
    split
    · rfl
    · refine (congrArg (Body.bind · _) (writeCode_setRemain v q.toNat w.cW.toNat w)).trans ?_
      exact Body.updated_bind fun _ w => checkExhausted_setRemain v (insertPair q p w)

end Remain

/-! ### CompressFinish -/

/-- The last byte that CompressFinish writes is the terminator (R116, R131). -/
theorem compressFinish_terminator {w w' : Writer} (h : compressFinish w = .ok () w') :
    w'.sout.getLast? = some 0x00#8 := by
  obtain ⟨_, w1, _, h⟩ := Body.bind_eq_ok.1 h
  obtain ⟨_, w2, _, h⟩ := Body.bind_eq_ok.1 h
  obtain ⟨_, w3, hflush, h⟩ := Body.bind_eq_ok.1 h
  obtain ⟨_, w4, _, hflush⟩ := Body.bind_eq_ok.1 hflush
  obtain ⟨_, w5, _, hbyte⟩ := Body.bind_eq_ok.1 hflush
  have hout := ((sinkByte_spec _ _).of_ok hbyte).2.1
  cases h
  exact hout ▸ List.getLast?_concat

/-- Everything but SOUT, the packer and the code width. -/
def offWidth (w : Writer) : Writer := { offPacker w with cW := 0 }

theorem offWidth_of_offPacker {w w' : Writer} (h : offPacker w' = offPacker w) : offWidth w' = offWidth w := by
  simp only [offWidth, h]

theorem writeCode_offWidth (c width : Nat) (w : Writer) : WriterPart offWidth w (writeCode c width w) :=
  (writeCode_part c width w).widen fun _ => offWidth_of_offPacker

theorem emitLast_offWidth (w : Writer) : WriterPart offWidth w (emitLast w) := by
  unfold emitLast
  split
  · exact .ok rfl (SinkGrows.refl w)
  · exact (writeCode_offWidth _ _ w).bind fun w' _ _ => .ok rfl (SinkGrows.refl w')

/-- What CompressFinish writes, before it drops `C_prefix` (R131). -/
def finishCodes (w : Writer) : Body Writer Unit :=
  (emitLast w).bind fun _ w => (writeCode w.cEof.toNat w.cW.toNat w).bind fun _ w => flushPacker w

theorem compressFinish_eq (w : Writer) :
    compressFinish w = (finishCodes w).bind fun _ w => .ok () { w with cPrefix := none } := by
  rw [finishCodes, Body.bind_assoc]
  simp only [Body.bind_assoc]
  rfl

/-- Where CompressFinish fails, dictionary and `C_prefix` are as before it (R131, R193). -/
theorem compressFinish_raise {w w' : Writer} {e : Status} (h : compressFinish w = .raise e w') :
    offWidth w' = offWidth w := by
  have hpart : WriterPart offWidth w (finishCodes w) :=
    (emitLast_offWidth w).bind fun w1 _ _ => (writeCode_offWidth _ _ w1).bind fun w2 _ _ =>
      (flushPacker_part w2).widen fun _ => offWidth_of_offPacker
  rw [compressFinish_eq] at h
  cases hcodes : finishCodes w with
  | ok a w1 => rw [hcodes] at h; nomatch h
  | raise e1 w1 =>
    rw [hcodes] at h
    cases h
    exact (hpart.of_raise hcodes).1
  | stuck f => rw [hcodes] at h; nomatch h

/-- The state in which the raster is complete: with no pixel left CompressFinish ends the image (R179). -/
def endRaster (w : Writer) : Body Writer Unit :=
  if w.pixRemain = 0#32 then (compressFinish w).bind fun _ w => .ok () { w with state := .top } else .ok () w

theorem endRaster_done {w : Writer} (h : w.pixRemain = 0#32) :
    endRaster w = (compressFinish w).bind fun _ w => .ok () { w with state := .top } := if_pos h

/-- `w` with the code width the growth test gives. -/
def grown (width : BitVec 4) (w : Writer) : Writer := { w with cW := width }

section Finish

variable {w : Writer} {q : Code} {width : BitVec 4} (hok : EncoderOk w) (hp : packerOk w) (hq : w.cPrefix = some q)
  (hwidth : width = grownWidth w.cFree w.cW)

include hok hwidth

/-- The EOF Code fits the width after the growth test (R131, R133). -/
theorem eof_lt_grown : width.toNat ≤ 12 ∧ w.cEof.toNat < 2 ^ width.toNat := by
  obtain ⟨⟨h1, h8, hB, -, heof, -⟩, ⟨-, -, hcW, hle, -⟩, -⟩ := hok
  obtain ⟨hgrown, hgrown12, -⟩ := grownWidth_spec (free := w.cFree) hle
  obtain ⟨h4, -, hdouble⟩ := codeSize_bounds (b := w.cB.toNat) (by omega) (by omega)
  have hpow : 2 ^ (w.cB.toNat + 1) ≤ 2 ^ width.toNat := Nat.pow_le_pow_right (by decide) (by rw [hwidth]; omega)
  exact ⟨hwidth ▸ hgrown12, by omega⟩

include hp hq

/-- What CompressFinish writes: the pending bits, `C_prefix` and the EOF Code in the width after the growth test, framed
(R116, R131). -/
theorem compressFinish_run :
    SinkRun True compressFinish w
      (framed (dataThrough [(q.toNat, w.cW.toNat), (w.cEof.toNat, width.toNat)] w))
      { flushed (w.sout ++ framed (dataThrough [(q.toNat, w.cW.toNat), (w.cEof.toNat, width.toNat)] w)) (unrefused w) with
        cW := width, cPrefix := none } := by
  obtain ⟨hwidth12, heof⟩ := eof_lt_grown hok hwidth
  have hcode := cPrefix_lt_width hok hq
  have hfit : CodesFit [(q.toNat, w.cW.toNat), (w.cEof.toNat, width.toNat)] :=
    codesFit_cons.2 ⟨hcode, codesFit_cons.2 ⟨heof, nofun⟩⟩
  have hwidths : ∀ p ∈ [(q.toNat, w.cW.toNat), (w.cEof.toNat, width.toNat)], p.2 ≤ 12 := by
    simp [hok.width_le, hwidth12]
  have hfirst (u : Writer) (hu : packerOk u) (ha : u.sinkAnswers = []) :=
    writeCode_packed hu hcode hok.width_le rfl rfl fun _ => by simp [acceptsFirst, ha]
  have hwrite := writeCodes_flush _ (grown width (unrefused w)) hwidths hfit hp rfl
  rw [writeCodes, hfirst (grown width (unrefused w)) hp rfl, Body.bind_ok, writeCodes, Body.bind_assoc] at hwrite
  refine (compressFinish_law w).run ?_ rfl
  have hlast : emitLast (unrefused w) =
      (writeCode q.toNat w.cW.toNat (unrefused w)).bind fun _ w => .ok () (grown (grownWidth w.cFree w.cW) w) := by
    rw [emitLast, show (unrefused w).cPrefix = some q from hq]
    rfl
  rw [compressFinish_eq, finishCodes, hlast, hfirst (unrefused w) hp rfl, Body.bind_ok, Body.bind_ok]
  subst hwidth
  exact congrArg (Body.bind · fun _ w => .ok () { w with cPrefix := none }) hwrite

end Finish

/-! ### W_PIXELS is compressed pixel by pixel, and then the raster may be complete -/

theorem wPixelsBody_eq {w : Writer} (n : Nat) (h : w.pixRemain ≠ 0#32) :
    wPixelsBody n w = (compressPixels (dinTake n w) w).bind fun _ w => endRaster w := by
  by_cases h0 : n = 0
  · subst h0
    exact (if_neg h).symm
  · exact if_neg h0

theorem wPixelsCheck_passes {w : Writer} {n : Nat} (hrem : n ≤ w.pixRemain.toNat) (hdin : n ≤ w.din.length)
    (hp : ∀ p ∈ w.din.take n, p.toNat < 2 ^ w.bpp.toNat) : wPixelsCheck n w = none := by
  have hrange : (dinTake n w).any (pixelOutOfRange w) = false := by
    simpa [dinTake, pixelOutOfRange] using hp
  rw [wPixelsCheck, if_neg (by omega), if_neg (by omega), hrange]
  rfl

theorem exec_wPixels_compresses {s : State} {count : BitVec 24} (hs : s.writer.state = .pixels)
    (h0 : s.writer.pixRemain ≠ 0#32) (hrem : count.toNat ≤ s.writer.pixRemain.toNat)
    (hdin : count.toNat ≤ s.writer.din.length) (hp : ∀ p ∈ s.writer.din.take count.toNat, p.toNat < 2 ^ s.writer.bpp.toNat) :
    exec (.wPixels count) s =
      endWriter s ((compressPixels (dinTake count.toNat s.writer) s.writer).bind fun _ w => endRaster w) := by
  rw [← wPixelsBody_eq count.toNat h0]
  exact writerCommand_runs (need := .pixels) (body := wPixelsBody count.toNat) (by rw [hs]; decide) hs
    (wPixelsCheck_passes hrem hdin hp)

/-- `W_PIXELS 1` with the last pixel of the raster. -/
theorem exec_wPixels_last {s : State} {p : Byte} {more : List Byte} (hs : s.writer.state = .pixels)
    (hrem : s.writer.pixRemain = 1#32) (hdin : s.writer.din = p :: more) (hp : p.toNat < 2 ^ s.writer.bpp.toNat) :
    exec (.wPixels 1#24) s =
      endWriter s ((compressPixel p { s.writer with din := more }).bind fun _ w => endRaster (countPixel w)) := by
  have htake : s.writer.din.take (1#24).toNat = [p] := by rw [hdin]; rfl
  have hdrop : dinDrop 1 s.writer = { s.writer with din := more } := by rw [dinDrop, hdin]; rfl
  rw [exec_wPixels_compresses hs (by rw [hrem]; decide) (by rw [hrem]; decide) (by simp [hdin]) (by rw [htake]; simpa using hp),
    dinTake, htake, compressPixels, hdrop, Body.bind_assoc]
  rfl

/-! ### With a sink that accepts -/

/-- A part that fails only where the sink refuses completes with a sink that accepts. -/
theorem Body.Spec.completes {w : Writer} {x : Body Writer Unit} {P : Unit → Writer → Prop} {Q : Status → Writer → Prop}
    (h : Body.Spec P Q (SinkSilent w) x) (hQ : ∀ e w', Q e w' → SinkFails w e w') (ha : sinkAccepts w) :
    ∃ w', x = .ok () w' ∧ P () w' := by
  cases x with
  | ok a w' => exact ⟨w', rfl, h⟩
  | raise e w' =>
    obtain ⟨-, -, -, herror, -⟩ := hQ e w' h
    exact absurd (ha _ herror) (by decide)
  | stuck f => exact absurd (ha _ h.2) (by decide)

theorem offCompressor_din {w w' : Writer} (h : offCompressor w' = offCompressor w) : w'.din = w.din := by
  simpa only [offCompressor, offPacker, offSink] using congrArg Writer.din h

/-- Every pixel moves the tracker on by one (R179). -/
theorem compressPixels_rows (ps : List Byte) : ∀ w : Writer,
    Body.Spec (fun _ w' => w'.rows = rowAdvances ps.length w.rows) (fun _ _ => True) (fun _ => True)
      (compressPixels ps w) := by
  induction ps with
  | nil => exact fun w => rfl
  | cons p ps ih =>
    intro w
    refine ((compressPixel_part p (dinDrop 1 w)).mono (fun _ _ h => h) (fun _ _ _ => trivial) fun _ _ => trivial).bind ?_
    rintro _ w1 ⟨hoff, -⟩
    have hrows : w1.rows = w.rows := offEncoder_rows (w := dinDrop 1 w) (offEncoder_of_offCompressor hoff)
    exact hrows ▸ ih (countPixel w1)

/-! ### The last pixel -/

section LastPixel

variable {w : Writer} {q : Code} {width : BitVec 4} (hok : EncoderOk w) (hp : packerOk w) (hq : w.cPrefix = some q)
  (hwidth : width = grownWidth w.cFree w.cW)

include hok hp hq hwidth

/-- The raster complete and everything accepted: the image is closed (R131, R179). -/
theorem endRaster_accepted {d : List Byte}
    (hd : d = dataThrough [(q.toNat, w.cW.toNat), (w.cEof.toNat, width.toNat)] w)
    (ha : acceptsFirst (framed d).length w) :
    endRaster (setRemain 0 w) = .ok () { w with
      state := .top, pixRemain := 0#32, cW := width, cPrefix := none, pAcc := 0, pCnt := 0, pBuf := [],
      sout := w.sout ++ framed d, sinkAnswers := w.sinkAnswers.drop (framed d).length } := by
  subst hd
  rw [endRaster_done rfl, (compressFinish_run (w := setRemain 0 w) hok hp hq hwidth).accepted ha]
  rfl

/-- The raster complete and a byte refused: dictionary and `C_prefix` are as after the last pixel (R182, R193). -/
theorem endRaster_refused {d : List Byte} {k : Nat} {rest : List SinkAnswer}
    (hd : d = dataThrough [(q.toNat, w.cW.toNat), (w.cEof.toNat, width.toNat)] w) (hk : k < (framed d).length)
    (ha : w.sinkAnswers = List.replicate k .ok ++ .error :: rest) :
    ∃ (landed : Nat) (u : Writer), landed ≤ 1 ∧ endRaster (setRemain 0 w) = .raise .ioError u ∧
      u = { w with
        pixRemain := 0#32, cW := u.cW, pAcc := u.pAcc, pCnt := u.pCnt, pBuf := u.pBuf,
        sout := w.sout ++ (framed d).take (k + landed), sinkAnswers := rest, draws := w.draws + 1 } := by
  subst hd
  obtain ⟨landed, u, hlanded, hrun, hout, hrest, hdraws, -⟩ :=
    (compressFinish_run (w := setRemain 0 w) hok hp hq hwidth).refused k rest hk ha
  refine ⟨landed, u, hlanded, by rw [endRaster_done rfl, hrun]; rfl, ?_⟩
  have hkept := congrArg (fun v : Writer => { v with
    cW := u.cW, pAcc := u.pAcc, pCnt := u.pCnt, pBuf := u.pBuf, sout := u.sout, sinkAnswers := u.sinkAnswers,
    draws := u.draws }) (compressFinish_raise hrun)
  refine hkept.trans ?_
  simp only [hout, hrest, hdraws]
  rfl

end LastPixel

theorem countPixel_last (w : Writer) : countPixel (setRemain 1 w) = setRemain 0 (countPixel w) :=
  congrArg (setRemain · (countPixel w)) (by decide : (1 : Word) - 1#32 = 0)

/-- `W_PIXELS 1` with the last pixel and with one more to come begin with the same part: the pixel is compressed. -/
theorem exec_wPixels_last_same {s : State} {p : Byte} {more : List Byte} (hok : EncoderOk s.writer)
    (hpk : packerOk s.writer) (hs : s.writer.state = .pixels) (hrem : s.writer.pixRemain = 1#32)
    (hdin : s.writer.din = p :: more) (hp : p.toNat < 2 ^ s.writer.bpp.toNat) :
    ∃ x : Body Writer Unit,
      Body.Spec (fun _ w => EncoderOk (countPixel w) ∧ packerOk (countPixel w)) (fun e _ => e = .ioError)
        (fun _ => True) x ∧
      exec (.wPixels 1#24) { s with writer := { s.writer with pixRemain := 2#32 } } =
        endWriter s (x.bind fun _ w => .ok () (countPixel w)) ∧
      exec (.wPixels 1#24) s =
        endWriter s ((x.updated (setRemain 1)).bind fun _ w => endRaster (countPixel w)) := by
  refine ⟨compressPixel p (setRemain 2 { s.writer with din := more }), ?_, ?_, ?_⟩
  · exact (compressPixel_spec (w := setRemain 2 { s.writer with din := more }) hok hp).mono
      (fun _ _ h => ⟨h.2.2.1, h.2.2.2 hpk⟩) (fun _ _ h => h.2.1) fun _ _ => trivial
  · exact exec_wPixels_one (s := { s with writer := setRemain 2 s.writer }) hs (by decide : 1 < (2#32).toNat) hdin hp
  · rw [exec_wPixels_last hs hrem hdin hp, ← compressPixel_setRemain, show (1 : Word) = s.writer.pixRemain from hrem.symm]
    rfl

end Sys2Proof.Machine

open Sys2Proof Sys2Proof.Machine

/-- Settles O48: the command is its pixels and then, where the raster is complete, CompressFinish; a pixel is compressed
the same however many are to come. -/
theorem wPixelsCompletes : Obligations.WPixelsCompletes := by
  refine ⟨fun s count h hs ha hrem hdin hp => ?_, fun s t p more hok hpk hs hrem hdin hp ht => ?_⟩
  · obtain ⟨hpos, hn, hin, hleft, hok, hpk⟩ := h.2.2.rasterOpen hs
    have hlen : (dinTake count.toNat s.writer).length = count.toNat := by
      rw [dinTake, List.length_take, Nat.min_eq_left hdin]
    have hat : RasterAt s.writer.pixRemain.toNat s.writer := ⟨hn, fun h0 => by omega, fun _ => ⟨hin, hleft⟩, hok, hpk⟩
    obtain ⟨w1, hrun, hoff, hgrows, hdin1, hrem1, hdone, -, -, hpk1⟩ :=
      (compressPixels_spec _ hat (hlen.trans_le hrem) hp).completes (fun _ _ hfail => hfail.2) ha
    have hrows := (compressPixels_rows _ _).of_ok hrun
    rw [hlen] at hdin1 hrem1 hdone hrows
    have hexec := (exec_wPixels_compresses hs (pixRemain_ne_zero hpos le_rfl) hrem hdin hp).trans
      (by rw [hrun, Body.bind_ok])
    by_cases h0 : w1.pixRemain = 0#32
    · obtain ⟨w2, hfinish, hoff2, hgrows2, hprefix, hempty⟩ :=
        (compressFinish_spec w1).completes (fun _ _ hfail => hfail.2) (hgrows.accepts ha)
      have hrem2 := offEncoder_pixRemain (offEncoder_of_offCompressor hoff2)
      have hrows2 := offEncoder_rows (offEncoder_of_offCompressor hoff2)
      have hdin2 := offCompressor_din hoff2
      rw [endRaster_done h0, hfinish] at hexec
      have hlast : s.writer.pixRemain.toNat - count.toNat = 0 := by rw [← hrem1, h0]; rfl
      exact ⟨_, hexec, rfl, (congrArg BitVec.toNat hrem2).trans hrem1, hdin2.trans hdin1, hrows2.trans hrows,
        hgrows.1.trans hgrows2.1, fun hne => absurd (hrem2.trans h0) hne,
        fun _ => ⟨rfl, hempty hpk1, hrows2 ▸ hdone hlast, hprefix, (compressFinish_terminator hfinish :)⟩⟩
    · exact ⟨_, hexec.trans (congrArg (endWriter s) (if_neg h0)), rfl, hrem1, hdin1, hrows, hgrows.1,
        fun _ => (offRaster_facts hoff).1.trans hs, fun h => absurd h h0⟩
  · obtain ⟨x, hspec, hother, hexec⟩ := exec_wPixels_last_same hok hpk hs hrem hdin hp
    rw [hother] at ht
    cases x with
    | ok a w1 =>
      obtain ⟨hok1, hpk1⟩ := hspec
      rw [Body.updated, Body.bind_ok, countPixel_last] at hexec
      cases ht
      refine ⟨fun hne => absurd rfl hne, fun _ q width data hq hwidth hdata => ⟨fun ha => ?_, fun k rest hk ha => ?_⟩⟩
      · exact hexec.trans (congrArg (endWriter s) (endRaster_accepted hok1 hpk1 hq hwidth hdata ha))
      · obtain ⟨landed, u, hlanded, hlast, hu⟩ := endRaster_refused hok1 hpk1 hq hwidth hdata hk ha
        refine ⟨landed, _, hlanded, hexec.trans (congrArg (endWriter s) hlast), ?_⟩
        rw [hu]
        rfl
    | raise e w1 =>
      obtain rfl : e = .ioError := hspec
      cases ht
      exact ⟨fun _ => hexec, nofun⟩
    | stuck f => nomatch ht

end

section
/-!
PROOFS. The widths of the compressor's codes (R133), and `W_PIXELS` in parts (R179, R183): a run of pixels is compressed the
same however it is cut.
-/

namespace Sys2Proof.Machine

/-! ### Codes and their widths -/

/-- Clear Code and EOF Code are below every width the compressor uses (R103, R129). -/
theorem clear_eof_lt {w : Writer} (hok : EncoderOk w) {width : Nat} (hwidth : w.cW.toNat ≤ width) :
    w.cClear.toNat < 2 ^ width ∧ w.cEof.toNat < 2 ^ width := by
  obtain ⟨⟨h1, h8, hB, hclear, heof, -⟩, ⟨-, -, hcW, -, -⟩, -⟩ := hok
  obtain ⟨h4, -, hdouble⟩ := codeSize_bounds (b := w.cB.toNat) (by omega) (by omega)
  have hpow : 2 ^ (w.cB.toNat + 1) ≤ 2 ^ width := Nat.pow_le_pow_right (by decide) (hcW.trans hwidth)
  omega

/-! ### Pixels in parts -/

theorem compressPixels_append (ps qs : List Byte) : ∀ w : Writer,
    compressPixels (ps ++ qs) w = (compressPixels ps w).bind fun _ w => compressPixels qs w := by
  induction ps with
  | nil => exact fun w => rfl
  | cons p ps ih =>
    intro w
    rw [List.cons_append, compressPixels, compressPixels, Body.bind_assoc]
    simp only [ih]

/-- Every pixel leaves DIN and is counted (R179). -/
theorem compressPixels_counts (ps : List Byte) : ∀ w : Writer,
    Body.Spec (fun _ w' => w'.din = w.din.drop ps.length ∧ w'.pixRemain = w.pixRemain - BitVec.ofNat 32 ps.length)
      (fun _ _ => True) (fun _ => True) (compressPixels ps w) := by
  induction ps with
  | nil => exact fun w => ⟨rfl, (BitVec.sub_zero _).symm⟩
  | cons p ps ih =>
    intro w
    refine ((compressPixel_part p (dinDrop 1 w)).mono (fun _ _ h => h) (fun _ _ _ => trivial) fun _ _ => trivial).bind ?_
    rintro _ w1 ⟨hoff, -⟩
    have hdin : w1.din = w.din.drop 1 := offCompressor_din hoff
    have hrem : w1.pixRemain = w.pixRemain :=
      offEncoder_pixRemain (w := dinDrop 1 w) (offEncoder_of_offCompressor hoff)
    refine (ih (countPixel w1)).mono (fun _ w' ⟨hdin', hrem'⟩ => ⟨?_, ?_⟩) (fun _ _ h => h) fun _ h => h
    · rw [hdin', List.length_cons, Nat.add_comm, ← List.drop_drop, ← hdin]
      rfl
    · rw [hrem', List.length_cons, Nat.add_comm, BitVec.ofNat_add, ← BitVec.sub_sub, ← hrem]
      rfl

/-- Short of the raster's end the command is its pixels. -/
theorem endRaster_more {w : Writer} (h : w.pixRemain ≠ 0#32) : endRaster w = .ok () w := if_neg h

section Split

variable {s : State} {m n k : BitVec 24} (hk : k.toNat = m.toNat + n.toNat) (hs : s.writer.state = .pixels)
  (hrem : k.toNat ≤ s.writer.pixRemain.toNat) (hdin : k.toNat ≤ s.writer.din.length)
  (hp : ∀ p ∈ s.writer.din.take k.toNat, p.toNat < 2 ^ s.writer.bpp.toNat)

include hk hs hrem hdin hp

/-- The pixels of the first part, with what is left for the second one. -/
theorem exec_wPixels_first (h0 : s.writer.pixRemain ≠ 0#32) :
    exec (.wPixels m) s =
      endWriter s ((compressPixels (dinTake m.toNat s.writer) s.writer).bind fun _ w => endRaster w) ∧
    exec (.wPixels k) s = endWriter s ((compressPixels (dinTake m.toNat s.writer) s.writer).bind fun _ w =>
      (compressPixels (dinTake n.toNat w) w).bind fun _ w => endRaster w) ∧
    Body.Spec (fun _ w => w.state = .pixels ∧ w.pixRemain.toNat = s.writer.pixRemain.toNat - m.toNat ∧
        n.toNat ≤ w.din.length ∧ ∀ p ∈ w.din.take n.toNat, p.toNat < 2 ^ w.bpp.toNat)
      (fun e _ => e = .ioError) (fun _ => True) (compressPixels (dinTake m.toNat s.writer) s.writer) := by
  have hsplit : s.writer.din.take k.toNat = dinTake m.toNat s.writer ++ (s.writer.din.drop m.toNat).take n.toNat := by
    rw [hk, List.take_add, dinTake]
  have hlen : (dinTake m.toNat s.writer).length = m.toNat := by
    rw [dinTake, List.length_take]; omega
  have hcounts := compressPixels_counts (dinTake m.toNat s.writer) s.writer
  rw [hlen] at hcounts
  rw [hsplit] at hp
  refine ⟨exec_wPixels_compresses hs h0 (by omega) (by omega) fun p hmem => hp p (List.mem_append_left _ hmem), ?_, ?_⟩
  · rw [exec_wPixels_compresses hs h0 hrem hdin (by rw [hsplit]; exact hp), dinTake, hsplit, compressPixels_append,
      Body.bind_assoc]
    refine congrArg (endWriter s) (hcounts.bind_congr fun _ w ⟨hdrop, _⟩ => ?_)
    rw [dinTake, hdrop]
  · refine (hcounts.and (compressPixels_part _ _)).mono ?_ (fun _ _ h => h.2.2.1) fun _ _ => trivial
    rintro _ w ⟨⟨hdrop, hcount⟩, hoff, -⟩
    obtain ⟨hstate, -, -, -, hbpp⟩ := offRaster_facts (congrArg Prod.fst hoff)
    have hm : (BitVec.ofNat 32 m.toNat).toNat = m.toNat := by rw [BitVec.toNat_ofNat]; omega
    refine ⟨hstate.trans hs, ?_, by rw [hdrop, List.length_drop]; omega, fun p hmem => ?_⟩
    · rw [hcount, BitVec.toNat_sub_of_le (by rw [BitVec.le_def, hm]; omega), hm]
    · rw [hbpp]
      exact hp p (List.mem_append_right _ (hdrop ▸ hmem))

end Split

end Sys2Proof.Machine

open Sys2Proof Sys2Proof.Machine

/-- Settles O56: the EOF Code is the highest code of the code space, and the width only grows. -/
theorem codesFitTheirWidth : Obligations.CodesFitTheirWidth := by
  intro w hok
  obtain ⟨hgrown, hgrown12, -⟩ := grownWidth_spec (free := w.cFree) hok.width_le
  obtain ⟨hclear, heof⟩ := clear_eof_lt hok le_rfl
  exact ⟨fun q hq => cPrefix_lt_width hok hq, hclear, heof, (clear_eof_lt hok hgrown).2,
    fun hlast => ⟨le_antisymm hgrown12 (width_of_lastCode hok hlast ▸ hgrown), clear_lt hok⟩⟩

/-- Settles O50: the pixels of the first part are compressed first in both, and short of the raster's end nothing comes
between them and the second part's. -/
theorem wPixelsSplit : Obligations.WPixelsSplit := by
  intro s t m n k hk hs hrem hdin hp ht
  by_cases hlt : m.toNat < s.writer.pixRemain.toNat
  · obtain ⟨hfirst, hwhole, hspec⟩ :=
      exec_wPixels_first hk hs hrem hdin hp (pixRemain_ne_zero (Nat.zero_lt_of_lt hlt) le_rfl)
    rw [hfirst] at ht
    rw [hwhole]
    cases hrun : compressPixels (dinTake m.toNat s.writer) s.writer with
    | ok _ w =>
      obtain ⟨hstate, hcount, hlen, hrange⟩ := hspec.of_ok hrun
      have h0 : w.pixRemain ≠ 0#32 := pixRemain_ne_zero (n := 1) Nat.one_pos (by omega)
      rw [hrun, Body.bind_ok, endRaster_more h0] at ht
      cases ht
      refine ⟨fun _ _ => ?_, fun hfailed => nomatch hstate.symm.trans hfailed⟩
      rw [exec_wPixels_compresses (s := { s with writer := w, last := .ok }) hstate h0 (by dsimp only; omega) hlen hrange,
        Body.bind_ok]
      dsimp only
      cases (compressPixels (dinTake n.toNat w) w).bind fun _ w => endRaster w <;> rfl
    | raise e w =>
      obtain rfl := hspec.of_raise hrun
      rw [hrun, Body.bind_raise] at ht
      refine ⟨fun _ hok => ?_, fun _ => ht⟩
      cases ht
      nomatch hok
    | stuck f => rw [hrun] at ht; nomatch ht
  · obtain rfl : k = m := BitVec.eq_of_toNat_eq (by omega)
    exact ⟨fun h => absurd h hlt, fun _ => ht⟩

end

section
/-!
PROOFS. The strings of codes (R138, R139): what an entry adds to the string of the code it extends, and that a new entry
changes no other string. And the decompressor one entry ahead: the entry that the next code will add (R140 to R142).
-/

namespace Sys2Proof.Machine

/-! ### The string walk -/

/-- The pixels that are found first stand behind all that the walk still finds. -/
theorem walkString_append (first : Nat) (dict : List DEntry) (t : List Byte) (n : Nat) : ∀ (c : Nat) (s : List Byte),
    walkString first dict n c (s ++ t) = (walkString first dict n c s).map fun p => (p.1, p.2 ++ t) := by
  induction n with
  | zero => intro c s; unfold walkString; split <;> rfl
  | succ n ih =>
    intro c s
    unfold walkString
    split
    · rfl
    · split
      · exact ih _ (_ :: s)
      · rfl

/-- A root code's string is its pixel (R138). -/
theorem stringOf_root {r : Reader} {c : Nat} (h : c < r.dFirst.toNat) : stringOf c r = some (BitVec.ofNat 8 c, []) := by
  unfold stringOf
  cases r.dDict.length <;> exact if_pos h

section Strings

variable {r : Reader} (hs : decoderSpace r) (hd : dictionaryOk r)

include hs hd

/-- The walk from an assigned code needs no more turns than there are entries below the code, and no other entries. -/
theorem walkString_enough (more : List DEntry) (n : Nat) : ∀ (m c : Nat) (s : List Byte), codeAssigned r c →
    c < r.dFirst.toNat + n → c < r.dFirst.toNat + m →
    walkString r.dFirst.toNat (r.dDict ++ more) n c s = walkString r.dFirst.toNat r.dDict m c s := by
  obtain ⟨-, -, hclear, -, hfirst⟩ := hs
  obtain ⟨hlen, -, hentries⟩ := hd
  induction n with
  | zero =>
    intro m c s _ hn _
    have hroot : c < r.dFirst.toNat := hn
    cases m <;> simp only [walkString, if_pos hroot]
  | succ n ih =>
    intro m c s hc hn hm
    by_cases hroot : c < r.dFirst.toNat
    · cases m <;> simp only [walkString, if_pos hroot]
    · obtain ⟨m, rfl⟩ : ∃ k, m = k + 1 := ⟨m - 1, by omega⟩
      have hk : c - r.dFirst.toNat < r.dDict.length := by simp only [codeAssigned] at hc; omega
      obtain ⟨hpfx, -⟩ := hentries _ hk
      simp only [walkString, if_neg hroot, List.getElem?_append_left hk, List.getElem?_eq_getElem hk]
      exact ih m _ _ (by simp only [codeAssigned]; omega) (by omega) (by omega)

/-- An entry's string is that of the code it extends, and its suffix behind it (R138). -/
theorem stringOf_entry {k : Nat} (hk : k < r.dDict.length) : stringOf (r.dFirst.toNat + k) r =
    (stringOf r.dDict[k].pfx.toNat r).map fun p => (p.1, p.2 ++ [r.dDict[k].sfx]) := by
  obtain ⟨hpfx, -⟩ := hd.2.2 k hk
  obtain ⟨m, hm⟩ : ∃ m, r.dDict.length = m + 1 := ⟨r.dDict.length - 1, by omega⟩
  have hfuel : walkString r.dFirst.toNat r.dDict m r.dDict[k].pfx.toNat [] = stringOf r.dDict[k].pfx.toNat r := by
    have hlen := hd.1
    have hfirst := hs.2.2
    have henough := walkString_enough hs hd [] m r.dDict.length r.dDict[k].pfx.toNat []
      (by simp only [codeAssigned]; omega) (by omega) (by omega)
    rwa [List.append_nil] at henough
  rw [← hfuel, ← walkString_append, stringOf, hm, walkString, if_neg (by omega), Nat.add_sub_cancel_left,
    List.getElem?_eq_getElem hk]
  rfl

end Strings

/-! ### The entry that the next code will add -/

/-- `r` with the entry that the next code adds where its string begins with `x`: none, where it is the first code after a
Clear Code (R140 to R142). -/
def entered (x : Byte) (r : Reader) : Reader :=
  match r.dPrev with
  | none => r
  | some q => addEntry q x r

theorem entered_none {x : Byte} {r : Reader} (h : r.dPrev = none) : entered x r = r := by rw [entered, h]

theorem entered_some {x : Byte} {r : Reader} {q : Code} (h : r.dPrev = some q) : entered x r = addEntry q x r := by
  rw [entered, h]

theorem addEntry_free {q : Code} {x : Byte} {r : Reader} (h : r.dFree.toNat < 4096) :
    addEntry q x r = { r with dDict := r.dDict ++ [{ pfx := q, sfx := x }], dFree := r.dFree + 1#13 } := if_pos h

theorem addEntry_space (q : Code) (x : Byte) (r : Reader) : (addEntry q x r).dB = r.dB ∧
    (addEntry q x r).dClear = r.dClear ∧ (addEntry q x r).dFirst = r.dFirst ∧ (addEntry q x r).dW = r.dW ∧
    (addEntry q x r).dDone = r.dDone := by
  unfold addEntry
  split <;> exact ⟨rfl, rfl, rfl, rfl, rfl⟩

/-- A new entry leaves the code space, the width, the pending pixels and `D_done` alone. -/
theorem entered_space (x : Byte) (r : Reader) : (entered x r).dB = r.dB ∧ (entered x r).dClear = r.dClear ∧
    (entered x r).dFirst = r.dFirst ∧ (entered x r).dW = r.dW ∧ (entered x r).dDone = r.dDone ∧
    (entered x r).dPend = r.dPend := by
  unfold entered
  split
  · exact ⟨rfl, rfl, rfl, rfl, rfl, rfl⟩
  · obtain ⟨hB, hclear, hfirst, hW, hdone⟩ := addEntry_space _ x r
    exact ⟨hB, hclear, hfirst, hW, hdone, addEntry_dPend _ x r⟩

/-- The entry is one the decompressor may have (R138). -/
theorem entered_added {x : Byte} {r : Reader} (h : DecoderOk r) (hx : x.toNat < 2 ^ r.dB.toNat) :
    EntryAdded (entered x r) := by
  cases hprev : r.dPrev with
  | none => rw [entered_none hprev]; exact h.entryAdded
  | some q =>
    obtain ⟨-, -, hknown⟩ := h.2.2.1
    rw [entered_some hprev]
    exact (addEntry_spec h (hknown q hprev) hx).1

/-- What is looked at to add an entry is not the unpacker's. -/
theorem entered_offUnpacker (x : Byte) (r : Reader) : offUnpacker (entered x r) = entered x (offUnpacker r) := by
  cases hprev : r.dPrev with
  | none => rw [entered_none hprev, entered_none (r := offUnpacker r) hprev]
  | some q =>
    have hfree : (offUnpacker r).dFree = r.dFree := rfl
    rw [entered_some hprev, entered_some (r := offUnpacker r) hprev, addEntry, addEntry, hfree]
    split <;> rfl

section NewEntry

variable {r : Reader} {q : Code} {x : Byte} (h : DecoderOk r) (hfree : r.dFree.toNat < 4096)

include h hfree

/-- A new entry changes no other string. -/
theorem stringOf_addEntry {c : Nat} (hc : codeAssigned r c) : stringOf c (addEntry q x r) = stringOf c r := by
  obtain ⟨hs, hd, -⟩ := h
  have hlen := hd.1
  have hfirst := hs.2.2
  have hbound : c < r.dFirst.toNat + r.dDict.length := by simp only [codeAssigned] at hc; omega
  rw [addEntry_free hfree]
  exact walkString_enough hs hd [{ pfx := q, sfx := x }] _ _ c [] hc (by rw [List.length_append]; omega) hbound

/-- The new entry's string (R142). -/
theorem stringOf_newest (hq : codeAssigned r q.toNat) (hx : x.toNat < 2 ^ r.dB.toNat) :
    stringOf r.dFree.toNat (addEntry q x r) = (stringOf q.toNat r).map fun p => (p.1, p.2 ++ [x]) := by
  obtain ⟨hs', hd', -⟩ := (addEntry_spec h hq hx).1
  have hdict : (addEntry q x r).dDict = r.dDict ++ [{ pfx := q, sfx := x }] := by rw [addEntry_free hfree]
  have hk : r.dDict.length < (addEntry q x r).dDict.length := by rw [hdict, List.length_append]; exact Nat.lt_succ_self _
  have hentry : (addEntry q x r).dDict[r.dDict.length] = { pfx := q, sfx := x } := by
    simp only [hdict, List.getElem_concat_length]
  have hcode : (addEntry q x r).dFirst.toNat + r.dDict.length = r.dFree.toNat := by
    rw [(addEntry_space q x r).2.2.1]; exact h.2.1.1
  have hstring := stringOf_entry hs' hd' hk
  rwa [hentry, hcode, stringOf_addEntry h hfree hq] at hstring

end NewEntry

/-- A code whose string begins with `x`, the entry that it adds counted in: the string is pending (R140, R142). -/
theorem applyCode_entered {r : Reader} {c : Nat} {x : Byte} {l : List Byte} (h : DecoderOk r)
    (hx : x.toNat < 2 ^ r.dB.toNat) (hfree : (entered x r).dFree.toNat ≤ 4095) (hc : codeAssigned (entered x r) c)
    (hstring : stringOf c (entered x r) = some (x, l)) :
    applyCode c r = .ok () (acceptString c (x :: l) (entered x r)) := by
  obtain ⟨-, -, hclear, heof, hfirst⟩ := h.1
  obtain ⟨-, -, hknown⟩ := h.2.2.1
  obtain ⟨-, hempty⟩ := h.2.2.2.2.2
  cases hprev : r.dPrev with
  | none =>
    rw [entered_none hprev] at hc hstring ⊢
    have hroot : c < r.dClear.toNat := by
      have := hempty hprev
      simp only [codeAssigned, this] at hc; omega
    rw [stringOf_root (by omega)] at hstring
    cases hstring
    rw [applyCode, if_neg (by omega), if_neg (by omega), hprev]
    exact if_neg (by omega)
  | some q =>
    rw [entered_some hprev] at hfree hc hstring ⊢
    obtain ⟨-, -, hclear', hfirst', hgrows, hone⟩ := addEntry_spec h (hknown q hprev) hx
    have hroom : r.dFree.toNat < 4096 := by omega
    simp only [codeAssigned, hclear', hfirst', hone hroom] at hc
    rw [applyCode, if_neg (by omega), if_neg (by omega), hprev]
    dsimp only
    by_cases hold : codeAssigned r c
    · rw [stringOf_addEntry h hroom hold] at hstring
      rw [if_pos hold, hstring]
    · obtain rfl : c = r.dFree.toNat := by simp only [codeAssigned] at hold; omega
      rw [stringOf_newest h hroom (hknown q hprev) hx] at hstring
      obtain ⟨⟨y, s⟩, hprefix, hlast⟩ := Option.map_eq_some_iff.1 hstring
      cases hlast
      rw [if_neg hold, if_pos ⟨rfl, hroom⟩, hprefix]
      rfl

end Sys2Proof.Machine
end

section
/-!
PROOFS. Codes ahead of the unpacker (R71, R118), and codes that R_PIXELS reads before it delivers a pixel (R145): the
decompressor's side of an image read back.
-/

namespace Sys2Proof.Machine

/-! ### Codes ahead -/

/-- Every code has at most 12 bits and fits its width (R104, R133). -/
def CodesSized (codes : List (Nat × Nat)) : Prop := ∀ p ∈ codes, p.2 ≤ 12 ∧ p.1 < 2 ^ p.2

theorem CodesSized.fit {codes : List (Nat × Nat)} (h : CodesSized codes) : CodesFit codes := fun p hp => (h p hp).2

theorem CodesSized.append {codes later : List (Nat × Nat)} (h : CodesSized codes) (h' : CodesSized later) :
    CodesSized (codes ++ later) := List.forall_mem_append.2 ⟨h, h'⟩

theorem codesSized_one {c width : Nat} (hwidth : width ≤ 12) (hc : c < 2 ^ width) : CodesSized [(c, width)] :=
  List.forall_mem_singleton.2 ⟨hwidth, hc⟩

/-- The unpacker has exactly `codes` ahead, with fewer pad bits than a byte, the terminator and then `more`. -/
def CodesAhead (more : List SrcAnswer) (codes : List (Nat × Nat)) (r : Reader) : Prop :=
  CodesSized codes ∧ ∃ blocks total pad cur later, (∀ d ∈ blocks, 1 ≤ d.length ∧ d.length ≤ 255) ∧ pad < 8 ∧
    DataAhead blocks more total (codesNumber codes) (codesBits codes + pad) cur later r

section Codes

variable {more : List SrcAnswer} {codes : List (Nat × Nat)} {r : Reader}

/-- A started unpacker in front of framed data bytes of codes (R119, R124). -/
theorem codesAhead_start (hsized : CodesSized codes) (hacc : r.uAcc = 0#19) (hcnt : r.uCnt = 0) (hleft : r.uLeft = 0#8)
    (hend : r.uEnd = false) (hsin : r.sin = (framed (dataBytes (bitString codes))).map .byte ++ more) :
    CodesAhead more codes r := by
  rw [framed_eq] at hsin
  have hahead := dataAhead_start hacc hcnt hleft hend hsin
  rw [dataBlocks_flatten, bytesNumber_dataBytes hsized.fit, dataBytes_length] at hahead
  have hpad : codesBits codes + (8 * byteCount (codesBits codes) - codesBits codes) = 8 * byteCount (codesBits codes) := by
    unfold byteCount; omega
  exact ⟨hsized, _, _, 8 * byteCount (codesBits codes) - codesBits codes, _, _, dataBlocks_sizes _,
    by unfold byteCount; omega, by rw [hpad]; exact hahead⟩

/-- What is ahead stands in SIN and the unpacker. -/
theorem CodesAhead.of_same {r' : Reader} (h : CodesAhead more codes r) (hsin : r'.sin = r.sin)
    (hread : r'.sinRead = r.sinRead) (hacc : r'.uAcc = r.uAcc) (hcnt : r'.uCnt = r.uCnt) (hleft : r'.uLeft = r.uLeft)
    (hend : r'.uEnd = r.uEnd) : CodesAhead more codes r' := by
  obtain ⟨hsized, blocks, total, pad, cur, later, hsizes, hpad, h⟩ := h
  exact ⟨hsized, blocks, total, pad, cur, later, hsizes, hpad, h.blocks_end, hleft ▸ h.left, hend.trans h.notEnded,
    hsin.trans h.stream, hread ▸ h.read, by rw [hacc, hcnt]; exact h.held, by rw [hacc, hcnt]; exact h.number,
    by rw [hcnt]; exact h.count⟩

theorem CodesAhead.of_onlyDecoder {r' : Reader} (h : CodesAhead more codes r) (ho : onlyDecoder r r') :
    CodesAhead more codes r' := by
  obtain ⟨-, hsin, hread, hacc, hcnt, hleft, hend⟩ := ho
  exact h.of_same hsin hread hacc hcnt hleft hend

/-- ReadCode takes the first code. -/
theorem CodesAhead.readCode {c width : Nat} (h : CodesAhead more ((c, width) :: codes) r) :
    ∃ r', readCode width r = .ok c r' ∧ CodesAhead more codes r' := by
  obtain ⟨hsized, blocks, total, pad, cur, later, hsizes, hpad, h⟩ := h
  obtain ⟨⟨hwidth, hc⟩, hsized⟩ := List.forall_mem_cons.1 hsized
  have hcode : codesNumber ((c, width) :: codes) % 2 ^ width = c := by
    rw [codesNumber, Nat.add_mul_mod_self_right, Nat.mod_eq_of_lt hc]
  have hrest : codesNumber ((c, width) :: codes) / 2 ^ width = codesNumber codes := by
    rw [codesNumber, Nat.add_mul_div_right _ _ (Nat.two_pow_pos _), Nat.div_eq_of_lt hc, Nat.zero_add]
  rw [codesBits_cons, Nat.add_assoc] at h
  obtain ⟨r', cur', later', hread, h'⟩ := readCode_ahead hsizes h hwidth (Nat.le_add_right ..)
  rw [hcode] at hread
  rw [hrest, Nat.add_sub_cancel_left] at h'
  exact ⟨r', hread, hsized, blocks, total, pad, cur', later', hsizes, hpad, h'⟩

/-- Behind the last code come only pad bits and the terminator (R120, R123). -/
theorem CodesAhead.skipToTerminator (h : CodesAhead more [] r) :
    ∃ r', skipToTerminator r = .ok () r' ∧ r'.sin = more := by
  obtain ⟨-, blocks, total, pad, cur, later, hsizes, hpad, h⟩ := h
  exact skipToTerminator_padding hsizes h (by rwa [codesBits, List.map_nil, List.sum_nil, Nat.zero_add])

/-- `DecodeStep` does with the first code what ApplyCode does, wherever ApplyCode completes. -/
theorem CodesAhead.decodeStep {c : Nat} (h : CodesAhead more ((c, r.dW.toNat) :: codes) r) (hok : DecoderOk r) :
    ∃ r1, offUnpacker r1 = offUnpacker r ∧ DecoderOk r1 ∧ ∀ r', applyCode c r1 = .ok () r' →
      decodeStep r = .ok () r' ∧ DecoderOk r' ∧ CodesAhead more codes r' := by
  obtain ⟨r1, hread, hahead⟩ := h.readCode
  obtain ⟨hoff, -, -, -, hunpack⟩ := (readCode_spec _ r).of_ok hread
  have hok1 := hok.of_same (sameDecoder_of_offUnpacker hoff) (hunpack hok.2.2.1.2.1 hok.2.2.2.1)
  refine ⟨r1, hoff, hok1, fun r' happly => ?_⟩
  obtain ⟨honly, hok'⟩ := (applyCode_spec c hok1).of_ok happly
  exact ⟨by rw [Machine.decodeStep, hread, Body.bind_ok, happly], hok', hahead.of_onlyDecoder honly⟩

end Codes

/-! ### Codes before pixels -/

/-- The next `n` pixels may be delivered from `r'` instead of from `r`, which differ only by codes that have been read. -/
def ReadsOn (n : Nat) (r r' : Reader) : Prop :=
  offDecompressor r' = offDecompressor r ∧ deliverPixels n r = deliverPixels n r'

theorem ReadsOn.refl (n : Nat) (r : Reader) : ReadsOn n r r := ⟨rfl, rfl⟩

theorem ReadsOn.trans {n : Nat} {r r1 r' : Reader} (h : ReadsOn n r r1) (h' : ReadsOn n r1 r') : ReadsOn n r r' :=
  ⟨h'.1.trans h.1, h.2.trans h'.2⟩

theorem ReadsOn.pixRemain {n : Nat} {r r' : Reader} (h : ReadsOn n r r') : r'.pixRemain = r.pixRemain :=
  offDecompressor_pixRemain h.1

/-- A code is read while too few pixels are pending (R145). -/
theorem readsOn_code {n : Nat} {r r' : Reader} (hok : DecoderOk r) (hdone : r.dDone = false) (hlen : r.dPend.length < n)
    (hrem : n ≤ r.pixRemain.toNat) (hstep : decodeStep r = .ok () r') : ReadsOn n r r' :=
  ⟨((decodeStep_part r).of_ok hstep).1, deliverPixels_afterCode hok hdone hlen hrem hstep (decodeStep_longer hstep)⟩

/-- Delivery keeps the decompressor in order. -/
theorem DecoderOk.delivered {r : Reader} (h : DecoderOk r) (n : Nat) : DecoderOk (delivered n r) := by
  obtain ⟨hspace, hdict, hwidth, hunpack, hpend, hpace⟩ := h
  exact ⟨hspace, hdict, hwidth, hunpack, fun x hx => hpend x (List.drop_subset _ _ hx), hpace⟩

/-- With the EOF Code ahead the epilogue ends behind the terminator (R147). -/
theorem epilogue_eofAhead {more : List SrcAnswer} {r : Reader} (hok : DecoderOk r) (hdone : r.dDone = false)
    (hpend : r.dPend = []) (hahead : CodesAhead more [(r.dEof.toNat, r.dW.toNat)] r) :
    ∃ r', epilogue r = .ok () r' ∧ r'.sin = more := by
  obtain ⟨r1, hoff, hok1, hstep⟩ := hahead.decodeStep hok
  obtain ⟨-, hclear1, heof1, -, -, -, -, -, hpend1, -⟩ := sameDecoder_of_offUnpacker hoff
  obtain ⟨-, -, hclear, heof, -⟩ := hok1.1
  obtain ⟨hrun, -, hahead1⟩ := hstep { r1 with dDone := true } (by
    rw [applyCode, if_neg (by rw [← heof1]; omega), if_pos (by rw [heof1])])
  obtain ⟨r', hskip, hsin⟩ := hahead1.skipToTerminator
  refine ⟨r', ?_, hsin⟩
  rw [epilogue_code hok hpend hdone, hrun, Body.bind_ok,
    epilogue_eofRead (r := { r1 with dDone := true }) (hpend1.trans hpend) rfl, hskip]

/-- With all pixels of the raster pending and the EOF Code ahead, the image ends (R145, R147). -/
theorem deliverPixels_eofAhead {more : List SrcAnswer} {r : Reader} (hok : DecoderOk r) (hdone : r.dDone = false)
    (hrem : r.pixRemain.toNat = r.dPend.length) (hpos : 0 < r.dPend.length)
    (hahead : CodesAhead more [(r.dEof.toNat, r.dW.toNat)] r) :
    ∃ r', deliverPixels r.dPend.length r = .ok () r' ∧ r'.dout = r.dout ++ r.dPend ∧ r'.pixRemain = 0#32 ∧
      r'.sin = more := by
  obtain ⟨n, hn⟩ := Nat.exists_eq_succ_of_ne_zero hpos.ne'
  have hahead' : CodesAhead more [(r.dEof.toNat, r.dW.toNat)] (delivered r.dPend.length r) :=
    hahead.of_same rfl rfl rfl rfl rfl rfl
  obtain ⟨r', hrun, hsin⟩ := epilogue_eofAhead (hok.delivered _) hdone List.drop_length hahead'
  have hoff := ((epilogue_part _).of_ok hrun).1
  refine ⟨r', ?_, ?_, ?_, hsin⟩
  · rw [← hrun, hn]
    exact deliverPixels_full n r hn.ge (by omega)
  · rw [offDecompressor_dout hoff, delivered, List.take_length]
  · rw [offDecompressor_pixRemain hoff, delivered_full hrem.symm]

end Sys2Proof.Machine
end

section
/-!
PROOFS. The compressor and the decompressor in step (R123, R136): the decompressor has read every code sent so far and is one
entry behind; the entry it adds with the next code is the one the compressor has added already.
-/

namespace Sys2Proof.Machine

/-! ### The compressor's entries -/

/-- The pairs of `C_dict`, oldest first, as entries of a decompressor. -/
def sentEntries (w : Writer) : List DEntry := (w.cDict.map fun e => { pfx := e.pfx, sfx := e.pixel }).reverse

/-- Falling codes from `first` on leave room for no code below the newest one. -/
theorem newest_code_le {first : Nat} (d : List CEntry) : ∀ {a : CEntry},
    (a :: d).Pairwise (fun e f => f.code.toNat < e.code.toNat) → (∀ e ∈ a :: d, first ≤ e.code.toNat) →
    first + d.length ≤ a.code.toNat := by
  induction d with
  | nil => exact fun _ hlow => hlow _ List.mem_cons_self
  | cons b d ih =>
    intro a hfall hlow
    obtain ⟨hnewer, hfall⟩ := List.pairwise_cons.1 hfall
    have hold := ih hfall fun e he => hlow e (List.mem_cons_of_mem _ he)
    have hlt := hnewer b List.mem_cons_self
    rw [List.length_cons]
    omega

/-- With one code for each entry and no gap, an entry stands at the place of its code. -/
theorem entry_at_code {first : Nat} {f : CEntry → DEntry} (d : List CEntry) :
    d.Pairwise (fun e f => f.code.toNat < e.code.toNat) →
    (∀ e ∈ d, first ≤ e.code.toNat ∧ e.code.toNat < first + d.length) →
    ∀ e ∈ d, (d.map f).reverse[e.code.toNat - first]? = some (f e) := by
  induction d with
  | nil => exact fun _ _ e he => nomatch he
  | cons a d ih =>
    intro hfall hrange e he
    have hnewest := newest_code_le d hfall fun e he => (hrange e he).1
    obtain ⟨hnewer, hfall⟩ := List.pairwise_cons.1 hfall
    have ha := (hrange a List.mem_cons_self).2
    rw [List.length_cons] at ha
    have hlen : (d.map f).reverse.length = d.length := by rw [List.length_reverse, List.length_map]
    rw [List.map_cons, List.reverse_cons]
    obtain rfl | he := List.mem_cons.1 he
    · rw [show e.code.toNat - first = (d.map f).reverse.length by omega, List.getElem?_concat_length]
    · have hlow := (hrange e (List.mem_cons_of_mem _ he)).1
      have hlt := hnewer e he
      rw [List.getElem?_append_left (by omega)]
      exact ih hfall (fun b hb => ⟨(hrange b (List.mem_cons_of_mem _ hb)).1, by have := hnewer b hb; omega⟩) e he

/-- Each pair stands at the place of its code (R54, R125). -/
theorem sentEntries_code {w : Writer} (hok : EncoderOk w) {e : CEntry} (he : e ∈ w.cDict) :
    (sentEntries w)[e.code.toNat - w.cFirst.toNat]? = some { pfx := e.pfx, sfx := e.pixel } := by
  obtain ⟨-, -, hlen, hpairs, -, hdistinct⟩ := hok
  refine entry_at_code w.cDict (hdistinct.imp fun h => h.2) (fun e he => ?_) e he
  obtain ⟨-, -, hlow, hhigh⟩ := hpairs e he
  exact ⟨hlow, by omega⟩

theorem sentEntries_insertPair (q : Code) (p : Byte) (w : Writer) :
    sentEntries (insertPair q p w) = sentEntries w ++ [{ pfx := q, sfx := p }] := by
  rw [sentEntries, insertPair_cDict, List.map_cons, List.reverse_cons]
  rfl

theorem sentEntries_length (w : Writer) : (sentEntries w).length = w.cDict.length := by
  rw [sentEntries, List.length_reverse, List.length_map]

/-- A pixel of the image is a root code of its own (R138). -/
theorem stringOf_pixel {r : Reader} {p : Byte} (hs : decoderSpace r) (hp : p.toNat < 2 ^ r.dB.toNat) :
    stringOf (p.setWidth 12).toNat r = some (p, []) := by
  obtain ⟨-, -, -, -, hfirst⟩ := hs
  have hcode : (p.setWidth 12).toNat = p.toNat := by
    rw [BitVec.toNat_setWidth, Nat.mod_eq_of_lt (lt_trans p.isLt (by decide))]
  rw [hcode, stringOf_root (by omega), BitVec.ofNat_toNat, BitVec.setWidth_eq]

/-! ### In step -/

/-- The decompressor has read every code that the compressor has sent. The pixels not yet sent, the string of `C_prefix`,
are `x` and then `l`. -/
structure InStep (w : Writer) (x : Byte) (l : List Byte) (r : Reader) : Prop where
  decoder : DecoderOk r
  notDone : r.dDone = false
  codeSize : r.dB = w.cB
  width : r.dW = w.cW
  pixel : x.toNat < 2 ^ r.dB.toNat
  entries : (entered x r).dDict = sentEntries w
  string : ∀ q, w.cPrefix = some q → stringOf q.toNat (entered x r) = some (x, l)

/-- The decompressor has read `C_prefix` too, as `q`; the entry it made then is the compressor's newest, and the next one is
not known to it (R140, R143). -/
structure PrefixRead (w : Writer) (q : Code) (r : Reader) : Prop where
  decoder : DecoderOk r
  notDone : r.dDone = false
  codeSize : r.dB = w.cB
  width : r.dW = grownWidth w.cFree w.cW
  prev : r.dPrev = some q
  entries : r.dDict = sentEntries w

section Spaces

variable {w : Writer} {r : Reader} (hs : decoderSpace r) (hok : EncoderOk w) (hB : r.dB = w.cB)

include hs hok hB

/-- One code size, one code space (R103). -/
theorem sameSpace : r.dClear.toNat = w.cClear.toNat ∧ r.dEof.toNat = w.cEof.toNat ∧ r.dFirst.toNat = w.cFirst.toNat := by
  obtain ⟨-, -, hclear, heof, hfirst⟩ := hs
  obtain ⟨⟨-, -, -, hclear', heof', hfirst'⟩, -⟩ := hok
  rw [hclear, heof, hfirst, hclear', heof', hfirst', hB]
  exact ⟨rfl, rfl, rfl⟩

/-- The same entries, the same counter. -/
theorem sameFree (hd : dictionaryOk r) (he : r.dDict = sentEntries w) : r.dFree = w.cFree := by
  obtain ⟨-, -, hfirst⟩ := sameSpace hs hok hB
  obtain ⟨-, -, hlen, -⟩ := hok
  have hlen' := hd.1
  rw [he, sentEntries_length] at hlen'
  exact BitVec.eq_of_toNat_eq (by omega)

end Spaces

section Steps

variable {w : Writer} {x : Byte} {l : List Byte} {r : Reader} {q : Code}

/-- The unpacker does not matter. -/
theorem InStep.of_offUnpacker {r1 : Reader} (h : InStep w x l r) (hoff : offUnpacker r1 = offUnpacker r)
    (hok : DecoderOk r1) : InStep w x l r1 := by
  obtain ⟨hB, -, -, -, hW, -, -, -, -, hdone⟩ := sameDecoder_of_offUnpacker hoff
  have hentered : offUnpacker (entered x r1) = offUnpacker (entered x r) := by
    rw [entered_offUnpacker, hoff, entered_offUnpacker]
  obtain ⟨-, -, -, hfirst, -, -, -, hdict, -, -⟩ := sameDecoder_of_offUnpacker hentered
  refine ⟨hok, hdone.trans h.notDone, hB.trans h.codeSize, hW.trans h.width, hB ▸ h.pixel, hdict.trans h.entries, ?_⟩
  intro q hq
  rw [← h.string q hq, stringOf, stringOf, hfirst, hdict]

/-- Only the compressor of the writer matters. -/
theorem InStep.of_same {w1 : Writer} (h : InStep w x l r) (hsame : sameEncoder w w1) : InStep w1 x l r := by
  obtain ⟨-, hB, -, -, -, hW, -, hprefix, hdict⟩ := hsame
  refine ⟨h.decoder, h.notDone, h.codeSize.trans hB.symm, h.width.trans hW.symm, h.pixel, ?_, ?_⟩
  · rw [h.entries, sentEntries, sentEntries, hdict]
  · rw [hprefix]; exact h.string

variable (hok : EncoderOk w)

include hok

/-- The decompressor with the compressor's newest entry has all of its entries. -/
theorem InStep.ahead (h : InStep w x l r) : decoderSpace (entered x r) ∧ dictionaryOk (entered x r) ∧
    (entered x r).dB = w.cB ∧ (entered x r).dFree = w.cFree := by
  obtain ⟨hs, hd, -⟩ := entered_added h.decoder h.pixel
  have hB := (entered_space x r).1.trans h.codeSize
  exact ⟨hs, hd, hB, sameFree hs hok hB hd h.entries⟩

/-- A pixel whose pair an entry has: `C_prefix` is that entry's code, and its string is one pixel longer (R127). -/
theorem InStep.longer (h : InStep w x l r) {e : CEntry} (he : e ∈ w.cDict) (hq : w.cPrefix = some e.pfx) :
    InStep { w with cPrefix := some e.code } x (l ++ [e.pixel]) r := by
  obtain ⟨hs, hd, hB, -⟩ := h.ahead hok
  obtain ⟨-, -, hfirst⟩ := sameSpace hs hok hB
  have hentry := sentEntries_code hok he
  rw [← h.entries, ← hfirst] at hentry
  obtain ⟨hk, hentry⟩ := List.getElem?_eq_some_iff.1 hentry
  have hlow := (hok.2.2.2.1 e he).2.2.1
  have hstring := stringOf_entry hs hd hk
  rw [hentry, h.string _ hq, show (entered x r).dFirst.toNat + (e.code.toNat - (entered x r).dFirst.toNat) =
    e.code.toNat by omega] at hstring
  refine ⟨h.decoder, h.notDone, h.codeSize, h.width, h.pixel, h.entries, fun c hc => ?_⟩
  cases hc
  exact hstring

/-- `C_prefix` is read: its string is pending, and the decompressor has the compressor's entries (R140, R142). -/
theorem InStep.readPrefix (h : InStep w x l r) (hq : w.cPrefix = some q) {more : List SrcAnswer}
    {later : List (Nat × Nat)} (hahead : CodesAhead more ((q.toNat, w.cW.toNat) :: later) r) :
    ∃ r', decodeStep r = .ok () r' ∧ r'.dPend = r.dPend ++ x :: l ∧ CodesAhead more later r' ∧ PrefixRead w q r' := by
  rw [← h.width] at hahead
  obtain ⟨r1, hoff, hok1, hstep⟩ := hahead.decodeStep h.decoder
  have h1 := h.of_offUnpacker hoff hok1
  obtain ⟨hs, hd, hB, hfree⟩ := h1.ahead hok
  obtain ⟨hclear, -, hfirst⟩ := sameSpace hs hok hB
  obtain ⟨-, -, -, hW, hdone, hpend⟩ := entered_space x r1
  have hpend1 : r1.dPend = r.dPend := (congrArg (·.dPend) hoff :)
  have hknown := hok.2.2.2.2.1 q hq
  have hcode : BitVec.ofNat 12 q.toNat = q := by rw [BitVec.ofNat_toNat, BitVec.setWidth_eq]
  obtain ⟨hrun, hok', hahead'⟩ := hstep _ (applyCode_entered hok1 h1.pixel (by rw [hfree]; exact hok.free_le)
    (by simp only [codeAssigned, hclear, hfirst, hfree]; exact hknown) (h1.string q hq))
  refine ⟨_, hrun, ?_, hahead', hok', hdone.trans h1.notDone, hB, ?_, congrArg some hcode, h1.entries⟩
  · rw [acceptString, hpend, hpend1]
  · rw [acceptString, hfree, hW, h1.width]

/-- The pair that the compressor inserts is the entry the decompressor will add with the next code (R129, R141). -/
theorem PrefixRead.inserted (h : PrefixRead w q r) {p : Byte} (hp : p.toNat < 2 ^ r.dB.toNat) :
    InStep (insertPair q p w) p [] r := by
  have hfree := sameFree h.decoder.1 hok h.codeSize h.decoder.2.1 h.entries
  have hroom : r.dFree.toNat < 4096 := by have := hok.free_le; rw [hfree]; omega
  refine ⟨h.decoder, h.notDone, h.codeSize, h.width, hp, ?_, fun c hc => ?_⟩
  · rw [entered_some h.prev, addEntry_free hroom, sentEntries_insertPair, ← h.entries]
  · cases hc
    exact stringOf_pixel (entered_added h.decoder hp).1 (by rw [(entered_space p r).1]; exact hp)

end Steps

/-- After a Clear Code both dictionaries are fresh, and `C_prefix` is a pixel (R128, R130, R144). -/
theorem inStep_fresh {w : Writer} {r : Reader} {p : Byte} (hok : DecoderOk r) (hdone : r.dDone = false) (hB : r.dB = w.cB)
    (hp : p.toNat < 2 ^ r.dB.toNat) (hW : w.cW = w.cB + 1#4) (hdict : w.cDict = [])
    (hq : w.cPrefix = some (p.setWidth 12)) : InStep w p [] (resetDecoder r) := by
  refine ⟨resetDecoder_ok hok, hdone, hB, ?_, hp, ?_, fun c hc => ?_⟩
  · rw [hW, ← hB]; rfl
  · rw [entered_none rfl, sentEntries, hdict]; rfl
  · cases hq.symm.trans hc
    rw [entered_none rfl]
    exact stringOf_pixel hok.1 hp

end Sys2Proof.Machine
end

section
/-!
PROOFS. What a pixel sends (R127 to R130), and that a decompressor in step reads it: pixel by pixel, and then for any run of
pixels.
-/

namespace Sys2Proof.Machine

/-! ### What goes out -/

/-- What SOUT holds once the codes `later` and a Flush have been written behind the packer's contents (R116, R124). -/
def outThrough (later : List (Nat × Nat)) (w : Writer) : List Byte := w.sout ++ framed (dataThrough later w)

theorem packed_pCnt (v bits : Nat) (w : Writer) : (packed v bits w).pCnt = bits % 8 := rfl

/-- A code written is a code less to come. -/
theorem outThrough_packed {c width v bits : Nat} {w : Writer} (hp : packerOk w) (hc : c < 2 ^ width) (hw : width ≤ 12)
    (hbits : bits = w.pCnt + width) (hv : v = w.pAcc.toNat + c * 2 ^ w.pCnt) {later : List (Nat × Nat)}
    (hlater : CodesSized later) : outThrough later (packed v bits w) = outThrough ((c, width) :: later) w := by
  obtain ⟨hb, hlt⟩ := pending_fit hp hc hw hbits hv
  obtain ⟨-, hacc⟩ := packed_packerOk hp.2.2 hlt hb
  rw [outThrough, dataThrough, packed_framed, outThrough, dataThrough, dataBytes_packed hp.2.1 hc hlater.fit, hacc,
    packed_pCnt, hv, hbits, blockBytes, List.append_assoc]

/-! ### What is read -/

/-- A decompressor in step with `w` that has `codes` ahead reads them, whatever comes behind: then it is in step with `w'`,
and the pixels `s` have come to those not yet delivered. It does so before the next `n` pixels leave, where they are no
fewer than all those. -/
def Conveys (codes : List (Nat × Nat)) (s : List Byte) (w w' : Writer) : Prop :=
  ∀ ⦃x : Byte⦄ ⦃l : List Byte⦄ ⦃r : Reader⦄ ⦃more : List SrcAnswer⦄ ⦃later : List (Nat × Nat)⦄ ⦃n : Nat⦄, InStep w x l r →
    CodesAhead more (codes ++ later) r → (r.dPend ++ x :: l ++ s).length ≤ n → n ≤ r.pixRemain.toNat →
    ∃ x' l' r', InStep w' x' l' r' ∧ CodesAhead more later r' ∧ r'.dPend ++ x' :: l' = r.dPend ++ x :: l ++ s ∧
      ReadsOn n r r'

/-- Where the compressor ends is all that counts. -/
theorem Conveys.of_same {codes : List (Nat × Nat)} {s : List Byte} {w w1 w' : Writer} (h : Conveys codes s w w1)
    (hsame : sameEncoder w1 w') : Conveys codes s w w' := by
  intro x l r more later n hstep hahead hlen hrem
  obtain ⟨x', l', r', hstep', hread⟩ := h hstep hahead hlen hrem
  exact ⟨x', l', r', hstep'.of_same hsame, hread⟩

/-- From `w` to `w'` the compressor takes the pixels `s` and sends `codes`. -/
structure Sends (codes : List (Nat × Nat)) (s : List Byte) (w w' : Writer) : Prop where
  sized : CodesSized codes
  out : ∀ {later}, CodesSized later → outThrough later w' = outThrough (codes ++ later) w
  read : Conveys codes s w w'

theorem Sends.refl (w : Writer) : Sends [] [] w w :=
  ⟨nofun, fun _ => rfl, fun x l r _ _ _ h hahead _ _ => ⟨x, l, r, h, hahead, (List.append_nil _).symm, ReadsOn.refl _ r⟩⟩

theorem Sends.trans {codes codes' : List (Nat × Nat)} {s s' : List Byte} {w w1 w' : Writer} (h : Sends codes s w w1)
    (h' : Sends codes' s' w1 w') : Sends (codes ++ codes') (s ++ s') w w' := by
  refine ⟨h.sized.append h'.sized, fun hlater => ?_, fun x l r more later n hstep hahead hlen hrem => ?_⟩
  · rw [h'.out hlater, h.out (h'.sized.append hlater), List.append_assoc]
  · rw [List.append_assoc] at hahead
    have hlen1 : (r.dPend ++ x :: l ++ s).length ≤ n := by
      simp only [List.length_append] at hlen ⊢; omega
    obtain ⟨x1, l1, r1, hstep1, hahead1, hpend1, hreads1⟩ := h.read hstep hahead hlen1 hrem
    rw [← List.append_assoc, ← hpend1] at hlen
    obtain ⟨x', l', r', hstep', hahead', hpend', hreads'⟩ := h'.read hstep1 hahead1 hlen
      (hreads1.pixRemain.symm ▸ hrem)
    exact ⟨x', l', r', hstep', hahead', by rw [hpend', hpend1, List.append_assoc], hreads1.trans hreads'⟩

/-- DIN, the pixel count and the tracker do not matter. -/
theorem Sends.counted {codes : List (Nat × Nat)} {s : List Byte} {w w' : Writer} (h : Sends codes s (dinDrop 1 w) w') :
    Sends codes s w (countPixel w') := by
  have hread : Conveys codes s w w' := fun _ _ _ _ _ _ hstep =>
    h.read (hstep.of_same ⟨rfl, rfl, rfl, rfl, rfl, rfl, rfl, rfl, rfl⟩)
  exact ⟨h.sized, h.out, hread.of_same ⟨rfl, rfl, rfl, rfl, rfl, rfl, rfl, rfl, rfl⟩⟩

/-! ### One pixel -/

section Pixel

variable {w : Writer} {q : Code} {p : Byte} (hok : EncoderOk w)

include hok

/-- A pixel of the image is one of the decompressor's. -/
theorem pixel_lt {r : Reader} (hB : r.dB = w.cB) (hp : p.toNat < 2 ^ w.bpp.toNat) : p.toNat < 2 ^ r.dB.toNat := by
  obtain ⟨-, -, hcB, -⟩ := hok.1
  exact lt_of_lt_of_le hp (Nat.pow_le_pow_right (by decide) (by rw [hB, hcB]; exact le_max_left _ _))

/-- A pair that an entry has sends nothing (R127). -/
theorem sends_known {e : CEntry} (he : e ∈ w.cDict) (hq : w.cPrefix = some e.pfx) :
    Sends [] [e.pixel] w { w with cPrefix := some e.code } :=
  ⟨nofun, fun _ => rfl, fun x l r _ _ _ h hahead _ _ =>
    ⟨x, l ++ [e.pixel], r, h.longer hok he hq, hahead, by simp, ReadsOn.refl _ r⟩⟩

variable (hp : p.toNat < 2 ^ w.bpp.toNat) (hq : w.cPrefix = some q)

include hp hq

/-- `C_prefix` goes out, and its pair with the pixel is inserted (R129). -/
theorem conveys_inserted : Conveys [(q.toNat, w.cW.toNat)] [p] w (insertPair q p w) := by
  intro x l r more later n h hahead hlen hrem
  obtain ⟨r', hstep, hpend, hahead', hread⟩ := h.readPrefix hok hq hahead
  refine ⟨p, [], r', hread.inserted hok (pixel_lt hok hread.codeSize hp), hahead', by rw [hpend], ?_⟩
  exact readsOn_code h.decoder h.notDone (by simp only [List.length_append, List.length_cons] at hlen; omega) hrem hstep

/-- The Clear Code goes out behind it, and both dictionaries are fresh (R130, R144). -/
theorem conveys_exhausted : Conveys [(q.toNat, w.cW.toNat), (w.cClear.toNat, (grownWidth w.cFree w.cW).toNat)] [p] w
    (resetDict (insertPair q p w)) := by
  intro x l r more later n h hahead hlen hrem
  obtain ⟨r1, hstep1, hpend1, hahead1, hread1⟩ := h.readPrefix hok hq hahead
  have hreads1 := readsOn_code h.decoder h.notDone
    (by simp only [List.length_append, List.length_cons] at hlen; omega) hrem hstep1
  rw [← hread1.width] at hahead1
  obtain ⟨r2, hoff, hok2, hstep⟩ := CodesAhead.decodeStep hahead1 hread1.decoder
  obtain ⟨hB, -, -, -, -, -, -, -, hpend2, hdone⟩ := sameDecoder_of_offUnpacker hoff
  have hB2 := hB.trans hread1.codeSize
  obtain ⟨hclear, -⟩ := sameSpace hok2.1 hok hB2
  obtain ⟨hstep2, -, hahead2⟩ := hstep _ (by rw [applyCode, if_pos hclear.symm])
  have hpend : r2.dPend = r.dPend ++ x :: l := hpend2.trans hpend1
  refine ⟨p, [], _, inStep_fresh hok2 (hdone.trans hread1.notDone) hB2 (pixel_lt hok hB2 hp) rfl rfl rfl, hahead2, ?_,
    hreads1.trans (readsOn_code hread1.decoder hread1.notDone ?_ (hreads1.pixRemain ▸ hrem) hstep2)⟩
  · exact congrArg (· ++ [p]) hpend
  · rw [hpend1]
    simp only [List.length_append, List.length_cons, List.length_nil] at hlen ⊢
    omega

variable (hpk : packerOk w) (ha : sinkAccepts w)

include hpk ha

/-- A pair that no entry has sends `C_prefix`, and the Clear Code behind it where the dictionary is full (R127, R129,
R130). -/
theorem emitAndInsert_sends : ∃ w' codes, emitAndInsert q p w = .ok () w' ∧ w'.cPrefix = some (p.setWidth 12) ∧
    Sends codes [p] w w' := by
  have hcode := cPrefix_lt_width hok hq
  have hwidth := hok.width_le
  have hfirst : CodesSized [(q.toNat, w.cW.toNat)] := codesSized_one hwidth hcode
  have hblock (n : Nat) : 255 ≤ n → acceptsFirst 256 w := fun _ a hmem => ha a (List.take_subset _ _ hmem)
  by_cases hlast : w.cFree.toNat = 4095
  · obtain ⟨hb, hpk1, hbits⟩ := packed_cPrefix hok hpk hq rfl rfl
    have h12 : (grownWidth w.cFree w.cW).toNat = 12 := by
      rw [← insertPair_cW, (insertPair_lastCode q p hok hlast).1, width_of_lastCode hok hlast]
    have hclear := clear_lt hok
    have hread := conveys_exhausted hok hp hq
    rw [h12] at hread
    refine ⟨_, _, emitAndInsert_lastCode hok hpk hq rfl rfl hlast rfl rfl (hblock _), rfl,
      hfirst.append (codesSized_one le_rfl hclear), fun {later} hlater => ?_,
      hread.of_same ⟨rfl, rfl, rfl, rfl, rfl, rfl, rfl, rfl, rfl⟩⟩
    have hsecond := outThrough_packed hpk1 hclear le_rfl rfl (hbits _) hlater
    rw [packed_pCnt, packed_packed hpk.2.2 hb le_rfl] at hsecond
    exact hsecond.trans (outThrough_packed hpk hcode hwidth rfl rfl ((codesSized_one le_rfl hclear).append hlater))
  · exact ⟨_, _, emitAndInsert_free hok hpk hq rfl rfl hlast (hblock _), rfl, hfirst,
      fun hlater => outThrough_packed hpk hcode hwidth rfl rfl hlater,
      (conveys_inserted hok hp hq).of_same ⟨rfl, rfl, rfl, rfl, rfl, rfl, rfl, rfl, rfl⟩⟩

/-- Every pixel of the image is sent so. -/
theorem compressPixel_sends : ∃ w' codes, compressPixel p w = .ok () w' ∧ (∃ c, w'.cPrefix = some c) ∧
    Sends codes [p] w w' := by
  by_cases hnew : ∀ e ∈ w.cDict, ¬(e.pfx = q ∧ e.pixel = p)
  · obtain ⟨w', codes, hrun, hprefix, hsends⟩ := emitAndInsert_sends hok hp hq hpk ha
    exact ⟨w', codes, (compressPixel_new hq hnew).trans hrun, ⟨_, hprefix⟩, hsends⟩
  · push Not at hnew
    obtain ⟨e, he, rfl, rfl⟩ := hnew
    exact ⟨_, _, compressPixel_known hok.2.2.2.2.2 he hq, ⟨_, rfl⟩, sends_known hok he hq⟩

end Pixel

/-! ### A run of pixels -/

/-- A compressor and a packer in order, the sink accepting, amid a string. -/
structure Sending (w : Writer) : Prop where
  encoder : EncoderOk w
  packer : packerOk w
  accepts : sinkAccepts w
  amid : ∃ q, w.cPrefix = some q

theorem compressPixels_sends (ps : List Byte) : ∀ {w : Writer}, Sending w → (∀ p ∈ ps, p.toNat < 2 ^ w.bpp.toNat) →
    ∃ w' codes, compressPixels ps w = .ok () w' ∧ Sending w' ∧ Sends codes ps w w' := by
  induction ps with
  | nil => exact fun {w} h _ => ⟨w, [], rfl, h, Sends.refl w⟩
  | cons p ps ih =>
    intro w ⟨hok, hpk, ha, q, hq⟩ hp
    obtain ⟨hp1, hp⟩ := List.forall_mem_cons.1 hp
    obtain ⟨w1, codes1, hrun1, hprefix1, hsends1⟩ := compressPixel_sends (w := dinDrop 1 w) hok hp1 hq hpk ha
    obtain ⟨hoff, hgrows, hok1, hpk1⟩ := (compressPixel_spec (w := dinDrop 1 w) hok hp1).of_ok hrun1
    have hbpp : w1.bpp = w.bpp := (congrArg (·.bpp) hoff :)
    obtain ⟨w', codes, hrun, hsending, hsends⟩ := ih (w := countPixel w1) ⟨hok1, hpk1 hpk, hgrows.accepts ha, hprefix1⟩
      (fun p hmem => by rw [show (countPixel w1).bpp = w.bpp from hbpp]; exact hp p hmem)
    refine ⟨w', codes1 ++ codes, ?_, hsending, hsends1.counted.trans hsends⟩
    rw [compressPixels, hrun1, Body.bind_ok]
    exact hrun

end Sys2Proof.Machine
end

section
/-!
PROOFS. An image written and read back (R123, R136): the Clear Code and the first pixel, the last code and the EOF Code, and
the four commands around them.
-/

namespace Sys2Proof.Machine

/-! ### The last code and the EOF Code -/

/-- A sink that accepts every byte accepts the next ones. -/
theorem acceptsFirst_of_accepts {w : Writer} (h : sinkAccepts w) (n : Nat) : acceptsFirst n w :=
  fun a ha => h a (List.take_subset _ _ ha)

/-- The codes CompressFinish writes behind `C_prefix = q` (R131). -/
def lastCodes (q : Code) (w : Writer) : List (Nat × Nat) :=
  [(q.toNat, w.cW.toNat), (w.cEof.toNat, (grownWidth w.cFree w.cW).toNat)]

theorem lastCodes_sized {w : Writer} {q : Code} (hok : EncoderOk w) (hq : w.cPrefix = some q) :
    CodesSized (lastCodes q w) := by
  obtain ⟨hwidth, heof⟩ := eof_lt_grown hok rfl
  exact (codesSized_one hok.width_le (cPrefix_lt_width hok hq)).append (codesSized_one hwidth heof)

/-- With the raster complete CompressFinish ends the image with them (R131, R179). -/
theorem endRaster_sends {w : Writer} {q : Code} (h : Sending w) (hq : w.cPrefix = some q) (h0 : w.pixRemain = 0#32) :
    ∃ w', endRaster w = .ok () w' ∧ w'.state = .top ∧ w'.din = w.din ∧ w'.sout = outThrough (lastCodes q w) w := by
  obtain ⟨u, hrun, hdin, hout⟩ : ∃ u, compressFinish w = .ok () u ∧ u.din = w.din ∧ u.sout = outThrough (lastCodes q w) w :=
    ⟨_, (compressFinish_run h.encoder h.packer hq rfl).accepted (acceptsFirst_of_accepts h.accepts _), rfl, rfl⟩
  exact ⟨{ u with state := .top }, by rw [endRaster_done h0, hrun, Body.bind_ok], rfl, hdin, hout⟩

/-- A decompressor in step that has them ahead delivers the rest of the raster and ends the image (R145, R147). -/
theorem InStep.lastPixels {w : Writer} {x : Byte} {l : List Byte} {r : Reader} {q : Code} {more : List SrcAnswer} {n : Nat}
    (h : InStep w x l r) (hok : EncoderOk w) (hq : w.cPrefix = some q) (hahead : CodesAhead more (lastCodes q w) r)
    (hlen : (r.dPend ++ x :: l).length = n) (hrem : r.pixRemain.toNat = n) :
    ∃ r', deliverPixels n r = .ok () r' ∧ r'.dout = r.dout ++ (r.dPend ++ x :: l) ∧ r'.pixRemain = 0#32 ∧ r'.sin = more := by
  obtain ⟨r1, hstep, hpend, hahead1, hread⟩ := h.readPrefix hok hq hahead
  have hpos : 0 < n := by rw [← hlen, List.length_append, List.length_cons]; omega
  have hreads := readsOn_code h.decoder h.notDone (n := n)
    (by rw [← hlen, List.length_append, List.length_cons]; omega) hrem.ge hstep
  obtain ⟨-, heof, -⟩ := sameSpace hread.decoder.1 hok hread.codeSize
  rw [← heof, ← hread.width] at hahead1
  rw [← hpend] at hlen
  obtain ⟨r', hrun, hdout, hrem', hsin⟩ := deliverPixels_eofAhead hread.decoder hread.notDone
    (by rw [hreads.pixRemain, hrem, hlen]) (hlen ▸ hpos) hahead1
  refine ⟨r', by rw [hreads.2, ← hlen, hrun], ?_, hrem', hsin⟩
  rw [hdout, offDecompressor_dout hreads.1, hpend]

/-! ### The Clear Code and the first pixel -/

/-- A compressor as CompressStart leaves it, the sink accepting (R126). -/
structure Started (w : Writer) : Prop where
  encoder : EncoderOk w
  packer : packerOk w
  accepts : sinkAccepts w
  noPrefix : w.cPrefix = none
  noEntries : w.cDict = []
  width : w.cW = w.cB + 1#4

/-- A decompressor of code size `B` as DecompressStart leaves it, `n` pixels to deliver, `codes` ahead (R137, R162). -/
structure Opened (B : BitVec 4) (codes : List (Nat × Nat)) (more : List SrcAnswer) (n : Nat) (r : Reader) : Prop where
  decoder : DecoderOk r
  notDone : r.dDone = false
  nonePending : r.dPend = []
  codeSize : r.dB = B
  width : r.dW = B + 1#4
  ahead : CodesAhead more codes r
  pixels : r.pixRemain.toNat = n

/-- `codes` are read back as the raster `px`, and not a bit behind them (R136). -/
def ReadBack (B : BitVec 4) (codes : List (Nat × Nat)) (px : List Byte) : Prop :=
  ∀ ⦃r : Reader⦄ ⦃more : List SrcAnswer⦄, Opened B codes more px.length r →
    ∃ r', deliverPixels px.length r = .ok () r' ∧ r'.dout = r.dout ++ px ∧ r'.pixRemain = 0#32 ∧ r'.sin = more

/-- `w` after its first pixel (R127). -/
def firstTaken (p : Byte) (w : Writer) : Writer := countPixel { dinDrop 1 w with cPrefix := some (p.setWidth 12) }

theorem compressPixels_first {w : Writer} (p : Byte) (ps : List Byte) (h : w.cPrefix = none) :
    compressPixels (p :: ps) w = compressPixels ps (firstTaken p w) := by
  rw [compressPixels, compressPixel_first (w := dinDrop 1 w) p h]
  rfl

/-- The codes sent for the pixels of a whole raster, behind the Clear Code, are read back as those pixels (R123, R136). -/
theorem compressPixels_roundTrip {w : Writer} {px : List Byte} (h : Started w) (hpos : 0 < px.length)
    (hrem : w.pixRemain.toNat = px.length) (hp : ∀ p ∈ px, p.toNat < 2 ^ w.bpp.toNat) :
    ∃ w' codes, ((compressPixels px w).bind fun _ w => endRaster w) = .ok () w' ∧ w'.state = .top ∧
      w'.din = w.din.drop px.length ∧ w'.sout = outThrough codes w ∧ CodesSized codes ∧
      ReadBack w.cB ((w.cClear.toNat, w.cW.toNat) :: codes) px := by
  obtain ⟨p, ps, rfl⟩ := List.exists_cons_of_length_pos hpos
  obtain ⟨hp1, hps⟩ := List.forall_mem_cons.1 hp
  have hfirst := compressPixel_first (w := dinDrop 1 w) p h.noPrefix
  have hok1 : EncoderOk (firstTaken p w) :=
    (((compressPixel_spec (w := dinDrop 1 w) h.encoder hp1).of_ok hfirst).2.2.1 :)
  obtain ⟨w1, codes, hrun, hsending, hsends⟩ := compressPixels_sends ps (w := firstTaken p w)
    ⟨hok1, h.packer, h.accepts, _, rfl⟩ hps
  obtain ⟨q, hq⟩ := hsending.amid
  rw [← compressPixels_first p ps h.noPrefix] at hrun
  obtain ⟨hdin1, hrem1⟩ := (compressPixels_counts (p :: ps) w).of_ok hrun
  have h0 : w1.pixRemain = 0#32 := by rw [hrem1, ← hrem, BitVec.ofNat_toNat, BitVec.setWidth_eq, BitVec.sub_self]
  obtain ⟨w', hend, hstate, hdin, hout⟩ := endRaster_sends hsending hq h0
  have hlast := lastCodes_sized hsending.encoder hq
  refine ⟨w', codes ++ lastCodes q w1, by rw [hrun, Body.bind_ok, hend], hstate, hdin.trans hdin1,
    hout.trans (hsends.out hlast), hsends.sized.append hlast, fun r more ⟨hok, hdone, hpend, hB, hW, hahead, hremr⟩ => ?_⟩
  rw [h.width, ← hW] at hahead
  obtain ⟨r1, hoff, hok', hstep⟩ := hahead.decodeStep hok
  obtain ⟨hB1, -, -, -, -, -, -, -, hpend1, hdone1⟩ := sameDecoder_of_offUnpacker hoff
  obtain ⟨hclear, -⟩ := sameSpace hok'.1 h.encoder (hB1.trans hB)
  obtain ⟨hstep1, -, hahead1⟩ := hstep _ (by rw [applyCode, if_pos hclear.symm])
  have hreads1 := readsOn_code hok hdone (by rw [hpend]; exact hpos) hremr.ge hstep1
  have hinstep : InStep (firstTaken p w) p [] (resetDecoder r1) :=
    inStep_fresh hok' (hdone1.trans hdone) (hB1.trans hB) (pixel_lt h.encoder (hB1.trans hB) hp1) h.width h.noEntries rfl
  have hnone : (resetDecoder r1).dPend = [] := hpend1.trans hpend
  obtain ⟨x, l, r2, hstep2, hahead2, hpend2, hreads2⟩ := hsends.read (n := (p :: ps).length) hinstep hahead1
    (by rw [hnone]; rfl) (by rw [hreads1.pixRemain]; exact hremr.ge)
  rw [hnone] at hpend2
  have hreads := hreads1.trans hreads2
  obtain ⟨r', hrun', hdout, hrem', hsin⟩ := hstep2.lastPixels hsending.encoder hq hahead2 (congrArg List.length hpend2)
    (by rw [hreads.pixRemain]; exact hremr)
  refine ⟨r', hreads.2.trans hrun', ?_, hrem', hsin⟩
  rw [hdout, offDecompressor_dout hreads.1, hpend2]
  rfl

end Sys2Proof.Machine
end

section
/-!
PROOFS. The four commands of an image written and read back (R136, R161, R164, R176, R179).
-/

namespace Sys2Proof.Machine

theorem noTable {packed : Byte} (h : packed.getLsbD 7 = false) : ([] : List Byte).length = tableSize packed := by
  rw [tableSize, h]
  rfl

/-! ### W_IMAGE -/

section ImageStarted

variable {b : Nat} {w : Writer} (h1 : 1 ≤ w.bpp.toNat) (h8 : w.bpp.toNat ≤ 8) (hb : b = max w.bpp.toNat 2)

include h1 h8 hb

/-- CompressStart leaves the compressor in order (R126). -/
theorem compressorStarted_ok : EncoderOk (compressorStarted b w) := by
  have hsize : (BitVec.ofNat 4 b).toNat = max w.bpp.toNat 2 := (toNat_codeSize (by omega) (by omega)).trans hb
  have hspace : encoderSpace (setCodeSpace { w with cB := BitVec.ofNat 4 b }) := setCodeSpace_space h1 h8 hsize
  have hok : EncoderOk
      { resetDict (startPacker (setCodeSpace { w with cB := BitVec.ofNat 4 b })) with cPrefix := none } :=
    resetDict_ok (w := { startPacker (setCodeSpace { w with cB := BitVec.ofNat 4 b }) with cPrefix := none }) hspace nofun
  rw [resetDict_started (w := { w with cB := BitVec.ofNat 4 b }) (by omega) (by omega) rfl] at hok
  exact hok

/-- ImageStart leaves an image with pixels started (R126, R177). -/
theorem imageStarted_started (ha : sinkAccepts w) : Started { imageStarted b w with state := .pixels } where
  encoder := (compressorStarted_ok h1 h8 hb).of_same ⟨rfl, rfl, rfl, rfl, rfl, rfl, rfl, rfl, rfl⟩
  packer := (packed_packerOk (w := imageRegisters b w) (Nat.zero_le _) (Nat.pow_lt_pow_succ (by decide)) (by omega)).1
  accepts := by rw [imageStarted_eq _ (by omega)]; exact ha
  noPrefix := rfl
  noEntries := rfl
  width := BitVec.ofNat_add ..

/-- The Clear Code comes first in the data bytes of the image (R126). -/
theorem outThrough_imageStarted {codes : List (Nat × Nat)} (hcodes : CodesSized codes) :
    outThrough codes (imageStarted b w) = w.sout ++ framed (dataBytes (bitString ((2 ^ b, b + 1) :: codes))) := by
  have hpacked := outThrough_packed (c := 2 ^ b) (width := b + 1) (v := 2 ^ b) (w := imageRegisters b w)
    (started_packerOk b w) (Nat.pow_lt_pow_succ (by decide)) (by omega) (Nat.zero_add _).symm
    (by simp [imageRegisters, compressorStarted]) hcodes
  rw [imageStarted, hpacked, outThrough, dataThrough_empty _ ⟨rfl, rfl, rfl⟩]
  rfl

end ImageStarted

theorem imageOpened_pixels {b : Nat} {w : Writer} (h : rasterLength w.imgW w.imgH ≠ 0#32) :
    imageOpened b w = .ok () { imageStarted b w with state := .pixels } :=
  if_neg h

/-- W_IMAGE of an image with pixels and no local table: the descriptor and the code size go out, and the compressor is
started; the Clear Code is the first of its codes (R176, R177). -/
theorem exec_wImage_pixels {s : State} {d0 d1 d2 d3 d4 d5 d6 d7 d8 : Byte} {more : List Byte} {b : Nat}
    (hs : s.writer.state = .top) (h1 : 1 ≤ s.writer.gctBpp.toNat) (h8 : s.writer.gctBpp.toNat ≤ 8)
    (hb : b = max s.writer.gctBpp.toNat 2) (ha : sinkAccepts s.writer) (hlocal : d8.getLsbD 7 = false)
    (hraster : rasterLength (d5 ++ d4) (d7 ++ d6) ≠ 0#32)
    (hdin : s.writer.din = [d0, d1, d2, d3, d4, d5, d6, d7, d8] ++ more) :
    ∃ w, exec .wImage s = .next { s with last := .ok, writer := w } ∧ w.state = .pixels ∧ Started w ∧
      w.bpp = s.writer.gctBpp ∧ w.cB = BitVec.ofNat 4 b ∧ w.cClear.toNat = 2 ^ b ∧ w.cW.toNat = b + 1 ∧
      w.pixRemain = rasterLength (d5 ++ d4) (d7 ++ d6) ∧ w.din = more ∧
      ∀ codes, CodesSized codes → outThrough codes w =
        s.writer.sout ++ [0x2C#8, d0, d1, d2, d3, d4, d5, d6, d7, d8 &&& 0xE7#8] ++
          BitVec.ofNat 8 b :: framed (dataBytes (bitString ((2 ^ b, b + 1) :: codes))) := by
  obtain ⟨-, hsize, hrun⟩ := exec_wImage (table := []) (bpp := s.writer.gctBpp.toNat) hs h8 (noTable hlocal) hdin
    (by rw [hlocal]; rfl) (by omega)
  rw [← hb] at hsize
  rw [imageStart_accepted _ (by omega) (by omega) hsize (acceptsFirst_of_accepts ha _), imageOpened_pixels hraster] at hrun
  have hbpp : BitVec.ofNat 4 s.writer.gctBpp.toNat = s.writer.gctBpp := by rw [BitVec.ofNat_toNat, BitVec.setWidth_eq]
  have h2 : 2 ≤ b := by omega
  have h8' : b ≤ 8 := by omega
  rw [← hbpp] at h1 h8 hb
  refine ⟨_, hrun, rfl, imageStarted_started h1 h8 hb fun a h => ha a (List.mem_of_mem_drop h), hbpp, rfl,
    started_clear h2 h8' s.writer, started_width h2 h8' s.writer, rfl, rfl, fun codes hcodes => ?_⟩
  refine (outThrough_imageStarted h1 h8 hb hcodes).trans ?_
  simp [described]

/-! ### R_IMAGE -/

/-- R_IMAGE of an image with pixels and no local table, in front of framed codes, opens it (R161, R162). -/
theorem exec_rImage_pixels {s : State} {d0 d1 d2 d3 d4 d5 d6 d7 d8 b : Byte} {codes : List (Nat × Nat)}
    {more : List SrcAnswer} (hs : s.reader.state = .imgDesc) (h2 : 2 ≤ b.toNat) (h8 : b.toNat ≤ 8)
    (hlocal : d8.getLsbD 7 = false) (hraster : rasterLength (d5 ++ d4) (d7 ++ d6) ≠ 0#32) (hcodes : CodesSized codes)
    (hsin : s.reader.sin =
      ([d0, d1, d2, d3, d4, d5, d6, d7, d8] ++ b :: framed (dataBytes (bitString codes))).map .byte ++ more) :
    ∃ r, exec .rImage s = .next { s with last := .ok, reader := r } ∧ r.state = .pixels ∧ r.dout = s.reader.dout ∧
      Opened (b.setWidth 4) codes more (rasterLength (d5 ++ d4) (d7 ++ d6)).toNat r := by
  rw [List.map_append, List.append_assoc] at hsin
  rw [exec_rImage_runs hs, rImageBody_table (d := [d0, d1, d2, d3, d4, d5, d6, d7, d8]) rfl (noTable hlocal) hsin,
    setDescriptor_bytes, imageDataStart_pixels (srcByte_byte (b := b) rfl) h2 h8 hraster]
  refine ⟨_, rfl, rfl, List.append_nil _, ?_⟩
  exact {
    decoder := startImage_ok h2 h8
    notDone := rfl
    nonePending := rfl
    codeSize := rfl
    width := rfl
    ahead := codesAhead_start hcodes rfl rfl rfl rfl rfl
    pixels := rfl }

/-- R_IMAGE and R_PIXELS in front of codes that are read back as the raster (R161, R164). -/
theorem exec_rImage_rPixels {u : State} {d0 d1 d2 d3 d4 d5 d6 d7 d8 b : Byte} {codes : List (Nat × Nat)} {px : List Byte}
    {count : BitVec 24} {more : List SrcAnswer} (hu : u.reader.state = .imgDesc) (h2 : 2 ≤ b.toNat) (h8 : b.toNat ≤ 8)
    (hlocal : d8.getLsbD 7 = false) (hraster : (rasterLength (d5 ++ d4) (d7 ++ d6)).toNat = count.toNat)
    (hpos : 0 < count.toNat) (hlen : px.length = count.toNat) (hcodes : CodesSized codes)
    (hread : ReadBack (b.setWidth 4) codes px)
    (hsin : u.reader.sin =
      ([d0, d1, d2, d3, d4, d5, d6, d7, d8] ++ b :: framed (dataBytes (bitString codes))).map .byte ++ more) :
    ∃ u1 u2, exec .rImage u = .next u1 ∧ exec (.rPixels count) u1 = .next u2 ∧ u2.last = .ok ∧ u2.reader.state = .top ∧
      u2.reader.dout = u.reader.dout ++ px ∧ u2.reader.sin = more := by
  obtain ⟨r, himage, hstate, hdout, hopen⟩ :=
    exec_rImage_pixels hu h2 h8 hlocal (pixRemain_ne_zero hpos hraster.ge) hcodes hsin
  rw [hraster, ← hlen] at hopen
  obtain ⟨r', hrun, hdout', hrem, hsin'⟩ := hread hopen
  have hle : count.toNat ≤ r.pixRemain.toNat := by rw [hopen.pixels, hlen]
  have hpixels := exec_rPixels_delivers (s := { u with last := .ok, reader := r }) hstate hle (pixRemain_ne_zero hpos hle)
  rw [← hlen, hrun, Body.bind_ok, closeImage, if_pos hrem] at hpixels
  exact ⟨_, _, himage, hpixels, rfl, rfl, hdout'.trans (congrArg (· ++ px) hdout), hsin'⟩

end Sys2Proof.Machine

open Sys2Proof Sys2Proof.Machine

/-- Settles O60: pixel by pixel the decompressor is in step with the compressor, a code behind it, up to the EOF Code. -/
theorem imageRoundTrip : Obligations.ImageRoundTrip := by
  intro s u d0 d1 d2 d3 d4 d5 d6 d7 d8 px more count rest hs h1 h8 ha hlocal hcount hpos hlen hp hdin hu
  have hraster : (rasterLength (d5 ++ d4) (d7 ++ d6)).toNat = count.toNat := by rw [rasterLength_toNat, hcount]
  have hne : rasterLength (d5 ++ d4) (d7 ++ d6) ≠ 0#32 := pixRemain_ne_zero hpos hraster.ge
  obtain ⟨b, hb⟩ : ∃ b, b = max s.writer.gctBpp.toNat 2 := ⟨_, rfl⟩
  have hbyte : (BitVec.ofNat 8 b).toNat = b := by rw [BitVec.toNat_ofNat]; omega
  rw [List.append_assoc] at hdin
  obtain ⟨w, himage, hstate, hstarted, hbpp, hB, hclear, hwidth, hrem, hwdin, hout⟩ :=
    exec_wImage_pixels hs h1 h8 hb ha hlocal hne hdin
  rw [← hbpp] at hp
  obtain ⟨w', codes, hrun, hstate', hdin', hout', hsized, hread⟩ :=
    compressPixels_roundTrip hstarted (hlen ▸ hpos) (by rw [hrem, hraster, hlen]) hp
  have htake : w.din.take count.toNat = px := by rw [hwdin, ← hlen, List.take_left]
  have hpixels := exec_wPixels_compresses (s := { s with last := .ok, writer := w }) (count := count) hstate
    (hrem ▸ hne) (by rw [hrem, hraster]) (by rw [hwdin, List.length_append]; omega) (htake ▸ hp)
  rw [dinTake, htake, hrun] at hpixels
  have hcodes : CodesSized ((2 ^ b, b + 1) :: codes) :=
    (codesSized_one (by omega) (Nat.pow_lt_pow_succ (by decide))).append hsized
  rw [hclear, hwidth, hB, ← BitVec.setWidth_ofNat_of_le (by decide : 4 ≤ 8) b] at hread
  refine ⟨_, _, BitVec.ofNat 8 b :: framed (dataBytes (bitString ((2 ^ b, b + 1) :: codes))), himage, hpixels, rfl, hstate',
    hdin'.trans (by rw [hwdin, List.drop_left]), hout'.trans (hout codes hsized), ?_⟩
  exact exec_rImage_rPixels hu (by omega) (by omega) (by simpa using hlocal) hraster hpos hlen hcodes hread rfl

end

section
/-!
PROOFS. The decompressor code by code (R138 to R149): the string of every code, and what each kind of code does, the Clear
and EOF Codes, the known codes, the KwKwK code and the corrupt ones.
-/

namespace Sys2Proof.Machine

/-! ### Strings -/

theorem pixelsOf_of_stringOf {r : Reader} {c : Nat} {x : Byte} {l : List Byte} (h : stringOf c r = some (x, l)) :
    pixelsOf c r = some (x :: l) := by
  rw [pixelsOf, h]
  rfl

/-- The string of a code less than `n` above `D_first` has at most `n` pixels behind its root pixel (R138, R139). -/
theorem stringOf_bounded {r : Reader} {c n : Nat} (hs : decoderSpace r) (hd : dictionaryOk r) (hc : codeAssigned r c)
    (hn : c < r.dFirst.toNat + n) :
    ∃ x l, stringOf c r = some (x, l) ∧ x.toNat < 2 ^ r.dB.toNat ∧ l.length ≤ n := by
  have hbelow : c < r.dFirst.toNat + r.dDict.length := by
    have hlen := hd.1
    have hfirst := hs.2.2
    simp only [codeAssigned] at hc; omega
  obtain ⟨x, l, hwalk, hx, -, hl⟩ := walkString_spec hs hd n c [] hc hn
  have henough := walkString_enough hs hd [] r.dDict.length n c [] hc hbelow hn
  rw [List.append_nil] at henough
  exact ⟨x, l, by rw [stringOf, henough, hwalk, List.append_nil], hx, hl⟩

/-! ### The width -/

theorem grownWidth_toNat {free : Counter} {w : BitVec 4} : (grownWidth free w).toNat =
    if 2 ^ w.toNat ≤ free.toNat ∧ w.toNat < 12 then w.toNat + 1 else w.toNat := by
  rw [grownWidth]
  split
  · next hgrow =>
    have h12 : w.toNat < 12 := hgrow.2
    rw [toNat_succ4 (by omega)]
    exact (if_pos hgrow).symm
  · next hkept => exact (if_neg hkept).symm

/-- At 12 bits the width stays (R143, R148). -/
theorem grownWidth_twelve {free : Counter} {w : BitVec 4} (h : w.toNat = 12) : grownWidth free w = w :=
  if_neg fun hgrow => absurd hgrow.2 (by rw [h]; decide)

/-! ### The Clear and EOF Codes -/

theorem applyCode_clear (r : Reader) : applyCode r.dClear.toNat r = .ok () (resetDecoder r) := if_pos rfl

theorem applyCode_eof {r : Reader} (hs : decoderSpace r) : applyCode r.dEof.toNat r = .ok () { r with dDone := true } := by
  obtain ⟨-, -, hclear, heof, -⟩ := hs
  rw [applyCode, if_neg (by omega), if_pos rfl]

/-! ### Codes with a string -/

/-- Without room or without a previous code, no entry is added (R141, R144, R148). -/
theorem entered_same {x : Byte} {r : Reader} (h : r.dPrev = none ∨ r.dFree.toNat = 4096) : entered x r = r := by
  cases hprev : r.dPrev with
  | none => exact entered_none hprev
  | some q =>
    have hfull : r.dFree.toNat = 4096 := h.resolve_left (by simp [hprev])
    rw [entered_some hprev]
    exact if_neg (by rw [hfull]; decide)

/-- The two cases of a corrupt code (R149). -/
def CorruptCode (r : Reader) (c : Nat) : Prop :=
  (r.dPrev = none ∧ r.dFirst.toNat ≤ c) ∨ (r.dPrev ≠ none ∧ r.dFree.toNat < c)

section Codes

variable {r : Reader} (h : DecoderOk r)

include h

/-- The previous code has a string (R138). -/
theorem prev_assigned {q : Code} (hprev : r.dPrev = some q) : codeAssigned r q.toNat := by
  obtain ⟨-, -, hassigned⟩ := h.2.2.1
  exact hassigned q hprev

/-- With room, a new entry is the previous code and the pixel, and it is counted (R141). -/
theorem addEntry_room {q : Code} {x : Byte} (hprev : r.dPrev = some q) (hx : x.toNat < 2 ^ r.dB.toNat)
    (hfree : r.dFree.toNat < 4096) : (addEntry q x r).dDict = r.dDict ++ [{ pfx := q, sfx := x }] ∧
      (addEntry q x r).dFree.toNat = r.dFree.toNat + 1 := by
  obtain ⟨-, -, -, -, -, hcount⟩ := addEntry_spec h (prev_assigned h hprev) hx
  exact ⟨congrArg Reader.dDict (addEntry_free hfree), hcount hfree⟩

/-- A known code outputs its string (R140, R141). -/
theorem applyCode_known {c : Nat} {x : Byte} {l : List Byte} (hc : codeAssigned r c)
    (hroot : r.dPrev = none → c < r.dClear.toNat) (hstring : stringOf c r = some (x, l)) :
    applyCode c r = .ok () (acceptString c (x :: l) (entered x r)) := by
  obtain ⟨-, -, hclear, heof, hfirst⟩ := h.1
  have hspecial : c ≠ r.dClear.toNat ∧ c ≠ r.dEof.toNat := by simp only [codeAssigned] at hc; omega
  rw [applyCode, if_neg hspecial.1, if_neg hspecial.2]
  cases hprev : r.dPrev with
  | none =>
    rw [stringOf_root (by have := hroot hprev; omega)] at hstring
    cases hstring
    rw [entered_none hprev]
    exact if_neg (Nat.not_le.2 (hroot hprev))
  | some q =>
    dsimp only
    rw [if_pos hc, hstring, entered_some hprev]

/-- The KwKwK code outputs the previous string and its first pixel (R142). -/
theorem applyCode_free {q : Code} {x : Byte} {l : List Byte} (hprev : r.dPrev = some q) (hfree : r.dFree.toNat < 4096)
    (hstring : stringOf q.toNat r = some (x, l)) :
    applyCode r.dFree.toNat r = .ok () (acceptString r.dFree.toNat (x :: l ++ [x]) (addEntry q x r)) := by
  obtain ⟨-, -, hclear, heof, hfirst⟩ := h.1
  have hlen := h.2.1.1
  have hnew : ¬codeAssigned r r.dFree.toNat := by simp only [codeAssigned]; omega
  rw [applyCode, if_neg (by omega), if_neg (by omega), hprev]
  dsimp only
  rw [if_neg hnew, if_pos ⟨rfl, hfree⟩, hstring]

/-! ### Corrupt codes -/

theorem applyCode_corrupt {c : Nat} (hc : CorruptCode r c) : applyCode c r = .raise .corruptData r := by
  obtain ⟨-, -, hclear, heof, hfirst⟩ := h.1
  have hlen := h.2.1.1
  have hspecial : c ≠ r.dClear.toNat ∧ c ≠ r.dEof.toNat := by
    obtain ⟨-, hge⟩ | ⟨-, hgt⟩ := hc <;> omega
  rw [applyCode, if_neg hspecial.1, if_neg hspecial.2]
  obtain ⟨hprev, hge⟩ | ⟨hprev, hgt⟩ := hc
  · rw [hprev]
    exact if_pos (by omega)
  · obtain ⟨q, hq⟩ := Option.ne_none_iff_exists'.1 hprev
    rw [hq]
    dsimp only
    rw [if_neg (by omega), if_neg (by omega)]

/-- Any other code below 4096 is the Clear Code, the EOF Code, a known code or the KwKwK code (R140). -/
theorem applyCode_completes {c : Nat} (hlt : c < 4096) (hc : ¬CorruptCode r c) : ∃ r', applyCode c r = .ok () r' := by
  obtain ⟨-, -, hclear, heof, hfirst⟩ := h.1
  have known : codeAssigned r c → (r.dPrev = none → c < r.dClear.toNat) → ∃ r', applyCode c r = .ok () r' :=
    fun hk hroot => by
      obtain ⟨x, l, hstring, -⟩ := stringOf_spec h.1 h.2.1 hk
      exact ⟨_, applyCode_known h hk hroot hstring⟩
  by_cases hC : c = r.dClear.toNat
  · exact ⟨_, hC ▸ applyCode_clear r⟩
  by_cases hE : c = r.dEof.toNat
  · exact ⟨_, hE ▸ applyCode_eof h.1⟩
  by_cases hroot : c < r.dClear.toNat
  · exact known (.inl hroot) fun _ => hroot
  have hge : r.dFirst.toNat ≤ c := by omega
  cases hprev : r.dPrev with
  | none => exact absurd (.inl ⟨hprev, hge⟩) hc
  | some q =>
    have hle : c ≤ r.dFree.toNat := Nat.not_lt.1 fun hgt => hc (.inr ⟨by simp [hprev], hgt⟩)
    obtain hold | rfl := Nat.lt_or_eq_of_le hle
    · exact known (.inr ⟨hge, hold⟩) (by simp [hprev])
    · obtain ⟨x, l, hstring, -⟩ := stringOf_spec h.1 h.2.1 (prev_assigned h hprev)
      exact ⟨_, applyCode_free h hprev hlt hstring⟩

/-! ### The full dictionary -/

/-- A full dictionary: width 12, a previous code, and every code but the Clear and EOF Codes known (R148). -/
theorem full_known (hfull : r.dFree.toNat = 4096) : r.dW.toNat = 12 ∧ r.dPrev ≠ none ∧
    ∀ c, c < 4096 → c ≠ r.dClear.toNat → c ≠ r.dEof.toNat → codeAssigned r c := by
  obtain ⟨⟨h2, h8, hclear, heof, hfirst⟩, -, ⟨-, hle12, -⟩, -, -, hfits, hempty⟩ := h
  obtain ⟨-, h256, -⟩ := codeSize_bounds h2 h8
  refine ⟨hfits.resolve_left fun hlt => ?_, fun hprev => ?_, fun c hlt hC hE => ?_⟩
  · have hpow : 2 ^ r.dW.toNat ≤ 2 ^ 12 := Nat.pow_le_pow_right (by decide) hle12
    omega
  · rw [hempty hprev] at hfull
    omega
  · simp only [codeAssigned]; omega

end Codes

end Sys2Proof.Machine

open Sys2Proof Sys2Proof.Machine

/-- Settles O33: the walk from an entry is the walk from its prefix, which is a lower code. -/
theorem stringsOfCodes : Obligations.StringsOfCodes := by
  intro r hs hd
  have hspace := hs
  have hdict := hd
  obtain ⟨-, -, hclear, -, hfirst⟩ := hspace
  obtain ⟨hlen, hmax, hentries⟩ := hdict
  refine ⟨fun c hc => pixelsOf_of_stringOf (stringOf_root (by omega)), fun k hk => ?_⟩
  obtain ⟨hpfx, -⟩ := hentries k hk
  obtain ⟨x, l, hstring, hx, hl⟩ := stringOf_bounded (c := r.dDict[k].pfx.toNat) (n := k) hs hd
    (by simp only [codeAssigned]; omega) (by omega)
  have hentry := stringOf_entry hs hd hk
  rw [hstring] at hentry
  refine ⟨x :: l, pixelsOf_of_stringOf hstring, pixelsOf_of_stringOf hentry, by rw [List.length_cons]; omega, ?_⟩
  rintro _ ⟨⟩
  exact hclear ▸ hx

/-- Settles O34: the entry that the KwKwK code adds is the one it is the code of. -/
theorem kwKwKCode : Obligations.KwKwKCode := by
  intro r q h hprev hfree
  have hq := prev_assigned h hprev
  obtain ⟨x, l, hstring, hx, -⟩ := stringOf_spec h.1 h.2.1 hq
  have hnewest := stringOf_newest h hfree hq hx
  rw [hstring] at hnewest
  obtain ⟨hdict, hcount⟩ := addEntry_room h hprev hx hfree
  exact ⟨x, l, _, pixelsOf_of_stringOf hstring, applyCode_free h hprev hfree hstring,
    congrArg (· ++ (x :: l ++ [x])) (addEntry_dPend q x r), hdict, hcount, pixelsOf_of_stringOf hnewest, rfl⟩

/-- Settles O35: a known code is accepted after the entry that it completes. -/
theorem decodeStepCodes : Obligations.DecodeStepCodes := by
  refine ⟨fun r hs => ?_, fun r c h hc hroot => ?_⟩
  · have hspace := hs
    obtain ⟨-, -, hclear, heof, -⟩ := hspace
    exact ⟨hclear ▸ applyCode_clear r, heof ▸ applyCode_eof hs⟩
  · obtain ⟨x, l, hstring, hx, -⟩ := stringOf_spec h.1 h.2.1 hc
    obtain ⟨-, -, -, hW, -, hpend⟩ := entered_space x r
    refine ⟨x, l, _, pixelsOf_of_stringOf hstring, applyCode_known h hc hroot hstring,
      congrArg (· ++ (x :: l)) hpend, rfl, fun q hprev hfree => ?_, fun hsame => ?_, ?_⟩
    · rw [entered_some hprev]
      exact addEntry_room h hprev hx hfree
    · rw [entered_same hsame]
      exact ⟨rfl, rfl⟩
    · rw [← hW]
      exact grownWidth_toNat

/-- Settles O36: every code that is not one of R149's completes. -/
theorem corruptCodes : Obligations.CorruptCodes := by
  intro r c h hlt
  refine ⟨⟨?_, fun hc => ⟨_, _, applyCode_corrupt h hc⟩⟩, fun e r' hraise => (applyCode_spec c h).of_raise hraise⟩
  rintro ⟨e, r', hraise⟩
  by_contra hc
  obtain ⟨r1, hok⟩ := applyCode_completes h hlt hc
  cases hok.symm.trans hraise

/-- Settles O37: the width is 12 because the counter fits no smaller one, and with no room nothing is entered. -/
theorem fullDictionary : Obligations.FullDictionary := by
  intro r h hfull
  obtain ⟨h12, hprev, hknown⟩ := full_known h hfull
  refine ⟨h12, fun c hlt hC hE => ⟨by omega, ?_⟩, applyCode_clear r⟩
  obtain ⟨x, l, hstring, -⟩ := stringOf_spec h.1 h.2.1 (hknown c hlt hC hE)
  refine ⟨x :: l, pixelsOf_of_stringOf hstring, ?_⟩
  rw [applyCode_known h (hknown c hlt hC hE) (fun hnone => absurd hnone hprev) hstring, entered_same (.inr hfull),
    acceptString, grownWidth_twelve h12]

end

section
/-!
PROOFS. `R_PIXELS` in parts (R145, R152): a run of pixels is delivered the same however it is cut.
-/

namespace Sys2Proof.Machine

/-- A pixel delivered is counted, from any state at all (R145). -/
theorem deliverPixel_counts (r : Reader) :
    Body.Spec (fun _ r' => r'.pixRemain = r.pixRemain - 1#32) (fun _ _ => True) (fun _ => True) (deliverPixel r) := by
  refine Body.Spec.bind (P := fun _ r' => r'.pixRemain = r.pixRemain)
    ((nextPixel_part _ r).mono (fun _ _ h => offDecompressor_pixRemain h.1) (fun _ _ _ => trivial) fun _ h => h) ?_
  intro x r1 h1
  have hpush : (pushPixel x r1).pixRemain = r.pixRemain - 1#32 := congrArg (· - 1#32) h1
  dsimp only
  split
  · exact (epilogue_part _).mono (fun _ _ h => (offDecompressor_pixRemain h.1).trans hpush) (fun _ _ _ => trivial)
      fun _ h => h
  · exact hpush

theorem deliverPixels_counts (n : Nat) : ∀ r : Reader,
    Body.Spec (fun _ r' => r'.pixRemain = r.pixRemain - BitVec.ofNat 32 n) (fun _ _ => True) (fun _ => True)
      (deliverPixels n r) := by
  induction n with
  | zero => exact fun r => (BitVec.sub_zero _).symm
  | succ n ih =>
    intro r
    refine (deliverPixel_counts r).bind fun _ r1 h1 => ?_
    rw [Nat.add_comm, BitVec.ofNat_add, ← BitVec.sub_sub, ← h1]
    exact ih r1

/-- Pixels short of the end of the raster: the reader stays in R_PIXELS with the rest to deliver, or it fails with a code
that is not Ok (R145, R164). -/
theorem deliverPixels_short {r : Reader} {m : Nat} (hs : r.state = .pixels) (hm : m < r.pixRemain.toNat) :
    Body.Spec (fun _ r' => r'.state = .pixels ∧ r'.pixRemain.toNat = r.pixRemain.toNat - m) (fun e _ => e ≠ .ok)
      (fun _ => True) (deliverPixels m r) := by
  have hsmall : (BitVec.ofNat 32 m).toNat = m := by rw [BitVec.toNat_ofNat]; omega
  refine ((deliverPixels_part m r).and (deliverPixels_counts m r)).mono ?_ ?_ fun _ _ => trivial
  · rintro _ r' ⟨⟨hoff, -⟩, hcount⟩
    refine ⟨(offPixels_state (congrArg Prod.fst hoff)).trans hs, ?_⟩
    rw [hcount, BitVec.toNat_sub_of_le (by rw [BitVec.le_def, hsmall]; omega), hsmall]
  · rintro e r' ⟨⟨he, -⟩, -⟩ rfl
    exact absurd he (by decide)

end Sys2Proof.Machine

open Sys2Proof Sys2Proof.Machine

/-- Settles O32: the pixels of the first part are delivered first in both, and short of the raster's end nothing comes
between them and the second part's. -/
theorem rPixelsSplit : Obligations.RPixelsSplit := by
  intro s t m n k hk hs hrem ht
  by_cases hlt : m.toNat < s.reader.pixRemain.toNat
  · have h0 : s.reader.pixRemain ≠ 0#32 := pixRemain_ne_zero (Nat.zero_lt_of_lt hlt) le_rfl
    rw [exec_rPixels_delivers hs hlt.le h0] at ht
    rw [exec_rPixels_delivers hs hrem h0, hk, deliverPixels_add, Body.bind_assoc]
    cases hrun : deliverPixels m.toNat s.reader with
    | ok _ r =>
      obtain ⟨hstate, hcount⟩ := (deliverPixels_short hs hlt).of_ok hrun
      have h0' : r.pixRemain ≠ 0#32 := pixRemain_ne_zero (n := 1) Nat.one_pos (by omega)
      rw [hrun, Body.bind_ok, closeImage, if_neg h0'] at ht
      cases ht
      refine ⟨fun _ _ => ?_, fun hfailed => nomatch hstate.symm.trans hfailed⟩
      rw [exec_rPixels_delivers (s := { s with reader := r, last := .ok }) hstate (by dsimp only; omega) h0',
        Body.bind_ok]
      dsimp only
      cases (deliverPixels n.toNat r).bind fun _ r => closeImage r <;> rfl
    | raise e r =>
      have he := (deliverPixels_short hs hlt).of_raise hrun
      rw [hrun, Body.bind_raise] at ht
      refine ⟨fun _ hok => ?_, fun _ => ht⟩
      cases ht
      exact absurd hok he
    | stuck f => rw [hrun] at ht; nomatch ht
  · obtain rfl : k = m := BitVec.eq_of_toNat_eq (by omega)
    exact ⟨fun h => absurd h hlt, fun _ => ht⟩

end

section
/-!
PROOFS. The reader's commands that start with one byte (R156 to R159): `R_NEXT`, `R_EXT` and `R_EXT_BLOCK`.
-/

namespace Sys2Proof.Machine

/-- A reader command outside the state it is legal in, and outside R_FAILED (R31, R194). -/
theorem exec_reader_sequence {i : Instr} {need : RState} (s : State) (hi : readerNeeds i = some need)
    (hf : s.reader.state ≠ .failed) (hn : s.reader.state ≠ need) :
    exec i s = .next { s with last := .invalidSequence } := by
  obtain ⟨hreader, -⟩ := outOfSequenceRejects
  exact hreader i s need hi hf hn

/-- A reader command without `reject` lines runs its body in the state it is legal in (R185). -/
theorem readerCommand_unchecked {need : RState} {body : Reader → Body Reader Unit} {s : State}
    (hs : s.reader.state = need) (hneed : need ≠ .failed) :
    readerCommand need noCheck body s = endReader s (body s.reader) :=
  readerCommand_runs (hs ▸ hneed) hs rfl

section FirstByte

variable {need : RState} {next : Byte → Reader → Body Reader Unit} {s : State} (hs : s.reader.state = need)
  (hneed : need ≠ .failed)

include hs hneed

/-- A command that starts with one byte goes on with the byte that the stream holds. -/
theorem readerCommand_firstByte {x : Byte} {rest : List SrcAnswer} (hsin : s.reader.sin = .byte x :: rest) :
    readerCommand need noCheck (fun r => (srcByte r).bind next) s =
      endReader s (next x { s.reader with sin := rest, sinRead := s.reader.sinRead + 1 }) := by
  rw [readerCommand_unchecked hs hneed, srcByte_byte hsin, Body.bind_ok]

/-- A command that starts with one byte fails where the stream ends or errs before it (R66, R193). -/
theorem readerCommand_firstByte_streamEnd {e : Status} {rest : List SrcAnswer}
    (hend : streamEnd s.reader.sin = some (e, rest)) :
    readerCommand need noCheck (fun r => (srcByte r).bind next) s =
      .next { s with last := e, reader := { s.reader with err := e, state := .failed, sin := rest } } := by
  rw [readerCommand_unchecked hs hneed, srcByte_streamEnd hend, Body.bind_raise]
  rfl

end FirstByte

/-- `R_EXT_BLOCK` of a length other than 0 records it, then copies that many bytes (R159). -/
theorem exec_rExtBlock_length {s : State} {l : Byte} {rest : List SrcAnswer} (hs : s.reader.state = .extData)
    (hl : l ≠ 0#8) (hsin : s.reader.sin = .byte l :: rest) :
    exec .rExtBlock s = endReader s
      (copyBytes l.toNat { s.reader with subLen := l, sin := rest, sinRead := s.reader.sinRead + 1 }) :=
  (readerCommand_firstByte hs (by decide) hsin).trans (congrArg (endReader s) (if_neg hl))

end Sys2Proof.Machine

open Sys2Proof Sys2Proof.Machine

/-- Settles O22: one byte is read, and the introducer it is decides. -/
theorem rNextReadsIntroducer : Obligations.RNextReadsIntroducer := by
  refine ⟨by decide, fun s hf hn => exec_reader_sequence s rfl hf hn, fun s x rest hs hsin => ?_,
    fun s rest e hs hend => readerCommand_firstByte_streamEnd hs (by decide) hend⟩
  have hbyte : exec .rNext s = _ := readerCommand_firstByte hs (by decide) hsin
  rw [hbyte]
  refine ⟨?extension, ?image, ?trailer, fun h21 h2C h3B => ?other⟩
  case extension => rintro rfl; rfl
  case image => rintro rfl; rfl
  case trailer => rintro rfl; rfl
  case other => rw [if_neg h21, if_neg h2C, if_neg h3B]; rfl

/-- Settles O23: one byte is read, and no value of it is refused. -/
theorem rExtReadsCode : Obligations.RExtReadsCode :=
  ⟨by decide, fun s hf hn => exec_reader_sequence s rfl hf hn,
    fun _ _ _ hs hsin => readerCommand_firstByte hs (by decide) hsin,
    fun _ _ _ hs hend => readerCommand_firstByte_streamEnd hs (by decide) hend⟩

/-- Settles O24: the length byte is read first, and then the stream holds that many bytes or ends among them. -/
theorem rExtBlockReadsSubBlock : Obligations.RExtBlockReadsSubBlock := by
  refine ⟨by decide, fun s hf hn => exec_reader_sequence s rfl hf hn,
    fun s rest hs hsin => readerCommand_firstByte hs (by decide) hsin,
    fun s l d rest hs hl hd hsin => ?whole, fun s l got tail rest e hs hlen hsin hend => ?cut,
    fun s rest e hs hend => readerCommand_firstByte_streamEnd hs (by decide) hend⟩
  case whole =>
    rw [exec_rExtBlock_length hs hl hsin, ← hd, copyBytes_bytes d _ rest rfl]
    rfl
  case cut =>
    have hl : l ≠ 0#8 := by rintro rfl; exact Nat.not_lt_zero _ hlen
    rw [exec_rExtBlock_length hs hl hsin, copyBytes_short hend got _ _ hlen rfl]
    rfl

end

section
/-!
PROOFS. `R_OPEN` (R153) step by step through its body: the signature, the screen descriptor, the global table, and where the
stream may end among them.
-/

namespace Sys2Proof.Machine

/-! ### The bytes of the header -/

theorem byteOf_take {d : List Byte} {n i : Nat} (hi : i < n) : byteOf (d.take n) i = byteOf d i := by
  rw [byteOf, byteOf, List.getD_eq_getElem?_getD, List.getElem?_take_of_lt hi, ← List.getD_eq_getElem?_getD]

theorem byteOf_drop (d : List Byte) (n i : Nat) : byteOf (d.drop n) i = byteOf d (n + i) := by
  rw [byteOf, byteOf, List.getD_eq_getElem?_getD, List.getElem?_drop, ← List.getD_eq_getElem?_getD]

/-- The registers of a screen descriptor, in the terms of the statements (R93). -/
theorem setScreen_eq (d : List Byte) (r : Reader) : setScreen d r = { r with
    scrW := byteOf d 1 ++ byteOf d 0, scrH := byteOf d 3 ++ byteOf d 2, scrPacked := byteOf d 4, bg := byteOf d 5,
    aspect := byteOf d 6 } := by
  simp only [setScreen, u16At, u16_eq_append]

/-- R_VERSION as a signature whose fifth byte is `v` gives it (R153). -/
def versionOf (v : Byte) : BitVec 1 := if v = 0x39#8 then 1#1 else 0#1

/-! ### The body -/

theorem exec_rOpen_runs {s : State} (hs : s.reader.state = .idle) : exec .rOpen s = endReader s (rOpenBody s.reader) :=
  readerCommand_unchecked hs (by decide)

/-- Six bytes that are a signature give R_VERSION (R153). -/
theorem rOpenBody_signature {sig : List Byte} {more : List SrcAnswer} {r : Reader}
    (hsig : sig = signature87 ∨ sig = signature89) (hsin : r.sin = sig.map .byte ++ more) :
    rOpenBody r = rOpenScreen { r with version := versionOf (byteOf sig 4), sin := more, sinRead := r.sinRead + 6 } := by
  have hlen : sig.length = 6 := by obtain rfl | rfl := hsig <;> rfl
  have hread := srcBytes_bytes sig r more hsin
  rw [hlen] at hread
  have hlegal : ¬(sig ≠ signature87 ∧ sig ≠ signature89) := fun h => hsig.elim h.1 h.2
  rw [rOpenBody, hread, Body.bind_ok, if_neg hlegal]
  rfl

/-- Six bytes that are no signature are read all the same (R153). -/
theorem rOpenBody_notAGif {sig : List Byte} {more : List SrcAnswer} {r : Reader} (hlen : sig.length = 6)
    (h87 : sig ≠ signature87) (h89 : sig ≠ signature89) (hsin : r.sin = sig.map .byte ++ more) :
    rOpenBody r = .raise .notAGifFile { r with sin := more, sinRead := r.sinRead + 6 } := by
  have hread := srcBytes_bytes sig r more hsin
  rw [hlen] at hread
  rw [rOpenBody, hread, Body.bind_ok, if_pos ⟨h87, h89⟩]

section Screen

variable {d table : List Byte} {more : List SrcAnswer} {r : Reader} (hd : d.length = 7)
  (hsin : r.sin = (d ++ table).map .byte ++ more)

include hd hsin

/-- The screen descriptor is recorded before the table is read (R153). -/
theorem rOpenScreen_descriptor : rOpenScreen r =
    (copyBytes (tableSize (byteOf d 4)) { setScreen d r with
      sin := table.map .byte ++ more, sinRead := r.sinRead + 7 }).bind fun _ r =>
      .ok () { r with recType := .none, state := .top } := by
  rw [List.map_append, List.append_assoc] at hsin
  have hread := srcBytes_bytes d r _ hsin
  rw [hd] at hread
  rw [rOpenScreen, hread, Body.bind_ok, copyTable, tableBytes_eq_tableSize]
  rfl

/-- The whole header (R153, R155). -/
theorem rOpenScreen_table (ht : table.length = tableSize (byteOf d 4)) : rOpenScreen r = .ok () { setScreen d r with
    recType := .none, state := .top, dout := r.dout ++ table, sin := more,
    sinRead := r.sinRead + 7 + table.length } := by
  rw [rOpenScreen_descriptor hd hsin, ← ht, copyBytes_bytes table _ more rfl]
  rfl

/-- A stream that ends in the table: the descriptor is recorded, the table's bytes are in DOUT (R153, R155). -/
theorem rOpenScreen_cut {e : Status} {rest : List SrcAnswer} (hend : streamEnd more = some (e, rest))
    (ht : table.length < tableSize (byteOf d 4)) : rOpenScreen r = .raise e { setScreen d r with
      dout := r.dout ++ table, sin := rest, sinRead := r.sinRead + 7 + table.length } := by
  rw [rOpenScreen_descriptor hd hsin, copyBytes_short hend table _ _ ht rfl]
  rfl

end Screen

section Cut

variable {got : List Byte} {tail rest : List SrcAnswer} {e : Status} {r : Reader}
  (hsig : got.take 6 = signature87 ∨ got.take 6 = signature89) (hsin : r.sin = got.map .byte ++ tail)
  (hend : streamEnd tail = some (e, rest))

include hsig hsin hend

/-- A stream that ends in the descriptor: nothing but the version is recorded (R153). -/
theorem rOpenBody_cutDescriptor (h6 : 6 ≤ got.length) (h13 : got.length < 13) : rOpenBody r = .raise e { r with
    version := versionOf (byteOf got 4), sin := rest, sinRead := r.sinRead + got.length } := by
  have hdrop : (got.drop 6).length = got.length - 6 := List.length_drop
  have hread : r.sinRead + 6 + (got.length - 6) = r.sinRead + got.length := by omega
  rw [← List.take_append_drop 6 got, List.map_append, List.append_assoc] at hsin
  rw [rOpenBody_signature hsig hsin, rOpenScreen, srcBytes_short hend (got.drop 6) 7 _ (by omega) rfl, Body.bind_raise,
    byteOf_take (by decide), hdrop]
  simp only [hread]

/-- A stream that ends in the table: version and descriptor are recorded, the table's bytes are in DOUT (R153, R155). -/
theorem rOpenBody_cutTable (h13 : 13 ≤ got.length) (hlen : got.length < 13 + tableSize (byteOf got 10)) :
    rOpenBody r = .raise e { r with
      version := versionOf (byteOf got 4), scrW := byteOf got 7 ++ byteOf got 6, scrH := byteOf got 9 ++ byteOf got 8,
      scrPacked := byteOf got 10, bg := byteOf got 11, aspect := byteOf got 12, dout := r.dout ++ got.drop 13,
      sin := rest, sinRead := r.sinRead + got.length } := by
  have hscreen : ((got.drop 6).take 7).length = 7 := by rw [List.length_take, List.length_drop]; omega
  have hbyte : ∀ i < 7, byteOf ((got.drop 6).take 7) i = byteOf got (6 + i) :=
    fun i hi => (byteOf_take hi).trans (byteOf_drop ..)
  have htable : (got.drop 13).length < tableSize (byteOf ((got.drop 6).take 7) 4) := by
    rw [hbyte 4 (by decide), List.length_drop, Nat.sub_lt_iff_lt_add' h13]
    exact hlen
  have hparts : got.drop 6 = (got.drop 6).take 7 ++ got.drop 13 := by
    rw [← List.drop_drop (i := 7) (j := 6), List.take_append_drop]
  have hread : r.sinRead + 6 + 7 + (got.drop 13).length = r.sinRead + got.length := by rw [List.length_drop]; omega
  rw [← List.take_append_drop 6 got, List.map_append, List.append_assoc] at hsin
  rw [rOpenBody_signature hsig hsin, rOpenScreen_cut hscreen (congrArg (·.map SrcAnswer.byte ++ tail) hparts) hend htable,
    setScreen_eq, byteOf_take (by decide)]
  simp only [hbyte, Nat.reduceAdd, Nat.reduceLT, hread]

end Cut

end Sys2Proof.Machine

open Sys2Proof Sys2Proof.Machine

/-- Settles O21: the stream holds the whole header, or no signature, or it ends in the signature, in the descriptor or in
the table. -/
theorem rOpenReadsHeader : Obligations.ROpenReadsHeader := by
  refine ⟨by decide, fun s hf hn => exec_reader_sequence s rfl hf hn,
    fun s v d0 d1 d2 d3 d4 d5 d6 table rest hs hv ht hsin => ?whole,
    fun s sig rest hs hlen h87 h89 hsin => ?notAGif, fun s got tail rest e hs hsin hend hlen => ?cut⟩
  case whole =>
    have hsig : [0x47#8, 0x49#8, 0x46#8, 0x38#8, v, 0x61#8] = signature87 ∨
        [0x47#8, 0x49#8, 0x46#8, 0x38#8, v, 0x61#8] = signature89 := by
      obtain rfl | rfl := hv
      · exact .inl rfl
      · exact .inr rfl
    have hread : s.reader.sinRead + 6 + 7 + table.length = s.reader.sinRead + 13 + table.length := by omega
    rw [exec_rOpen_runs hs,
      rOpenBody_signature hsig (more := ([d0, d1, d2, d3, d4, d5, d6] ++ table).map .byte ++ rest) hsin,
      rOpenScreen_table (d := [d0, d1, d2, d3, d4, d5, d6]) rfl rfl ht, setScreen_eq]
    simp only [hread]
    rfl
  case notAGif =>
    rw [exec_rOpen_runs hs, rOpenBody_notAGif hlen h87 h89 hsin]
    rfl
  case cut =>
    rw [exec_rOpen_runs hs]
    by_cases h6 : got.length < 6
    · have h13 : got.length < 13 := by omega
      rw [rOpenBody, srcBytes_short hend got 6 _ h6 hsin, Body.bind_raise, endReader]
      simp only [failReader, h6, h13, if_true, List.drop_eq_nil_of_le h13.le, List.append_nil]
    · obtain ⟨hsig, hlen⟩ := hlen.resolve_left h6
      by_cases h13 : got.length < 13
      · rw [rOpenBody_cutDescriptor hsig hsin hend (Nat.not_lt.1 h6) h13, endReader]
        simp only [failReader, h6, h13, if_true, if_false, List.drop_eq_nil_of_le h13.le, List.append_nil]
        rfl
      · rw [rOpenBody_cutTable hsig hsin hend (Nat.not_lt.1 h13) hlen, endReader]
        simp only [failReader, h6, h13, if_false]
        rfl

end

section
/-!
PROOFS. What `R_IMAGE` leaves in the registers of the first pixel (R163), and what `R_IMAGE` and `R_PIXELS` leave alone
(R161, R164, R187).
-/

namespace Sys2Proof.Machine

/-! ### The first pixel -/

/-- The reader stands on the first pixel of an image whose code size it holds (R163). -/
structure OnFirstPixel (r : Reader) : Prop where
  size : r.codeSize.toNat ≤ 8
  width : r.dW = BitVec.ofNat 4 (r.codeSize.toNat + 1)
  free : r.dFree = BitVec.ofNat 13 (2 ^ r.codeSize.toNat + 2)
  remain : r.pixRemain = rasterLength r.imgW r.imgH
  row : r.rows.row = 0#16
  col : r.rows.col = 0#16
  pass : r.rows.pass = 0#3

theorem startImage_raster (b : Byte) (r : Reader) : (startImage b r).imgW = r.imgW ∧ (startImage b r).imgH = r.imgH := by
  simp only [startImage, decompressStart, resetDecoder, startUnpacker, and_self]

/-- An image with pixels starts on its first one (R59, R137). -/
theorem startImage_onFirstPixel {b : Byte} {r : Reader} (hsize : r.codeSize = b) (h8 : b.toNat ≤ 8)
    (hpos : 0 < (startImage b r).imgW.toNat * (startImage b r).imgH.toNat) :
    OnFirstPixel { startImage b r with state := .pixels } := by
  subst hsize
  obtain ⟨hw, hh⟩ := startImage_raster r.codeSize r
  rw [hw, hh] at hpos
  rw [startImage_eq h8 (Nat.pos_of_mul_pos_right hpos) (Nat.pos_of_mul_pos_left hpos)]
  exact ⟨h8, rfl, rfl, rfl, rfl, rfl, rfl⟩

theorem offDecompressor_raster {r r' : Reader} (h : offDecompressor r' = offDecompressor r) :
    r'.imgW = r.imgW ∧ r'.imgH = r.imgH := by
  have hw := congrArg Reader.imgW h
  have hh := congrArg Reader.imgH h
  simp only [offDecompressor, offUnpacker, offStream] at hw hh
  exact ⟨hw, hh⟩

/-- R_IMAGE stops at the first pixel; the epilogue, which reads on, is for an image that has none (R162). -/
theorem imageDataStart_onFirstPixel (r : Reader) :
    Body.Spec (fun _ r' => 0 < r'.imgW.toNat * r'.imgH.toNat → OnFirstPixel r') (fun _ _ => True) (fun _ => True)
      (imageDataStart r) := by
  refine Body.spec_bind_ok (P := fun r' => 0 < r'.imgW.toNat * r'.imgH.toNat → OnFirstPixel r') _ fun b r1 => ?_
  dsimp only
  split
  case isTrue => exact trivial
  case isFalse hsize =>
    have hfirst := startImage_onFirstPixel (b := b) (r := { r1 with codeSize := b }) rfl (by omega)
    have hraster := startImage_raster b { r1 with codeSize := b }
    have hremain : (startImage b { r1 with codeSize := b }).pixRemain = rasterLength r1.imgW r1.imgH := rfl
    generalize startImage b { r1 with codeSize := b } = r2 at hfirst hraster hremain ⊢
    split
    case isFalse => exact hfirst
    case isTrue hempty =>
      refine Body.Spec.bind (P := fun _ r' => r'.imgW.toNat * r'.imgH.toNat = 0)
        ((epilogue_part r2).mono (fun _ r' h => ?_) (fun _ _ _ => trivial) fun _ h => h) fun _ r' h hpos => ?_
      · obtain ⟨hw, hh⟩ := offDecompressor_raster h.1
        rw [hw, hh, hraster.1, hraster.2, ← rasterLength_toNat, ← hremain, hempty]
        rfl
      · exact absurd h hpos.ne'

theorem rImageBody_onFirstPixel (r : Reader) :
    Body.Spec (fun _ r' => 0 < r'.imgW.toNat * r'.imgH.toNat → OnFirstPixel r') (fun _ _ => True) (fun _ => True)
      (rImageBody r) :=
  Body.spec_bind_ok (P := fun r' => 0 < r'.imgW.toNat * r'.imgH.toNat → OnFirstPixel r') _ fun _ _ =>
    Body.spec_bind_ok _ fun _ r => imageDataStart_onFirstPixel r

/-! ### Frames -/

/-- A reader command changes the reader and STATUS.LAST alone, and of the reader nothing that its body and a failure leave
alone (R187, R193). -/
theorem readerCommand_frame {β : Type} {off : Reader → β} {codes : List Status} {need : RState}
    {check : Reader → Option Status} {body : Reader → Body Reader Unit} {s t : State}
    (hpart : ReaderPart off codes s.reader (body s.reader)) (hfail : ∀ e r, off (failReader e r) = off r)
    (ht : readerCommand need check body s = .next t) :
    t = { s with last := t.last, reader := t.reader } ∧ off t.reader = off s.reader := by
  obtain ⟨-, hx⟩ | ⟨-, -, hx⟩ | ⟨-, -, e, -, hx⟩ | ⟨-, -, -, hx⟩ := readerCommand_cases need check body s
  case inr.inr.inr =>
    obtain ⟨r, hok, rfl⟩ | ⟨e, r, hraise, rfl⟩ := endReader_next (hx.symm.trans ht)
    · exact ⟨rfl, (hpart.of_ok hok).1⟩
    · exact ⟨rfl, (hfail e r).trans (hpart.of_raise hraise).2.1⟩
  all_goals
    obtain rfl := Host.Outcome.next.inj (hx.symm.trans ht)
    exact ⟨rfl, rfl⟩

/-- What R_IMAGE leaves alone where it fails, too: `offImage` but R_ERR. -/
def offImageRegisters (r : Reader) : BitVec 1 × Half × Half × Byte × Byte × Byte × RecType × Byte × Byte := (offImage r).2

/-- What R_PIXELS leaves alone where it fails, too: `offRPixels` but R_ERR. -/
def offPixelRegisters (r : Reader) : Reader × (Half × Half × BitVec 1) :=
  ({ (offRPixels r).1 with err := .ok }, (offRPixels r).2)

/-- A reader that has left those alone differs only in what R_PIXELS may change. -/
theorem eq_of_offPixelRegisters {r r' : Reader} (h : offPixelRegisters r' = offPixelRegisters r) : r' = { r with
    state := r'.state, err := r'.err, pixRemain := r'.pixRemain,
    rows := { r.rows with row := r'.rows.row, col := r'.rows.col, pass := r'.rows.pass },
    dW := r'.dW, dFree := r'.dFree, dPrev := r'.dPrev, dDict := r'.dDict, dPend := r'.dPend, dDone := r'.dDone,
    uAcc := r'.uAcc, uCnt := r'.uCnt, uLeft := r'.uLeft, uEnd := r'.uEnd, dout := r'.dout, sin := r'.sin,
    sinRead := r'.sinRead } := by
  obtain ⟨hregs, hraster⟩ := Prod.mk.inj h
  obtain ⟨hw, hrest⟩ := Prod.mk.inj hraster
  obtain ⟨hh, hil⟩ := Prod.mk.inj hrest
  cases r'
  cases r
  simp only [offRPixels, offDelivery, offPixels, offDecompressor, offUnpacker, offStream, Reader.mk.injEq] at hregs hw hh hil
  simp only [← hw, ← hh, ← hil, hregs]

end Sys2Proof.Machine

open Sys2Proof Sys2Proof.Machine

/-- Settles O26: only an image without pixels is read past its start by R_IMAGE. -/
theorem rImageLeavesFirstPixel : Obligations.RImageLeavesFirstPixel := by
  intro s t hs ht hlast hpos
  obtain ⟨r, hok, rfl⟩ | ⟨e, r, hraise, rfl⟩ := endReader_next ((exec_rImage_runs hs).symm.trans ht)
  · have hfirst : OnFirstPixel r := (rImageBody_onFirstPixel s.reader).of_ok hok hpos
    have hpow : 2 ^ r.codeSize.toNat ≤ 2 ^ 8 := Nat.pow_le_pow_right (by decide) hfirst.size
    have hsize := hfirst.size
    refine ⟨?_, ?_, ?_, congrArg (·.setWidth 32) hfirst.row, congrArg (·.setWidth 32) hfirst.col,
      congrArg (·.setWidth 32) hfirst.pass⟩
    · exact (congrArg (·.setWidth 32) hfirst.width).trans (BitVec.setWidth_ofNat_of_le_of_lt (by decide) (by omega))
    · exact (congrArg (·.setWidth 32) hfirst.free).trans (BitVec.setWidth_ofNat_of_le_of_lt (by decide) (by omega))
    · exact (congrArg BitVec.toNat hfirst.remain).trans (rasterLength_toNat _ _)
  · have he : e ∈ failuresOf .rImage := ((rImageBody_part s.reader).of_raise hraise).1
    obtain rfl : e = .ok := hlast
    exact absurd he (by decide)

/-- Settles O31: the two bodies leave these alone wherever they end, and so does the failure that is recorded. -/
theorem imageReadFrames : Obligations.ImageReadFrames := by
  refine ⟨fun s t ht => ?_, fun s t count ht => ?_⟩
  · have hbody : ReaderPart offImageRegisters (failuresOf .rImage) s.reader (rImageBody s.reader) :=
      (rImageBody_part s.reader).widen (fun _ h => congrArg Prod.snd h) fun _ h => h
    obtain ⟨hstate, hoff⟩ := readerCommand_frame (need := .imgDesc) (check := noCheck) hbody (fun _ _ => rfl) ht
    simp only [offImageRegisters, offImage, Prod.mk.injEq] at hoff
    obtain ⟨h1, h2, h3, h4, h5, h6, h7, h8, h9⟩ := hoff
    exact ⟨h1, h2, h3, h4, h5, h6, h7, h8, h9, hstate⟩
  · have hbody : ReaderPart offPixelRegisters imageCodes s.reader (rPixelsBody count.toNat s.reader) :=
      (rPixelsBody_part count.toNat s.reader).widen
        (fun _ h => congrArg (fun kept => ({ kept.1 with err := Status.ok }, kept.2)) h) fun _ h => h
    obtain ⟨hstate, hoff⟩ := readerCommand_frame hbody (fun _ _ => rfl) ht
    exact hstate.trans (congrArg (fun r => { s with last := t.last, reader := r }) (eq_of_offPixelRegisters hoff))

end

section
/-!
PROOFS. The checks of a command's own (R192, R196): which `reject` line answers first.
-/

namespace Sys2Proof.Machine

theorem wImageCheck_short {w : Writer} (h : w.din.length < 9 ∨ w.din.length < 9 + tableSize (dinAt 8 w)) :
    wImageCheck w = some .invalidSequence := by
  rw [← tableBytes_eq_tableSize] at h
  unfold wImageCheck
  split_ifs with h9 htable
  · rfl
  · rfl
  all_goals exact absurd (h.resolve_left h9) htable

theorem wImageCheck_noTable {w : Writer} (hdin : 9 + tableSize (dinAt 8 w) ≤ w.din.length)
    (hlocal : tableSize (dinAt 8 w) = 0) (hglobal : w.gctBpp = 0#4) : wImageCheck w = some .corruptData := by
  have hflag : hasTable (dinAt 8 w) = false := by
    by_contra htable
    rw [tableSize, if_pos (by simpa [hasTable] using htable)] at hlocal
    exact absurd hlocal (by positivity)
  have hdepth : imageBpp (dinAt 8 w) w = 0#4 := by rw [imageBpp, hflag, hglobal]; rfl
  rw [wImageCheck, if_neg (by omega), wImageLength, tableBytes_eq_tableSize, if_neg (by omega), if_pos hdepth]

theorem wPixelsCheck_short {n : Nat} {w : Writer} (h : w.pixRemain.toNat < n ∨ w.din.length < n) :
    wPixelsCheck n w = some .invalidSequence := by
  unfold wPixelsCheck
  split_ifs with hcount hdin
  · rfl
  · rfl
  all_goals exact absurd (h.resolve_left hcount) hdin

theorem wPixelsCheck_outOfRange {n : Nat} {w : Writer} (hcount : n ≤ w.pixRemain.toNat) (hdin : n ≤ w.din.length)
    (h : ∃ p ∈ w.din.take n, 2 ^ w.bpp.toNat ≤ p.toNat) : wPixelsCheck n w = some .outOfRange := by
  have hrange : (dinTake n w).any (pixelOutOfRange w) = true := by simpa [dinTake, pixelOutOfRange] using h
  rw [wPixelsCheck, if_neg (Nat.not_lt.2 hcount), if_neg (Nat.not_lt.2 hdin), if_pos hrange]

theorem exec_wImage_rejected {s : State} {e : Status} (hs : s.writer.state = .top)
    (hcheck : wImageCheck s.writer = some e) : exec .wImage s = .next { s with last := e } :=
  writerCommand_rejected (need := .top) (by rw [hs]; decide) hs hcheck

theorem exec_wPixels_rejected {s : State} {count : BitVec 24} {e : Status} (hs : s.writer.state = .pixels)
    (hcheck : wPixelsCheck count.toNat s.writer = some e) : exec (.wPixels count) s = .next { s with last := e } :=
  writerCommand_rejected (need := .pixels) (by rw [hs]; decide) hs hcheck

end Sys2Proof.Machine

open Sys2Proof Sys2Proof.Machine

/-- Settles O14: each check answers where those before it pass; for W_EXT_BLOCK and W_OPEN this is part of what O41 and O39
say of the command. -/
theorem checksInOrder : Obligations.ChecksInOrder := by
  obtain ⟨-, -, hlength, hblock, -⟩ := wExtBlockWritesSubBlock
  obtain ⟨-, -, hopen, -⟩ := wOpenWritesHeader
  refine ⟨fun s imm8 hs => ⟨fun h0 => h0 ▸ hlength s hs, hblock s imm8 hs⟩,
    fun s hs => ⟨fun h9 => ?_, fun _ htable => ?_, fun hdin hlocal hglobal => ?_⟩,
    fun s count hs => ⟨fun hcount => ?_, fun _ hdin => ?_, fun hcount hdin hrange => ?_⟩,
    fun s count hs hlt => exec_rPixels_rejected hs hlt, hopen⟩
  · exact exec_wImage_rejected hs (wImageCheck_short (.inl h9))
  · exact exec_wImage_rejected hs (wImageCheck_short (.inr htable))
  · exact exec_wImage_rejected hs (wImageCheck_noTable hdin hlocal hglobal)
  · exact exec_wPixels_rejected hs (wPixelsCheck_short (.inl hcount))
  · exact exec_wPixels_rejected hs (wPixelsCheck_short (.inr hdin))
  · exact exec_wPixels_rejected hs (wPixelsCheck_outOfRange hcount hdin hrange)

end

section
/-!
PROOFS. What `W_IMAGE` and `W_PIXELS` leave alone (R175, R178, R179, R187).
-/

namespace Sys2Proof.Machine

/-- A writer command changes the writer and STATUS.LAST alone, and of the writer nothing that its body and a failure
leave alone (R187, R193). -/
theorem writerCommand_frame {β : Type} {off : Writer → β} {need : WState} {check : Writer → Option Status}
    {body : Writer → Body Writer Unit} {s t : State} (hpart : WriterPart off s.writer (body s.writer))
    (hfail : ∀ e w, off (failWriter e w) = off w) (ht : writerCommand need check body s = .next t) :
    t = { s with last := t.last, writer := t.writer } ∧ off t.writer = off s.writer := by
  obtain ⟨-, hx⟩ | ⟨-, -, hx⟩ | ⟨-, -, e, -, hx⟩ | ⟨-, -, -, hx⟩ := writerCommand_cases need check body s
  case inr.inr.inr =>
    obtain ⟨w, hok, rfl⟩ | ⟨e, w, hraise, rfl⟩ := endWriter_next (hx.symm.trans ht)
    · exact ⟨rfl, (hpart.of_ok hok).1⟩
    · exact ⟨rfl, (hfail e w).trans (hpart.of_raise hraise).1⟩
  all_goals
    obtain rfl := Host.Outcome.next.inj (hx.symm.trans ht)
    exact ⟨rfl, rfl⟩

/-- What W_IMAGE leaves alone where it fails, too: `offWImage` but W_ERR. -/
def offStreamRegisters (w : Writer) : BitVec 1 × BitVec 4 := (offWImage w).2

/-- What W_PIXELS leaves alone where it fails, too: `offWPixels` but W_ERR. -/
def offRasterRegisters (w : Writer) : Writer × (Half × Half × BitVec 1) :=
  ({ (offWPixels w).1 with err := .ok }, (offWPixels w).2)

/-- A writer that has left those alone differs only in what W_PIXELS may change. -/
theorem eq_of_offRasterRegisters {w w' : Writer} (h : offRasterRegisters w' = offRasterRegisters w) : w' = { w with
    state := w'.state, err := w'.err, pixRemain := w'.pixRemain,
    rows := { w.rows with row := w'.rows.row, col := w'.rows.col, pass := w'.rows.pass },
    cW := w'.cW, cFree := w'.cFree, cPrefix := w'.cPrefix, cDict := w'.cDict, pAcc := w'.pAcc, pCnt := w'.pCnt,
    pBuf := w'.pBuf, din := w'.din, sinkAnswers := w'.sinkAnswers, sout := w'.sout, draws := w'.draws } := by
  obtain ⟨hregs, hraster⟩ := Prod.mk.inj h
  obtain ⟨hw, hrest⟩ := Prod.mk.inj hraster
  obtain ⟨hh, hil⟩ := Prod.mk.inj hrest
  cases w'
  cases w
  simp only [offWPixels, offConsumption, offRaster, offCompressor, offPacker, offSink, Writer.mk.injEq]
    at hregs hw hh hil
  simp only [← hw, ← hh, ← hil, hregs]

end Sys2Proof.Machine

open Sys2Proof Sys2Proof.Machine

/-- Settles O49: the two bodies leave these alone wherever they end, and so does the failure that is recorded. -/
theorem imageWriteFrames : Obligations.ImageWriteFrames := by
  refine ⟨fun s t ht => ?_, fun s t count ht => ?_⟩
  · have hbody : WriterPart offStreamRegisters s.writer (wImageBody s.writer) :=
      (wImageBody_part s.writer).widen fun _ h => congrArg Prod.snd h
    obtain ⟨hstate, hoff⟩ := writerCommand_frame hbody (fun _ _ => rfl) ht
    obtain ⟨hversion, hbpp⟩ := Prod.mk.inj hoff
    exact ⟨hversion, hbpp, hstate⟩
  · have hbody : WriterPart offRasterRegisters s.writer (wPixelsBody count.toNat s.writer) :=
      (wPixelsBody_part count.toNat s.writer).widen
        fun _ h => congrArg (fun kept => ({ kept.1 with err := Status.ok }, kept.2)) h
    obtain ⟨hstate, hoff⟩ := writerCommand_frame hbody (fun _ _ => rfl) ht
    exact hstate.trans (congrArg (fun w => { s with last := t.last, writer := w }) (eq_of_offRasterRegisters hoff))

end

section
/-!
PROOFS. The control family: illegal words at CMD (R186), the isolation of the two channels (R187) and RESET (R184).
-/

namespace Sys2Proof.Machine

/-- A CMD write while BUSY = 0 issues its word (R25, R185). -/
theorem hostMove_writeCmd {s : State} (word : Word) (h : s.busy = false) :
    hostMove (.write cmdOffset word) s = issueWord word s := by
  show writeCmd word s = _
  simp [writeCmd, h]

/-! ### Isolation -/

theorem exists_readerNeeds {i : Instr} (hi : i.isReader = true) : ∃ need, readerNeeds i = some need := by
  cases i
  case rOpen | rNext | rExt | rExtBlock | rImage | rPixels => exact ⟨_, rfl⟩
  all_goals nomatch hi

theorem exists_writerNeeds {i : Instr} (hi : i.isWriter = true) : ∃ need, writerNeeds i = some need := by
  cases i
  case wOpen | wExt | wExtBlock | wExtEnd | wImage | wPixels | wTrailer => exact ⟨_, rfl⟩
  all_goals nomatch hi

/-- The reader's frame does the same to the reader and STATUS.LAST in every state with that reader, whichever of its
exits it takes, and leaves the rest of that state (R187). -/
theorem readerCommand_congr {need : RState} {check : Reader → Option Status} {body : Reader → Body Reader Unit}
    {s s' t : State} (hreader : s'.reader = s.reader) (ht : readerCommand need check body s = .next t) :
    readerCommand need check body s' = .next { s' with reader := t.reader, last := t.last } := by
  obtain ⟨last, busy, reader, writer, host, readData⟩ := s'
  obtain rfl : reader = s.reader := hreader
  obtain ⟨hf, hx⟩ | ⟨hf, hn, hx⟩ | ⟨hf, hn, e, hc, hx⟩ | ⟨hf, hn, hc, hx⟩ := readerCommand_cases need check body s
  · obtain rfl := Host.Outcome.next.inj (hx.symm.trans ht)
    exact readerCommand_failed hf
  · obtain rfl := Host.Outcome.next.inj (hx.symm.trans ht)
    exact readerCommand_sequence hf hn
  · obtain rfl := Host.Outcome.next.inj (hx.symm.trans ht)
    exact readerCommand_rejected hf hn hc
  · refine Eq.trans (readerCommand_runs hf hn hc) ?_
    obtain ⟨r, hok, rfl⟩ | ⟨e, r, hraise, rfl⟩ := endReader_next (hx.symm.trans ht)
    · exact congrArg (endReader _) hok
    · exact congrArg (endReader _) hraise

/-- The writer's frame does the same to the writer and STATUS.LAST in every state with that writer, whichever of its
exits it takes, and leaves the rest of that state (R187). -/
theorem writerCommand_congr {need : WState} {check : Writer → Option Status} {body : Writer → Body Writer Unit}
    {s s' t : State} (hwriter : s'.writer = s.writer) (ht : writerCommand need check body s = .next t) :
    writerCommand need check body s' = .next { s' with writer := t.writer, last := t.last } := by
  obtain ⟨last, busy, reader, writer, host, readData⟩ := s'
  obtain rfl : writer = s.writer := hwriter
  obtain ⟨hf, hx⟩ | ⟨hf, hn, hx⟩ | ⟨hf, hn, e, hc, hx⟩ | ⟨hf, hn, hc, hx⟩ := writerCommand_cases need check body s
  · obtain rfl := Host.Outcome.next.inj (hx.symm.trans ht)
    exact writerCommand_failed hf
  · obtain rfl := Host.Outcome.next.inj (hx.symm.trans ht)
    exact writerCommand_sequence hf hn
  · obtain rfl := Host.Outcome.next.inj (hx.symm.trans ht)
    exact writerCommand_rejected hf hn hc
  · refine Eq.trans (writerCommand_runs hf hn hc) ?_
    obtain ⟨w, hok, rfl⟩ | ⟨e, w, hraise, rfl⟩ := endWriter_next (hx.symm.trans ht)
    · exact congrArg (endWriter _) hok
    · exact congrArg (endWriter _) hraise

theorem exec_reader_congr {i : Instr} {s s' t : State} (hi : i.isReader = true) (hreader : s'.reader = s.reader)
    (ht : exec i s = .next t) : exec i s' = .next { s' with reader := t.reader, last := t.last } := by
  obtain ⟨need, hneed⟩ := exists_readerNeeds hi
  obtain ⟨check, body, hexec⟩ := exec_eq_readerCommand hneed
  rw [hexec] at ht ⊢
  exact readerCommand_congr hreader ht

theorem exec_writer_congr {i : Instr} {s s' t : State} (hi : i.isWriter = true) (hwriter : s'.writer = s.writer)
    (ht : exec i s = .next t) : exec i s' = .next { s' with writer := t.writer, last := t.last } := by
  obtain ⟨need, hneed⟩ := exists_writerNeeds hi
  obtain ⟨check, body, hexec⟩ := exec_eq_writerCommand hneed
  rw [hexec] at ht ⊢
  exact writerCommand_congr hwriter ht

end Sys2Proof.Machine

open Sys2Proof Sys2Proof.Machine

/-- Settles O18: every command is its channel's frame, which sees its channel alone; what it leaves unchanged is the case
of the same state twice. -/
theorem channelIsolation : Obligations.ChannelIsolation := by
  refine ⟨fun i s t hi ht => ?_, fun i s t hi ht => ?_, fun i s s' t => exec_reader_congr,
    fun i s s' t => exec_writer_congr⟩
  · exact Host.Outcome.next.inj (ht.symm.trans (exec_reader_congr hi rfl ht))
  · exact Host.Outcome.next.inj (ht.symm.trans (exec_writer_congr hi rfl ht))

/-- Settles O6: the write to CMD issues the word, and an illegal word is turned away before the channels are seen. -/
theorem illegalWordRejected : Obligations.IllegalWordRejected := by
  intro s w rest hhost hbusy hillegal
  rw [step_cons hhost, hostMove_writeCmd (s := { s with host := rest }) w hbusy, issueWord_illegal _ hillegal]

/-- Settles O20: the three words are the encodings of RESET, and each half it selects is written out. -/
theorem resetCommand : Obligations.ResetCommand :=
  ⟨decodeOfEncode (.reset 1#2) rfl, decodeOfEncode (.reset 2#2) rfl, decodeOfEncode (.reset 3#2) rfl,
    fun s => issueWord_illegal s (by decide), fun _ s hsel => execReset_legal s hsel⟩

end

section
/-!
PROOFS. The exceptions: how a command is turned away and which codes it can report (R192, R195, R197).
-/

namespace Sys2Proof.Machine

/-! ### A failed channel -/

theorem exec_reader_failed {i : Instr} {s : State} (hi : i.isReader = true) (hs : s.reader.state = .failed) :
    exec i s = .next { s with last := s.reader.err } := by
  obtain ⟨need, hneed⟩ := exists_readerNeeds hi
  obtain ⟨check, body, hexec⟩ := exec_eq_readerCommand hneed
  rw [hexec, readerCommand_failed hs, rejectWith]

theorem exec_writer_failed {i : Instr} {s : State} (hi : i.isWriter = true) (hs : s.writer.state = .failed) :
    exec i s = .next { s with last := s.writer.err } := by
  obtain ⟨need, hneed⟩ := exists_writerNeeds hi
  obtain ⟨check, body, hexec⟩ := exec_eq_writerCommand hneed
  rw [hexec, writerCommand_failed hs, rejectWith]

/-! ### The rejections of a row -/

theorem invalidSequence_mem_rejectionsOf {i : Instr} (hi : i.isReader = true ∨ i.isWriter = true) :
    Status.invalidSequence ∈ rejectionsOf i := by
  cases i
  case reset => obtain hi | hi := hi <;> nomatch hi
  all_goals simp [rejectionsOf]

theorem rPixelsCheck_rejects {count : BitVec 24} {r : Reader} {e : Status}
    (h : rPixelsCheck (countOperand count) r = some e) : e ∈ rejectionsOf (.rPixels count) := by
  unfold rPixelsCheck at h
  split_ifs at h
  obtain rfl := Option.some.inj h
  simp [rejectionsOf]

theorem wOpenCheck_rejects {v89a : BitVec 1} {w : Writer} {e : Status} (h : wOpenCheck w = some e) :
    e ∈ rejectionsOf (.wOpen v89a) := by
  unfold wOpenCheck at h
  split_ifs at h
  all_goals
    obtain rfl := Option.some.inj h
    simp [rejectionsOf]

theorem wExtBlockCheck_rejects {imm8 : Byte} {w : Writer} {e : Status}
    (h : wExtBlockCheck (lengthOperand imm8) w = some e) : e ∈ rejectionsOf (.wExtBlock imm8) := by
  unfold wExtBlockCheck at h
  split_ifs at h
  all_goals
    obtain rfl := Option.some.inj h
    simp [rejectionsOf]

theorem wImageCheck_rejects {w : Writer} {e : Status} (h : wImageCheck w = some e) : e ∈ rejectionsOf .wImage := by
  unfold wImageCheck at h
  split_ifs at h
  all_goals
    obtain rfl := Option.some.inj h
    simp [rejectionsOf]

theorem wPixelsCheck_rejects {count : BitVec 24} {w : Writer} {e : Status}
    (h : wPixelsCheck (countOperand count) w = some e) : e ∈ rejectionsOf (.wPixels count) := by
  unfold wPixelsCheck at h
  split_ifs at h
  all_goals
    obtain rfl := Option.some.inj h
    simp [rejectionsOf]

/-! ### What a command reports -/

/-- A command's report (R197): Ok; a rejection of its row, or the sticky code of its failed channel, with nothing else
changed; or a failure of its row, recorded in its channel. -/
def Reports (i : Instr) (s t : State) : Prop :=
  t.last = .ok ∨
  (t = { s with last := t.last } ∧
    (t.last ∈ rejectionsOf i ∨
      (i.isReader = true ∧ s.reader.state = .failed ∧ t.last = s.reader.err) ∨
      (i.isWriter = true ∧ s.writer.state = .failed ∧ t.last = s.writer.err))) ∨
  (t.last ∈ failuresOf i ∧
    ((i.isReader = true ∧ t.reader.state = .failed ∧ t.reader.err = t.last) ∨
      (i.isWriter = true ∧ t.writer.state = .failed ∧ t.writer.err = t.last)))

theorem reports_rejection {i : Instr} {e : Status} (s : State) (he : e ∈ rejectionsOf i) :
    Reports i s { s with last := e } := .inr (.inl ⟨rfl, .inl he⟩)

/-- A reader command reports by its row where its own `reject` lines do; a body that raises fails the reader, which O17
speaks of. -/
theorem exec_reader_reports {i : Instr} {need : RState} {check : Reader → Option Status}
    {body : Reader → Body Reader Unit} {s t : State} (hi : i.isReader = true)
    (hexec : exec i s = readerCommand need check body s)
    (hcheck : ∀ e, check s.reader = some e → e ∈ rejectionsOf i) (ht : exec i s = .next t) : Reports i s t := by
  have hcommand := hexec.symm.trans ht
  obtain ⟨hf, hx⟩ | ⟨-, -, hx⟩ | ⟨-, -, e, hc, hx⟩ | ⟨hf, -, -, hx⟩ := readerCommand_cases need check body s
  · obtain rfl := Host.Outcome.next.inj (hx.symm.trans hcommand)
    exact .inr (.inl ⟨rfl, .inr (.inl ⟨hi, hf, rfl⟩)⟩)
  · obtain rfl := Host.Outcome.next.inj (hx.symm.trans hcommand)
    exact reports_rejection s (invalidSequence_mem_rejectionsOf (.inl hi))
  · obtain rfl := Host.Outcome.next.inj (hx.symm.trans hcommand)
    exact reports_rejection s (hcheck e hc)
  · obtain ⟨r, -, rfl⟩ | ⟨e, r, -, rfl⟩ := endReader_next (hx.symm.trans hcommand)
    · exact .inl rfl
    · obtain ⟨hrecorded, -⟩ := failureIsRecordedAndSticky
      obtain ⟨-, herr, hfails, -⟩ := hrecorded i s _ ht hf rfl
      exact .inr (.inr ⟨hfails, .inl ⟨hi, rfl, herr⟩⟩)

/-- The same for a writer command. -/
theorem exec_writer_reports {i : Instr} {need : WState} {check : Writer → Option Status}
    {body : Writer → Body Writer Unit} {s t : State} (hi : i.isWriter = true)
    (hexec : exec i s = writerCommand need check body s)
    (hcheck : ∀ e, check s.writer = some e → e ∈ rejectionsOf i) (ht : exec i s = .next t) : Reports i s t := by
  have hcommand := hexec.symm.trans ht
  obtain ⟨hf, hx⟩ | ⟨-, -, hx⟩ | ⟨-, -, e, hc, hx⟩ | ⟨hf, -, -, hx⟩ := writerCommand_cases need check body s
  · obtain rfl := Host.Outcome.next.inj (hx.symm.trans hcommand)
    exact .inr (.inl ⟨rfl, .inr (.inr ⟨hi, hf, rfl⟩)⟩)
  · obtain rfl := Host.Outcome.next.inj (hx.symm.trans hcommand)
    exact reports_rejection s (invalidSequence_mem_rejectionsOf (.inr hi))
  · obtain rfl := Host.Outcome.next.inj (hx.symm.trans hcommand)
    exact reports_rejection s (hcheck e hc)
  · obtain ⟨w, -, rfl⟩ | ⟨e, w, -, rfl⟩ := endWriter_next (hx.symm.trans hcommand)
    · exact .inl rfl
    · obtain ⟨-, hrecorded, -⟩ := failureIsRecordedAndSticky
      obtain ⟨-, herr, hfails, -⟩ := hrecorded i s _ ht hf rfl
      exact .inr (.inr ⟨hfails, .inr ⟨hi, rfl, herr⟩⟩)

/-- RESET is rejected with SEL = 0 and completes with every other SEL (R89, R184). -/
theorem exec_reset_reports {s t : State} {sel : BitVec 2} (ht : exec (.reset sel) s = .next t) :
    (sel = 0#2 ∧ t = { s with last := .illegalCommand }) ∨ (sel ≠ 0#2 ∧ t.last = .ok) := by
  by_cases hsel : sel = 0#2
  · subst hsel
    exact .inl ⟨rfl, (Host.Outcome.next.inj ht).symm⟩
  · obtain rfl := Host.Outcome.next.inj ((execReset_legal s hsel).symm.trans ht)
    exact .inr ⟨hsel, rfl⟩

theorem exec_reports {i : Instr} {s t : State} (ht : exec i s = .next t) : Reports i s t := by
  cases i
  case reset sel =>
    obtain ⟨-, rfl⟩ | ⟨-, hok⟩ := exec_reset_reports ht
    · exact reports_rejection s (by simp [rejectionsOf])
    · exact .inl hok
  case rOpen | rNext | rExt | rExtBlock | rImage => exact exec_reader_reports (check := noCheck) rfl rfl nofun ht
  case rPixels => exact exec_reader_reports rfl rfl (fun _ => rPixelsCheck_rejects) ht
  case wExt | wExtEnd | wTrailer => exact exec_writer_reports (check := noCheck) rfl rfl nofun ht
  case wOpen => exact exec_writer_reports rfl rfl (fun _ => wOpenCheck_rejects) ht
  case wExtBlock => exact exec_writer_reports rfl rfl (fun _ => wExtBlockCheck_rejects) ht
  case wImage => exact exec_writer_reports rfl rfl (fun _ => wImageCheck_rejects) ht
  case wPixels => exact exec_writer_reports rfl rfl (fun _ => wPixelsCheck_rejects) ht

end Sys2Proof.Machine

open Sys2Proof Sys2Proof.Machine

/-- Settles O15: command by command, by its own `reject` lines and the failures O17 records. -/
theorem reportableCodes : Obligations.ReportableCodes :=
  ⟨fun _ _ _ => exec_reports, fun _ _ _ => exec_reset_reports, fun _ s h => issueWord_illegal s h⟩

/-- Settles O16: of the ends of a command, only a rejection leaves a code other than Ok and fails no channel. -/
theorem rejectionChangesOnlyLast : Obligations.RejectionChangesOnlyLast := by
  intro word s t ht hlast hreader hwriter
  unfold issueWord at ht
  split at ht
  · cases exec_ends ht with
    | rejected => rfl
    | reset | readerDone | writerDone => exact absurd rfl hlast
    | readerFails _ _ _ hf => exact absurd (hreader rfl) hf
    | writerFails _ _ hf => exact absurd (hwriter rfl) hf
  · obtain rfl := Host.Outcome.next.inj ht
    rfl

/-- Settles O12: the frame turns a failed channel's commands away before all else, and by O18 the other channel's do not
see it. -/
theorem failedChannelRejects : Obligations.FailedChannelRejects := by
  obtain ⟨hreader, hwriter, -⟩ := channelIsolation
  refine ⟨fun _ _ => exec_reader_failed, fun _ _ => exec_writer_failed, fun i s t r hi _ ht => ?_,
    fun i s t w hi _ ht => ?_⟩
  · rw [exec_writer_congr (s := s) (s' := { s with reader := r }) hi rfl ht]
    exact congrArg (fun u : State => Host.Outcome.next { u with reader := r }) (hwriter i s t hi ht).symm
  · rw [exec_reader_congr (s := s) (s' := { s with writer := w }) hi rfl ht]
    exact congrArg (fun u : State => Host.Outcome.next { u with writer := w }) (hreader i s t hi ht).symm

end

section
/-!
PROOFS. Completion (R217): where SIN and SOUT answer every request, no command and no move of the host stops the model.
-/

namespace Sys2Proof.Machine

/-! ### The ends of a command -/

/-- A reader command's body is stuck only where SIN is silent, so where SIN answers the command ends. -/
theorem endReader_completes {fails : List Status} {P : Reader → Prop} {x : Body Reader Unit} {s : State}
    (hsrc : sourceAnswers s.reader) (hx : ReaderBody fails s.reader P x) : ∃ t, endReader s x = .next t := by
  cases x with
  | ok _ r => exact ⟨_, rfl⟩
  | raise e r => exact ⟨_, rfl⟩
  | stuck f =>
    obtain ⟨-, hnever⟩ : SourceSilent s.reader f := hx
    exact absurd hnever hsrc

/-- A writer command's body is stuck only where SOUT is silent, so where SOUT answers the command ends. -/
theorem endWriter_completes {β : Type} {off : Writer → β} {x : Body Writer Unit} {s : State}
    (hsink : sinkAnswered s.writer) (hx : WriterPart off s.writer x) : ∃ t, endWriter s x = .next t := by
  cases x with
  | ok _ w => exact ⟨_, rfl⟩
  | raise e w => exact ⟨_, rfl⟩
  | stuck f =>
    obtain ⟨-, hnever⟩ : SinkSilent s.writer f := hx
    exact absurd hnever hsink

/-- The frame of a reader command turns it away at once, or runs a body that ends. -/
theorem readerCommand_completes {need : RState} {check : Reader → Option Status} {body : Reader → Body Reader Unit}
    {fails : List Status} {P : Reader → Prop} {s : State} (hsrc : sourceAnswers s.reader)
    (hbody : s.reader.state = need → check s.reader = none → ReaderBody fails s.reader P (body s.reader)) :
    ∃ t, readerCommand need check body s = .next t := by
  obtain ⟨-, hx⟩ | ⟨-, -, hx⟩ | ⟨-, -, e, -, hx⟩ | ⟨-, hneed, hcheck, hx⟩ := readerCommand_cases need check body s
  case inr.inr.inr => rw [hx]; exact endReader_completes hsrc (hbody hneed hcheck)
  all_goals exact ⟨_, hx⟩

/-- The frame of a writer command turns it away at once, or runs a body that ends. -/
theorem writerCommand_completes {β : Type} {off : Writer → β} {need : WState} {check : Writer → Option Status}
    {body : Writer → Body Writer Unit} {s : State} (hsink : sinkAnswered s.writer)
    (hbody : WriterPart off s.writer (body s.writer)) : ∃ t, writerCommand need check body s = .next t := by
  obtain ⟨-, hx⟩ | ⟨-, -, hx⟩ | ⟨-, -, e, -, hx⟩ | ⟨-, -, -, hx⟩ := writerCommand_cases need check body s
  case inr.inr.inr => rw [hx]; exact endWriter_completes hsink hbody
  all_goals exact ⟨_, hx⟩

theorem execReset_completes (sel : BitVec 2) (s : State) : ∃ t, execReset sel s = .next t := by
  unfold execReset
  split
  · exact ⟨_, rfl⟩
  · exact ⟨_, rfl⟩

/-! ### Reads -/

/-- While BUSY = 0 no read is refused, a DOUT read among them (R28, U11). -/
theorem readAccess_completes {s : State} (hbusy : s.busy = false) (offset : BitVec 12) :
    ∃ t, readAccess offset s = .next t := by
  unfold readAccess
  split
  · simp [readDout, hbusy]
  · exact ⟨_, rfl⟩

section Completion

variable {s : State} (h : Inv s) (hsrc : sourceAnswers s.reader) (hsink : sinkAnswered s.writer)
include h hsrc hsink

/-! ### Commands -/

/-- Every command completes (R217). Only R_PIXELS needs the invariant: with a code width of 0 its loop would read codes
for ever, and with a dangling prefix it would find no string. -/
theorem exec_completes (i : Instr) : ∃ t, exec i s = .next t := by
  cases i with
  | reset sel => exact execReset_completes sel s
  | rOpen => exact readerCommand_completes (check := noCheck) hsrc fun _ _ => rOpenBody_spec s.reader
  | rNext => exact readerCommand_completes (check := noCheck) hsrc fun _ _ => rNextBody_spec s.reader
  | rExt => exact readerCommand_completes (check := noCheck) hsrc fun _ _ => rExtBody_spec s.reader
  | rExtBlock => exact readerCommand_completes (check := noCheck) hsrc fun _ _ => rExtBlockBody_spec s.reader
  | rImage => exact readerCommand_completes (check := noCheck) hsrc fun _ _ => rImageBody_spec s.reader
  | rPixels count =>
    refine readerCommand_completes (fails := imageCodes) (P := ImageReady) hsrc fun hneed hcheck => ?_
    obtain ⟨-, hreader, -⟩ := h
    obtain ⟨hpos, hopen⟩ := hreader.imageOpen hneed
    exact rPixelsBody_spec hopen hneed hpos (rPixelsCheck_none hcheck)
  | wOpen v89a => exact writerCommand_completes hsink (wOpenBody_part v89a s.writer)
  | wExt imm8 => exact writerCommand_completes (check := noCheck) hsink (wExtBody_part imm8 s.writer)
  | wExtBlock imm8 => exact writerCommand_completes hsink (wExtBlockBody_part imm8 s.writer)
  | wExtEnd => exact writerCommand_completes (check := noCheck) hsink (wExtEndBody_part s.writer)
  | wImage => exact writerCommand_completes hsink (wImageBody_part s.writer)
  | wPixels count => exact writerCommand_completes hsink (wPixelsBody_part (countOperand count) s.writer)
  | wTrailer => exact writerCommand_completes (check := noCheck) hsink (wTrailerBody_part s.writer)

/-! ### The host's moves -/

theorem issueWord_completes (word : Word) : ∃ t, issueWord word s = .next t := by
  unfold issueWord
  split
  · exact exec_completes h hsrc hsink _
  · exact ⟨_, rfl⟩

/-- BUSY is 0 under the invariant, so a CMD write runs its word and a DIN write is accepted. -/
theorem writeRegister_completes (offset : BitVec 12) (value : Word) :
    ∃ t, writeRegister offset value s = .next t := by
  have ⟨hbusy, _⟩ := h
  unfold writeRegister
  split
  · simpa [writeCmd, hbusy] using issueWord_completes h hsrc hsink value
  split
  · simp [writeDin, hbusy]
  · exact ⟨_, rfl⟩

theorem hostMove_completes (m : HostMove) : ∃ t, hostMove m s = .next t := by
  cases m with
  | write offset value => exact writeRegister_completes h hsrc hsink offset value
  | read offset => exact readAccess_completes h.1 offset
  | connectSource answers => exact ⟨_, rfl⟩
  | connectSink answers => exact ⟨_, rfl⟩
  | powerOn => exact ⟨_, rfl⟩

theorem step_completes : ∃ t, step s = .next t := by
  cases hhost : s.host with
  | nil => exact ⟨s, by simp only [step, hhost]⟩
  | cons m rest =>
    rw [step_cons hhost]
    exact hostMove_completes (s := { s with host := rest }) h hsrc hsink m

end Completion

end Sys2Proof.Machine

open Sys2Proof Sys2Proof.Machine

/-- Settles O59: each part of a command is stuck only where its port is silent, and its loops end under the invariant;
under the invariant BUSY is 0 as well, so that every other move of the host is accepted. -/
theorem everyCommandCompletes : Obligations.EveryCommandCompletes :=
  ⟨fun i _ h hsrc hsink => exec_completes h hsrc hsink i, fun _ => step_completes⟩

end
